-- ==== Sys2Proof/Word.lean ====
section
/-! DEFINITION. The word types of SWD-PE: the widths the spec names (00_scope.md R8, 10_state.md R21). -/

namespace Sys2Proof

/-- One byte of the command interface (20_memory.md R64). -/
abbrev Byte := BitVec 8

/-- The 32-bit data word of a transfer (R8 `DATA_BITS`), also the width of `TIMESTAMP`, `CLOCK_DELAY` and `freq`. -/
abbrev Word := BitVec 32

/-- The request nibble `{A3, A2, RnW, APnDP}`, bit 0 = APnDP (30_encoding.md R82). -/
abbrev Nibble := BitVec 4

end Sys2Proof
end

