-- ==== Sys2Proof/Machine/Parity.lean ====
section
/-! DEFINITION. The parity generator (40_parity.md): combinational, no state (R110). -/

namespace Sys2Proof.Machine

/-- The sixteen rows of the parity table of R111, row `i[7:4]`, each read with column 0 in bit 0. -/
def parityRows : List (BitVec 16) :=
  [0x6996#16, 0x9669#16, 0x9669#16, 0x6996#16, 0x9669#16, 0x6996#16, 0x6996#16, 0x9669#16,
   0x9669#16, 0x6996#16, 0x6996#16, 0x9669#16, 0x6996#16, 0x9669#16, 0x9669#16, 0x6996#16]

/-- `PARTAB[i]`, the read-only store of 256 one-bit entries (R111, 20_memory.md R62). -/
def partab (i : Byte) : Bool :=
  (parityRows.getD (i.toNat / 16) 0).getLsbD (i.toNat % 16)

/-- `PAR8(v)` (R111). -/
def par8 (v : Byte) : Bool := partab v

/-- `PAR4(bits)` of a request nibble (R113). -/
def par4 (bits : Nibble) : Bool := par8 (bits.setWidth 8)

/-- The serial form (R115): the register `PAR` after the bits, from its value before them. -/
def parSerial (par : Bool) (bits : List Bool) : Bool := bits.foldl (fun a b => a ^^ b) par

/-- The bits of a value, bit 0 first: the order of the wire (20_memory.md R63). -/
def bitsOf {w : Nat} (v : BitVec w) : List Bool := (List.range w).map v.getLsbD

/-- `PAR32(v)`: the exclusive-or of all 32 bits (R112). -/
def par32 (v : Word) : Bool := parSerial false (bitsOf v)

end Sys2Proof.Machine
end

