-- ==== Sys2Proof/Syntax.lean ====
section
/-! DEFINITION. The instructions: one constructor for each row of spec/opcode_table.json. -/

namespace Sys2Proof

/-- The operand byte `request` of an XFER without its RnW bit (30_encoding.md R94). -/
structure XferReq where
  /-- Bit 0: 0 = Debug Port, 1 = Access Port. -/
  apndp : Bool
  /-- Bit 2: address bit 2. -/
  a2 : Bool
  /-- Bit 3: address bit 3. -/
  a3 : Bool
  /-- Bit 4: MatchValue, ignored by the block. -/
  matchValue : Bool
  /-- Bit 5: MatchMask, ignored by the block. -/
  matchMask : Bool
  /-- Bit 6: undefined, ignored. -/
  bit6 : Bool
  /-- Bit 7: Timestamp. -/
  timestamp : Bool
deriving DecidableEq, Repr

/-- The rows of the opcode table. -/
inductive Instr where
  -- format CMD (R92)
  | connect (portId : Byte)
  | disconnect
  | cfgIdle (idleCycles : Byte)
  | clk (freq : Word)
  | seq (bitCount : Byte) (bits : List Byte)
  | cfgSwd (cfg : Byte)
  | xferR (request : XferReq)
  | xferW (request : XferReq) (data : Word)
  | anyOtherOp (op : Byte)
  -- format REQ8, the sixteen request packets (R82)
  | req8DpW0 | req8ApW0 | req8DpR0 | req8ApR0
  | req8DpW4 | req8ApW4 | req8DpR4 | req8ApR4
  | req8DpW8 | req8ApW8 | req8DpR8 | req8ApR8
  | req8DpWC | req8ApWC | req8DpRC | req8ApRC
  /-- The general pattern of the sixteen rows above (R81). -/
  | req8 (nibble : Nibble)
  -- format ACK3 (R85)
  | ack3Invalid0 | ack3Ok | ack3Wait | ack3Invalid3 | ack3Fault | ack3Invalid5 | ack3Invalid6 | ack3Invalid7
  -- format DATA33 (R86)
  | data33 (data : Word) (parity : Bool)
  -- format CFG8 (R88)
  | cfg8 (cfg : Byte)
  -- pseudo-operations (R100); a count byte holds n mod 256, as in the operand of SEQ
  | linereset (count : Byte)
  | jtag2swd
  | swd2jtag
  | idle (count : Byte)
  | idcode
  | rdbuff
  | abort (value : Word)
deriving DecidableEq, Repr

end Sys2Proof
end

