-- ==== Sys2Proof/Machine/Operands.lean ====
section
/-! DEFINITION. Operand assembly: bit and byte order (20_memory.md R63 to R65), the request byte
(30_encoding.md R82), CFG8 (R88) and the other operands (R89, R94). -/

namespace Sys2Proof.Machine

/-- The number whose bits, bit 0 first, are the list (20_memory.md R63). -/
def natOfBits : List Bool → Nat
  | [] => 0
  | b :: bs => b.toNat + 2 * natOfBits bs

/-- The value assembled from bits that arrive least significant first (10_state.md R23). -/
def ofBits (w : Nat) (bits : List Bool) : BitVec w := BitVec.ofNat w (natOfBits bits)

/-- The 4-byte little-endian operand `byte0 | byte1 << 8 | byte2 << 16 | byte3 << 24` (R89 (b), (d)). -/
def wordOfBytes (b0 b1 b2 b3 : Byte) : Word := b3 ++ b2 ++ b1 ++ b0

/-- The four bytes of a word, little-endian (20_memory.md R64). -/
def bytesOfWord (v : Word) : List Byte :=
  [v.extractLsb' 0 8, v.extractLsb' 8 8, v.extractLsb' 16 8, v.extractLsb' 24 8]

/-- The length of a sequence from its `bit_count` byte: 0 stands for 256 (R89 (a)). -/
def seqLength (bitCount : Byte) : Nat := if bitCount = 0#8 then 256 else bitCount.toNat

/-- How many bytes hold the bit string of a sequence: `⌈n/8⌉` (R89 (a)). -/
def seqByteCount (bitCount : Byte) : Nat := (seqLength bitCount + 7) / 8

/-- Sequence bit `k` is bit `k mod 8` of byte `k div 8` (20_memory.md R65). -/
def seqBit (bits : List Byte) (k : Nat) : Bool := (bits.getD (k / 8) 0#8).getLsbD (k % 8)

/-- `SEQBUF` after `SEQBUF[k] <- bits[k div 8][k mod 8]` for `0 ≤ k < n` (42_sequence_and_config.md R162). -/
def seqLoad (n : Nat) (bits : List Byte) (old : BitVec 256) : BitVec 256 :=
  ofBits 256 ((List.range 256).map fun k => if k < n then seqBit bits k else old.getLsbD k)

/-- The XFER operand byte: the layout of R94, with RnW in bit 1. -/
def requestOperand (rnw : Bool) (r : XferReq) : Byte :=
  ofBits 8 [r.apndp, rnw, r.a2, r.a3, r.matchValue, r.matchMask, r.bit6, r.timestamp]

/-- The fields of an XFER operand byte (R94). -/
def requestFields (b : Byte) : XferReq :=
  { apndp := b.getLsbD 0, a2 := b.getLsbD 2, a3 := b.getLsbD 3, matchValue := b.getLsbD 4,
    matchMask := b.getLsbD 5, bit6 := b.getLsbD 6, timestamp := b.getLsbD 7 }

/-- The request nibble `REQ[3:0]` (R89 (e)). -/
def requestNibble (request : Byte) : Nibble := request.extractLsb' 0 4

/-- The request packet `0x81 | (parity(bits) << 5) | (bits << 1)` (R82). -/
def requestByte (bits : Nibble) : Byte :=
  0x81#8 ||| ((BitVec.ofBool (par4 bits)).setWidth 8 <<< 5) ||| (bits.setWidth 8 <<< 1)

/-- `turnaround - 1`, bits 1:0 of a CFG8 byte (R88). -/
def cfgTurnaround (cfg : Byte) : BitVec 2 := cfg.extractLsb' 0 2

/-- `data_phase`, bit 2 of a CFG8 byte (R88). -/
def cfgDataPhase (cfg : Byte) : Bool := cfg.getLsbD 2

/-- The 33 bits of a data phase, bit 0 first: 32 data bits, then the parity bit (R86). -/
def data33Bits (data : Word) (parity : Bool) : List Bool := bitsOf data ++ [parity]

end Sys2Proof.Machine
end

