-- ==== Sys2Proof/Config.lean ====
section
/-! DEFINITION. What an implementation fixes (00_scope.md R8) and the free values of the spec
(93_implementation_defined.md section 2). Each `opaque` constant has no body: no proof can know its value. -/

namespace Sys2Proof

/-- The implementation parameters of 00_scope.md R8. They are stored so that every value of this type is a legal
choice: a parameter with a lower bound is held as what exceeds the bound. -/
structure Params where
  /-- `BUS_CLOCK - 1` (R8: a natural number, > 0). -/
  busClockPred : Nat
  /-- `IO_CYCLES` (R8: a natural number). -/
  ioCycles : Nat
  /-- `DELAY_UNIT` (R8); no rule depends on it. -/
  delayUnit : Nat
  /-- `HAS_SPI` (R8, D37). -/
  hasSpi : Bool
  /-- `SPI_WR33_WORKAROUND` (R8, D25). -/
  wr33 : Bool
  /-- `SPI_MAX_BITS - 34` (R8: a natural number, at least 34). -/
  spiExtraBits : Nat
  /-- `SPI_POLL_BOUND - 1` (R8: a natural number, > 0). -/
  pollBoundPred : Nat
deriving DecidableEq, Repr, Inhabited

/-- `BUS_CLOCK` in hertz (R8). -/
def Params.busClock (p : Params) : Nat := p.busClockPred + 1

/-- `SPI_MAX_BITS`, the largest bit count of one shift transaction (R8, D24). -/
def Params.spiMaxBits (p : Params) : Nat := p.spiExtraBits + 34

/-- `SPI_POLL_BOUND`, the bound of the polling loop (R8, D27). -/
def Params.pollBound (p : Params) : Nat := p.pollBoundPred + 1

/-- The parameters the spec leaves OPEN (R8). DESIGN CHOICE, log 7: opaque, so every theorem holds for all of them. -/
opaque Config.openParams : Params

/-- The machine's parameters: `HAS_SPI` is decided true (D37, log 8), the others are open. -/
def Config.params : Params := { Config.openParams with hasSpi := true }

/-- The target's answer to its sample number `n` when no answer was placed beforehand (V2, R11; log 3). -/
opaque Config.targetBit : Nat → Bool

/-- The value of call number `n` of `hal.now()` when no value was placed beforehand (V4, R38; log 4). -/
opaque Config.now : Nat → Word

/-- What is left in `SPI_BUF` at discarded input position number `n` (V3, 44_spi_backend.md R219; log 9). -/
opaque Config.discardedBit : Nat → Bool

/-- What the first byte of a host command selects (48_host_transfer_engine.md R236, R255 to R258). -/
inductive HostOp where
  | connect | disconnect | transferConfigure | swdConfigure | swjClock | swjSequence
  | transfer | transferBlock | writeAbort | executeCommands
  /-- One of the 32 vendor slots (R258). -/
  | vendor (slot : BitVec 5)
  /-- Any opcode without a handler (R257). -/
  | unknown
deriving DecidableEq, Repr, Inhabited

/-- The opcode bytes of the host commands are not in the source (91_not_in_source.md N3; log 22). -/
opaque Config.hostOpcode : Byte → HostOp

/-- What stands in a response buffer of the given size when the response, the second argument, does not fit it is not in
the source (N23, R250; log 37). -/
opaque Config.overlongResponse : Nat → List Byte → List Byte

/-- The value of the "invalid" marker byte is not in the source (N25, R257; log 22). -/
opaque Config.invalidMarker : Byte

/-- How WriteABORT turns `RESULT` into its status byte is not in the source (N24, R253; log 22). -/
opaque Config.abortStatus : Byte → Byte

/-- How many request bytes a vendor command consumes beyond its opcode is not in the source (R258; log 22). -/
opaque Config.vendorConsumed : BitVec 5 → Nat

/-- What a vendor command responds is not in the source (R258; log 22). -/
opaque Config.vendorResponse : BitVec 5 → List Byte

end Sys2Proof
end

