-- ==== Sys2Proof/Machine/Delay.lean ====
section
/-! DEFINITION. The delay function of the Clock/Mode Selector (42_sequence_and_config.md R171). -/

namespace Sys2Proof.Machine

/-- `⌈a / b⌉` on natural numbers (00_scope.md R12). -/
def ceilDiv (a b : Nat) : Nat := (a + b - 1) / b

/-- `delay_of(f)`, as a natural number (R171). -/
def delayUnits (p : Params) (f : Nat) : Nat :=
  if ceilDiv (p.busClock / 2) f > p.ioCycles then ceilDiv (p.busClock / 2) f - p.ioCycles else 1

/-- `delay_of(f)` truncated to `CLOCK_DELAY_WIDTH` = 32 bits (R171). -/
def delayOf (p : Params) (f : Nat) : Word := BitVec.ofNat 32 (delayUnits p f)

end Sys2Proof.Machine
end

