-- ==== Sys2Proof/Machine/State.lean ====
section
/-! DEFINITION. The state of SWD-PE as plain data (10_state.md), the reasons a step can stop, and the state after
startup (R43, 70_reset_and_hazards.md R300). -/

namespace Sys2Proof.Machine

/-- The sequencer phases (10_state.md R25). -/
inductive Phase where
  | idle | req | trn1 | acks | rdata | rpar | trnR | trnW | wdata | wpar | wextra | idlec | dummyR | trnF
  | dummyW | recov | seq
deriving DecidableEq, Repr

/-- `DEBUG_PORT` (10_state.md R32). The value JTAG is never stored (R176). -/
inductive DebugPort where
  | disabled | swd | jtag
deriving DecidableEq, Repr

/-- The 2-bit code of `DEBUG_PORT` (R32). -/
def DebugPort.code : DebugPort → BitVec 2
  | .disabled => 0
  | .swd => 1
  | .jtag => 2

/-- `XFER_MODE` (10_state.md R36). -/
inductive XferMode where
  | gpioDelayed | gpioFast | spi
deriving DecidableEq, Repr

/-- The 2-bit code of `XFER_MODE` (R36). -/
def XferMode.code : XferMode → BitVec 2
  | .gpioDelayed => 0
  | .gpioFast => 1
  | .spi => 2

/-- The result class (10_state.md R28). -/
inductive ResultClass where
  | ok | wait | fault | error
deriving DecidableEq, Repr

/-- One wire cycle (00_scope.md R12): driven at a level, released, or released and sampled. -/
inductive WireCycle where
  | drive (b : Bool)
  | released
  | sample (b : Bool)
deriving DecidableEq, Repr

/-- One entry of the wire trace: the cycle, the phase it belongs to and `BITCNT` as the cycle starts (R25, R26). -/
structure CycleRec where
  phase : Phase
  left : BitVec 9
  cycle : WireCycle
deriving DecidableEq, Repr

/-- One pin event (43_gpio_backend.md R192, 44_spi_backend.md R213). -/
inductive PinEvent where
  /-- `CLK=b`. -/
  | clk (b : Bool)
  /-- `DIO=b`. -/
  | dio (b : Bool)
  /-- `OE=b`. -/
  | oe (b : Bool)
  /-- `RD→b`. -/
  | rd (b : Bool)
  /-- `DLY(n)`. -/
  | dly (n : Word)
  /-- `SHIFT(out_len, out_bits, in_len)→in_bits`; the lengths are those of the lists, bit 0 first. -/
  | shift (outBits inBits : List Bool)
  /-- `POLL→b`. -/
  | poll (b : Bool)
deriving DecidableEq, Repr

/-- The pin registers (10_state.md R35). -/
structure Pins where
  swclkO : Bool
  swclkOe : Bool
  swdioO : Bool
  swdioOe : Bool
deriving DecidableEq, Repr

/-- The registers of the SPI peripheral (10_state.md R39); `buf` lists `SPI_BUF` with bit 0 first. -/
structure Spi where
  outLen : Nat
  inLen : Nat
  buf : List Bool
  busy : Bool
  sense : Bool
deriving DecidableEq, Repr

/-- Host-agent state (10_state.md R40): no operation of the block reads or writes it. -/
structure HostRegs where
  retryCount : BitVec 16
  matchRetry : BitVec 16
  matchMask : Word
  abort : Bool
  postRead : Bool
  packetSize : BitVec 16
  packetCount : BitVec 8
deriving DecidableEq, Repr

/-- The MODEL's own fields for what comes from outside: inputs still to come, and the counters that select the free
values past their end (log 3, 4, 9, 23). -/
structure Inputs where
  /-- The target's answers to the next samples of SWDIO. -/
  answers : List Bool
  /-- Samples taken so far. -/
  samples : Nat
  /-- The values the next calls of `hal.now()` return. -/
  nows : List Word
  /-- Calls of `hal.now()` so far. -/
  nowCalls : Nat
  /-- Input positions discarded so far. -/
  discards : Nat
  /-- What the surrounding system writes to the host's `abort` flag before each of the next polls. -/
  abortPolls : List Bool
deriving DecidableEq, Repr

/-- The state of the machine. -/
structure State where
  /-- The implementation parameters (00_scope.md R8), the MODEL's own field: no step changes it (R302; log 7). -/
  params : Params
  /-- The bytes on the command port that are not yet accepted (R9, R91; log 10). -/
  cmd : List Byte
  /-- `REQ` (R21). -/
  req : Byte
  /-- `WDATA` (R21). -/
  wdata : Word
  /-- `RDATA` (R21). -/
  rdata : Word
  /-- `ACK` (R21). -/
  ack : BitVec 3
  /-- `PAR` (R21). -/
  par : Bool
  /-- `RESULT` (R21). -/
  result : Byte
  /-- `SEQBUF` (R21). -/
  seqBuf : BitVec 256
  /-- `SEQLEN` (R21). -/
  seqLen : BitVec 9
  /-- `PHASE` (R25). -/
  phase : Phase
  /-- `BITCNT` (R25). -/
  bitcnt : BitVec 9
  /-- The result class (R28). -/
  cls : ResultClass
  /-- `PERR` (R28). -/
  perr : Bool
  /-- `ACKINV` (R28). -/
  ackinv : Bool
  /-- `DEBUG_PORT` (R32). -/
  debugPort : DebugPort
  /-- The two bits of `SWD_CONF.turnaround`: the number of cycles less one (R33). -/
  turnaroundBits : BitVec 2
  /-- `SWD_CONF.data_phase` (R33). -/
  dataPhase : Bool
  /-- `IDLE_CYCLES` (R34). -/
  idleCycles : Byte
  /-- `XFER_MODE` (R36). -/
  xferMode : XferMode
  /-- `CLOCK_DELAY` (R37). -/
  clockDelay : Word
  /-- `TIMESTAMP` (R38). -/
  timestamp : Word
  /-- The pin registers (R35). -/
  pins : Pins
  /-- The SPI peripheral's registers (R39). -/
  spi : Spi
  /-- Host-agent state (R40). -/
  host : HostRegs
  /-- Inputs from outside, the MODEL's own field. -/
  inputs : Inputs
  /-- The wire trace so far, oldest cycle first (R12), the MODEL's own field (log 2). -/
  wire : List CycleRec
  /-- The pin-event trace so far, oldest event first (R192, R213), the MODEL's own field (log 2). -/
  pinEvents : List PinEvent
deriving DecidableEq, Repr

/-- Why the machine stops with a fault. -/
inductive Fault where
  /-- The SPI peripheral does not report "transmission done" within `SPI_POLL_BOUND` polls (R214, R273, U4). Raised by
  XFER and SEQ on the SPI backend when `SPI_BUSY` is 1 before a shift. Safe. -/
  | spiTimeout
deriving DecidableEq, Repr

/-- Why the machine refuses. -/
inductive Refusal where
  /-- The instruction has no meaning yet. Raised by `exec`'s refused arms. Safe. -/
  | notModelled (mnemonic : String)
  /-- An operation is presented while `PHASE` is not IDLE: the command port does not accept it (R27, R310, U1).
  Raised by every operation of the command port. Safe; log 12. -/
  | busy
  /-- A wire item outside the phase it belongs to. Raised by the REQ8, ACK3, DATA33 rows. Safe; log 13. -/
  | notInPhase
  /-- The command port holds an operation code without all its operand bytes. Raised by `step` and by the host
  agent's request parser. Safe; log 11, 24. -/
  | truncatedCommand
  /-- A bit string that has not `⌈n/8⌉` bytes (R95). Raised by SEQ on an ill-formed term. Safe; log 31. -/
  | operandLength
deriving DecidableEq, Repr

/-- The machine right after startup (R43). Registers whose reset value R43 calls unspecified hold 0
(DESIGN CHOICE, log 5, 6, 25). -/
def State.reset : State where
  params := Config.params
  cmd := []
  req := 0#8
  wdata := 0#32
  rdata := 0#32
  ack := 0#3
  par := false
  result := 0#8
  seqBuf := 0#256
  seqLen := 0#9
  phase := .idle
  bitcnt := 0#9
  cls := .ok
  perr := false
  ackinv := false
  debugPort := .disabled
  turnaroundBits := 0#2
  dataPhase := false
  idleCycles := 0#8
  xferMode := .gpioDelayed
  clockDelay := delayOf Config.params 1000000
  timestamp := 0#32
  pins := { swclkO := true, swclkOe := false, swdioO := true, swdioOe := false }
  spi := { outLen := 0, inLen := 0, buf := List.replicate Config.params.spiMaxBits false, busy := false, sense := false }
  host := { retryCount := 100#16, matchRetry := 0#16, matchMask := 0#32, abort := false, postRead := false,
            packetSize := 64#16, packetCount := 1#8 }
  inputs := { answers := [], samples := 0, nows := [], nowCalls := 0, discards := 0, abortPolls := [] }
  wire := []
  pinEvents := []

end Sys2Proof.Machine
end

