-- ==== Sys2Proof/Machine/Flags.lean ====
section
/-! DEFINITION. The flags and result codes: acknowledge decode (30_encoding.md R84, R85), the result class and the
cause flags (10_state.md R28), the result byte (60_exceptions.md R270). -/

namespace Sys2Proof.Machine

/-- The class of an acknowledge (R84, R85). -/
def ackClass (ack : BitVec 3) : ResultClass :=
  if ack = 0b001#3 then .ok
  else if ack = 0b010#3 then .wait
  else if ack = 0b100#3 then .fault
  else .error

/-- The start of an XFER clears the flags (41_swd_transfer.md R124, 10_state.md R28). That the cleared class reads OK
is the model's (DESIGN CHOICE, log 16). -/
def clearFlags (s : State) : State := { s with cls := .ok, perr := false, ackinv := false }

/-- The end of the acknowledge phase: `ACK`, the result class, `ACKINV` (R28, R127, R140). The start of the XFER
cleared `ACKINV`, so it is written with its value for each acknowledge (R85). -/
def latchAck (ack : BitVec 3) (s : State) : State :=
  { s with ack := ack, cls := ackClass ack, ackinv := ackClass ack == .error }

/-- The end of RPAR: a received parity bit that differs from `PAR` sets `PERR` and makes the class ERROR (R28, R133).
The start of the XFER cleared `PERR`, so it is written with its value in both cases. -/
def checkParity (p : Bool) (s : State) : State :=
  { s with perr := p != s.par, cls := if p = s.par then s.cls else .error }

/-- The status byte of a configuration operation that is done (R99). -/
def statusDone : Byte := 0x00#8

/-- The byte of a refused operation or an input error (R99, R270). -/
def statusRefused : Byte := 0xFF#8

/-- The result byte of an OK acknowledge: OK, or ERROR when the read parity was wrong (R137, R270). -/
def okCode (s : State) : Byte := if s.perr then 0x08#8 else 0x01#8

/-- The result byte of ERROR (R140, R270). -/
def errorCode : Byte := 0x08#8

end Sys2Proof.Machine
end

