-- ==== Sys2Proof/Machine/Ops.lean ====
section
/-! DEFINITION. The named operations over registers, pins and inputs that the meanings are written with. -/

namespace Sys2Proof.Machine

/-! Views of registers -/

/-- `SWD_CONF.turnaround`, T = 1 to 4 (10_state.md R33). -/
def State.turnaround (s : State) : Nat := s.turnaroundBits.toNat + 1

/-- `FAST_CLOCK`, the derived view of `XFER_MODE` (R37). -/
def State.fastClock (s : State) : Bool := s.xferMode != .gpioDelayed

/-- `REQ[1]`, RnW (R121). -/
def State.rnw (s : State) : Bool := s.req.getLsbD 1

/-- The port `rsp.status` (00_scope.md R9). -/
def State.rspStatus (s : State) : Byte := s.result

/-- The port `rsp.rdata` (00_scope.md R9). -/
def State.rspRdata (s : State) : Word := s.rdata

/-- The port `rsp.ack_raw` (00_scope.md R9). -/
def State.rspAckRaw (s : State) : BitVec 3 := s.ack

/-- The wire trace as R12 writes it: the cycles alone. -/
def State.wireTrace (s : State) : List WireCycle := s.wire.map CycleRec.cycle

/-! The target oracle and the cycle counter -/

/-- The target's answer to the sample `k` samples from now (00_scope.md R11; log 3). -/
def State.answer (s : State) (k : Nat) : Bool := s.inputs.answers.getD k (Config.targetBit (s.inputs.samples + k))

/-- The target's next `n` answers, the first one first. -/
def State.peekAnswers (s : State) (n : Nat) : List Bool := (List.range n).map s.answer

/-- The state after `n` answers have been consumed. -/
def State.dropAnswers (s : State) (n : Nat) : State :=
  { s with inputs := { s.inputs with answers := s.inputs.answers.drop n, samples := s.inputs.samples + n } }

/-- The state in which the target's next answers are the given bits. -/
def State.withAnswers (s : State) (bits : List Bool) : State :=
  { s with inputs := { s.inputs with answers := bits ++ s.inputs.answers.drop bits.length } }

/-- `pin.swdio_i` (10_state.md R35): the driven level while the engine drives, else what the target answers. -/
def sampleSwdio (s : State) : Bool × State :=
  if s.pins.swdioOe then (s.pins.swdioO, s) else (s.answer 0, s.dropAnswers 1)

/-- `TIMESTAMP <- hal.now()` (41_swd_transfer.md R135). -/
def captureTimestamp (s : State) : State :=
  { s with timestamp := s.inputs.nows.getD 0 (Config.now s.inputs.nowCalls),
           inputs := { s.inputs with nows := s.inputs.nows.drop 1, nowCalls := s.inputs.nowCalls + 1 } }

/-- The capture of an XFER with an OK acknowledge: only when `REQ[7] = 1` (R135). -/
def timestampIfAsked (s : State) : State := if s.req.getLsbD 7 then captureTimestamp s else s

/-! Sequencer position -/

/-- `PHASE <- p` with `n` wire cycles to go (10_state.md R25). -/
def enterPhase (p : Phase) (n : Nat) (s : State) : State := { s with phase := p, bitcnt := BitVec.ofNat 9 n }

/-- One wire cycle has happened: it goes on the trace and decrements `BITCNT` (R26). -/
def recordCycle (c : WireCycle) (s : State) : State :=
  { s with wire := s.wire ++ [{ phase := s.phase, left := s.bitcnt, cycle := c }], bitcnt := s.bitcnt - 1#9 }

/-! Pin events -/

/-- The state change of one pin event on the pin registers (43_gpio_backend.md R192). -/
def PinEvent.apply (p : Pins) : PinEvent → Pins
  | .clk b => { p with swclkO := b }
  | .dio b => { p with swdioO := b }
  | .oe b => { p with swdioOe := b }
  | .rd _ | .dly _ | .shift _ _ | .poll _ => p

/-- Pin events happen, one at a time in trace order (R192). -/
def emit (events : List PinEvent) (s : State) : State :=
  { s with pins := events.foldl PinEvent.apply s.pins, pinEvents := s.pinEvents ++ events }

/-! Results: what stands for taking an exception -/

/-- `raise <Class>` (00_scope.md R12): set `RESULT`. The block has no trap, saves nothing and goes nowhere
(60_exceptions.md R276); the recovery clocking stands in the operation that raises. -/
def raiseResult (code : Byte) (s : State) : State := { s with result := code }

/-- The end of an operation that took wire cycles: `RESULT` is written and `PHASE <- IDLE` (R137, R139, R140, R163).
The next operation is what stands for a return (60_exceptions.md R278). -/
def finish (code : Byte) (s : State) : State := enterPhase .idle 0 (raiseResult code s)

/-- The command port accepts an operation only while `PHASE = IDLE` (10_state.md R27, 70_reset_and_hazards.md R310);
otherwise it is refused (93_implementation_defined.md U1; log 12). -/
def accept (s : State) (r : Host.Outcome State Fault Refusal) : Host.Outcome State Fault Refusal :=
  if s.phase = .idle then r else .refused .busy

/-- An operation on the wires: it either ran to its end, or a poll of the SPI peripheral gave up (R214, R273). -/
def ofRun : Option State → Host.Outcome State Fault Refusal
  | some s => .next s
  | none => .fault .spiTimeout

end Sys2Proof.Machine
end

