-- ==== Sys2Proof/Machine/Configure.lean ====
section
/-! DEFINITION. The configuration and life-cycle operations (42_sequence_and_config.md sections 2 to 5), the operand
byte CFG8, and the default row of the command port (30_encoding.md R90). None takes a wire cycle (10_state.md R26). -/

namespace Sys2Proof.Machine

/-- `SWD_CONF` from a CFG8 byte; bits 7:3 are ignored and not stored (30_encoding.md R88, 10_state.md R33). -/
def loadCfg8 (cfg : Byte) (s : State) : State :=
  { s with turnaroundBits := cfgTurnaround cfg, dataPhase := cfgDataPhase cfg }

/-- CFG_SWD (R165). -/
def execCfgSwd (cfg : Byte) (s : State) : Host.Outcome State Fault Refusal :=
  accept s (.next (raiseResult statusDone (loadCfg8 cfg s)))

/-- CFG8, the operand byte of CFG_SWD: what it assembles (30_encoding.md R88; log 13). -/
def execCfg8 (cfg : Byte) (s : State) : Host.Outcome State Fault Refusal :=
  accept s (.next (loadCfg8 cfg s))

/-- CFG_IDLE (R167). -/
def execCfgIdle (idleCycles : Byte) (s : State) : Host.Outcome State Fault Refusal :=
  accept s (.next (raiseResult statusDone { s with idleCycles := idleCycles }))

/-- The Clock/Mode Selector for a frequency that is not 0 (R169, R172). -/
def selectClock (freq : Word) (s : State) : State :=
  if 10000000 ≤ freq.toNat ∧ s.params.hasSpi then { s with xferMode := .spi }
  else if 2000000 ≤ freq.toNat then { s with xferMode := .gpioFast }
  else { s with xferMode := .gpioDelayed, clockDelay := delayOf s.params freq.toNat }

/-- CLK (R169); a frequency of 0 is an input error and changes nothing else (R170). -/
def execClk (freq : Word) (s : State) : Host.Outcome State Fault Refusal :=
  accept s <|
    if freq = 0#32 then .next (raiseResult statusRefused s)
    else .next (raiseResult statusDone (selectClock freq s))

/-- The pins leave high-impedance: SWCLK driven high, SWDIO driven high (R175). -/
def connectPins : Pins := { swclkO := true, swclkOe := true, swdioO := true, swdioOe := true }

/-- CONNECT (R175); a port id other than 0 or 1 fails and changes nothing else (R176). -/
def execConnect (portId : Byte) (s : State) : Host.Outcome State Fault Refusal :=
  accept s <|
    if portId = 1#8 ∨ portId = 0#8 then
      .next (raiseResult 1#8 { s with debugPort := .swd, pins := connectPins })
    else .next (raiseResult 0#8 s)

/-- DISCONNECT (R178): the output latches and every other register keep their values. -/
def execDisconnect (s : State) : Host.Outcome State Fault Refusal :=
  accept s (.next (raiseResult statusDone
    { s with debugPort := .disabled, pins := { s.pins with swclkOe := false, swdioOe := false } }))

/-- Any other operation code: refused, `RESULT <- 0xFF` and no other state change (R90). -/
def execAnyOtherOp (_op : Byte) (s : State) : Host.Outcome State Fault Refusal :=
  accept s (.next (raiseResult statusRefused s))

end Sys2Proof.Machine
end

