-- ==== Sys2Proof/WellFormed.lean ====
section
/-! DEFINITION. When an instruction is well-formed (30_encoding.md R80 to R100). -/

namespace Sys2Proof

/-- The seven operation codes of 30_encoding.md R92. -/
def operationCodes : List Byte := [0x02#8, 0x03#8, 0x04#8, 0x11#8, 0x12#8, 0x13#8, 0x40#8]

/-- Well-formedness: a sequence carries exactly `⌈n/8⌉` bytes (R95); the default row's code is none of the seven
(R90); a data phase holds an even number of ones (R86); a line reset has at least 50 cycles (R100). Every other
operand value is legal. -/
def WellFormed : Instr → Bool
  | .seq bitCount bits => bits.length == Machine.seqByteCount bitCount
  | .anyOtherOp op => !operationCodes.contains op
  | .data33 data parity => parity == Machine.par32 data
  | .linereset count => decide (50 ≤ Machine.seqLength count)
  | .connect _ | .disconnect | .cfgIdle _ | .clk _ | .cfgSwd _ | .xferR _ | .xferW _ _
  | .req8DpW0 | .req8ApW0 | .req8DpR0 | .req8ApR0 | .req8DpW4 | .req8ApW4 | .req8DpR4 | .req8ApR4
  | .req8DpW8 | .req8ApW8 | .req8DpR8 | .req8ApR8 | .req8DpWC | .req8ApWC | .req8DpRC | .req8ApRC
  | .req8 _
  | .ack3Invalid0 | .ack3Ok | .ack3Wait | .ack3Invalid3 | .ack3Fault | .ack3Invalid5 | .ack3Invalid6
  | .ack3Invalid7
  | .cfg8 _ | .jtag2swd | .swd2jtag | .idle _ | .idcode | .rdbuff | .abort _ => true

end Sys2Proof
end

