-- ==== Sys2Proof/Decode.lean ====
section
/-! DEFINITION. The decoders of the five encodings (30_encoding.md R80) and, after them, the encoder. -/

namespace Sys2Proof

open Sys2Proof.Machine

/-- The five encodings of R80. -/
inductive Format where
  /-- An operation of the command port (R91). -/
  | cmd
  /-- A request packet (R81). -/
  | req8
  /-- An acknowledge (R84). -/
  | ack3
  /-- A data phase (R86). -/
  | data33
  /-- The operand byte of CFG_SWD (R88). -/
  | cfg8
deriving DecidableEq, Repr

/-- Why a decoder rejects its input. -/
inductive DecodeError where
  /-- There is no byte to read. -/
  | empty
  /-- Operand bytes of the layout of R92 are missing. -/
  | truncated
  /-- Not the general pattern of a request packet, or its parity bit is wrong (R81). -/
  | notARequest
  /-- A value with bits beyond the format's width (R80). -/
  | tooWide
deriving DecidableEq, Repr

/-- What a decoder answers: the instruction and the bytes after it, or why there is none. -/
inductive Decoded where
  | ok (i : Instr) (rest : List Byte)
  | bad (e : DecodeError)
deriving DecidableEq, Repr

/-- An operation with one operand byte (R92). -/
def decodeOne (k : Byte → Instr) : List Byte → Decoded
  | b :: rest => .ok (k b) rest
  | [] => .bad .truncated

/-- An operation with a 4-byte little-endian operand (R89 (b), (d)). -/
def decodeWord (k : Word → Instr) : List Byte → Decoded
  | b0 :: b1 :: b2 :: b3 :: rest => .ok (k (wordOfBytes b0 b1 b2 b3)) rest
  | _ => .bad .truncated

/-- The operands of SEQ: `bit_count`, then `⌈n/8⌉` bytes (R95). -/
def decodeSeq : List Byte → Decoded
  | [] => .bad .truncated
  | bitCount :: rest =>
    if rest.length < seqByteCount bitCount then .bad .truncated
    else .ok (.seq bitCount (rest.take (seqByteCount bitCount))) (rest.drop (seqByteCount bitCount))

/-- The operands of XFER: `request`, and the data bytes when `request[1] = 0` (R94). -/
def decodeXfer : List Byte → Decoded
  | [] => .bad .truncated
  | request :: rest =>
    if request.getLsbD 1 then .ok (.xferR (requestFields request)) rest
    else decodeWord (.xferW (requestFields request)) rest

/-- The command port: one operation code and its operands (R91, R92); any other code is the default row (R90). -/
def decodeCmd : List Byte → Decoded
  | [] => .bad .empty
  | op :: rest =>
    if op = 0x02#8 then decodeOne .connect rest
    else if op = 0x03#8 then .ok .disconnect rest
    else if op = 0x04#8 then decodeOne .cfgIdle rest
    else if op = 0x11#8 then decodeWord .clk rest
    else if op = 0x12#8 then decodeSeq rest
    else if op = 0x13#8 then decodeOne .cfgSwd rest
    else if op = 0x40#8 then decodeXfer rest
    else .ok (.anyOtherOp op) rest

/-- The row of the opcode table for each request nibble (R82). -/
def req8Row (nibble : Nibble) : Instr :=
  match nibble.toNat with
  | 0x0 => .req8DpW0
  | 0x1 => .req8ApW0
  | 0x2 => .req8DpR0
  | 0x3 => .req8ApR0
  | 0x4 => .req8DpW4
  | 0x5 => .req8ApW4
  | 0x6 => .req8DpR4
  | 0x7 => .req8ApR4
  | 0x8 => .req8DpW8
  | 0x9 => .req8ApW8
  | 0xA => .req8DpR8
  | 0xB => .req8ApR8
  | 0xC => .req8DpWC
  | 0xD => .req8ApWC
  | 0xE => .req8DpRC
  | _ => .req8ApRC

/-- A request packet: the nibble stands in bits 4:1, and the other bits must be the ones R81 gives for it. -/
def decodeReq8 (b : Byte) : Option Instr :=
  if requestByte (b.extractLsb' 1 4) = b then some (req8Row (b.extractLsb' 1 4)) else none

/-- The row of the opcode table for each acknowledge value (R85). -/
def ack3Row (ack : BitVec 3) : Instr :=
  match ack.toNat with
  | 0 => .ack3Invalid0
  | 1 => .ack3Ok
  | 2 => .ack3Wait
  | 3 => .ack3Invalid3
  | 4 => .ack3Fault
  | 5 => .ack3Invalid5
  | 6 => .ack3Invalid6
  | _ => .ack3Invalid7

/-- The decoder of each format. A 3-bit or 33-bit item stands in whole bytes, bit 0 in bit 0 of the first byte. -/
def decode (f : Format) (bytes : List Byte) : Decoded :=
  match f with
  | .cmd => decodeCmd bytes
  | .req8 =>
    match bytes with
    | [] => .bad .empty
    | b :: rest =>
      match decodeReq8 b with
      | some i => .ok i rest
      | none => .bad .notARequest
  | .ack3 =>
    match bytes with
    | [] => .bad .empty
    | b :: rest => if b.toNat < 8 then .ok (ack3Row (b.setWidth 3)) rest else .bad .tooWide
  | .data33 =>
    match bytes with
    | [] => .bad .empty
    | b0 :: b1 :: b2 :: b3 :: p :: rest =>
      if p.toNat < 2 then .ok (.data33 (wordOfBytes b0 b1 b2 b3) (p.getLsbD 0)) rest else .bad .tooWide
    | _ => .bad .truncated
  | .cfg8 =>
    match bytes with
    | [] => .bad .empty
    | b :: rest => .ok (.cfg8 b) rest

/-! The encoder. -/

/-- The bytes of a `seq` with every byte of the bit string equal to `fill` (R100). -/
def seqFill (count fill : Byte) : List Byte := List.replicate (seqByteCount count) fill

/-- What a pseudo-operation expands to (R100), and the row of a request packet written in its general pattern (R81).
Every other instruction stands for itself. -/
def Instr.canonical : Instr → Instr
  | .linereset count => .seq count (seqFill count 0xFF#8)
  | .jtag2swd => .seq 16#8 [0x9E#8, 0xE7#8]
  | .swd2jtag => .seq 16#8 [0x3C#8, 0xE7#8]
  | .idle count => .seq count (seqFill count 0x00#8)
  | .idcode => .xferR (requestFields 0x02#8)
  | .rdbuff => .xferR (requestFields 0x0E#8)
  | .abort value => .xferW (requestFields 0x00#8) value
  | .req8 nibble => req8Row nibble
  | .connect portId => .connect portId
  | .disconnect => .disconnect
  | .cfgIdle idleCycles => .cfgIdle idleCycles
  | .clk freq => .clk freq
  | .seq bitCount bits => .seq bitCount bits
  | .cfgSwd cfg => .cfgSwd cfg
  | .xferR request => .xferR request
  | .xferW request data => .xferW request data
  | .anyOtherOp op => .anyOtherOp op
  | .req8DpW0 => .req8DpW0
  | .req8ApW0 => .req8ApW0
  | .req8DpR0 => .req8DpR0
  | .req8ApR0 => .req8ApR0
  | .req8DpW4 => .req8DpW4
  | .req8ApW4 => .req8ApW4
  | .req8DpR4 => .req8DpR4
  | .req8ApR4 => .req8ApR4
  | .req8DpW8 => .req8DpW8
  | .req8ApW8 => .req8ApW8
  | .req8DpR8 => .req8DpR8
  | .req8ApR8 => .req8ApR8
  | .req8DpWC => .req8DpWC
  | .req8ApWC => .req8ApWC
  | .req8DpRC => .req8DpRC
  | .req8ApRC => .req8ApRC
  | .ack3Invalid0 => .ack3Invalid0
  | .ack3Ok => .ack3Ok
  | .ack3Wait => .ack3Wait
  | .ack3Invalid3 => .ack3Invalid3
  | .ack3Fault => .ack3Fault
  | .ack3Invalid5 => .ack3Invalid5
  | .ack3Invalid6 => .ack3Invalid6
  | .ack3Invalid7 => .ack3Invalid7
  | .data33 data parity => .data33 data parity
  | .cfg8 cfg => .cfg8 cfg

/-- The format of each instruction (R80). -/
def Instr.format : Instr → Format
  | .connect _ | .disconnect | .cfgIdle _ | .clk _ | .seq _ _ | .cfgSwd _ | .xferR _ | .xferW _ _
  | .anyOtherOp _ | .linereset _ | .jtag2swd | .swd2jtag | .idle _ | .idcode | .rdbuff | .abort _ => .cmd
  | .req8DpW0 | .req8ApW0 | .req8DpR0 | .req8ApR0 | .req8DpW4 | .req8ApW4 | .req8DpR4 | .req8ApR4
  | .req8DpW8 | .req8ApW8 | .req8DpR8 | .req8ApR8 | .req8DpWC | .req8ApWC | .req8DpRC | .req8ApRC
  | .req8 _ => .req8
  | .ack3Invalid0 | .ack3Ok | .ack3Wait | .ack3Invalid3 | .ack3Fault | .ack3Invalid5 | .ack3Invalid6
  | .ack3Invalid7 => .ack3
  | .data33 _ _ => .data33
  | .cfg8 _ => .cfg8

/-- The bytes of each instruction, from the tables of R81, R82, R85, R86, R88, R92 and R100. -/
def encode : Instr → List Byte
  | .connect portId => [0x02#8, portId]
  | .disconnect => [0x03#8]
  | .cfgIdle idleCycles => [0x04#8, idleCycles]
  | .clk freq => 0x11#8 :: bytesOfWord freq
  | .seq bitCount bits => 0x12#8 :: bitCount :: bits
  | .cfgSwd cfg => [0x13#8, cfg]
  | .xferR request => [0x40#8, requestOperand true request]
  | .xferW request data => 0x40#8 :: requestOperand false request :: bytesOfWord data
  | .anyOtherOp op => [op]
  | .req8DpW0 => [0x81#8]
  | .req8ApW0 => [0xA3#8]
  | .req8DpR0 => [0xA5#8]
  | .req8ApR0 => [0x87#8]
  | .req8DpW4 => [0xA9#8]
  | .req8ApW4 => [0x8B#8]
  | .req8DpR4 => [0x8D#8]
  | .req8ApR4 => [0xAF#8]
  | .req8DpW8 => [0xB1#8]
  | .req8ApW8 => [0x93#8]
  | .req8DpR8 => [0x95#8]
  | .req8ApR8 => [0xB7#8]
  | .req8DpWC => [0x99#8]
  | .req8ApWC => [0xBB#8]
  | .req8DpRC => [0xBD#8]
  | .req8ApRC => [0x9F#8]
  | .req8 nibble => [requestByte nibble]
  | .ack3Invalid0 => [0#8]
  | .ack3Ok => [1#8]
  | .ack3Wait => [2#8]
  | .ack3Invalid3 => [3#8]
  | .ack3Fault => [4#8]
  | .ack3Invalid5 => [5#8]
  | .ack3Invalid6 => [6#8]
  | .ack3Invalid7 => [7#8]
  | .data33 data parity => bytesOfWord data ++ [(BitVec.ofBool parity).setWidth 8]
  | .cfg8 cfg => [cfg]
  | .linereset count => 0x12#8 :: count :: seqFill count 0xFF#8
  | .jtag2swd => [0x12#8, 0x10#8, 0x9E#8, 0xE7#8]
  | .swd2jtag => [0x12#8, 0x10#8, 0x3C#8, 0xE7#8]
  | .idle count => 0x12#8 :: count :: seqFill count 0x00#8
  | .idcode => [0x40#8, 0x02#8]
  | .rdbuff => [0x40#8, 0x0E#8]
  | .abort value => 0x40#8 :: 0x00#8 :: bytesOfWord value

/-! The table's words. -/

/-- The longest instruction, SEQ of 256 bits, has 34 bytes (R95). -/
def longestInstr : Nat := 34

/-- The bytes of a table word, the first word's byte first; bytes past the word are 0. -/
def tableBytes (w : Nat) : List Byte := (List.range longestInstr).map fun k => BitVec.ofNat 8 (w >>> (8 * k))

/-- Which format a word of spec/opcode_table.json is in. The table lists the words of five formats in one list, so
the width decides, and among words of one byte the code of DISCONNECT, then the request packets, then the
acknowledges. A 40-bit word below 2^33 is a data phase unless it is a CLK, also where it could be a SEQ of five bytes.
DESIGN CHOICE, log 15. -/
def tableFormat (nbits w : Nat) : Format :=
  if nbits ≤ 3 then .ack3
  else if nbits ≤ 8 then
    if w = 0x03 then .cmd
    else if (decodeReq8 (BitVec.ofNat 8 w)).isSome then .req8
    else if w < 8 then .ack3
    else .cmd
  else if nbits = 33 then .data33
  else if nbits = 40 ∧ w % 256 ≠ 0x11 ∧ w < 2 ^ 33 then .data33
  else .cmd

/-- The instruction the decoder reads from a word of the table. -/
def decodeTableWord (nbits w : Nat) : Option Instr :=
  match decode (tableFormat nbits w) (tableBytes w) with
  | .ok i _ => some i
  | .bad _ => none

end Sys2Proof
end

