-- ==== Sys2Proof/Machine/Gpio.lean ====
section
/-! DEFINITION. The GPIO bit-bang backend (43_gpio_backend.md): primitives as lists of pin events, and the four
capabilities of R191 in their GPIO form (R198). -/

namespace Sys2Proof.Machine

/-- `G_DELAY()` (R193): one delay in GPIO_DELAYED, no event in GPIO_FAST. -/
def gDelay (s : State) : List PinEvent :=
  if s.xferMode = .gpioDelayed then [.dly s.clockDelay] else []

/-- The pin events of one clock cycle: low, delay, high, delay (R194). -/
def clockEvents (s : State) : List PinEvent := [.clk false] ++ gDelay s ++ [.clk true] ++ gDelay s

/-- `cyc_H()` on the wire: the drive state unchanged, no sample (00_scope.md R12). -/
def heldCycle (s : State) : WireCycle := if s.pins.swdioOe then .drive s.pins.swdioO else .released

/-- `G_CYCLE()` (R194). -/
def gCycle (s : State) : State := recordCycle (heldCycle s) (emit (clockEvents s) s)

/-- `G_WRITE(b)` (R195). -/
def gWrite (b : Bool) (s : State) : State := recordCycle (.drive b) (emit (.dio b :: clockEvents s) s)

/-- `G_OUT_ENABLE()` (R196). -/
def gOutEnable (s : State) : State := emit [.oe true] s

/-- `G_OUT_DISABLE()`, that is `release()` (R196). -/
def gOutDisable (s : State) : State := emit [.oe false] s

/-- `drive(b)` (R196): take the line if it is not driven, then set the level. -/
def gDrive (b : Bool) (s : State) : State :=
  emit [.dio b] (if s.pins.swdioOe then s else gOutEnable s)

/-- `G_READ()` (R197). -/
def gRead (s : State) : Bool × State :=
  let (b, s1) := sampleSwdio (emit ([.clk false] ++ gDelay s) s)
  (b, recordCycle (.sample b) (emit ([.rd b, .clk true] ++ gDelay s) s1))

/-- The line is taken before a driven run if it was released (R195; log 19). -/
def gEnsureDriven (s : State) : State := if s.pins.swdioOe then s else gOutEnable s

/-- The line is released before a sampled run if it was driven (R197; log 19). -/
def gEnsureReleased (s : State) : State := if s.pins.swdioOe then gOutDisable s else s

/-- `write_bits` (R191, R198): `G_WRITE` of each bit in order. -/
def gWriteBits : List Bool → State → State
  | [], s => s
  | b :: bs, s => gWriteBits bs (gWrite b s)

/-- `read_bits(n)` (R191, R198). -/
def gReadBits : Nat → State → List Bool × State
  | 0, s => ([], s)
  | n + 1, s =>
    let (b, s1) := gRead s
    let (bs, s2) := gReadBits n s1
    (b :: bs, s2)

/-- `generate_idle_cycles(n)` (R191, R198): clock only. -/
def gIdleCycles : Nat → State → State
  | 0, s => s
  | n + 1, s => gIdleCycles n (gCycle s)

/-- `n` cycles with the line driven low: the level once, then clock only (R201; none when `n = 0`, R136). -/
def gLowCycles (n : Nat) (s : State) : State := if n = 0 then s else gIdleCycles n (emit [.dio false] s)

/-- `send_request_header(rb, trn_after)` (R191, R198) with the phases of 41_swd_transfer.md R125 to R127. -/
def gRequestHeader (rb : Byte) (trnAfter : Bool) (s : State) : List Bool × State :=
  let t := s.turnaround
  let s := gWriteBits (bitsOf rb) (gEnsureDriven (enterPhase .req 8 s))
  let s := gIdleCycles t (gOutDisable (enterPhase .trn1 t s))
  let (ack, s) := gReadBits 3 (enterPhase .acks 3 s)
  (ack, if trnAfter then gOutEnable (gIdleCycles t (enterPhase .trnW t s)) else s)

end Sys2Proof.Machine
end

