-- ==== Sys2Proof/Machine/Spi.lean ====
section
/-! DEFINITION. The SPI shift-register backend (44_spi_backend.md): the shift transaction, its completion, runs longer
than one transaction, and the capabilities of R191 in their SPI form (R216). -/

namespace Sys2Proof.Machine

/-- One driven bit of a shift, with the position of its cycle (10_state.md R25, R222). -/
structure OutSlot where
  phase : Phase
  left : BitVec 9
  bit : Bool
deriving DecidableEq, Repr

/-- One input bit of a shift, with the position of its cycle; `used` says whether the backend uses the bit (an `S`
cycle) or discards it (a `Z` cycle) (R213, R219). -/
structure InSlot where
  phase : Phase
  left : BitVec 9
  used : Bool
deriving DecidableEq, Repr

/-- The driven bits of one phase: `BITCNT` counts down to 1. -/
def outSlots (p : Phase) : List Bool → List OutSlot
  | [] => []
  | b :: bs => { phase := p, left := BitVec.ofNat 9 (bs.length + 1), bit := b } :: outSlots p bs

/-- The `n` input bits of one phase. -/
def inSlots (p : Phase) (used : Bool) : Nat → List InSlot
  | 0 => []
  | n + 1 => { phase := p, left := BitVec.ofNat 9 (n + 1), used := used } :: inSlots p used n

/-- The bits at the used positions of an input part (R219). -/
def usedBits (ins : List InSlot) (bits : List Bool) : List Bool :=
  (ins.zip bits).filterMap fun (x, b) => if x.used then some b else none

/-- `SPI_BUF[len-1:0] <- bits`, the other positions unchanged (R212). -/
def overlay (bits buf : List Bool) : List Bool := bits ++ buf.drop bits.length

/-- The peripheral moves a level onto a pin (R212, 10_state.md R39); below the pin-event trace of R213. -/
def setClk (b : Bool) (s : State) : State := { s with pins := { s.pins with swclkO := b } }

/-- The drive or sense state of the data pin in the single-wire bidirectional mode (R212). -/
def setSense (sense : Bool) (s : State) : State :=
  { s with spi := { s.spi with sense := sense }, pins := { s.pins with swdioOe := !sense } }

/-- The output part of a shift: each bit is set, then one clock pulse (R212). -/
def shiftOut : List OutSlot → State → State
  | [], s => s
  | x :: xs, s =>
    let s := { s with phase := x.phase, bitcnt := x.left, pins := { s.pins with swdioO := x.bit } }
    shiftOut xs (recordCycle (.drive x.bit) (setClk true (setClk false s)))

/-- One input cycle: clock low, sample, clock high (R212). At a discarded position the target is not consulted and the
bit is a free value (R219; log 9). -/
def shiftInBit (x : InSlot) (s : State) : Bool × State :=
  let s := setClk false { s with phase := x.phase, bitcnt := x.left }
  if x.used then
    let (b, s) := sampleSwdio s
    (b, recordCycle (.sample b) (setClk true s))
  else
    (Config.discardedBit s.inputs.discards,
      recordCycle .released
        (setClk true { s with inputs := { s.inputs with discards := s.inputs.discards + 1 } }))

/-- The input part of a shift (R212). -/
def shiftIn : List InSlot → State → List Bool × State
  | [], s => ([], s)
  | x :: xs, s =>
    let (b, s1) := shiftInBit x s
    let (bs, s2) := shiftIn xs s1
    (b :: bs, s2)

/-- The start of a shift: lengths and output bits are written and `SPI_BUSY` is set (R212). -/
def shiftStart (outs : List OutSlot) (ins : List InSlot) (s : State) : State :=
  { s with spi := { s.spi with outLen := outs.length, inLen := ins.length,
                               buf := overlay (outs.map OutSlot.bit) s.spi.buf, busy := true } }

/-- The end of a shift: the input bits stand in `SPI_BUF`, `SPI_BUSY` is clear (R212), and the event is on the
pin-event trace (R213). -/
def shiftDone (outBits inBits : List Bool) (s : State) : State :=
  emit [.shift outBits inBits] { s with spi := { s.spi with buf := overlay inBits s.spi.buf, busy := false } }

/-- `hal.shift(out_len, out_bits, in_len)` → `in_bits` (R212). -/
def halShift (outs : List OutSlot) (ins : List InSlot) (s : State) : List Bool × State :=
  let s := shiftStart outs ins s
  let s := if outs.isEmpty then s else shiftOut outs (setSense false s)
  let (inBits, s) := if ins.isEmpty then ([], s) else shiftIn ins (setSense true s)
  (inBits, shiftDone (outs.map OutSlot.bit) inBits s)

/-- `SPI_WAIT()` with `n` polls left before `SPI_POLL_BOUND` is reached (R214). -/
def spiPoll : Nat → State → Option State
  | 0, _ => none
  | n + 1, s => if s.spi.busy then spiPoll n (emit [.poll true] s) else some (emit [.poll false] s)

/-- `SPI_WAIT()` (R214). -/
def spiWait (s : State) : Option State := spiPoll s.params.pollBound s

/-- One `hal.shift` followed by `SPI_WAIT()` (R215). A shift starts only when the peripheral is not busy (R212, R214):
with `SPI_BUSY = 1` the wait before it never ends well, since nothing clears the flag. -/
def shiftWait (outs : List OutSlot) (ins : List InSlot) (s : State) : Option (List Bool × State) :=
  if s.spi.busy then none
  else
    let (inBits, s) := halShift outs ins s
    (spiWait s).map fun s => (inBits, s)

/-- Inside an operation the peripheral finishes the shift the position stands in (44_spi_backend.md R212, R214; decision
D27; log 14): `SPI_BUSY` is clear before the next shift. -/
def shiftFinished (s : State) : State :=
  if s.xferMode = .spi then { s with spi := { s.spi with busy := false } } else s

/-- The input part of `SPI_RUN`, in chunks of at most `SPI_MAX_BITS` (R215); `fuel` bounds the number of chunks. -/
def spiRunIn : Nat → List InSlot → State → Option (List Bool × State)
  | 0, _, s => some ([], s)
  | fuel + 1, ins, s =>
    if ins.isEmpty then some ([], s)
    else
      (shiftWait [] (ins.take s.params.spiMaxBits) s).bind fun (r, s1) =>
        (spiRunIn fuel (ins.drop s.params.spiMaxBits) s1).map fun (rs, s2) => (r ++ rs, s2)

/-- The output part of `SPI_RUN`, in chunks of at most `SPI_MAX_BITS`; the last chunk carries the input part too when
both fit one transaction (R215). -/
def spiRunOut : Nat → List OutSlot → List InSlot → State → Option (List Bool × State)
  | 0, _, ins, s => spiRunIn ins.length ins s
  | fuel + 1, outs, ins, s =>
    if outs.isEmpty then spiRunIn ins.length ins s
    else if outs.length + ins.length ≤ s.params.spiMaxBits then shiftWait outs ins s
    else
      (shiftWait (outs.take s.params.spiMaxBits) [] s).bind fun (_, s1) =>
        spiRunOut fuel (outs.drop s.params.spiMaxBits) ins s1

/-- `SPI_RUN(out_len, out_bits, in_len)` → `in_bits` (R215). -/
def spiRun (outs : List OutSlot) (ins : List InSlot) (s : State) : Option (List Bool × State) :=
  spiRunOut outs.length outs ins s

/-- `write_bits` (R216). -/
def spiWriteBits (outs : List OutSlot) (s : State) : Option State :=
  if outs.isEmpty then some s else (spiRun outs [] s).map Prod.snd

/-- `read_bits`, and `generate_idle_cycles` on a released line (R216). -/
def spiReadBits (ins : List InSlot) (s : State) : Option (List Bool × State) := spiRun [] ins s

/-- `generate_idle_cycles(n)` on a driven line: the level is 0 (R216). -/
def spiLowCycles (p : Phase) (n : Nat) (s : State) : Option State := spiWriteBits (outSlots p (List.replicate n false)) s

/-- The event `OE=1` after a shift that ended in sense (R221); the peripheral no longer holds the pin in sense (log 17). -/
def spiOutEnable (s : State) : State := emit [.oe true] { s with spi := { s.spi with sense := false } }

/-- The closing `drive(1)`: events `OE=1` if needed, `DIO=1` (R221). -/
def spiDrive (b : Bool) (s : State) : State := emit [.dio b] (if s.pins.swdioOe then s else spiOutEnable s)

end Sys2Proof.Machine
end

