-- ==== Sys2Proof/Machine/Sequence.lean ====
section
/-! DEFINITION. SEQ, the raw bit sequence (42_sequence_and_config.md section 1). -/

namespace Sys2Proof.Machine

/-- SEQ latches its length and its bits (R162). -/
def seqStart (bitCount : Byte) (bits : List Byte) (s : State) : State :=
  { s with seqLen := BitVec.ofNat 9 (seqLength bitCount),
           seqBuf := seqLoad (seqLength bitCount) bits s.seqBuf }

/-- The bits SEQ drives: `SEQBUF[0]` to `SEQBUF[n-1]` (R162). -/
def seqBits (s : State) : List Bool := (List.range s.seqLen.toNat).map s.seqBuf.getLsbD

/-- The wire cycles of SEQ on the backend in use (R162, 44_spi_backend.md R223). -/
def seqBody (s : State) : Option State :=
  if s.xferMode = .spi then spiWriteBits (outSlots .seq (seqBits s)) (enterPhase .seq s.seqLen.toNat s)
  else some (gWriteBits (seqBits s) (gEnsureDriven (enterPhase .seq s.seqLen.toNat s)))

/-- The operation SEQ (R160 to R164): refused unless `DEBUG_PORT = SWD` (R161); it ends with the line driven at the last
bit and is not restored high (R163). -/
def sequence (bitCount : Byte) (bits : List Byte) (s : State) : Host.Outcome State Fault Refusal :=
  accept s <|
    if s.debugPort = .swd then ofRun ((seqBody (seqStart bitCount bits s)).map (finish statusDone))
    else .next (raiseResult statusRefused s)

/-- `seq n, bytes` (R160). A term whose bytes are not `⌈n/8⌉` is no operation of the command port (R95; log 31). -/
def execSeq (bitCount : Byte) (bits : List Byte) (s : State) : Host.Outcome State Fault Refusal :=
  if bits.length = seqByteCount bitCount then sequence bitCount bits s else .refused .operandLength

end Sys2Proof.Machine
end

