-- ==== Sys2Proof/Machine/Transfer.lean ====
section
/-! DEFINITION. The SWD transfer XFER (41_swd_transfer.md), on the GPIO backend as R144 gives it and on the SPI backend
as R222 gives it, and the meanings of its two rows. Each stage runs from its phase to the end of the transaction (R26). -/

namespace Sys2Proof.Machine

/-- The start of an XFER (R124): the operand is latched, the write data when `REQ[1] = 0`, the flags are cleared. -/
def xferStart (request : Byte) (data : Word) (s : State) : State :=
  clearFlags { s with req := request, wdata := if request.getLsbD 1 then s.wdata else data }

/-! The transaction on the GPIO backend -/

/-- After the data phase of an OK transaction: timestamp, idle cycles, line high, result (R135 to R137). For a read the line
was taken before it, so the events of the idle cycles stand after `OE=1` (the last sentence of 43_gpio_backend.md R201 has
them before; DEDUCED, log 34). -/
def gFinishOk (s : State) : State :=
  let s := timestampIfAsked s
  let s := gLowCycles s.idleCycles.toNat (enterPhase .idlec s.idleCycles.toNat s)
  let s := gDrive true s
  finish (okCode s) s

/-- `n` data bits are sampled while `PAR` accumulates them (R130, 40_parity.md R115). -/
def gReadData : Nat → State → List Bool × State
  | 0, s => ([], s)
  | n + 1, s =>
    let (b, s1) := gRead s
    let (bs, s2) := gReadData n { s1 with par := s1.par ^^ b }
    (b :: bs, s2)

/-- Data bits are driven while `PAR` accumulates them (R142, 40_parity.md R115). -/
def gWriteData : List Bool → State → State
  | [], s => s
  | b :: bs, s =>
    let s1 := gWrite b s
    gWriteData bs { s1 with par := s1.par ^^ b }

/-- The read data phase, its parity check and the trailing turnaround (R130 to R133), then the end of R135 to R137.
`OE=1` ends the turnaround and comes before the idle cycles (R132, R144; DEDUCED, log 34). -/
def gRdata (s : State) : State :=
  let s := { enterPhase .rdata 32 (gEnsureReleased s) with par := false }
  let (v, s) := gReadData 32 s
  let (p, s) := gRead (enterPhase .rpar 1 s)
  let s := checkParity p { s with rdata := ofBits 32 v }
  let s := gIdleCycles s.turnaround (enterPhase .trnR s.turnaround s)
  gFinishOk (gOutEnable s)

/-- The write data phase with its parity bit (R142, R143), then the end of R135 to R137. -/
def gWdata (s : State) : State :=
  let s := { enterPhase .wdata 32 (gEnsureDriven s) with par := false }
  let s := gWriteData (bitsOf s.wdata) s
  let s := gWriteBits [s.par] (enterPhase .wpar 1 s)
  gFinishOk s

/-- The turnaround before write data (R141), then the write data phase. -/
def gTrnW (s : State) : State :=
  gWdata (gOutEnable (gIdleCycles s.turnaround (enterPhase .trnW s.turnaround s)))

/-- WAIT or FAULT (R138, R139): the dummy data phase when `data_phase` is enabled, and the turnaround. -/
def gNak (s : State) : State :=
  let s := if s.dataPhase && s.rnw then gIdleCycles 33 (enterPhase .dummyR 33 s) else s
  let s := gOutEnable (gIdleCycles s.turnaround (enterPhase .trnF s.turnaround s))
  let s := if s.dataPhase && !s.rnw then gLowCycles 33 (enterPhase .dummyW 33 s) else s
  let s := gDrive true s
  finish (s.ack.setWidth 8) s

/-- An invalid acknowledge (R140): the recovery sequence of T + 33 released cycles. -/
def gRecov (s : State) : State :=
  let s := gIdleCycles (s.turnaround + 33) (enterPhase .recov (s.turnaround + 33) s)
  finish errorCode (gDrive true s)

/-- Dispatch on the acknowledge, the only branch of the sequencer (R128). -/
def gDispatch (s : State) : State :=
  match ackClass s.ack with
  | .ok => if s.rnw then gRdata s else gTrnW s
  | .wait => gNak s
  | .fault => gNak s
  | .error => gRecov s

/-- The acknowledge phase (R127), then the dispatch. -/
def gAcks (s : State) : State :=
  let (bits, s) := gReadBits 3 (enterPhase .acks 3 (gEnsureReleased s))
  gDispatch (latchAck (ofBits 3 bits) s)

/-- The body of XFER on the GPIO backend, from the request on (R125 to R143; R144). The turnaround after a write's
acknowledge stands with the path the acknowledge selects, not in the header (log 18). -/
def gXfer (s : State) : State :=
  let (bits, s) := gRequestHeader (requestByte (requestNibble s.req)) false s
  gDispatch (latchAck (ofBits 3 bits) s)

/-! The transaction on the SPI backend -/

/-- After the data phase of an OK transaction (R222, last lines; step I of R217). -/
def spiFinishOk (s : State) : Option State :=
  let s := timestampIfAsked s
  (spiLowCycles .idlec s.idleCycles.toNat (enterPhase .idlec s.idleCycles.toNat s)).map fun s =>
    let s := spiDrive true s
    finish (okCode s) s

/-- Step D-r: data, parity and trailing turnaround in one run (R217). -/
def spiRdata (s : State) : Option State :=
  let t := s.turnaround
  (spiReadBits (inSlots .rdata true 32 ++ inSlots .rpar true 1 ++ inSlots .trnR false t) s).bind fun (bits, s) =>
    let v := ofBits 32 (bits.take 32)
    let s := checkParity (bits.getD 32 false) { s with rdata := v, par := par32 v }
    spiFinishOk (spiOutEnable s)

/-- Step D-w: data and parity in one run, with the extra bit when `SPI_WR33_WORKAROUND` holds (R217, R220). -/
def spiWdata (s : State) : Option State :=
  let s := { s with par := par32 s.wdata }
  let extra := if s.params.wr33 then outSlots .wextra [false] else []
  (spiWriteBits (outSlots .wdata (bitsOf s.wdata) ++ outSlots .wpar [s.par] ++ extra) s).bind spiFinishOk

/-- Steps F-r1 and F-r0 of a read, F-w1 and F-w0 of a write, whose turnaround was the tail of the header (R217). -/
def spiNak (s : State) : Option State :=
  let t := s.turnaround
  let run :=
    if s.rnw then
      (spiReadBits ((if s.dataPhase then inSlots .dummyR false 33 else []) ++ inSlots .trnF false t) s).map
        fun (_, s) => spiOutEnable s
    else if s.dataPhase then spiLowCycles .dummyW 33 (spiOutEnable s)
    else some (spiOutEnable s)
  run.map fun s =>
    let s := spiDrive true s
    finish (s.ack.setWidth 8) s

/-- Steps X-r and X-w: what is left of the T + 33 recovery cycles after the header (R217). -/
def spiRecov (s : State) : Option State :=
  let left := if s.rnw then s.turnaround + 33 else 33
  (spiReadBits (inSlots .recov false left) s).map fun (_, s) => finish errorCode (spiDrive true s)

/-- The released cycles after a write's acknowledge, the tail of step H-w: they belong to the phase the acknowledge
selects (R217, R222). -/
def spiTail (ack : BitVec 3) (s : State) : List InSlot :=
  if s.rnw then []
  else
    match ackClass ack with
    | .ok => inSlots .trnW false s.turnaround
    | .wait => inSlots .trnF false s.turnaround
    | .fault => inSlots .trnF false s.turnaround
    | .error => (inSlots .recov false (s.turnaround + 33)).take s.turnaround

/-- Dispatch on the acknowledge after the header shift (R222). -/
def spiDispatch (s : State) : Option State :=
  match ackClass s.ack with
  | .ok => if s.rnw then spiRdata s else spiWdata s
  | .wait => spiNak s
  | .fault => spiNak s
  | .error => spiRecov s

/-- The acknowledge window and the tail as a run of their own, then the dispatch: how a transaction found at the start
of its acknowledge phase goes on (log 20). -/
def spiAcks (s : State) : Option State :=
  (spiReadBits (inSlots .acks true 3 ++ spiTail (ofBits 3 (s.peekAnswers 3)) s) s).bind fun (bits, s) =>
    spiDispatch (latchAck (ofBits 3 (bits.take 3)) s)

/-- `send_request_header` on the SPI backend: steps H-r and H-w (R216, R217). -/
def spiRequestHeader (rb : Byte) (s : State) : Option (List Bool × State) :=
  let t := s.turnaround
  spiRun (outSlots .req (bitsOf rb))
    (inSlots .trn1 false t ++ inSlots .acks true 3 ++ spiTail (ofBits 3 (s.peekAnswers 3)) s) s

/-- The body of XFER on the SPI backend (R222). -/
def spiXfer (s : State) : Option State :=
  let t := s.turnaround
  (spiRequestHeader (requestByte (requestNibble s.req)) s).bind fun (bits, s) =>
    spiDispatch (latchAck (ofBits 3 ((bits.drop t).take 3)) s)

/-! The backend in use -/

/-- The rest of an XFER from its request phase, on the backend of `XFER_MODE` (10_state.md R36, 44_spi_backend.md R210). -/
def xferBody (s : State) : Option State := if s.xferMode = .spi then spiXfer s else some (gXfer s)

/-- The rest of an XFER from its acknowledge phase. -/
def xferAcks (s : State) : Option State := if s.xferMode = .spi then spiAcks s else some (gAcks s)

/-- The rest of an XFER from its read data phase. -/
def xferRdata (s : State) : Option State := if s.xferMode = .spi then spiRdata s else some (gRdata s)

/-- The rest of an XFER from its write data phase. -/
def xferWdata (s : State) : Option State := if s.xferMode = .spi then spiWdata s else some (gWdata s)

/-- XFER (R120 to R147): refused unless `DEBUG_PORT = SWD` (R122), else one transaction to its end. -/
def xfer (request : Byte) (data : Word) (s : State) : Host.Outcome State Fault Refusal :=
  accept s <|
    if s.debugPort = .swd then ofRun (xferBody (xferStart request data s))
    else .next (raiseResult statusRefused s)

/-- `xfer.r` (R120, R100). A read has no data operand and does not latch `WDATA` (R121, R124). -/
def execXferR (request : XferReq) (s : State) : Host.Outcome State Fault Refusal :=
  xfer (requestOperand true request) s.wdata s

/-- `xfer.w` (R120, R100). -/
def execXferW (request : XferReq) (data : Word) (s : State) : Host.Outcome State Fault Refusal :=
  xfer (requestOperand false request) data s

end Sys2Proof.Machine
end

