-- ==== Sys2Proof/Machine/Pseudo.lean ====
section
/-! DEFINITION. The pseudo-operations (30_encoding.md R100): the semantics of each are those of its expansion. -/

namespace Sys2Proof.Machine

/-- `linereset n`: `seq n, 0xFF ...`. -/
def execLinereset (count : Byte) (s : State) : Host.Outcome State Fault Refusal :=
  sequence count (seqFill count 0xFF#8) s

/-- `jtag2swd`: `seq 16, 0x9E, 0xE7`. -/
def execJtag2swd (s : State) : Host.Outcome State Fault Refusal := sequence 16#8 [0x9E#8, 0xE7#8] s

/-- `swd2jtag`: `seq 16, 0x3C, 0xE7`. -/
def execSwd2jtag (s : State) : Host.Outcome State Fault Refusal := sequence 16#8 [0x3C#8, 0xE7#8] s

/-- `idle n`: `seq n, 0x00 ...`. -/
def execIdle (count : Byte) (s : State) : Host.Outcome State Fault Refusal :=
  sequence count (seqFill count 0x00#8) s

/-- `idcode`: `xfer.r dp, 0x0`. -/
def execIdcode (s : State) : Host.Outcome State Fault Refusal := xfer 0x02#8 s.wdata s

/-- `rdbuff`: `xfer.r dp, 0xC`. -/
def execRdbuff (s : State) : Host.Outcome State Fault Refusal := xfer 0x0E#8 s.wdata s

/-- `abort v`: `xfer.w dp, 0x0, v`. -/
def execAbort (value : Word) (s : State) : Host.Outcome State Fault Refusal := xfer 0x00#8 value s

end Sys2Proof.Machine
end

