-- ==== Sys2Proof/Machine/WireFormats.lean ====
section
/-! DEFINITION. The rows of the wire formats: REQ8 (30_encoding.md R81, R82), ACK3 (R84, R85) and DATA33 (R86). Each is
the item that stands on the wire in its phase of an XFER, and its meaning is what the engine does with it there and from
there to the end of the transaction (10_state.md R26; log 13). Each is taken at the start of its phase, with the full count
of cycles that R25 gives the phase at entry; what `BITCNT` holds in the state is not looked at (DESIGN CHOICE, log 33). On
the SPI backend the phase may begin inside a shift (44_spi_backend.md R217), which the peripheral finishes. -/

namespace Sys2Proof.Machine

/-- A request packet in PHASE = REQ: the engine sends all its 8 cycles (41_swd_transfer.md R125; log 33). -/
def requestItem (nibble : Nibble) (s : State) : Host.Outcome State Fault Refusal :=
  if s.phase = .req then ofRun (xferBody (shiftFinished { s with req := s.req.extractLsb' 4 4 ++ nibble }))
  else .refused .notInPhase

def execReq8DpW0 (s : State) : Host.Outcome State Fault Refusal := requestItem 0x0#4 s
def execReq8ApW0 (s : State) : Host.Outcome State Fault Refusal := requestItem 0x1#4 s
def execReq8DpR0 (s : State) : Host.Outcome State Fault Refusal := requestItem 0x2#4 s
def execReq8ApR0 (s : State) : Host.Outcome State Fault Refusal := requestItem 0x3#4 s
def execReq8DpW4 (s : State) : Host.Outcome State Fault Refusal := requestItem 0x4#4 s
def execReq8ApW4 (s : State) : Host.Outcome State Fault Refusal := requestItem 0x5#4 s
def execReq8DpR4 (s : State) : Host.Outcome State Fault Refusal := requestItem 0x6#4 s
def execReq8ApR4 (s : State) : Host.Outcome State Fault Refusal := requestItem 0x7#4 s
def execReq8DpW8 (s : State) : Host.Outcome State Fault Refusal := requestItem 0x8#4 s
def execReq8ApW8 (s : State) : Host.Outcome State Fault Refusal := requestItem 0x9#4 s
def execReq8DpR8 (s : State) : Host.Outcome State Fault Refusal := requestItem 0xA#4 s
def execReq8ApR8 (s : State) : Host.Outcome State Fault Refusal := requestItem 0xB#4 s
def execReq8DpWC (s : State) : Host.Outcome State Fault Refusal := requestItem 0xC#4 s
def execReq8ApWC (s : State) : Host.Outcome State Fault Refusal := requestItem 0xD#4 s
def execReq8DpRC (s : State) : Host.Outcome State Fault Refusal := requestItem 0xE#4 s
def execReq8ApRC (s : State) : Host.Outcome State Fault Refusal := requestItem 0xF#4 s

/-- The general pattern of the sixteen rows above (R81). -/
def execReq8 (nibble : Nibble) (s : State) : Host.Outcome State Fault Refusal := requestItem nibble s

/-- An acknowledge in PHASE = ACKS: the target answers these three bits, and the engine samples them and takes the path
they select (41_swd_transfer.md R127, R128). All 3 cycles are sampled (log 33). -/
def ackItem (ack : BitVec 3) (s : State) : Host.Outcome State Fault Refusal :=
  if s.phase = .acks then ofRun (xferAcks (shiftFinished (s.withAnswers (bitsOf ack))))
  else .refused .notInPhase

def execAck3Invalid0 (s : State) : Host.Outcome State Fault Refusal := ackItem 0#3 s
def execAck3Ok (s : State) : Host.Outcome State Fault Refusal := ackItem 1#3 s
def execAck3Wait (s : State) : Host.Outcome State Fault Refusal := ackItem 2#3 s
def execAck3Invalid3 (s : State) : Host.Outcome State Fault Refusal := ackItem 3#3 s
def execAck3Fault (s : State) : Host.Outcome State Fault Refusal := ackItem 4#3 s
def execAck3Invalid5 (s : State) : Host.Outcome State Fault Refusal := ackItem 5#3 s
def execAck3Invalid6 (s : State) : Host.Outcome State Fault Refusal := ackItem 6#3 s
def execAck3Invalid7 (s : State) : Host.Outcome State Fault Refusal := ackItem 7#3 s

/-- A data phase: in PHASE = RDATA the target sends these 33 bits (41_swd_transfer.md R130 to R133), in PHASE = WDATA
the engine sends the data with the parity it computes itself (R142, R143). All 32 data cycles are run (log 33). -/
def execData33 (data : Word) (parity : Bool) (s : State) : Host.Outcome State Fault Refusal :=
  if s.phase = .rdata then ofRun (xferRdata (shiftFinished (s.withAnswers (data33Bits data parity))))
  else if s.phase = .wdata then ofRun (xferWdata (shiftFinished { s with wdata := data }))
  else .refused .notInPhase

end Sys2Proof.Machine
end

