-- ==== Sys2Proof/Machine/Dispatch.lean ====
section
/-! DEFINITION. The dispatch: one arm for each row of the opcode table. -/

namespace Sys2Proof.Machine

def exec (i : Instr) (s : State) : Host.Outcome State Fault Refusal :=
  match i with
  | .connect portId => Sys2Proof.Machine.execConnect portId s
  | .disconnect => Sys2Proof.Machine.execDisconnect s
  | .cfgIdle idleCycles => Sys2Proof.Machine.execCfgIdle idleCycles s
  | .clk freq => Sys2Proof.Machine.execClk freq s
  | .seq bitCount bits => Sys2Proof.Machine.execSeq bitCount bits s
  | .cfgSwd cfg => Sys2Proof.Machine.execCfgSwd cfg s
  | .xferR request => Sys2Proof.Machine.execXferR request s
  | .xferW request data => Sys2Proof.Machine.execXferW request data s
  | .anyOtherOp op => Sys2Proof.Machine.execAnyOtherOp op s
  | .req8DpW0 => Sys2Proof.Machine.execReq8DpW0 s
  | .req8ApW0 => Sys2Proof.Machine.execReq8ApW0 s
  | .req8DpR0 => Sys2Proof.Machine.execReq8DpR0 s
  | .req8ApR0 => Sys2Proof.Machine.execReq8ApR0 s
  | .req8DpW4 => Sys2Proof.Machine.execReq8DpW4 s
  | .req8ApW4 => Sys2Proof.Machine.execReq8ApW4 s
  | .req8DpR4 => Sys2Proof.Machine.execReq8DpR4 s
  | .req8ApR4 => Sys2Proof.Machine.execReq8ApR4 s
  | .req8DpW8 => Sys2Proof.Machine.execReq8DpW8 s
  | .req8ApW8 => Sys2Proof.Machine.execReq8ApW8 s
  | .req8DpR8 => Sys2Proof.Machine.execReq8DpR8 s
  | .req8ApR8 => Sys2Proof.Machine.execReq8ApR8 s
  | .req8DpWC => Sys2Proof.Machine.execReq8DpWC s
  | .req8ApWC => Sys2Proof.Machine.execReq8ApWC s
  | .req8DpRC => Sys2Proof.Machine.execReq8DpRC s
  | .req8ApRC => Sys2Proof.Machine.execReq8ApRC s
  | .req8 nibble => Sys2Proof.Machine.execReq8 nibble s
  | .ack3Invalid0 => Sys2Proof.Machine.execAck3Invalid0 s
  | .ack3Ok => Sys2Proof.Machine.execAck3Ok s
  | .ack3Wait => Sys2Proof.Machine.execAck3Wait s
  | .ack3Invalid3 => Sys2Proof.Machine.execAck3Invalid3 s
  | .ack3Fault => Sys2Proof.Machine.execAck3Fault s
  | .ack3Invalid5 => Sys2Proof.Machine.execAck3Invalid5 s
  | .ack3Invalid6 => Sys2Proof.Machine.execAck3Invalid6 s
  | .ack3Invalid7 => Sys2Proof.Machine.execAck3Invalid7 s
  | .data33 data parity => Sys2Proof.Machine.execData33 data parity s
  | .cfg8 cfg => Sys2Proof.Machine.execCfg8 cfg s
  | .linereset count => Sys2Proof.Machine.execLinereset count s
  | .jtag2swd => Sys2Proof.Machine.execJtag2swd s
  | .swd2jtag => Sys2Proof.Machine.execSwd2jtag s
  | .idle count => Sys2Proof.Machine.execIdle count s
  | .idcode => Sys2Proof.Machine.execIdcode s
  | .rdbuff => Sys2Proof.Machine.execRdbuff s
  | .abort value => Sys2Proof.Machine.execAbort value s

end Sys2Proof.Machine
end

