-- ==== Sys2Proof/Machine/Fetch.lean ====
section
/-! DEFINITION. What the machine takes up next: an operation of the command port while `PHASE = IDLE` (10_state.md R27),
inside a transaction the item that starts on the wire at its phase (R25; log 13), and at any other position what is left of
the operation (R26; log 14). -/

namespace Sys2Proof.Machine

/-- What is fetched in a state. -/
inductive Fetched where
  /-- The command port is empty: the block waits (70_reset_and_hazards.md R300). -/
  | nothing
  /-- An instruction, and the state once its words have been taken. -/
  | item (i : Instr) (s : State)
  /-- Inside an operation, with no item about to start: what is left of the operation runs (R26). -/
  | rest
  /-- Nothing can be taken up. -/
  | none (r : Refusal)
deriving DecidableEq, Repr

/-- The bytes of a wire item of up to 40 bits, bit 0 first. -/
def itemBytes (bits : List Bool) : List Byte := bytesOfWord (ofBits 32 (bits.take 32)) ++ [ofBits 8 (bits.drop 32)]

/-- At the start of a phase of `count` cycles, the instruction a decoder reads from the phase's item, the state being left
as it is; past the start the phase goes on from where it stands (R25, R26). -/
def fetchItem (count : BitVec 9) (f : Format) (bytes : List Byte) (s : State) : Fetched :=
  if s.bitcnt = count then
    match decode f bytes with
    | .ok i _ => .item i s
    | .bad _ => .rest
  else .rest

/-- The operation at the head of the command port; its bytes are taken from the port. -/
def fetchCommand (s : State) : Fetched :=
  if s.cmd = [] then .nothing
  else
    match decode .cmd s.cmd with
    | .ok i rest => .item i { s with cmd := rest }
    | .bad _ => .none .truncatedCommand

/-- The fetch. The request packet is the one the engine forms from `REQ` (41_swd_transfer.md R125), the acknowledge and
the read data are what the target answers (R127, R130), the write data is the one it forms from `WDATA` (R142, R143). -/
def fetch (s : State) : Fetched :=
  match s.phase with
  | .idle => fetchCommand s
  | .req => fetchItem 8#9 .req8 [requestByte (requestNibble s.req)] s
  | .acks => fetchItem 3#9 .ack3 [ofBits 8 (s.peekAnswers 3)] s
  | .rdata => fetchItem 32#9 .data33 (itemBytes (s.peekAnswers 33)) s
  | .wdata => fetchItem 32#9 .data33 (itemBytes (data33Bits s.wdata (par32 s.wdata))) s
  | .trn1 | .rpar | .trnR | .trnW | .wpar | .wextra | .idlec | .dummyR | .trnF | .dummyW | .recov | .seq => .rest

/-- The bits of a table word, bit 0 first. -/
def wordBits (n w : Nat) : List Bool := (List.range n).map w.testBit

/-- A word of the opcode table is put where the fetch takes it (log 15): an operation on the command port, a request
packet into `REQ` at PHASE = REQ, an acknowledge or read data into the target's next answers at their phase. -/
def placeWord (nbits w : Nat) (s : State) : State :=
  match tableFormat nbits w with
  | .cmd => { s with phase := .idle, bitcnt := 0#9, cmd := tableBytes w }
  | .req8 => { s with phase := .req, bitcnt := 8#9,
                      req := s.req.extractLsb' 4 4 ++ (BitVec.ofNat 8 w).extractLsb' 1 4 }
  | .ack3 => { s.withAnswers (wordBits 3 w) with phase := .acks, bitcnt := 3#9 }
  | .data33 => { s.withAnswers (wordBits 33 w) with phase := .rdata, bitcnt := 32#9 }
  | .cfg8 => s

end Sys2Proof.Machine
end

