-- ==== Sys2Proof/Machine/Resume.lean ====
section
/-! DEFINITION. The rest of an operation from any position inside it (10_state.md R25, R26): the wire cycles that `BITCNT`
still counts in its phase, then the phases that follow, to `PHASE = IDLE`. It is written once over both backends, which
offer the same capabilities (43_gpio_backend.md R191). What the spec leaves open about such a position is log 14. -/

namespace Sys2Proof.Machine

/-! The capabilities of either backend -/

/-- Driven cycles on the GPIO backend, each at its position (43_gpio_backend.md R195). -/
def gRunOut : List OutSlot → State → State
  | [], s => s
  | x :: xs, s => gRunOut xs (gWrite x.bit { s with phase := x.phase, bitcnt := x.left })

/-- Released cycles on the GPIO backend, each at its position: a sample (R197) or the clock alone (R194). It answers the
sampled bits. -/
def gRunIn : List InSlot → State → List Bool × State
  | [], s => ([], s)
  | x :: xs, s =>
    let s := { s with phase := x.phase, bitcnt := x.left }
    if x.used then
      let (b, s1) := gRead s
      let (bs, s2) := gRunIn xs s1
      (b :: bs, s2)
    else gRunIn xs (gCycle s)

/-- Driven and then released cycles on the GPIO backend; the line is taken and released as each part needs it (log 19). -/
def gRun (outs : List OutSlot) (ins : List InSlot) (s : State) : List Bool × State :=
  let s := if outs.isEmpty then s else gRunOut outs (gEnsureDriven s)
  if ins.isEmpty then ([], s) else gRunIn ins (gEnsureReleased s)

/-- Driven and then released cycles on the backend in use; it answers the bits of the samples (R198; 44_spi_backend.md
R216, R219). -/
def backendRun (outs : List OutSlot) (ins : List InSlot) (s : State) : Option (List Bool × State) :=
  if s.xferMode = .spi then (spiRun outs ins s).map fun (bits, t) => (usedBits ins bits, t) else some (gRun outs ins s)

/-- `n` cycles with the line driven low on the backend in use (R201; 44_spi_backend.md R216). -/
def lowRun (p : Phase) (n : Nat) (s : State) : Option State :=
  if s.xferMode = .spi then spiLowCycles p n (enterPhase p n s)
  else some (gLowCycles n (enterPhase p n (gEnsureDriven s)))

/-- The engine takes the line back after released cycles (41_swd_transfer.md R132, R138). -/
def takeLine (s : State) : State := if s.xferMode = .spi then spiOutEnable s else gOutEnable s

/-- `drive(1)` and the result (41_swd_transfer.md R137, R139, R140). -/
def restore (code : Byte) (s : State) : State :=
  finish code (if s.xferMode = .spi then spiDrive true s else gDrive true s)

/-! The rest of each path -/

/-- A register into which an item is taken bit by bit: the bits of the cycles that are done keep their places, those of
the cycles left come above them (R63: least significant bit first). -/
def joinBits {w : Nat} (done : BitVec w) (left : List Bool) : BitVec w :=
  ofBits w ((bitsOf done).take (w - left.length) ++ left)

/-- What follows the data phase of an OK transaction (R135 to R137). -/
def restOk (s : State) : Option State := if s.xferMode = .spi then spiFinishOk s else some (gFinishOk s)

/-- Dispatch on the acknowledge (R128). -/
def restDispatch (s : State) : Option State := if s.xferMode = .spi then spiDispatch s else some (gDispatch s)

/-- The rest of the header: request bits, `k` turnaround cycles, the last `m` acknowledge bits (R125 to R127), then the
dispatch. On the SPI backend a write's turnaround belongs to the same run (44_spi_backend.md R217, step H-w). -/
def restHeader (outs : List OutSlot) (k m : Nat) (s : State) : Option State :=
  let tail := if s.xferMode = .spi then spiTail (joinBits s.ack (s.peekAnswers m)) s else []
  (backendRun outs (inSlots .trn1 false k ++ inSlots .acks true m ++ tail) s).bind fun (bits, s) =>
    restDispatch (latchAck (joinBits s.ack bits) s)

/-- The rest of a read data phase: the last `n` data bits, `m` parity bits, the trailing turnaround (R130 to R133). The
data bits already received stand in `RDATA` (log 14). -/
def restRead (n m : Nat) (s : State) : Option State :=
  let ins := inSlots .rdata true n ++ inSlots .rpar true m ++ inSlots .trnR false s.turnaround
  (backendRun [] ins s).bind fun (bits, s) =>
    let v := joinBits s.rdata (bits.take n)
    let s := { s with rdata := v, par := par32 v }
    restOk (takeLine (if m = 0 then s else checkParity (bits.getD n false) s))

/-- The rest of a write data phase: the data bits from bit `k` on, `m` parity bits, the extra cycle of the workaround
(R142, R143; 44_spi_backend.md R220). `PAR` is the parity of `WDATA` there (R143). -/
def restWrite (k m : Nat) (s : State) : Option State :=
  let s := { s with par := par32 s.wdata }
  let extra := if s.xferMode = .spi ∧ s.params.wr33 = true then outSlots .wextra [false] else []
  (backendRun (outSlots .wdata ((bitsOf s.wdata).drop k) ++ outSlots .wpar (List.replicate m s.par) ++ extra) [] s).bind
    fun (_, s) => restOk s

/-- The rest of a WAIT or FAULT: `n` cycles of the dummy read, `k` of the turnaround (R138), then the dummy write of a
write (R138, R139). -/
def restNak (n k : Nat) (s : State) : Option State :=
  (backendRun [] (inSlots .dummyR false n ++ inSlots .trnF false k) s).bind fun (_, s) =>
    let s := takeLine s
    (if s.dataPhase && !s.rnw then lowRun .dummyW 33 s else some s).map (restore (s.ack.setWidth 8))

/-- What is left of the operation from its position (R25, R26). A phase with `BITCNT = 0` has no cycle left and is passed
over (R26). -/
def restOfOperation (s : State) : Option State :=
  let n := s.bitcnt.toNat
  let t := s.turnaround
  match s.phase with
  | .idle => some s
  | .req => restHeader (outSlots .req ((bitsOf (requestByte (requestNibble s.req))).drop (8 - n))) t 3 s
  | .trn1 => restHeader [] n 3 s
  | .acks => restHeader [] 0 n s
  | .rdata => restRead n 1 s
  | .rpar => restRead 0 n s
  | .trnR => (backendRun [] (inSlots .trnR false n) s).bind fun (_, s) => restOk (takeLine s)
  | .trnW => (backendRun [] (inSlots .trnW false n) s).bind fun (_, s) => restWrite 0 1 s
  | .wdata => restWrite (32 - n) 1 s
  | .wpar => restWrite 32 n s
  | .wextra => (lowRun .wextra n s).bind restOk
  | .idlec => (lowRun .idlec n s).map fun s => restore (okCode s) s
  | .dummyR => restNak n t s
  | .trnF => restNak 0 n s
  | .dummyW => (lowRun .dummyW n s).map fun s => restore (s.ack.setWidth 8) s
  | .recov => (backendRun [] (inSlots .recov false n) s).map fun (_, s) => restore errorCode s
  | .seq =>
    (backendRun (outSlots .seq ((seqBits s).drop (s.seqLen.toNat - n))) [] s).map fun (_, s) => finish statusDone s

/-- An operation once started runs to `PHASE = IDLE` (R26): the step of a machine found inside one. -/
def resume (s : State) : Host.Outcome State Fault Refusal := ofRun (restOfOperation (shiftFinished s))

end Sys2Proof.Machine
end

