-- ==== Sys2Proof/Machine/Step.lean ====
section
/-! DEFINITION. One step of the machine: one operation, from its acceptance, or from the position inside it, to its end (log 1). -/

namespace Sys2Proof.Machine

/-- The step: what is fetched is executed; with an empty command port the block waits (70_reset_and_hazards.md R300); an
operation in progress goes on to its end (10_state.md R26). -/
def step (s : State) : Host.Outcome State Fault Refusal :=
  match fetch s with
  | .nothing => .next s
  | .item i t => exec i t
  | .rest => resume s
  | .none r => .refused r

/-- A word of the opcode table stored where `step` fetches its next instruction. -/
def State.withFetchWord (s : State) (nbits w : Nat) : State := placeWord nbits w s

end Sys2Proof.Machine
end

