-- ==== Sys2Proof/Machine/TransferEngine.lean ====
section
/-! DEFINITION. The host agent's Transfer Engine (48_host_transfer_engine.md): the block's caller, not the block
(00_scope.md R6). It reaches the block only through `exec` and reads back its results (R235). -/

namespace Sys2Proof.Machine

/-- What a host procedure answers: a value and the state, or why the block stopped. -/
abbrev HostRun (α : Type) : Type := Host.Outcome (α × State) Fault Refusal

/-- One host action after another. -/
def andThen {α β : Type} (r : HostRun α) (k : α → State → HostRun β) : HostRun β :=
  match r with
  | .next (a, s) => k a s
  | .fault f => .fault f
  | .refused q => .refused q

/-- The result byte OK (60_exceptions.md R270). -/
def codeOk : Byte := 0x01#8

/-- The result byte WAIT (R270). -/
def codeWait : Byte := 0x02#8

/-- MISMATCH, OR-ed into the result by the host alone (R246, 10_state.md R30). -/
def codeMismatch : Byte := 0x10#8

/-- The request operand of a read of RDBUFF (R244, D32). -/
def rdbuffRequest : Byte := 0x0E#8

/-- RnW of a request byte (R245). -/
def isRead (request : Byte) : Bool := request.getLsbD 1

/-- APnDP of a request byte (R245). -/
def isAp (request : Byte) : Bool := request.getLsbD 0

/-- MatchValue of a request byte (R245). -/
def isMatchValue (request : Byte) : Bool := request.getLsbD 4

/-- MatchMask of a request byte (R245). -/
def isMatchMask (request : Byte) : Bool := request.getLsbD 5

/-- The host polls its `abort` flag between two XFER operations (R241); the surrounding system may have written it since
the last poll (log 23). -/
def pollAbort (s : State) : Bool × State :=
  match s.inputs.abortPolls with
  | [] => (s.host.abort, s)
  | b :: bs => (b, { s with host := { s.host with abort := b }, inputs := { s.inputs with abortPolls := bs } })

/-- `post_read <- b` (R244, R251). -/
def setPostRead (b : Bool) (s : State) : State := { s with host := { s.host with postRead := b } }

/-- One XFER operation of the block for a request byte (R242). The byte is passed whole, its bits 4 and 5 included, as R245
and V-H3 show (decision D36 has the host take them out; DEDUCED, log 39). -/
def attemptXfer (request : Byte) (data : Word) (s : State) : Host.Outcome State Fault Refusal :=
  exec (if isRead request then .xferR (requestFields request) else .xferW (requestFields request) data) s

/-- The retry loop of `BUS` around one attempt, with `n` retries left (R242). -/
def busLoop (attempt : State → Host.Outcome State Fault Refusal) : Nat → State → HostRun Byte
  | 0, s =>
    match attempt s with
    | .next t => .next (t.result, t)
    | .fault f => .fault f
    | .refused q => .refused q
  | n + 1, s =>
    match attempt s with
    | .next t =>
      if t.result ≠ codeWait then .next (t.result, t)
      else
        let (aborted, u) := pollAbort t
        if aborted then .next (t.result, u) else busLoop attempt n u
    | .fault f => .fault f
    | .refused q => .refused q

/-- `BUS(request, data)` → result: at most `1 + retry_count` XFER operations (R242, 90_conflicts.md C1). -/
def bus (request : Byte) (data : Word) (s : State) : HostRun Byte :=
  busLoop (attemptXfer request data) s.host.retryCount.toNat s

/-! The Transfer command -/

/-- The variables of `TRANSFER` (R245). -/
structure Batch where
  completed : Byte
  ack : Byte
  checkWrite : Bool
  /-- The data words of the response, as bytes. -/
  out : List Byte
  /-- The request bytes not read yet. -/
  rest : List Byte
deriving DecidableEq, Repr

/-- `out.append(RDATA)` (R245), little-endian (R250). -/
def Batch.append (b : Batch) (v : Word) : Batch := { b with out := b.out ++ bytesOfWord v }

/-- The next 4 request bytes as a word (20_memory.md R64). -/
def takeWord : List Byte → Option (Word × List Byte)
  | b0 :: b1 :: b2 :: b3 :: rest => some (wordOfBytes b0 b1 b2 b3, rest)
  | _ => none

/-- What an entry ends with: whether the batch breaks off, and the batch. -/
abbrev Entry : Type := Bool × Batch

/-- `ack <- BUS(request, data)`, then `if ack != OK: break`, else go on (R245). -/
def busOrBreak (request : Byte) (data : Word) (b : Batch) (s : State) (k : Batch → State → HostRun Entry) :
    HostRun Entry :=
  andThen (bus request data s) fun r t =>
    if r = codeOk then k { b with ack := r } t else .next ((true, { b with ack := r }), t)

/-- A read entry first collects a posted AP read (R244, R245). -/
def collectForRead (request : Byte) (b : Batch) (s : State) (k : Batch → State → HostRun Entry) : HostRun Entry :=
  if s.host.postRead then
    if isAp request && !isMatchValue request then
      busOrBreak request 0#32 b s fun b t => k (b.append t.rdata) t
    else
      andThen (bus rdbuffRequest 0#32 s) fun r t =>
        let t := setPostRead false t
        if r = codeOk then k ({ b with ack := r }.append t.rdata) t else .next ((true, { b with ack := r }), t)
  else k b s

/-- Whether the data just read matches (R246). -/
def valueMatches (value : Word) (s : State) : Bool := (s.rdata &&& s.host.matchMask) = value

/-- The loop of a value-match read, with `m` re-reads left (R245, R246). -/
def matchLoop (request : Byte) (value : Word) : Nat → State → HostRun Byte
  | 0, s => bus request 0#32 s
  | m + 1, s =>
    andThen (bus request 0#32 s) fun r t =>
      if r ≠ codeOk ∨ valueMatches value t then .next (r, t)
      else
        let (aborted, u) := pollAbort t
        if aborted then .next (r, u) else matchLoop request value m u

/-- A value-match read after its value is known (R246): MISMATCH ends the batch. -/
def matchRead (request : Byte) (value : Word) (b : Batch) (s : State) : HostRun Entry :=
  andThen (matchLoop request value s.host.matchRetry.toNat s) fun r t =>
    let r := if r = codeOk && !valueMatches value t then r ||| codeMismatch else r
    .next ((r ≠ codeOk, { b with ack := r, checkWrite := false }), t)

/-- A value-match entry: an AP register is posted first (R245, R246). -/
def matchEntry (request : Byte) (b : Batch) (s : State) : HostRun Entry :=
  match takeWord b.rest with
  | none => .refused .truncatedCommand
  | some (value, rest) =>
    let b := { b with rest := rest }
    if isAp request then busOrBreak request 0#32 b s fun b t => matchRead request value b t
    else matchRead request value b s

/-- A read entry (R245). -/
def readEntry (request : Byte) (b : Batch) (s : State) : HostRun Entry :=
  collectForRead request b s fun b s =>
    if isMatchValue request then matchEntry request b s
    else if isAp request then
      if s.host.postRead then .next ((false, { b with checkWrite := false }), s)
      else
        busOrBreak request 0#32 b s fun b t => .next ((false, { b with checkWrite := false }), setPostRead true t)
    else
      busOrBreak request 0#32 b s fun b t => .next ((false, { b.append t.rdata with checkWrite := false }), t)

/-- A write entry first flushes a posted AP read (R245). -/
def flushForWrite (b : Batch) (s : State) (k : Batch → State → HostRun Entry) : HostRun Entry :=
  if s.host.postRead then
    busOrBreak rdbuffRequest 0#32 b s fun b t => k (b.append t.rdata) (setPostRead false t)
  else k b s

/-- A write entry (R245); a match-mask write is not transmitted (R247). It leaves `check_write` as it finds it, as R245's
pseudocode does: after an ordinary write the verification read of that write is still due (R248 and decision D45 can be
read otherwise; DEDUCED, log 38). -/
def writeEntry (request : Byte) (b : Batch) (s : State) : HostRun Entry :=
  flushForWrite b s fun b s =>
    match takeWord b.rest with
    | none => .refused .truncatedCommand
    | some (data, rest) =>
      let b := { b with rest := rest }
      if isMatchMask request then
        .next ((false, { b with ack := codeOk }), { s with host := { s.host with matchMask := data } })
      else busOrBreak request data b s fun b t => .next ((false, { b with checkWrite := true }), t)

/-- How many data bytes follow a request byte: 4 exactly when it is a write or a value-match read (R249). -/
def operandBytes (request : Byte) : Nat := if !isRead request || isMatchValue request then 4 else 0

/-- One entry of the request (R245). Its data bytes count as read even where it breaks off before it needs them, so that
the caller's request-length accounting stays correct (R249; log 32). -/
def transferEntry (b : Batch) (s : State) : HostRun Entry :=
  match b.rest with
  | [] => .refused .truncatedCommand
  | request :: rest =>
    if rest.length < operandBytes request then .refused .truncatedCommand
    else
      let b := { b with rest := rest }
      andThen (if isRead request then readEntry request b s else writeEntry request b s) fun e t =>
        .next ((e.1, { e.2 with rest := rest.drop (operandBytes request) }), t)

/-- The outer loop of `TRANSFER`; it answers how many entries are left unread (R245). `abort` is polled after each completed
entry and not before the first one (R241, R245; decision D45 has it before each entry; DEDUCED, log 35). -/
def transferLoop : Nat → Batch → State → HostRun (Nat × Batch)
  | 0, b, s => .next ((0, b), s)
  | n + 1, b, s =>
    andThen (transferEntry b s) fun e t =>
      if e.1 then .next ((n, e.2), t)
      else
        let b := { e.2 with completed := e.2.completed + 1#8 }
        let (aborted, u) := pollAbort t
        if aborted then .next ((n, b), u) else transferLoop n b u

/-- The walk over the entries after a failure, without bus activity (R249). -/
def skipEntries : Nat → List Byte → Option (List Byte)
  | 0, rest => some rest
  | _ + 1, [] => none
  | n + 1, request :: rest =>
    if rest.length < operandBytes request then none else skipEntries n (rest.drop (operandBytes request))

/-- The final flush of a posted read, or the verification read after a final write (R244, R248; log 38). -/
def transferEnd (b : Batch) (s : State) : HostRun Batch :=
  if b.ack ≠ codeOk then .next (b, s)
  else if s.host.postRead then
    andThen (bus rdbuffRequest 0#32 s) fun r t =>
      .next (if r = codeOk then { b with ack := r }.append t.rdata else { b with ack := r }, t)
  else if b.checkWrite then andThen (bus rdbuffRequest 0#32 s) fun r t => .next ({ b with ack := r }, t)
  else .next (b, s)

/-- `TRANSFER(count, entries)` (R245): the batch at its end. `post_read` is Idle before and after it (R251). -/
def transferBatch (count : Nat) (entries : List Byte) (s : State) : HostRun Batch :=
  let b : Batch := { completed := 0#8, ack := 0#8, checkWrite := false, out := [], rest := entries }
  andThen (transferLoop count b (setPostRead false s)) fun e t =>
    match skipEntries e.1 e.2.rest with
    | none => .refused .truncatedCommand
    | some rest => andThen (transferEnd { e.2 with rest := rest } t) fun b u => .next (b, setPostRead false u)

/-- The response of Transfer: `completed`, `last_ack`, then the data words (R250). A captured `TIMESTAMP` has no place in it
(DESIGN CHOICE, log 36). -/
def Batch.response (b : Batch) : List Byte := b.completed :: b.ack :: b.out

/-- A response stands in a buffer bounded by the negotiated packet size (R250). What the buffer holds when the response does
not fit is a free value (91_not_in_source.md N23; log 37); the bus transactions are not affected. -/
def boundedResponse (packetSize : BitVec 16) (response : List Byte) : List Byte :=
  if response.length ≤ packetSize.toNat then response
  else (Config.overlongResponse packetSize.toNat response).take packetSize.toNat

/-! TransferBlock and Write-Abort -/

/-- The reads of a block with `n` still to do: the last AP value comes from RDBUFF (R252). It answers the count completed
so far, the last result and the data. -/
def blockReads (request : Byte) : Nat → BitVec 16 → List Byte → State → HostRun (BitVec 16 × Byte × List Byte)
  | 0, done, out, s => .next ((done, codeOk, out), s)
  | n + 1, done, out, s =>
    andThen (bus (if isAp request && n == 0 then rdbuffRequest else request) 0#32 s) fun r t =>
      if r = codeOk then blockReads request n (done + 1#16) (out ++ bytesOfWord t.rdata) t
      else .next ((done, r, out), t)

/-- The writes of a block (R252). -/
def blockWrites (request : Byte) : List Word → BitVec 16 → State → HostRun (BitVec 16 × Byte)
  | [], done, s => .next ((done, codeOk), s)
  | w :: ws, done, s =>
    andThen (bus request w s) fun r t =>
      if r = codeOk then blockWrites request ws (done + 1#16) t else .next ((done, r), t)

/-- The response of TransferBlock: a 16-bit count, the last result, the data (R252). -/
def blockResponse (done : BitVec 16) (ack : Byte) (out : List Byte) : List Byte :=
  done.extractLsb' 0 8 :: done.extractLsb' 8 8 :: ack :: out

/-- The reads of a block: an AP register is posted first, and `post_read` is true from then to the XFER that collects the
last value (R251, R252). -/
def blockRead (count : Nat) (request : Byte) (s : State) : HostRun (List Byte) :=
  let reads := fun t => andThen (blockReads request count 0#16 [] t) fun e u => .next (blockResponse e.1 e.2.1 e.2.2, u)
  if isAp request then
    andThen (bus request 0#32 s) fun r t =>
      if r = codeOk then reads (setPostRead true t) else .next (blockResponse 0#16 r [], t)
  else reads s

/-- The writes of a block and their verification read (R252). -/
def blockWrite (request : Byte) (words : List Word) (s : State) : HostRun (List Byte) :=
  andThen (blockWrites request words 0#16 s) fun e t =>
    if e.2 = codeOk then andThen (bus rdbuffRequest 0#32 t) fun r u => .next (blockResponse e.1 r [], u)
    else .next (blockResponse e.1 e.2 [], t)

/-- `BLOCK(count, req, words)` (R252). `post_read` is Idle before and after it, also where it fails (R251). -/
def transferBlock (count : Nat) (request : Byte) (words : List Word) (s : State) : HostRun (List Byte) :=
  let s := setPostRead false s
  if count = 0 then .next (blockResponse 0#16 0#8 [], s)
  else
    andThen (if isRead request then blockRead count request s else blockWrite request words s) fun out t =>
      .next (out, setPostRead false t)

/-- Write-Abort: exactly one XFER, not retried (R253); it answers `RESULT`. -/
def writeAbort (data : Word) (s : State) : HostRun Byte :=
  match exec (.xferW (requestFields 0x00#8) data) s with
  | .next t => .next (t.result, t)
  | .fault f => .fault f
  | .refused q => .refused q

/-- `TransferConfigure` (R240): `idle_cycles` goes to the block, the two bounds stay with the host. -/
def transferConfigure (idleCycles : Byte) (retryCount matchRetry : BitVec 16) (s : State) : HostRun Byte :=
  match exec (.cfgIdle idleCycles) s with
  | .next t => .next (t.result, { t with host := { t.host with retryCount := retryCount, matchRetry := matchRetry } })
  | .fault f => .fault f
  | .refused q => .refused q

end Sys2Proof.Machine
end

