-- ==== Sys2Proof/Machine/CommandDispatcher.lean ====
section
/-! DEFINITION. The host agent's Command Dispatcher (48_host_transfer_engine.md section 6) over the commands of R236. The
opcode bytes are not in the source, so the table a packet is read by is `Config.hostOpcode` (log 22). -/

namespace Sys2Proof.Machine

/-- What a handler reports: how many request bytes it consumed, its opcode included, and its response (R255). -/
abbrev Handled : Type := Nat × List Byte

/-- The packed return value: the consumed bytes in the high half, the produced bytes in the low half, of `half` bits each
(R255). The width is not stated (R255, 91_not_in_source.md N29), so it is an argument, 16 for R255's 32-bit value; a count
that does not fit a half is cut to it (DESIGN CHOICE, log 41). The produced count holds no echo of the opcode
(95_test_vectors.md section 6; DEDUCED, log 40). -/
def packSizes (half : Nat) (h : Handled) : BitVec (half + half) := BitVec.ofNat half h.1 ++ BitVec.ofNat half h.2.length

/-- One operation of the block whose status byte is the response (R236), without an opcode echo (log 40). -/
def oneOperation (i : Instr) (consumed : Nat) (s : State) : HostRun Handled :=
  match exec i s with
  | .next t => .next ((consumed, [t.result]), t)
  | .fault f => .fault f
  | .refused q => .refused q

/-- The 2-byte little-endian field (20_memory.md R64). -/
def halfOfBytes (b0 b1 : Byte) : BitVec 16 := b1 ++ b0

/-- The next `n` words of a write block (R252). -/
def takeWords : Nat → List Byte → Option (List Word × List Byte)
  | 0, rest => some ([], rest)
  | n + 1, rest =>
    (takeWord rest).bind fun (w, rest) => (takeWords n rest).map fun (ws, rest) => (w :: ws, rest)

/-- The commands that are one operation of the block or configure the host (R236, R240). -/
def simpleCommand (op : HostOp) (payload : List Byte) (s : State) : HostRun Handled :=
  match op, payload with
  | .connect, portId :: _ => oneOperation (.connect portId) 2 s
  | .disconnect, _ => oneOperation .disconnect 1 s
  | .swdConfigure, cfg :: _ => oneOperation (.cfgSwd cfg) 2 s
  | .swjClock, b0 :: b1 :: b2 :: b3 :: _ => oneOperation (.clk (wordOfBytes b0 b1 b2 b3)) 5 s
  | .swjSequence, count :: bits =>
    if bits.length < seqByteCount count then .refused .truncatedCommand
    else oneOperation (.seq count (bits.take (seqByteCount count))) (2 + seqByteCount count) s
  | .transferConfigure, idleCycles :: r0 :: r1 :: m0 :: m1 :: _ =>
    andThen (transferConfigure idleCycles (halfOfBytes r0 r1) (halfOfBytes m0 m1) s) fun r t => .next ((6, [r]), t)
  | .writeAbort, _index :: b0 :: b1 :: b2 :: b3 :: _ =>
    andThen (writeAbort (wordOfBytes b0 b1 b2 b3) s) fun r t => .next ((6, [Config.abortStatus r]), t)
  | .vendor slot, _ =>
    .next ((1 + Config.vendorConsumed slot, boundedResponse s.host.packetSize (Config.vendorResponse slot)), s)
  | .unknown, _ => .next ((1, [Config.invalidMarker]), s)
  | _, _ => .refused .truncatedCommand

/-- `Transfer(index, count, entries)` (R245, R250). The response holds no opcode echo (log 40) and is bounded by the packet
size. -/
def transferCommand (payload : List Byte) (s : State) : HostRun Handled :=
  match payload with
  | _index :: count :: entries =>
    andThen (transferBatch count.toNat entries s) fun b t =>
      .next ((3 + (entries.length - b.rest.length), boundedResponse s.host.packetSize b.response), t)
  | _ => .refused .truncatedCommand

/-- `TransferBlock(index, count, request, words)` (R252). Its response is bounded and without an
opcode echo as that of Transfer is (log 37, 40). -/
def blockCommand (payload : List Byte) (s : State) : HostRun Handled :=
  match payload with
  | _index :: c0 :: c1 :: request :: rest =>
    let count := (halfOfBytes c0 c1).toNat
    let data := if isRead request then some ([], rest) else takeWords count rest
    match data with
    | none => .refused .truncatedCommand
    | some (words, after) =>
      andThen (transferBlock count request words s) fun out t =>
        .next ((5 + (rest.length - after.length), boundedResponse s.host.packetSize out), t)
  | _ => .refused .truncatedCommand

/-- The sub-commands of a batch, strictly in order (R256), each by the handler `one`. -/
def subCommands (one : List Byte → State → HostRun Handled) : Nat → List Byte → State → HostRun Handled
  | 0, _, s => .next ((0, []), s)
  | n + 1, bytes, s =>
    andThen (one bytes s) fun h t =>
      andThen (subCommands one n (bytes.drop h.1) t) fun hs u => .next ((h.1 + hs.1, h.2 ++ hs.2), u)

/-- The dispatcher (R255 to R258) with the opcode table `ops`; `fuel` bounds how deep batches are nested, which the length
of the packet does. A batch joins the responses of its sub-commands with no echo of any opcode (DEDUCED, log 40), in
the one response buffer of the packet (R250). -/
def dispatchCommand (ops : Byte → HostOp) : Nat → List Byte → State → HostRun Handled
  | 0, _, _ => .refused .truncatedCommand
  | _ + 1, [], _ => .refused .truncatedCommand
  | fuel + 1, opcode :: payload, s =>
    match ops opcode with
    | .transfer => transferCommand payload s
    | .transferBlock => blockCommand payload s
    | .executeCommands =>
      match payload with
      | [] => .refused .truncatedCommand
      | count :: subs =>
        andThen (subCommands (dispatchCommand ops fuel) count.toNat subs s) fun h t =>
          .next ((2 + h.1, boundedResponse s.host.packetSize h.2), t)
    | op => simpleCommand op payload s

/-- One command packet (R255, R259). -/
def dispatchPacket (packet : List Byte) (s : State) : HostRun Handled :=
  dispatchCommand Config.hostOpcode packet.length packet s

/-- The bounds of a build's packets (R259). -/
def packetBoundsOk (h : HostRegs) : Bool :=
  decide (64 ≤ h.packetSize.toNat) && decide (h.packetSize.toNat ≤ 32768) && decide (1 ≤ h.packetCount.toNat)

end Sys2Proof.Machine
end

