-- ==== Sys2Proof/Safety.lean ====
section
/-! DEFINITION. The terms the statements use: the resting state, the frame of a transaction as a list of wire cycles, and
what a legal list of pin events is. -/

namespace Sys2Proof.Machine

/-! The resting state -/

/-- Between two operations (60_exceptions.md R277, 41_swd_transfer.md R123, 43_gpio_backend.md R200 (d)): the sequencer is
idle, SWCLK rests high, the pins are driven exactly as `DEBUG_PORT` says, JTAG is never selected (10_state.md R32), and
the peripheral is done, holds nothing in sense and keeps its register widths (R39); `XFER_MODE` is SPI only where the
backend exists (44_spi_backend.md R211); the two causes of ERROR are never both set (60_exceptions.md R275). -/
def State.resting (s : State) : Bool :=
  s.phase == .idle && s.bitcnt == 0#9 && s.pins.swclkO &&
  (match s.debugPort with
    | .disabled => !s.pins.swclkOe && !s.pins.swdioOe
    | .swd => s.pins.swclkOe && s.pins.swdioOe
    | .jtag => false) &&
  !s.spi.busy && !s.spi.sense &&
  s.spi.buf.length == s.params.spiMaxBits &&
  decide (s.spi.outLen + s.spi.inLen ≤ s.params.spiMaxBits) &&
  (s.xferMode != .spi || s.params.hasSpi) &&
  !(s.perr && s.ackinv)

/-- The peripheral can take a shift, or is not in use (44_spi_backend.md R212: `SPI_BUSY = 0`). -/
def State.backendReady (s : State) : Prop := s.xferMode = .spi → s.spi.busy = false

/-- An operation on the wires is accepted (10_state.md R27; 41_swd_transfer.md R122; 42_sequence_and_config.md R161). -/
def State.swdReady (s : State) : Prop := s.phase = .idle ∧ s.debugPort = .swd ∧ s.backendReady

/-! Frames (30_encoding.md R87) -/

/-- The wire cycles of one phase, `BITCNT` counting down to 1 (10_state.md R25, R26). -/
def runOf (p : Phase) : List WireCycle → List CycleRec
  | [] => []
  | c :: cs => { phase := p, left := BitVec.ofNat 9 (cs.length + 1), cycle := c } :: runOf p cs

/-- Driven cycles (`D`). -/
def driven (bits : List Bool) : List WireCycle := bits.map .drive

/-- Sampled cycles (`S`). -/
def sampled (bits : List Bool) : List WireCycle := bits.map .sample

/-- Released cycles (`Z`). -/
def released (n : Nat) : List WireCycle := List.replicate n .released

/-- `n` cycles with the line low (`D0`). -/
def lows (n : Nat) : List WireCycle := driven (List.replicate n false)

/-- REQ8, T released cycles, ACK3. -/
def headerFrame (nibble : Nibble) (t : Nat) (ack : List Bool) : List CycleRec :=
  runOf .req (driven (bitsOf (requestByte nibble))) ++ runOf .trn1 (released t) ++ runOf .acks (sampled ack)

/-- 32 data bits and the parity bit sampled, T released cycles, I low cycles. -/
def readFrame (t idle : Nat) (bits : List Bool) : List CycleRec :=
  runOf .rdata (sampled (bits.take 32)) ++ runOf .rpar (sampled (bits.drop 32)) ++ runOf .trnR (released t) ++
    runOf .idlec (lows idle)

/-- 32 data bits and the parity bit driven, the extra cycle of the workaround, I low cycles. -/
def writeDataFrame (extra : Bool) (idle : Nat) (data : Word) : List CycleRec :=
  runOf .wdata (driven (bitsOf data)) ++ runOf .wpar (driven [par32 data]) ++
    (if extra then runOf .wextra (lows 1) else []) ++ runOf .idlec (lows idle)

/-- T released cycles, then the write data. -/
def writeFrame (extra : Bool) (t idle : Nat) (data : Word) : List CycleRec :=
  runOf .trnW (released t) ++ writeDataFrame extra idle data

/-- The turnaround after WAIT or FAULT with its dummy data phase. -/
def nakFrame (dataPhase rnw : Bool) (t : Nat) : List CycleRec :=
  (if dataPhase && rnw then runOf .dummyR (released 33) else []) ++ runOf .trnF (released t) ++
    (if dataPhase && !rnw then runOf .dummyW (lows 33) else [])

/-- The recovery sequence. -/
def recoveryFrame (t : Nat) : List CycleRec := runOf .recov (released (t + 33))

/-- `SPI_WR33_WORKAROUND` applies: the SPI backend with the parameter set (44_spi_backend.md R220). -/
def State.extraCycle (s : State) : Bool := s.xferMode == .spi && s.params.wr33

/-- What follows the acknowledge on the wire; `bits` are the target's 33 bits of a read data phase. -/
def tailFrame (s : State) (ack : BitVec 3) (bits : List Bool) : List CycleRec :=
  match ackClass ack with
  | .ok => if s.rnw then readFrame s.turnaround s.idleCycles.toNat bits
           else writeFrame s.extraCycle s.turnaround s.idleCycles.toNat s.wdata
  | .wait => nakFrame s.dataPhase s.rnw s.turnaround
  | .fault => nakFrame s.dataPhase s.rnw s.turnaround
  | .error => recoveryFrame s.turnaround

/-- The target's answers number `k` to `k + n - 1` from now. -/
def State.answersFrom (s : State) (k n : Nat) : List Bool := (List.range n).map fun i => s.answer (k + i)

/-- The acknowledge a transaction started now will sample. -/
def State.nextAck (s : State) : BitVec 3 := ofBits 3 (s.answersFrom 0 3)

/-- How many samples a transaction takes from its acknowledge on: 3, or 36 for a read that is answered OK. -/
def State.samplesTaken (s : State) (ack : BitVec 3) : Nat := if ackClass ack = .ok ∧ s.rnw then 36 else 3

/-- The inputs after `n` samples; `discards` is the model's own counter (log 9). -/
def Inputs.after (i : Inputs) (n discards : Nat) : Inputs :=
  { i with answers := i.answers.drop n, samples := i.samples + n, discards := discards }

/-- The pins as an XFER leaves them: SWCLK high, SWDIO driven high (41_swd_transfer.md R137, R139, R140). -/
def Pins.restored (p : Pins) : Pins := { p with swclkO := true, swdioO := true, swdioOe := true }

/-- The value of the next call of `hal.now()`. -/
def Inputs.nextNow (i : Inputs) : Word := i.nows.getD 0 (Config.now i.nowCalls)

/-- The inputs after a capture of the cycle counter, if one was asked for (41_swd_transfer.md R135). -/
def Inputs.stamped (asked : Bool) (i : Inputs) : Inputs :=
  { i with nows := if asked then i.nows.drop 1 else i.nows, nowCalls := if asked then i.nowCalls + 1 else i.nowCalls }

/-! What a transaction leaves -/

/-- The instruction is an XFER with this operand byte, under its own name or as a pseudo-operation (30_encoding.md R94,
R100); `data` is its data operand where it is a write, and any word where it is a read. -/
def issues (i : Instr) (request : Byte) (data : Word) : Prop :=
  (∃ r, i.canonical = .xferR r ∧ request = requestOperand true r) ∨
    ∃ r, i.canonical = .xferW r data ∧ request = requestOperand false r

/-- The registers that a transaction with this acknowledge leaves; `bits` are the 33 bits of a read data phase
(41_swd_transfer.md R127, R131, R133, R135, R137, R139, R140, R143). -/
def State.settled (s : State) (ack : BitVec 3) (bits : List Bool) : State :=
  match ackClass ack with
  | .ok =>
    if s.rnw then
      { s with
          ack := ack, ackinv := false, rdata := ofBits 32 (bits.take 32), par := par32 (ofBits 32 (bits.take 32)),
          perr := bits.getD 32 false != par32 (ofBits 32 (bits.take 32)),
          cls := if bits.getD 32 false = par32 (ofBits 32 (bits.take 32)) then .ok else .error,
          result := if bits.getD 32 false = par32 (ofBits 32 (bits.take 32)) then 0x01#8 else 0x08#8,
          timestamp := if s.req.getLsbD 7 then s.inputs.nextNow else s.timestamp }
    else
      { s with
          ack := ack, ackinv := false, par := par32 s.wdata, cls := .ok,
          result := if s.perr then 0x08#8 else 0x01#8,
          timestamp := if s.req.getLsbD 7 then s.inputs.nextNow else s.timestamp }
  | .wait => { s with ack := ack, ackinv := false, cls := .wait, result := 0x02#8 }
  | .fault => { s with ack := ack, ackinv := false, cls := .fault, result := 0x04#8 }
  | .error => { s with ack := ack, ackinv := true, cls := .error, result := 0x08#8 }

/-- The state a transaction with this acknowledge leaves, when its wire cycles are `frame`: the resting position and
pins, the registers of `settled`, the inputs it used. The peripheral's registers, the pin-event trace and the count of
discarded positions are those of `t`: they depend on the backend. -/
def State.concluded (s : State) (ack : BitVec 3) (bits : List Bool) (frame : List CycleRec) (t : State) : State :=
  { s.settled ack bits with
      phase := .idle, bitcnt := 0#9, pins := s.pins.restored, wire := s.wire ++ frame,
      inputs := (s.inputs.after (s.samplesTaken ack) t.inputs.discards).stamped
        (ackClass ack == .ok && s.req.getLsbD 7),
      spi := t.spi, pinEvents := t.pinEvents }

/-- The target's 36 bits of an OK read of a word (41_swd_transfer.md R127, R130, R131). -/
def okReadAnswers (v : Word) : List Bool := bitsOf 0b001#3 ++ data33Bits v (par32 v)

/-- What an operation added to the wire trace. -/
def newCycles (s t : State) : List CycleRec := t.wire.drop s.wire.length

/-- What an operation added to the pin-event trace. -/
def newEvents (s t : State) : List PinEvent := t.pinEvents.drop s.pinEvents.length

/-! What a legal cycle is (10_state.md R25) -/

/-- The kind of cycle each phase has. -/
def CycleRec.kindOk (r : CycleRec) : Bool :=
  match r.phase, r.cycle with
  | .req, .drive _ => true
  | .wdata, .drive _ => true
  | .wpar, .drive _ => true
  | .seq, .drive _ => true
  | .wextra, .drive b => !b
  | .idlec, .drive b => !b
  | .dummyW, .drive b => !b
  | .acks, .sample _ => true
  | .rdata, .sample _ => true
  | .rpar, .sample _ => true
  | .trn1, .released => true
  | .trnR, .released => true
  | .trnW, .released => true
  | .dummyR, .released => true
  | .trnF, .released => true
  | .recov, .released => true
  | _, _ => false

/-- The largest `BITCNT` of each phase at its entry (10_state.md R25, 70_reset_and_hazards.md R321). -/
def Phase.longest : Phase → Nat
  | .idle => 0
  | .req => 8
  | .trn1 => 4
  | .acks => 3
  | .rdata => 32
  | .rpar => 1
  | .trnR => 4
  | .trnW => 4
  | .wdata => 32
  | .wpar => 1
  | .wextra => 1
  | .idlec => 255
  | .dummyR => 33
  | .trnF => 4
  | .dummyW => 33
  | .recov => 37
  | .seq => 256

/-- `BITCNT` at the entry of each phase (10_state.md R25), from the control registers and `SEQLEN`. -/
def State.entryCount (s : State) : Phase → Nat
  | .idle => 0
  | .req => 8
  | .trn1 => s.turnaround
  | .acks => 3
  | .rdata => 32
  | .rpar => 1
  | .trnR => s.turnaround
  | .trnW => s.turnaround
  | .wdata => 32
  | .wpar => 1
  | .wextra => 1
  | .idlec => s.idleCycles.toNat
  | .dummyR => 33
  | .trnF => s.turnaround
  | .dummyW => 33
  | .recov => s.turnaround + 33
  | .seq => s.seqLen.toNat

/-- How the position advances from one wire cycle to the next (10_state.md R26): within a phase `BITCNT` goes down by one;
a phase is left after the cycle at 1, and the next one starts with its full count. -/
def CycleRec.advances (entry : Phase → Nat) (r r' : CycleRec) : Prop :=
  (r'.phase = r.phase ∧ r.left.toNat = r'.left.toNat + 1) ∨
    (r'.phase ≠ r.phase ∧ r.left = 1#9 ∧ r'.left.toNat = entry r'.phase)

/-- Whether a wire cycle is a sample. -/
def WireCycle.isSample : WireCycle → Bool
  | .sample _ => true
  | .drive _ => false
  | .released => false

/-! What is left of an operation at a position inside it (10_state.md R25, R26; log 14) -/

/-- What is left: the wire cycles, the samples among them, whether the cycle counter is captured, and the registers at the
end. -/
structure Remainder where
  frame : List CycleRec
  samples : Nat
  stamped : Bool
  registers : State
deriving DecidableEq, Repr

/-- From a position before the end of the acknowledge phase with `m` of its bits to come: the cycles up to there, then the
path of the whole acknowledge. -/
def State.headerLeft (s : State) (before : List CycleRec) (m : Nat) : Remainder :=
  let ack := joinBits s.ack (s.answersFrom 0 m)
  { frame := before ++ runOf .acks (sampled (s.answersFrom 0 m)) ++ tailFrame s ack (s.answersFrom m 33)
    samples := m + s.samplesTaken ack - 3
    stamped := ackClass ack == .ok && s.req.getLsbD 7
    registers := s.settled ack (s.answersFrom m 33) }

/-- The registers at the end of an OK transaction whose parity check is done (41_swd_transfer.md R135, R137). -/
def State.okRegisters (s : State) : State :=
  { s with result := if s.perr then 0x08#8 else 0x01#8,
           timestamp := if s.req.getLsbD 7 then s.inputs.nextNow else s.timestamp }

/-- From a position in the read data phase or at its parity bit, with `n` data bits to come (R130 to R137). -/
def State.readLeft (s : State) (n : Nat) : Remainder :=
  let v := joinBits s.rdata (s.answersFrom 0 n)
  { frame := runOf .rdata (sampled (s.answersFrom 0 n)) ++ runOf .rpar (sampled (s.answersFrom n 1)) ++
      runOf .trnR (released s.turnaround) ++ runOf .idlec (lows s.idleCycles.toNat)
    samples := n + 1
    stamped := s.req.getLsbD 7
    registers := State.okRegisters
      { s with rdata := v, par := par32 v, perr := s.answer n != par32 v,
               cls := if s.answer n = par32 v then s.cls else .error } }

/-- From a position in the write data phase or before it, behind the cycles `before`: the data bits from `k` on, the parity
bit, and what follows (R141 to R143, R135 to R137). -/
def State.writeLeft (s : State) (before : List CycleRec) (k : Nat) : Remainder :=
  { frame := before ++ runOf .wdata (driven ((bitsOf s.wdata).drop k)) ++ runOf .wpar (driven [par32 s.wdata]) ++
      (if s.extraCycle then runOf .wextra (lows 1) else []) ++ runOf .idlec (lows s.idleCycles.toNat)
    samples := 0
    stamped := s.req.getLsbD 7
    registers := State.okRegisters { s with par := par32 s.wdata } }

/-- From a position after the data: the cycles to come, and the registers at the end. -/
def Remainder.cycles (frame : List CycleRec) (registers : State) : Remainder :=
  { frame := frame, samples := 0, stamped := false, registers := registers }

/-- From a position in the turnaround of WAIT or FAULT, behind the cycles `before` and with `n` cycles of it to come
(R138, R139). -/
def State.nakLeft (s : State) (before : List CycleRec) (n : Nat) : Remainder :=
  .cycles (before ++ runOf .trnF (released n) ++ (if s.dataPhase && !s.rnw then runOf .dummyW (lows 33) else []))
    { s with result := s.ack.setWidth 8 }

/-- What is left of the operation at each position. -/
def State.remainder (s : State) : Remainder :=
  let n := s.bitcnt.toNat
  let t := s.turnaround
  let idle := runOf .idlec (lows s.idleCycles.toNat)
  match s.phase with
  | .idle => .cycles [] s
  | .req => s.headerLeft (runOf .req (driven ((bitsOf (requestByte (requestNibble s.req))).drop (8 - n))) ++
      runOf .trn1 (released t)) 3
  | .trn1 => s.headerLeft (runOf .trn1 (released n)) 3
  | .acks => s.headerLeft [] n
  | .rdata => s.readLeft n
  | .rpar => s.readLeft 0
  | .trnR => { Remainder.cycles (runOf .trnR (released n) ++ idle) s.okRegisters with stamped := s.req.getLsbD 7 }
  | .trnW => s.writeLeft (runOf .trnW (released n)) 0
  | .wdata => s.writeLeft [] (32 - n)
  | .wpar => s.writeLeft [] 32
  | .wextra => { Remainder.cycles (runOf .wextra (lows n) ++ idle) s.okRegisters with stamped := s.req.getLsbD 7 }
  | .idlec => .cycles (runOf .idlec (lows n)) { s with result := if s.perr then 0x08#8 else 0x01#8 }
  | .dummyR => s.nakLeft (runOf .dummyR (released n)) t
  | .trnF => s.nakLeft [] n
  | .dummyW => .cycles (runOf .dummyW (lows n)) { s with result := s.ack.setWidth 8 }
  | .recov => .cycles (runOf .recov (released n)) { s with result := 0x08#8 }
  | .seq => .cycles (runOf .seq (driven ((seqBits s).drop (s.seqLen.toNat - n)))) { s with result := 0x00#8 }

/-- A position the table of R25 gives inside an operation, between two wire cycles: SWCLK high, at least one cycle and at
most the phase's full count to go; only the idle cycles may have none (R26). -/
def State.inOperation (s : State) : Prop :=
  s.phase ≠ .idle ∧ s.pins.swclkO = true ∧ s.bitcnt.toNat ≤ s.entryCount s.phase ∧
    (s.phase = .idlec ∨ 1 ≤ s.bitcnt.toNat)

/-- The pins at the end: restored by an XFER, left at the last bit by a SEQ (42_sequence_and_config.md R163). -/
def State.restPins (s : State) : Pins :=
  if s.phase = .seq then { s.pins with swclkO := true, swdioOe := true, swdioO := s.seqBuf.getLsbD (s.seqLen.toNat - 1) }
  else s.pins.restored

/-- The state an operation ends in that is found inside it. The peripheral's registers, the pin-event trace and the count
of discarded positions are those of `t`: they depend on the backend. -/
def State.resumed (s t : State) : State :=
  { s.remainder.registers with
      phase := .idle, bitcnt := 0#9, pins := s.restPins, wire := s.wire ++ s.remainder.frame,
      inputs := (s.inputs.after s.remainder.samples t.inputs.discards).stamped s.remainder.stamped,
      spi := t.spi, pinEvents := t.pinEvents }

/-! What legal pin events are (43_gpio_backend.md R200) -/

/-- One event is legal on these pins: the clock alternates, data and direction change only while SWCLK is high, the line
is read only while SWCLK is low and the line is released. -/
def PinEvent.legal (p : Pins) : PinEvent → Bool
  | .clk b => p.swclkO != b
  | .dio _ => p.swclkO
  | .oe _ => p.swclkO
  | .rd _ => !p.swclkO && !p.swdioOe
  | .dly _ => true
  | .shift _ _ => false
  | .poll _ => false

/-- A list of events is legal from these pins on. -/
def legalEvents : Pins → List PinEvent → Bool
  | _, [] => true
  | p, e :: es => e.legal p && legalEvents (e.apply p) es

/-- Whether an event is a delay. -/
def PinEvent.isDelay : PinEvent → Bool
  | .dly _ => true
  | .clk _ | .dio _ | .oe _ | .rd _ | .shift _ _ | .poll _ => false

/-- Each edge of the clock is followed by its delay, and there is no other delay (43_gpio_backend.md R199). -/
def withDelays (d : Word) (events : List PinEvent) : List PinEvent :=
  events.flatMap fun e =>
    match e with
    | .clk b => [.clk b, .dly d]
    | e => [e]

/-- One `SHIFT` fits a transaction of the peripheral (44_spi_backend.md R212). -/
def PinEvent.shiftFits (p : Params) : PinEvent → Bool
  | .shift outBits inBits =>
    decide (1 ≤ outBits.length + inBits.length) && decide (outBits.length + inBits.length ≤ p.spiMaxBits)
  | .clk _ | .dio _ | .oe _ | .rd _ | .dly _ | .poll _ => true

/-- Every `SHIFT` is followed at once by `POLL→0`, and there is no other poll (44_spi_backend.md R214, R215). -/
def shiftsPolled : List PinEvent → Bool
  | [] => true
  | .shift _ _ :: .poll false :: es => shiftsPolled es
  | .shift _ _ :: _ => false
  | .poll _ :: _ => false
  | .clk _ :: es => shiftsPolled es
  | .dio _ :: es => shiftsPolled es
  | .oe _ :: es => shiftsPolled es
  | .rd _ :: es => shiftsPolled es
  | .dly _ :: es => shiftsPolled es

/-- The wire cycle of a driven bit of a shift (44_spi_backend.md R213). -/
def OutSlot.toCycle (x : OutSlot) : CycleRec := { phase := x.phase, left := x.left, cycle := .drive x.bit }

/-- The wire cycle of an input bit of a shift: an `S` with the bit where it is used, a `Z` where it is discarded
(44_spi_backend.md R213, R219). -/
def InSlot.toCycle (x : InSlot) (b : Bool) : CycleRec :=
  { phase := x.phase, left := x.left, cycle := if x.used then .sample b else .released }

/-- How many `SHIFT` events a list holds. -/
def shiftCount (events : List PinEvent) : Nat :=
  events.countP fun e =>
    match e with
    | .shift _ _ => true
    | _ => false

end Sys2Proof.Machine
end

