-- ==== Sys2Proof/Certificates/Slice0/Obligations.lean ====
section
/-! DEFINITION. The statements for the provers. `spec/…` rules are cited as R<n>; a clause that rests on a decision of the
spec (D<n>) or on an entry of the assumption log says so. -/

open Sys2Proof Sys2Proof.Machine

/-! Encodings -/

/-- Words written out from the tables of R81, R84 to R86, R88, R92 to R95 decode to the rows they stand for. -/
def Obligations.DecodeReadsTheTables : Prop :=
  decode .cmd [0x02#8, 0x01#8] = .ok (.connect 1#8) [] ∧
  decode .cmd [0x03#8] = .ok .disconnect [] ∧
  decode .cmd [0x04#8, 0x08#8] = .ok (.cfgIdle 8#8) [] ∧
  decode .cmd [0x11#8, 0xC0#8, 0xE1#8, 0xE4#8, 0x00#8] = .ok (.clk 15000000#32) [] ∧
  decode .cmd [0x12#8, 0x0C#8, 0x5A#8, 0xF3#8, 0x03#8] = .ok (.seq 12#8 [0x5A#8, 0xF3#8]) [0x03#8] ∧
  decode .cmd [0x13#8, 0x05#8] = .ok (.cfgSwd 5#8) [] ∧
  decode .cmd [0x40#8, 0x02#8] =
    .ok (.xferR { apndp := false, a2 := false, a3 := false, matchValue := false, matchMask := false, bit6 := false,
                  timestamp := false }) [] ∧
  decode .cmd [0x40#8, 0x85#8, 0xEF#8, 0xBE#8, 0xAD#8, 0xDE#8] =
    .ok (.xferW { apndp := true, a2 := true, a3 := false, matchValue := false, matchMask := false, bit6 := false,
                  timestamp := true } 0xDEADBEEF#32) [] ∧
  decode .cmd [0x7F#8] = .ok (.anyOtherOp 0x7F#8) [] ∧
  decode .req8 [0xA5#8] = .ok .req8DpR0 [] ∧
  decode .ack3 [0x02#8] = .ok .ack3Wait [] ∧
  decode .data33 [0x77#8, 0x14#8, 0xA0#8, 0x2B#8, 0x00#8] = .ok (.data33 0x2BA01477#32 false) [] ∧
  decode .cfg8 [0x05#8] = .ok (.cfg8 5#8) []

/-- R82 and R83: the request byte of every nibble by the formula and by its bits, and the row it decodes to. -/
def Obligations.RequestByteOfEveryNibble : Prop :=
  ∀ nibble : Nibble,
    requestByte nibble =
      0x81#8 ||| ((BitVec.ofBool (nibble.getLsbD 0 ^^ nibble.getLsbD 1 ^^ nibble.getLsbD 2 ^^ nibble.getLsbD 3)).setWidth
        8 <<< 5) ||| (nibble.setWidth 8 <<< 1) ∧
    bitsOf (requestByte nibble) =
      [true, nibble.getLsbD 0, nibble.getLsbD 1, nibble.getLsbD 2, nibble.getLsbD 3, par4 nibble, false, true] ∧
    par4 nibble = (nibble.getLsbD 0 ^^ nibble.getLsbD 1 ^^ nibble.getLsbD 2 ^^ nibble.getLsbD 3) ∧
    ((bitsOf nibble).count true + (par4 nibble).toNat) % 2 = 0 ∧
    decode .req8 [requestByte nibble] = .ok (req8Row nibble) [] ∧
    encode (req8Row nibble) = [requestByte nibble] ∧ encode (.req8 nibble) = [requestByte nibble]

/-- R81: a byte that is no request packet is rejected by name. -/
def Obligations.OtherBytesAreNoRequest : Prop :=
  ∀ (b : Byte) (rest : List Byte), (∀ nibble : Nibble, requestByte nibble ≠ b) →
    decode .req8 (b :: rest) = .bad .notARequest

/-- Decoding the words of any well-formed instruction, whatever follows them, gives the instruction its words stand for
(R80 to R100), and leaves what follows. -/
def Obligations.DecodeOfEncode : Prop :=
  ∀ (i : Instr) (rest : List Byte), WellFormed i = true →
    decode i.format (encode i ++ rest) = .ok i.canonical rest

/-- What a decoder answers is an instruction of its format whose words are exactly the bytes it took (R80 to R95); on
every format but the data phase it is well-formed (a received data phase may hold a wrong parity bit, R90). -/
def Obligations.DecodedBytesReencode : Prop :=
  ∀ (f : Format) (bytes : List Byte) (i : Instr) (rest : List Byte), decode f bytes = .ok i rest →
    i.format = f ∧ i.canonical = i ∧ encode i ++ rest = bytes ∧ (f ≠ .data33 → WellFormed i = true)

/-- R100: a pseudo-operation does what its expansion does; the general pattern of R81 does what its row does. -/
def Obligations.ExecFollowsTheExpansion : Prop :=
  ∀ (i : Instr) (s : State), WellFormed i = true → exec i s = exec i.canonical s

/-! The step -/

/-- A step runs the decoded instruction: an operation of the command port while the sequencer is idle (R27, R91), in the
state whose port no longer holds the operation's bytes (the model's choice, log 30), and inside a transaction the item
that starts on the wire in its phase (the model's choice, log 13). -/
def Obligations.StepRunsTheDecodedInstruction : Prop :=
  (∀ (s : State) (i : Instr) (rest : List Byte), s.phase = .idle → decode .cmd s.cmd = .ok i rest →
    step s = exec i { s with cmd := rest }) ∧
  (∀ s : State, s.phase = .req → s.bitcnt = 8#9 → step s = exec (req8Row (requestNibble s.req)) s) ∧
  (∀ s : State, s.phase = .acks → s.bitcnt = 3#9 → step s = exec (ack3Row s.nextAck) s) ∧
  (∀ s : State, s.phase = .rdata → s.bitcnt = 32#9 →
    step s = exec (.data33 (ofBits 32 ((s.answersFrom 0 33).take 32)) (s.answer 32)) s) ∧
  (∀ s : State, s.phase = .wdata → s.bitcnt = 32#9 → step s = exec (.data33 s.wdata (par32 s.wdata)) s)

/-- With nothing on the command port the block waits (R300); an operation without all its operand bytes is not taken
(log 11); an operation in progress goes on to its end from any position of R25, whole state and all wire cycles (R26, R125
to R143, R162, R163, R222; what the spec leaves open about a position is the model's choice, log 14). -/
def Obligations.StepWaitsStopsOrGoesOn : Prop :=
  (∀ s : State, s.phase = .idle → s.cmd = [] → step s = .next s) ∧
  (∀ (s : State) (e : DecodeError), s.phase = .idle → s.cmd ≠ [] → decode .cmd s.cmd = .bad e →
    step s = .refused .truncatedCommand) ∧
  ∀ s : State, s.inOperation →
    ∃ t, step s = .next t ∧ t = s.resumed t ∧ (s.xferMode ≠ .spi → t.spi = s.spi)

/-! Configuration and life cycle -/

/-- CONNECT (`connect`, R175, decisions D15, D21) and its failure (R176). -/
def Obligations.ConnectSelectsSwd : Prop :=
  ∀ (portId : Byte) (s : State), s.phase = .idle →
    exec (.connect portId) s =
      .next (if portId = 0#8 ∨ portId = 1#8 then
          { s with debugPort := .swd, pins := { swclkO := true, swclkOe := true, swdioO := true, swdioOe := true },
                   result := 1#8 }
        else { s with result := 0#8 })

/-- DISCONNECT (`disconnect`, R178, R44; decision D22): the port is Disabled, both pins are released, and nothing else
changes. -/
def Obligations.DisconnectReleasesThePins : Prop :=
  ∀ s : State, s.phase = .idle →
    exec .disconnect s =
      .next { s with debugPort := .disabled, pins := { s.pins with swclkOe := false, swdioOe := false }, result := 0#8 }

/-- CFG_IDLE (`cfgIdle`, R167; decision D42). -/
def Obligations.CfgIdleStoresTheCount : Prop :=
  ∀ (n : Byte) (s : State), s.phase = .idle → exec (.cfgIdle n) s = .next { s with idleCycles := n, result := 0#8 }

/-- CFG_SWD (`cfgSwd`, R165) and its operand byte CFG8 (`cfg8`, R88, log 13): bits 1:0 hold the turnaround less one, bit
2 `data_phase`, bits 7:3 are not stored (decision D23). -/
def Obligations.CfgSwdStoresItsFields : Prop :=
  ∀ (cfg : Byte) (s : State), s.phase = .idle →
    ∃ t, exec (.cfgSwd cfg) s = .next t ∧ exec (.cfg8 cfg) s = .next { t with result := s.result } ∧
      t = { s with turnaroundBits := cfg.extractLsb' 0 2, dataPhase := cfg.getLsbD 2, result := 0#8 } ∧
      t.turnaround = cfg.toNat % 4 + 1

/-- CLK (`clk`, R169, R170, R172): the two thresholds belong to the faster side, a frequency of 0 is an input error, and
the delay changes only in the delayed mode. -/
def Obligations.ClkSelectsTheBackend : Prop :=
  ∀ (freq : Word) (s : State), s.phase = .idle →
    exec (.clk freq) s =
      .next (if freq = 0#32 then { s with result := 0xFF#8 }
        else if 10000000 ≤ freq.toNat ∧ s.params.hasSpi = true then { s with xferMode := .spi, result := 0#8 }
        else if 2000000 ≤ freq.toNat then { s with xferMode := .gpioFast, result := 0#8 }
        else { s with xferMode := .gpioDelayed, clockDelay := delayOf s.params freq.toNat, result := 0#8 })

/-- The delay (R171; decision D18): the least `q` with `q · f ≥ BUS_CLOCK div 2`, less `IO_CYCLES`, held at 1. -/
def Obligations.DelayIsTheLeastQuotient : Prop :=
  ∀ (p : Params) (f : Nat), 0 < f →
    ∃ q, p.busClock / 2 ≤ q * f ∧ (∀ q', p.busClock / 2 ≤ q' * f → q ≤ q') ∧
      delayUnits p f = (if p.ioCycles < q then q - p.ioCycles else 1) ∧
      (∀ f', f ≤ f' → delayUnits p f' ≤ delayUnits p f)

/-- Any other operation code (`anyOtherOp`) is refused with `RESULT = 0xFF` and changes nothing else (R90, decision
D29). -/
def Obligations.OtherCodesAreRefused : Prop :=
  ∀ (op : Byte) (s : State), s.phase = .idle → exec (.anyOtherOp op) s = .next { s with result := 0xFF#8 }

/-- XFER and SEQ outside SWD are refused with `RESULT = 0xFF`: no cycle, no pin, no other register (R122, R161; decision
D20). -/
def Obligations.RefusedUnlessSwd : Prop :=
  ∀ (i : Instr) (s : State),
    ((∃ request data, issues i request data) ∨
      ∃ bitCount bits, i.canonical = .seq bitCount bits ∧ bits.length = seqByteCount bitCount) →
    s.phase = .idle → s.debugPort ≠ .swd → exec i s = .next { s with result := 0xFF#8 }

/-- The command port takes no operation while one is in progress (R27, R310, U1; log 12). A bit string without its
`⌈n/8⌉` bytes is no operation at all (R95; log 31). -/
def Obligations.OneOperationAtATime : Prop :=
  (∀ (i : Instr) (s : State), WellFormed i = true → i.format = .cmd ∨ i.format = .cfg8 → s.phase ≠ .idle →
    exec i s = .refused .busy) ∧
  ∀ (bitCount : Byte) (bits : List Byte) (s : State), bits.length ≠ seqByteCount bitCount →
    exec (.seq bitCount bits) s = .refused .operandLength

/-! XFER -/

/-- An XFER of any request, acknowledge and backend (`xferR`, `xferW`, and the pseudo-operations `idcode`, `rdbuff`,
`abort`) runs to its end: the whole state it leaves (R120 to R144, R222; log 1,
16, 18). -/
def Obligations.XferRunsToItsEnd : Prop :=
  ∀ (i : Instr) (request : Byte) (data : Word) (s : State), issues i request data → s.swdReady →
    ∃ t, exec i s = .next t ∧
      t = (xferStart request data s).concluded s.nextAck (s.answersFrom 3 33)
        (headerFrame (requestNibble request) s.turnaround (s.answersFrom 0 3) ++
          tailFrame (xferStart request data s) s.nextAck (s.answersFrom 3 33)) t ∧
      (s.xferMode ≠ .spi → t.spi = s.spi)

/-- A read that is acknowledged OK (R124, R128, R130 to R137; decisions D8, D11, D12, D28, D6): the data word least
significant bit first, the parity check, the capture of the cycle counter, the frame of R87, and nothing else. -/
def Obligations.ReadAnsweredOk : Prop :=
  ∀ (i : Instr) (request : Byte) (data : Word) (s : State) (v : Word) (p : Bool),
    issues i request data → request.getLsbD 1 = true → s.swdReady → s.nextAck = 0b001#3 →
    s.answersFrom 3 33 = data33Bits v p →
    ∃ t, exec i s = .next t ∧
      t = { s with
              req := request, rdata := v, ack := 0b001#3, par := par32 v, perr := p != par32 v, ackinv := false,
              cls := if p = par32 v then .ok else .error, result := if p = par32 v then 0x01#8 else 0x08#8,
              timestamp := if request.getLsbD 7 then s.inputs.nextNow else s.timestamp,
              bitcnt := 0#9, pins := s.pins.restored, spi := t.spi, pinEvents := t.pinEvents,
              inputs := (s.inputs.after 36 t.inputs.discards).stamped (request.getLsbD 7),
              wire := s.wire ++ (headerFrame (requestNibble request) s.turnaround (bitsOf 0b001#3) ++
                readFrame s.turnaround s.idleCycles.toNat (data33Bits v p)) } ∧
      (s.xferMode ≠ .spi → t.spi = s.spi)

/-- A write that is acknowledged OK (R124, R128, R135 to R137, R141 to R143, R220): the data and its parity are driven,
nothing of the data phase is sampled, `RDATA` keeps its value. -/
def Obligations.WriteAnsweredOk : Prop :=
  ∀ (i : Instr) (request : Byte) (data : Word) (s : State),
    issues i request data → request.getLsbD 1 = false → s.swdReady → s.nextAck = 0b001#3 →
    ∃ t, exec i s = .next t ∧
      t = { s with
              req := request, wdata := data, ack := 0b001#3, par := par32 data, perr := false, ackinv := false,
              cls := .ok, result := 0x01#8,
              timestamp := if request.getLsbD 7 then s.inputs.nextNow else s.timestamp,
              bitcnt := 0#9, pins := s.pins.restored, spi := t.spi, pinEvents := t.pinEvents,
              inputs := (s.inputs.after 3 t.inputs.discards).stamped (request.getLsbD 7),
              wire := s.wire ++ (headerFrame (requestNibble request) s.turnaround (bitsOf 0b001#3) ++
                writeFrame s.extraCycle s.turnaround s.idleCycles.toNat data) } ∧
      (s.xferMode ≠ .spi → t.spi = s.spi)

/-- WAIT and FAULT (R138, R139; decision D9): the turnaround and, if `data_phase` is enabled, the dummy data phase; no
data, no idle cycles, no capture; on a write `WDATA` is latched. -/
def Obligations.WaitAndFaultMoveNoData : Prop :=
  ∀ (i : Instr) (request : Byte) (data : Word) (s : State),
    issues i request data → s.swdReady → s.nextAck = 0b010#3 ∨ s.nextAck = 0b100#3 →
    ∃ t, exec i s = .next t ∧
      t = { s with
              req := request, wdata := if request.getLsbD 1 then s.wdata else data, ack := s.nextAck, perr := false,
              ackinv := false, cls := if s.nextAck = 0b010#3 then .wait else .fault, result := s.nextAck.setWidth 8,
              bitcnt := 0#9, pins := s.pins.restored, spi := t.spi, pinEvents := t.pinEvents,
              inputs := s.inputs.after 3 t.inputs.discards,
              wire := s.wire ++ (headerFrame (requestNibble request) s.turnaround (bitsOf s.nextAck) ++
                nakFrame s.dataPhase (request.getLsbD 1) s.turnaround) } ∧
      (s.xferMode ≠ .spi → t.spi = s.spi)

/-- An invalid acknowledge (R85, R140; decisions D6, D10): the recovery sequence of T + 33 released cycles in both
directions and whatever `data_phase` says. -/
def Obligations.InvalidAcknowledgeRecovers : Prop :=
  ∀ (i : Instr) (request : Byte) (data : Word) (s : State),
    issues i request data → s.swdReady → s.nextAck ∈ [0#3, 3#3, 5#3, 6#3, 7#3] →
    ∃ t, exec i s = .next t ∧
      t = { s with
              req := request, wdata := if request.getLsbD 1 then s.wdata else data, ack := s.nextAck, perr := false,
              ackinv := true, cls := .error, result := 0x08#8,
              bitcnt := 0#9, pins := s.pins.restored, spi := t.spi, pinEvents := t.pinEvents,
              inputs := s.inputs.after 3 t.inputs.discards,
              wire := s.wire ++ (headerFrame (requestNibble request) s.turnaround (bitsOf s.nextAck) ++
                runOf .recov (released (s.turnaround + 33))) } ∧
      (s.xferMode ≠ .spi → t.spi = s.spi)

/-- R126 and R127: whatever the target answers, the XFER answers a next state; after the eight request cycles the line
is released for T cycles, 1 to 4, in which nothing is sampled, and then three bits are sampled, least significant first,
into `ACK`. -/
def Obligations.TurnaroundThenAcknowledge : Prop :=
  ∀ (i : Instr) (request : Byte) (data : Word) (s : State), issues i request data → s.swdReady →
    ∃ t, exec i s = .next t ∧ 1 ≤ s.turnaround ∧ s.turnaround ≤ 4 ∧
      ((newCycles s t).drop 8).take (s.turnaround + 3) =
        runOf .trn1 (List.replicate s.turnaround .released) ++
          runOf .acks [.sample (s.answer 0), .sample (s.answer 1), .sample (s.answer 2)] ∧
      t.ack.getLsbD 0 = s.answer 0 ∧ t.ack.getLsbD 1 = s.answer 1 ∧ t.ack.getLsbD 2 = s.answer 2

/-- R63: on the wire every item goes least significant bit first: the request byte, the acknowledge, the 32 data bits
and then their parity bit, in both directions. -/
def Obligations.LeastSignificantBitFirst : Prop :=
  ∀ (i : Instr) (request : Byte) (data : Word) (s t : State),
    issues i request data → s.swdReady → exec i s = .next t →
    (∀ k, k < 8 → ((newCycles s t)[k]?).map CycleRec.cycle =
      some (.drive ((requestByte (requestNibble request)).getLsbD k))) ∧
    (∀ k, k < 3 → ((newCycles s t)[8 + s.turnaround + k]?).map CycleRec.cycle = some (.sample (t.ack.getLsbD k))) ∧
    (s.nextAck = 0b001#3 → request.getLsbD 1 = true →
      (∀ k, k < 32 → ((newCycles s t)[11 + s.turnaround + k]?).map CycleRec.cycle =
        some (.sample (t.rdata.getLsbD k))) ∧
      ((newCycles s t)[43 + s.turnaround]?).map CycleRec.cycle = some (.sample (s.answer 35))) ∧
    (s.nextAck = 0b001#3 → request.getLsbD 1 = false →
      (∀ k, k < 32 → ((newCycles s t)[11 + 2 * s.turnaround + k]?).map CycleRec.cycle =
        some (.drive (data.getLsbD k))) ∧
      ((newCycles s t)[43 + 2 * s.turnaround]?).map CycleRec.cycle = some (.drive (par32 data)))

/-- The length of every frame (R87), and the longest one (R321). -/
def Obligations.FrameLengths : Prop :=
  ∀ (i : Instr) (request : Byte) (data : Word) (s t : State),
    issues i request data → s.swdReady → exec i s = .next t →
    t.wire.length = s.wire.length + (newCycles s t).length ∧ (newCycles s t).length ≤ 308 ∧
    (newCycles s t).length =
      match ackClass s.nextAck with
      | .ok => 44 + 2 * s.turnaround + s.idleCycles.toNat +
          (if request.getLsbD 1 = false ∧ s.xferMode = .spi ∧ s.params.wr33 = true then 1 else 0)
      | .wait => if s.dataPhase then 44 + 2 * s.turnaround else 11 + 2 * s.turnaround
      | .fault => if s.dataPhase then 44 + 2 * s.turnaround else 11 + 2 * s.turnaround
      | .error => 44 + 2 * s.turnaround

/-- The one stop of an operation on the wires: on the SPI backend with the peripheral busy at the start, no poll ends
well (R214, R273; decision D27). That nothing clears the flag, so that the wait gives up, is the model's choice (log 6).
-/
def Obligations.BusyPeripheralTimesOut : Prop :=
  ∀ (i : Instr) (s : State),
    ((∃ request data, issues i request data) ∨
      ∃ bitCount bits, i.canonical = .seq bitCount bits ∧ bits.length = seqByteCount bitCount) →
    s.phase = .idle → s.debugPort = .swd → s.xferMode = .spi → s.spi.busy = true →
    exec i s = .fault .spiTimeout

/-! SEQ -/

/-- SEQ (`seq`), and the four pseudo-operations that expand to it, `linereset`, `jtag2swd`, `swd2jtag`, `idle` (R100,
R162, R163, R223; decision D33): the length, the bits, one driven cycle for each of them, the line left at the last one,
and nothing else. -/
def Obligations.SeqDrivesItsBits : Prop :=
  ∀ (i : Instr) (bitCount : Byte) (bits : List Byte) (s : State),
    i.canonical = .seq bitCount bits → bits.length = seqByteCount bitCount → s.swdReady →
    ∃ t, exec i s = .next t ∧
      t = { s with
              seqLen := BitVec.ofNat 9 (seqLength bitCount), seqBuf := seqLoad (seqLength bitCount) bits s.seqBuf,
              result := 0x00#8, bitcnt := 0#9, spi := t.spi, pinEvents := t.pinEvents,
              pins := { s.pins with
                swclkO := true, swdioOe := true, swdioO := seqBit bits (seqLength bitCount - 1) },
              wire := s.wire ++ runOf .seq (driven ((List.range (seqLength bitCount)).map (seqBit bits))) } ∧
      (s.xferMode ≠ .spi → t.spi = s.spi)

/-- `SEQBUF` holds the bits of the operand bytes, packed least significant bit first; positions from the length on keep
their values (R65, R162; decision D33). -/
def Obligations.SeqBufferHoldsTheBits : Prop :=
  ∀ (n : Nat) (bits : List Byte) (old : BitVec 256) (k : Nat), k < 256 →
    (seqLoad n bits old).getLsbD k = (if k < n then seqBit bits k else old.getLsbD k)

/-! The items of the wire formats (log 13) -/

/-- A request packet (each of the sixteen rows `req8DpW0` to `req8ApRC`, and the pattern `req8`) in PHASE = REQ: its
nibble stands in `REQ[3:0]`, and the transaction runs from its request phase to its end (R81, R82, R125 to R143). That
the row runs as an instruction, from the full count of its phase, is the model's choice (log 13, 14, 33). -/
def Obligations.RequestItemsRunTheTransaction : Prop :=
  ∀ (nibble : Nibble) (i : Instr) (s u : State), i = req8Row nibble ∨ i = .req8 nibble →
    s.phase = .req → u = { s with req := s.req.extractLsb' 4 4 ++ nibble } →
    ∃ t, exec i s = .next t ∧
      t = u.concluded s.nextAck (s.answersFrom 3 33)
        (headerFrame nibble s.turnaround (s.answersFrom 0 3) ++ tailFrame u s.nextAck (s.answersFrom 3 33)) t ∧
      (s.xferMode ≠ .spi → t.spi = s.spi)

/-- An acknowledge in PHASE = ACKS, for each of the eight rows `ack3Invalid0` to `ack3Invalid7`: the path it selects to
the end of the transaction (R84, R85, R127 to R143). That the row runs as an instruction, from the full count of its
phase, is the model's choice (log 13, 14, 33). -/
def Obligations.AcknowledgeItemsSelectThePath : Prop :=
  ∀ (ack : BitVec 3) (s : State), s.phase = .acks →
    ∃ t, exec (ack3Row ack) s = .next t ∧
      t = s.concluded ack (s.answersFrom 3 33)
        (runOf .acks (sampled (bitsOf ack)) ++ tailFrame s ack (s.answersFrom 3 33)) t ∧
      (s.xferMode ≠ .spi → t.spi = s.spi)

/-- A data phase (`data33`) in PHASE = RDATA (R86, R130 to R133): the received word, the parity check, and what follows
it. That the row runs as an instruction, from the full count of its phase, is the model's choice (log 13, 14, 33). -/
def Obligations.DataItemIsReceived : Prop :=
  ∀ (data : Word) (parity : Bool) (s : State), s.phase = .rdata → s.pins.swclkO = true →
    ∃ t, exec (.data33 data parity) s = .next t ∧
      t = { s with
              rdata := data, par := par32 data, perr := parity != par32 data,
              cls := if parity = par32 data then s.cls else .error,
              result := if parity = par32 data then 0x01#8 else 0x08#8,
              timestamp := if s.req.getLsbD 7 then s.inputs.nextNow else s.timestamp,
              phase := .idle, bitcnt := 0#9, pins := s.pins.restored, spi := t.spi, pinEvents := t.pinEvents,
              inputs := (s.inputs.after 33 t.inputs.discards).stamped (s.req.getLsbD 7),
              wire := s.wire ++ readFrame s.turnaround s.idleCycles.toNat (data33Bits data parity) } ∧
      (s.xferMode ≠ .spi → t.spi = s.spi)

/-- A data phase (`data33`) in PHASE = WDATA (R86, R142, R143): the engine drives the word and the parity bit it
computes itself. That the row runs as an instruction, from the full count of its phase, is the model's choice (log 13, 14,
33). -/
def Obligations.DataItemIsSent : Prop :=
  ∀ (data : Word) (parity : Bool) (s : State), s.phase = .wdata → s.pins.swclkO = true →
    ∃ t, exec (.data33 data parity) s = .next t ∧
      t = { s with
              wdata := data, par := par32 data, result := if s.perr then 0x08#8 else 0x01#8,
              timestamp := if s.req.getLsbD 7 then s.inputs.nextNow else s.timestamp,
              phase := .idle, bitcnt := 0#9, pins := s.pins.restored, spi := t.spi, pinEvents := t.pinEvents,
              inputs := (s.inputs.after 0 t.inputs.discards).stamped (s.req.getLsbD 7),
              wire := s.wire ++ writeDataFrame s.extraCycle s.idleCycles.toNat data } ∧
      (s.xferMode ≠ .spi → t.spi = s.spi)

/-- Outside its phase an item of the wire formats is refused by name (log 13). -/
def Obligations.ItemsNeedTheirPhase : Prop :=
  (∀ (nibble : Nibble) (s : State), s.phase ≠ .req →
    exec (req8Row nibble) s = .refused .notInPhase ∧ exec (.req8 nibble) s = .refused .notInPhase) ∧
  (∀ (ack : BitVec 3) (s : State), s.phase ≠ .acks → exec (ack3Row ack) s = .refused .notInPhase) ∧
  ∀ (data : Word) (parity : Bool) (s : State), s.phase ≠ .rdata → s.phase ≠ .wdata →
    exec (.data33 data parity) s = .refused .notInPhase

/-! Parity -/

/-- R110 and R111: the table gives the exclusive-or of the eight bits, 1 exactly for an odd number of ones. -/
def Obligations.ParityTableIsExclusiveOr : Prop :=
  (∀ v : Byte, par8 v = (v.getLsbD 0 ^^ v.getLsbD 1 ^^ v.getLsbD 2 ^^ v.getLsbD 3 ^^ v.getLsbD 4 ^^ v.getLsbD 5 ^^
      v.getLsbD 6 ^^ v.getLsbD 7) ∧ (par8 v = true ↔ (bitsOf v).count true % 2 = 1) ∧ par8 v = partab v) ∧
  (∀ nibble : Nibble, par4 nibble = par8 (nibble.setWidth 8) ∧
      (par4 nibble = true ↔ (bitsOf nibble).count true % 2 = 1)) ∧
  (∀ row : Nibble, parityRows.getD row.toNat 0#16 = if par4 row = true then ~~~0x6996#16 else 0x6996#16) ∧
  par8 0x00#8 = false ∧ par8 0xFF#8 = false ∧ par8 0x01#8 = true ∧ par8 0x80#8 = true ∧ par8 0xA5#8 = false

/-- R112 and R114: the parity of a word is 1 exactly for an odd number of ones, is the exclusive-or of the parities of
its bytes, and flips with any single bit. -/
def Obligations.WordParityFlipsWithAnyBit : Prop :=
  ∀ v : Word,
    (par32 v = true ↔ (bitsOf v).count true % 2 = 1) ∧
    par32 v = (par8 (v.extractLsb' 0 8) ^^ par8 (v.extractLsb' 8 8) ^^ par8 (v.extractLsb' 16 8) ^^
      par8 (v.extractLsb' 24 8)) ∧
    (∀ w : Word, par32 (v ^^^ w) = (par32 v ^^ par32 w)) ∧
    ∀ k, k < 32 → par32 (v ^^^ (1#32 <<< k)) = !par32 v

/-! The backends -/

/-- R193 and R194: the delay event of the two variants, and the pin events of one clock cycle. -/
def Obligations.ClockCycleEvents : Prop :=
  ∀ s : State,
    (s.xferMode = .gpioDelayed → gDelay s = [.dly s.clockDelay]) ∧ (s.xferMode = .gpioFast → gDelay s = []) ∧
    (gCycle s).pinEvents = s.pinEvents ++ [.clk false] ++ gDelay s ++ [.clk true] ++ gDelay s ∧
    (gCycle s).pins = { s.pins with swclkO := true } ∧
    (gCycle s).wire = s.wire ++
      [{ phase := s.phase, left := s.bitcnt,
         cycle := if s.pins.swdioOe then .drive s.pins.swdioO else .released }]

/-- R190, R224 (R220, R223): from the same state the SPI backend and the GPIO backend run the same wire cycles and leave
the same registers, except for the one low cycle WEXTRA after an OK write where the workaround applies. -/
def Obligations.BackendsAgree : Prop :=
  (∀ (i : Instr) (request : Byte) (data : Word) (s : State), issues i request data → s.swdReady → s.spi.busy = false →
    ∃ g p, exec i { s with xferMode := .gpioFast } = .next g ∧ exec i { s with xferMode := .spi } = .next p ∧
      (newCycles s p).filter (fun r => r.phase != .wextra) = newCycles s g ∧
      (newCycles s p).filter (fun r => r.phase == .wextra) =
        (if s.nextAck = 0b001#3 ∧ request.getLsbD 1 = false ∧ s.params.wr33 = true then
          [{ phase := .wextra, left := 1#9, cycle := .drive false }] else []) ∧
      p = { g with xferMode := .spi, spi := p.spi, pinEvents := p.pinEvents, wire := p.wire,
                   inputs := { g.inputs with discards := p.inputs.discards } }) ∧
  ∀ (i : Instr) (bitCount : Byte) (bits : List Byte) (s : State),
    i.canonical = .seq bitCount bits → bits.length = seqByteCount bitCount → s.swdReady → s.spi.busy = false →
    ∃ g p, exec i { s with xferMode := .gpioFast } = .next g ∧ exec i { s with xferMode := .spi } = .next p ∧
      p = { g with xferMode := .spi, spi := p.spi, pinEvents := p.pinEvents }

/-- R199: the two GPIO variants give the same pin events but for the delay after every edge of the clock, and the same
wire trace and registers. -/
def Obligations.DelayedVariantOnlyDelays : Prop :=
  ∀ (i : Instr) (s f d : State), s.phase = .idle → s.debugPort = .swd →
    exec i { s with xferMode := .gpioFast } = .next f → exec i { s with xferMode := .gpioDelayed } = .next d →
    ((∃ request data, issues i request data) ∨ ∃ bitCount bits, i.canonical = .seq bitCount bits) →
    (newEvents s f).all (fun e => !e.isDelay) = true ∧
    newEvents s d = withDelays s.clockDelay (newEvents s f) ∧
    d = { f with xferMode := .gpioDelayed, pinEvents := d.pinEvents }

/-- R200: on the GPIO backend the clock alternates from low to high, the line and its direction change only while SWCLK
is high, it is read only while SWCLK is low and the line released, and each wire cycle has one falling edge. -/
def Obligations.GpioEventsAreLegal : Prop :=
  ∀ (i : Instr) (s t : State), s.phase = .idle → s.xferMode ≠ .spi → s.pins.swclkO = true → exec i s = .next t →
    ((∃ request data, issues i request data) ∨ ∃ bitCount bits, i.canonical = .seq bitCount bits) →
    legalEvents s.pins (newEvents s t) = true ∧
    (newEvents s t).foldl PinEvent.apply s.pins = t.pins ∧
    (newEvents s t).countP (fun e => e == .clk false) = (newCycles s t).length ∧
    t.pins.swclkO = true

/-- R214, R215: every shift of the SPI backend moves at least one bit and at most `SPI_MAX_BITS`, and is followed at once by
a poll that finds the peripheral done; there is no other poll. That the first poll after a shift succeeds is decision D27
as the model takes it (log 6). -/
def Obligations.ShiftsFitThePeripheral : Prop :=
  ∀ (i : Instr) (s t : State), s.phase = .idle → s.xferMode = .spi → exec i s = .next t →
    ((∃ request data, issues i request data) ∨ ∃ bitCount bits, i.canonical = .seq bitCount bits) →
    (newEvents s t).all (fun e => e.shiftFits s.params) = true ∧
    shiftsPolled (newEvents s t) = true ∧
    (newEvents s t).countP (fun e => e == .poll false) = shiftCount (newEvents s t) ∧
    (newEvents s t).all (fun e => e != .poll true) = true

/-- R212, R213 (decision D26): the whole state one shift transaction leaves. Its input bits stand at the low end of
`SPI_BUF`, the positions it does not reach keep theirs; on the wire it is `D` with each output bit and then, for each input
bit, `S` with the bit where it is used and `Z` where it is discarded; the used bits are the target's next answers in order.
The position after it is that of its last cycle. -/
def Obligations.ShiftTransactionEffect : Prop :=
  ∀ (outs : List OutSlot) (ins : List InSlot) (s t : State) (inBits : List Bool),
    1 ≤ outs.length + ins.length → s.pins.swclkO = true → halShift outs ins s = (inBits, t) →
    inBits.length = ins.length ∧ usedBits ins inBits = s.answersFrom 0 (ins.countP InSlot.used) ∧
    t = { s with
            phase := t.phase, bitcnt := t.bitcnt,
            spi := { outLen := outs.length, inLen := ins.length,
                     buf := overlay inBits (overlay (outs.map OutSlot.bit) s.spi.buf), busy := false,
                     sense := !ins.isEmpty },
            pins := { s.pins with swclkO := true, swdioOe := ins.isEmpty,
                                  swdioO := ((outs.map OutSlot.bit).getLast?).getD s.pins.swdioO },
            pinEvents := s.pinEvents ++ [.shift (outs.map OutSlot.bit) inBits],
            wire := s.wire ++ outs.map OutSlot.toCycle ++ List.zipWith InSlot.toCycle ins inBits,
            inputs := s.inputs.after (ins.countP InSlot.used) t.inputs.discards }

/-- R219: what the peripheral leaves at a discarded position (the free value of log 9) never reaches a register, a
result, a pin or the wire. -/
def Obligations.DiscardedBitsNeverMatter : Prop :=
  ∀ (i : Instr) (request : Byte) (data : Word) (s t t' : State) (d : Nat), issues i request data →
    exec i s = .next t → exec i { s with inputs := { s.inputs with discards := d } } = .next t' →
    t' = { t with spi := t'.spi, pinEvents := t'.pinEvents, inputs := { t.inputs with discards := t'.inputs.discards } }

/-! Invariants and whole-machine rules -/

/-- The state after startup is a resting state (R43, R277). The clause on the two causes of ERROR rests on reset values
the model chose (log 5), the clause on the lengths of a shift on the zeros it chose for them (log 6). -/
def Obligations.ResetRests : Prop := State.reset.resting = true

/-- What startup leaves (R43, R300): the documented defaults; both pins high-impedance; nothing on the wire (R301). The
zero `data_phase` and the high latches are the spec's decisions D16 and D15. -/
def Obligations.ResetHoldsTheDefaults : Prop :=
  State.reset.turnaround = 1 ∧ State.reset.idleCycles = 0#8 ∧ State.reset.host.retryCount = 100#16 ∧
  State.reset.host.matchRetry = 0#16 ∧ State.reset.xferMode = .gpioDelayed ∧
  State.reset.clockDelay = delayOf State.reset.params 1000000 ∧ State.reset.debugPort = .disabled ∧
  State.reset.dataPhase = false ∧ State.reset.phase = .idle ∧ State.reset.bitcnt = 0#9 ∧
  State.reset.pins = { swclkO := true, swclkOe := false, swdioO := true, swdioOe := false } ∧
  State.reset.spi.busy = false ∧ State.reset.spi.sense = false ∧ State.reset.fastClock = false ∧
  State.reset.host.matchMask = 0#32 ∧ State.reset.host.abort = false ∧ State.reset.wireTrace = []

/-- Every step from a resting state that answers a next state ends in a resting state (R123, R137, R139, R140, R163,
R177, R200 (d), R275, R277). That the peripheral holds nothing in sense between operations is the model's reading (log
17), that it is done by then decision D27 with log 6. -/
def Obligations.StepsKeepTheRestingState : Prop :=
  ∀ s t : State, s.resting = true → step s = .next t → t.resting = true

/-- R25, R26, R321: every wire cycle has the kind of its phase; an operation starts its first phase with the phase's
full count, `BITCNT` goes down by one with every cycle, a phase is left after the cycle at 1 and the next starts with
its full count, and no count exceeds the phase's longest. That an item of the wire formats starts its phase with the
full count is the model's choice (log 33). -/
def Obligations.CyclesFitTheirPhase : Prop :=
  ∀ (i : Instr) (s t : State), s.pins.swclkO = true → exec i s = .next t →
    (∀ r ∈ newCycles s t, r.kindOk = true ∧ 1 ≤ r.left.toNat ∧ r.left.toNat ≤ r.phase.longest) ∧
    (∀ r, (newCycles s t).head? = some r → r.left.toNat = t.entryCount r.phase) ∧
    (newCycles s t).IsChain (CycleRec.advances t.entryCount) ∧
    ∀ r, (newCycles s t).getLast? = some r → r.left = 1#9

/-- R11: the target is asked once for each sampled cycle, and never otherwise. -/
def Obligations.OneAnswerForEachSample : Prop :=
  ∀ (i : Instr) (s t : State), s.pins.swclkO = true → exec i s = .next t →
    t.inputs.samples = s.inputs.samples + (newCycles s t).countP (fun r => r.cycle.isSample)

/-- R72 (b): what an operation does on the wire and on the pins comes after everything done before it. -/
def Obligations.TracesOnlyGrow : Prop :=
  ∀ (i : Instr) (s t : State), exec i s = .next t → s.wire <+: t.wire ∧ s.pinEvents <+: t.pinEvents

/-- R302 and R40: no operation changes a parameter or the host's own state. That exec leaves the bytes still on the command
port is the model's choice (log 10, 30), and so is the list of writes to the abort flag still to come (log 23), which no
operation reads because the block has no abort input (R241). -/
def Obligations.OperationsLeaveTheHostAlone : Prop :=
  ∀ (i : Instr) (s t : State), exec i s = .next t →
    t.params = s.params ∧ t.host = s.host ∧ t.cmd = s.cmd ∧ t.inputs.abortPolls = s.inputs.abortPolls

/-- R31, R181: each control register is written by its own configuration operation and by no other. -/
def Obligations.OneWriterForEachControlRegister : Prop :=
  ∀ (i : Instr) (s t : State), exec i s = .next t →
    ((∀ cfg, i ≠ .cfgSwd cfg ∧ i ≠ .cfg8 cfg) → t.turnaroundBits = s.turnaroundBits ∧ t.dataPhase = s.dataPhase) ∧
    ((∀ n, i ≠ .cfgIdle n) → t.idleCycles = s.idleCycles) ∧
    ((∀ freq, i ≠ .clk freq) → t.xferMode = s.xferMode ∧ t.clockDelay = s.clockDelay) ∧
    ((∀ portId, i ≠ .connect portId) → i ≠ .disconnect → t.debugPort = s.debugPort ∧ t.pins.swclkOe = s.pins.swclkOe) ∧
    (s.debugPort ≠ .jtag → t.debugPort ≠ .jtag)

/-- R29, R134, R135: among the operations of the command port only an XFER writes a flag or a datapath register; `RDATA`
changes only in a read acknowledged OK, `TIMESTAMP` only where the acknowledge was OK and the request asked for it. -/
def Obligations.OnlyXferWritesData : Prop :=
  ∀ (i : Instr) (s t : State), i.format = .cmd → exec i s = .next t →
    ((¬ ∃ request data, issues i request data) →
      t.req = s.req ∧ t.wdata = s.wdata ∧ t.ack = s.ack ∧ t.par = s.par ∧ t.cls = s.cls ∧ t.perr = s.perr ∧
        t.ackinv = s.ackinv) ∧
    (t.rdata ≠ s.rdata → t.ack = 0b001#3 ∧ t.rnw = true) ∧
    (t.timestamp ≠ s.timestamp → t.ack = 0b001#3 ∧ t.req.getLsbD 7 = true) ∧
    ((∀ bitCount bits, i.canonical ≠ .seq bitCount bits) → t.seqBuf = s.seqBuf ∧ t.seqLen = s.seqLen)

/-- R271, R275: the results each operation can produce, and the two causes of ERROR apart. -/
def Obligations.ResultsOfEachOperation : Prop :=
  ∀ (i : Instr) (s t : State), exec i s = .next t →
    (∀ request data, issues i request data →
      t.result ∈ [0x01#8, 0x02#8, 0x04#8, 0x08#8, 0xFF#8] ∧
      (t.result = 0x08#8 → (t.perr = true ∧ t.ackinv = false ∧ t.rnw = true) ∨ (t.perr = false ∧ t.ackinv = true))) ∧
    (∀ bitCount bits, i.canonical = .seq bitCount bits → t.result ∈ [0x00#8, 0xFF#8]) ∧
    (∀ cfg, i = .cfgSwd cfg → t.result = 0x00#8) ∧ (∀ n, i = .cfgIdle n → t.result = 0x00#8) ∧
    (i = .disconnect → t.result = 0x00#8) ∧ (∀ freq, i = .clk freq → t.result ∈ [0x00#8, 0xFF#8]) ∧
    (∀ portId, i = .connect portId → t.result ∈ [0x00#8, 0x01#8])

/-! The host agent (48_host_transfer_engine.md) -/

/-- R242, R261 (a), (e): against a target that answers WAIT `k` times and then OK, `BUS` issues at most `1 +
retry_count` XFERs and succeeds exactly when `k ≤ retry_count`, for a read with the word the target sends and for a
write with the word it is given; each attempt is a whole XFER. -/
def Obligations.BusRetriesOnlyWait : Prop :=
  ∀ (request : Byte) (data v : Word) (s : State) (k : Nat) (more : List Bool),
    s.swdReady → s.host.abort = false → s.inputs.abortPolls = [] →
    s.inputs.answers = (List.replicate k (bitsOf 0b010#3)).flatten ++
      (if isRead request then okReadAnswers v else bitsOf 0b001#3) ++ more →
    (k ≤ s.host.retryCount.toNat →
      ∃ t, bus request data s = .next (0x01#8, t) ∧ t.rdata = (if isRead request then v else s.rdata) ∧
        t.wdata = (if isRead request then s.wdata else data) ∧
        t.inputs.samples = s.inputs.samples + 3 * k + (if isRead request then 36 else 3)) ∧
    (s.host.retryCount.toNat < k →
      ∃ t, bus request data s = .next (0x02#8, t) ∧ t.rdata = s.rdata ∧
        t.wdata = (if isRead request then s.wdata else data) ∧
        t.inputs.samples = s.inputs.samples + 3 * (s.host.retryCount.toNat + 1))

/-- R242: a result that is not WAIT is returned at once, and with no retries left WAIT is final. -/
def Obligations.BusStopsAtTheFirstResult : Prop :=
  ∀ (request : Byte) (data : Word) (s t : State), attemptXfer request data s = .next t →
    t.result ≠ 0x02#8 ∨ s.host.retryCount = 0#16 → bus request data s = .next (t.result, t)

/-- R244, R261 (b): N plain AP reads take N + 1 XFERs, and the response holds the N values in order, not shifted by
one. -/
def Obligations.PostedReadsAreNotShifted : Prop :=
  ∀ (request : Byte) (first : Word) (values : List Word) (s : State) (more : List Bool),
    s.swdReady → isRead request = true → isAp request = true → isMatchValue request = false →
    s.host.abort = false → s.inputs.abortPolls = [] → values ≠ [] → values.length < 256 →
    s.inputs.answers = okReadAnswers first ++ values.flatMap okReadAnswers ++ more →
    ∃ t, transferBatch values.length (List.replicate values.length request) s =
        .next ({ completed := BitVec.ofNat 8 values.length, ack := 0x01#8, checkWrite := false,
                 out := values.flatMap bytesOfWord, rest := [] }, t) ∧
      t.inputs.samples = s.inputs.samples + 36 * (values.length + 1) ∧ t.host.postRead = false

/-- R247: a match-mask write issues no XFER; the entry counts as completed with result OK. That it is done also where `abort`
is set before the batch is the model's reading (R241, R245 against D45; log 35). -/
def Obligations.MatchMaskWriteStaysInTheHost : Prop :=
  ∀ (request b0 b1 b2 b3 : Byte) (rest : List Byte) (s : State),
    isRead request = false → isMatchMask request = true → s.inputs.abortPolls = [] →
    transferBatch 1 (request :: b0 :: b1 :: b2 :: b3 :: rest) s =
      .next ({ completed := 1#8, ack := 0x01#8, checkWrite := false, out := [], rest := rest },
        { s with host := { s.host with matchMask := wordOfBytes b0 b1 b2 b3, postRead := false } })

/-- R249, R251: whatever happens on the bus, a Transfer reads its whole request (log 32), and neither a Transfer nor a
TransferBlock leaves a posted read, not even one that stood before it. R250: the response of the Transfer command is that of
its batch wherever it fits the packet size, and never longer than the packet size (what it holds where it does not fit is
free, log 37); that TransferBlock and ExecuteCommands are bounded alike is the model's reading of N23 (log 37). -/
def Obligations.TransferConsumesItsRequest : Prop :=
  (∀ (count : Nat) (entries rest : List Byte) (s t : State) (b : Batch),
    skipEntries count entries = some rest → transferBatch count entries s = .next (b, t) →
    b.rest = rest ∧ t.host.postRead = false) ∧
  (∀ (count : Nat) (request : Byte) (words : List Word) (s t : State) (out : List Byte),
    transferBlock count request words s = .next (out, t) → t.host.postRead = false) ∧
  (∀ (index count : Byte) (entries : List Byte) (s t : State) (b : Batch),
    transferBatch count.toNat entries s = .next (b, t) →
    ∃ out, transferCommand (index :: count :: entries) s =
        .next ((3 + (entries.length - b.rest.length), out), t) ∧
      out.length ≤ s.host.packetSize.toNat ∧ (b.response.length ≤ s.host.packetSize.toNat → out = b.response)) ∧
  ∀ (ops : Byte → HostOp) (fuel : Nat) (opcode : Byte) (payload : List Byte) (s t : State) (n : Nat) (out : List Byte),
    dispatchCommand ops (fuel + 1) (opcode :: payload) s = .next ((n, out), t) → 1 ≤ s.host.packetSize.toNat →
    out.length ≤ s.host.packetSize.toNat

/-- R253: whatever the target answers, Write-Abort is one XFER, a write to DP 0x0 of its operand (decision D32: the ABORT
address), which is not retried and whose result is reported as it is. -/
def Obligations.WriteAbortIsOneTransaction : Prop :=
  ∀ (data : Word) (s : State), s.swdReady →
    ∃ t, exec (.abort data) s = .next t ∧ writeAbort data s = .next (t.result, t) ∧
      t.result = (match ackClass s.nextAck with
        | .ok => 0x01#8
        | .wait => 0x02#8
        | .fault => 0x04#8
        | .error => 0x08#8) ∧
      t.ack = s.nextAck ∧ t.wdata = data ∧ t.req = 0x00#8 ∧ t.rdata = s.rdata ∧
      t.inputs.samples = s.inputs.samples + 3 ∧
      t.wire.length = s.wire.length + (match ackClass s.nextAck with
        | .ok => 44 + 2 * s.turnaround + s.idleCycles.toNat +
            (if s.xferMode = .spi ∧ s.params.wr33 = true then 1 else 0)
        | .wait => if s.dataPhase then 44 + 2 * s.turnaround else 11 + 2 * s.turnaround
        | .fault => if s.dataPhase then 44 + 2 * s.turnaround else 11 + 2 * s.turnaround
        | .error => 44 + 2 * s.turnaround)

/-- R240: `TransferConfigure` gives `idle_cycles` to the block and keeps the two bounds in the host (decision D42). -/
def Obligations.TransferConfigureSplitsItsFields : Prop :=
  ∀ (idleCycles : Byte) (retryCount matchRetry : BitVec 16) (s : State), s.phase = .idle →
    transferConfigure idleCycles retryCount matchRetry s =
      .next (0x00#8, { s with idleCycles := idleCycles, result := 0x00#8,
                              host := { s.host with retryCount := retryCount, matchRetry := matchRetry } })

/-- R257: an opcode that the dispatcher's table maps to no handler writes the single marker byte (log 22), takes exactly
one request byte and issues no operation, whatever follows it; so at every nesting of batches and for a whole packet. -/
def Obligations.UnknownOpcodeTakesOneByte : Prop :=
  (∀ (ops : Byte → HostOp) (fuel : Nat) (opcode : Byte) (payload : List Byte) (s : State), ops opcode = .unknown →
    dispatchCommand ops (fuel + 1) (opcode :: payload) s = .next ((1, [Config.invalidMarker]), s)) ∧
  ∀ (opcode : Byte) (payload : List Byte) (s : State), Config.hostOpcode opcode = .unknown →
    dispatchPacket (opcode :: payload) s = .next ((1, [Config.invalidMarker]), s)
end

