-- ==== Sys2Proof/Laws/State.lean ====
section
/-! SUPPORT. One lemma for each field of each state update, so that no proof unfolds a record update. -/

namespace Sys2Proof.Machine

/-! enterPhase -/

@[simp] theorem enterPhase_params (p : Phase) (n : Nat) (s : State) : (enterPhase p n s).params = s.params := rfl
@[simp] theorem enterPhase_cmd (p : Phase) (n : Nat) (s : State) : (enterPhase p n s).cmd = s.cmd := rfl
@[simp] theorem enterPhase_req (p : Phase) (n : Nat) (s : State) : (enterPhase p n s).req = s.req := rfl
@[simp] theorem enterPhase_wdata (p : Phase) (n : Nat) (s : State) : (enterPhase p n s).wdata = s.wdata := rfl
@[simp] theorem enterPhase_rdata (p : Phase) (n : Nat) (s : State) : (enterPhase p n s).rdata = s.rdata := rfl
@[simp] theorem enterPhase_ack (p : Phase) (n : Nat) (s : State) : (enterPhase p n s).ack = s.ack := rfl
@[simp] theorem enterPhase_par (p : Phase) (n : Nat) (s : State) : (enterPhase p n s).par = s.par := rfl
@[simp] theorem enterPhase_result (p : Phase) (n : Nat) (s : State) : (enterPhase p n s).result = s.result := rfl
@[simp] theorem enterPhase_seqBuf (p : Phase) (n : Nat) (s : State) : (enterPhase p n s).seqBuf = s.seqBuf := rfl
@[simp] theorem enterPhase_seqLen (p : Phase) (n : Nat) (s : State) : (enterPhase p n s).seqLen = s.seqLen := rfl
@[simp] theorem enterPhase_phase (p : Phase) (n : Nat) (s : State) : (enterPhase p n s).phase = p := rfl
@[simp] theorem enterPhase_bitcnt (p : Phase) (n : Nat) (s : State) : (enterPhase p n s).bitcnt = BitVec.ofNat 9 n := rfl
@[simp] theorem enterPhase_cls (p : Phase) (n : Nat) (s : State) : (enterPhase p n s).cls = s.cls := rfl
@[simp] theorem enterPhase_perr (p : Phase) (n : Nat) (s : State) : (enterPhase p n s).perr = s.perr := rfl
@[simp] theorem enterPhase_ackinv (p : Phase) (n : Nat) (s : State) : (enterPhase p n s).ackinv = s.ackinv := rfl
@[simp] theorem enterPhase_debugPort (p : Phase) (n : Nat) (s : State) : (enterPhase p n s).debugPort = s.debugPort := rfl
@[simp] theorem enterPhase_turnaroundBits (p : Phase) (n : Nat) (s : State) : (enterPhase p n s).turnaroundBits = s.turnaroundBits := rfl
@[simp] theorem enterPhase_dataPhase (p : Phase) (n : Nat) (s : State) : (enterPhase p n s).dataPhase = s.dataPhase := rfl
@[simp] theorem enterPhase_idleCycles (p : Phase) (n : Nat) (s : State) : (enterPhase p n s).idleCycles = s.idleCycles := rfl
@[simp] theorem enterPhase_xferMode (p : Phase) (n : Nat) (s : State) : (enterPhase p n s).xferMode = s.xferMode := rfl
@[simp] theorem enterPhase_clockDelay (p : Phase) (n : Nat) (s : State) : (enterPhase p n s).clockDelay = s.clockDelay := rfl
@[simp] theorem enterPhase_timestamp (p : Phase) (n : Nat) (s : State) : (enterPhase p n s).timestamp = s.timestamp := rfl
@[simp] theorem enterPhase_pins (p : Phase) (n : Nat) (s : State) : (enterPhase p n s).pins = s.pins := rfl
@[simp] theorem enterPhase_spi (p : Phase) (n : Nat) (s : State) : (enterPhase p n s).spi = s.spi := rfl
@[simp] theorem enterPhase_host (p : Phase) (n : Nat) (s : State) : (enterPhase p n s).host = s.host := rfl
@[simp] theorem enterPhase_inputs (p : Phase) (n : Nat) (s : State) : (enterPhase p n s).inputs = s.inputs := rfl
@[simp] theorem enterPhase_wire (p : Phase) (n : Nat) (s : State) : (enterPhase p n s).wire = s.wire := rfl
@[simp] theorem enterPhase_pinEvents (p : Phase) (n : Nat) (s : State) : (enterPhase p n s).pinEvents = s.pinEvents := rfl

/-! recordCycle -/

@[simp] theorem recordCycle_params (c : WireCycle) (s : State) : (recordCycle c s).params = s.params := rfl
@[simp] theorem recordCycle_cmd (c : WireCycle) (s : State) : (recordCycle c s).cmd = s.cmd := rfl
@[simp] theorem recordCycle_req (c : WireCycle) (s : State) : (recordCycle c s).req = s.req := rfl
@[simp] theorem recordCycle_wdata (c : WireCycle) (s : State) : (recordCycle c s).wdata = s.wdata := rfl
@[simp] theorem recordCycle_rdata (c : WireCycle) (s : State) : (recordCycle c s).rdata = s.rdata := rfl
@[simp] theorem recordCycle_ack (c : WireCycle) (s : State) : (recordCycle c s).ack = s.ack := rfl
@[simp] theorem recordCycle_par (c : WireCycle) (s : State) : (recordCycle c s).par = s.par := rfl
@[simp] theorem recordCycle_result (c : WireCycle) (s : State) : (recordCycle c s).result = s.result := rfl
@[simp] theorem recordCycle_seqBuf (c : WireCycle) (s : State) : (recordCycle c s).seqBuf = s.seqBuf := rfl
@[simp] theorem recordCycle_seqLen (c : WireCycle) (s : State) : (recordCycle c s).seqLen = s.seqLen := rfl
@[simp] theorem recordCycle_phase (c : WireCycle) (s : State) : (recordCycle c s).phase = s.phase := rfl
@[simp] theorem recordCycle_bitcnt (c : WireCycle) (s : State) : (recordCycle c s).bitcnt = s.bitcnt - 1#9 := rfl
@[simp] theorem recordCycle_cls (c : WireCycle) (s : State) : (recordCycle c s).cls = s.cls := rfl
@[simp] theorem recordCycle_perr (c : WireCycle) (s : State) : (recordCycle c s).perr = s.perr := rfl
@[simp] theorem recordCycle_ackinv (c : WireCycle) (s : State) : (recordCycle c s).ackinv = s.ackinv := rfl
@[simp] theorem recordCycle_debugPort (c : WireCycle) (s : State) : (recordCycle c s).debugPort = s.debugPort := rfl
@[simp] theorem recordCycle_turnaroundBits (c : WireCycle) (s : State) : (recordCycle c s).turnaroundBits = s.turnaroundBits := rfl
@[simp] theorem recordCycle_dataPhase (c : WireCycle) (s : State) : (recordCycle c s).dataPhase = s.dataPhase := rfl
@[simp] theorem recordCycle_idleCycles (c : WireCycle) (s : State) : (recordCycle c s).idleCycles = s.idleCycles := rfl
@[simp] theorem recordCycle_xferMode (c : WireCycle) (s : State) : (recordCycle c s).xferMode = s.xferMode := rfl
@[simp] theorem recordCycle_clockDelay (c : WireCycle) (s : State) : (recordCycle c s).clockDelay = s.clockDelay := rfl
@[simp] theorem recordCycle_timestamp (c : WireCycle) (s : State) : (recordCycle c s).timestamp = s.timestamp := rfl
@[simp] theorem recordCycle_pins (c : WireCycle) (s : State) : (recordCycle c s).pins = s.pins := rfl
@[simp] theorem recordCycle_spi (c : WireCycle) (s : State) : (recordCycle c s).spi = s.spi := rfl
@[simp] theorem recordCycle_host (c : WireCycle) (s : State) : (recordCycle c s).host = s.host := rfl
@[simp] theorem recordCycle_inputs (c : WireCycle) (s : State) : (recordCycle c s).inputs = s.inputs := rfl
@[simp] theorem recordCycle_wire (c : WireCycle) (s : State) : (recordCycle c s).wire = s.wire ++ [{ phase := s.phase, left := s.bitcnt, cycle := c }] := rfl
@[simp] theorem recordCycle_pinEvents (c : WireCycle) (s : State) : (recordCycle c s).pinEvents = s.pinEvents := rfl

/-! emit -/

@[simp] theorem emit_params (es : List PinEvent) (s : State) : (emit es s).params = s.params := rfl
@[simp] theorem emit_cmd (es : List PinEvent) (s : State) : (emit es s).cmd = s.cmd := rfl
@[simp] theorem emit_req (es : List PinEvent) (s : State) : (emit es s).req = s.req := rfl
@[simp] theorem emit_wdata (es : List PinEvent) (s : State) : (emit es s).wdata = s.wdata := rfl
@[simp] theorem emit_rdata (es : List PinEvent) (s : State) : (emit es s).rdata = s.rdata := rfl
@[simp] theorem emit_ack (es : List PinEvent) (s : State) : (emit es s).ack = s.ack := rfl
@[simp] theorem emit_par (es : List PinEvent) (s : State) : (emit es s).par = s.par := rfl
@[simp] theorem emit_result (es : List PinEvent) (s : State) : (emit es s).result = s.result := rfl
@[simp] theorem emit_seqBuf (es : List PinEvent) (s : State) : (emit es s).seqBuf = s.seqBuf := rfl
@[simp] theorem emit_seqLen (es : List PinEvent) (s : State) : (emit es s).seqLen = s.seqLen := rfl
@[simp] theorem emit_phase (es : List PinEvent) (s : State) : (emit es s).phase = s.phase := rfl
@[simp] theorem emit_bitcnt (es : List PinEvent) (s : State) : (emit es s).bitcnt = s.bitcnt := rfl
@[simp] theorem emit_cls (es : List PinEvent) (s : State) : (emit es s).cls = s.cls := rfl
@[simp] theorem emit_perr (es : List PinEvent) (s : State) : (emit es s).perr = s.perr := rfl
@[simp] theorem emit_ackinv (es : List PinEvent) (s : State) : (emit es s).ackinv = s.ackinv := rfl
@[simp] theorem emit_debugPort (es : List PinEvent) (s : State) : (emit es s).debugPort = s.debugPort := rfl
@[simp] theorem emit_turnaroundBits (es : List PinEvent) (s : State) : (emit es s).turnaroundBits = s.turnaroundBits := rfl
@[simp] theorem emit_dataPhase (es : List PinEvent) (s : State) : (emit es s).dataPhase = s.dataPhase := rfl
@[simp] theorem emit_idleCycles (es : List PinEvent) (s : State) : (emit es s).idleCycles = s.idleCycles := rfl
@[simp] theorem emit_xferMode (es : List PinEvent) (s : State) : (emit es s).xferMode = s.xferMode := rfl
@[simp] theorem emit_clockDelay (es : List PinEvent) (s : State) : (emit es s).clockDelay = s.clockDelay := rfl
@[simp] theorem emit_timestamp (es : List PinEvent) (s : State) : (emit es s).timestamp = s.timestamp := rfl
@[simp] theorem emit_pins (es : List PinEvent) (s : State) : (emit es s).pins = es.foldl PinEvent.apply s.pins := rfl
@[simp] theorem emit_spi (es : List PinEvent) (s : State) : (emit es s).spi = s.spi := rfl
@[simp] theorem emit_host (es : List PinEvent) (s : State) : (emit es s).host = s.host := rfl
@[simp] theorem emit_inputs (es : List PinEvent) (s : State) : (emit es s).inputs = s.inputs := rfl
@[simp] theorem emit_wire (es : List PinEvent) (s : State) : (emit es s).wire = s.wire := rfl
@[simp] theorem emit_pinEvents (es : List PinEvent) (s : State) : (emit es s).pinEvents = s.pinEvents ++ es := rfl

/-! raiseResult -/

@[simp] theorem raiseResult_params (r : Byte) (s : State) : (raiseResult r s).params = s.params := rfl
@[simp] theorem raiseResult_cmd (r : Byte) (s : State) : (raiseResult r s).cmd = s.cmd := rfl
@[simp] theorem raiseResult_req (r : Byte) (s : State) : (raiseResult r s).req = s.req := rfl
@[simp] theorem raiseResult_wdata (r : Byte) (s : State) : (raiseResult r s).wdata = s.wdata := rfl
@[simp] theorem raiseResult_rdata (r : Byte) (s : State) : (raiseResult r s).rdata = s.rdata := rfl
@[simp] theorem raiseResult_ack (r : Byte) (s : State) : (raiseResult r s).ack = s.ack := rfl
@[simp] theorem raiseResult_par (r : Byte) (s : State) : (raiseResult r s).par = s.par := rfl
@[simp] theorem raiseResult_result (r : Byte) (s : State) : (raiseResult r s).result = r := rfl
@[simp] theorem raiseResult_seqBuf (r : Byte) (s : State) : (raiseResult r s).seqBuf = s.seqBuf := rfl
@[simp] theorem raiseResult_seqLen (r : Byte) (s : State) : (raiseResult r s).seqLen = s.seqLen := rfl
@[simp] theorem raiseResult_phase (r : Byte) (s : State) : (raiseResult r s).phase = s.phase := rfl
@[simp] theorem raiseResult_bitcnt (r : Byte) (s : State) : (raiseResult r s).bitcnt = s.bitcnt := rfl
@[simp] theorem raiseResult_cls (r : Byte) (s : State) : (raiseResult r s).cls = s.cls := rfl
@[simp] theorem raiseResult_perr (r : Byte) (s : State) : (raiseResult r s).perr = s.perr := rfl
@[simp] theorem raiseResult_ackinv (r : Byte) (s : State) : (raiseResult r s).ackinv = s.ackinv := rfl
@[simp] theorem raiseResult_debugPort (r : Byte) (s : State) : (raiseResult r s).debugPort = s.debugPort := rfl
@[simp] theorem raiseResult_turnaroundBits (r : Byte) (s : State) : (raiseResult r s).turnaroundBits = s.turnaroundBits := rfl
@[simp] theorem raiseResult_dataPhase (r : Byte) (s : State) : (raiseResult r s).dataPhase = s.dataPhase := rfl
@[simp] theorem raiseResult_idleCycles (r : Byte) (s : State) : (raiseResult r s).idleCycles = s.idleCycles := rfl
@[simp] theorem raiseResult_xferMode (r : Byte) (s : State) : (raiseResult r s).xferMode = s.xferMode := rfl
@[simp] theorem raiseResult_clockDelay (r : Byte) (s : State) : (raiseResult r s).clockDelay = s.clockDelay := rfl
@[simp] theorem raiseResult_timestamp (r : Byte) (s : State) : (raiseResult r s).timestamp = s.timestamp := rfl
@[simp] theorem raiseResult_pins (r : Byte) (s : State) : (raiseResult r s).pins = s.pins := rfl
@[simp] theorem raiseResult_spi (r : Byte) (s : State) : (raiseResult r s).spi = s.spi := rfl
@[simp] theorem raiseResult_host (r : Byte) (s : State) : (raiseResult r s).host = s.host := rfl
@[simp] theorem raiseResult_inputs (r : Byte) (s : State) : (raiseResult r s).inputs = s.inputs := rfl
@[simp] theorem raiseResult_wire (r : Byte) (s : State) : (raiseResult r s).wire = s.wire := rfl
@[simp] theorem raiseResult_pinEvents (r : Byte) (s : State) : (raiseResult r s).pinEvents = s.pinEvents := rfl

/-! finish -/

@[simp] theorem finish_params (r : Byte) (s : State) : (finish r s).params = s.params := rfl
@[simp] theorem finish_cmd (r : Byte) (s : State) : (finish r s).cmd = s.cmd := rfl
@[simp] theorem finish_req (r : Byte) (s : State) : (finish r s).req = s.req := rfl
@[simp] theorem finish_wdata (r : Byte) (s : State) : (finish r s).wdata = s.wdata := rfl
@[simp] theorem finish_rdata (r : Byte) (s : State) : (finish r s).rdata = s.rdata := rfl
@[simp] theorem finish_ack (r : Byte) (s : State) : (finish r s).ack = s.ack := rfl
@[simp] theorem finish_par (r : Byte) (s : State) : (finish r s).par = s.par := rfl
@[simp] theorem finish_result (r : Byte) (s : State) : (finish r s).result = r := rfl
@[simp] theorem finish_seqBuf (r : Byte) (s : State) : (finish r s).seqBuf = s.seqBuf := rfl
@[simp] theorem finish_seqLen (r : Byte) (s : State) : (finish r s).seqLen = s.seqLen := rfl
@[simp] theorem finish_phase (r : Byte) (s : State) : (finish r s).phase = .idle := rfl
@[simp] theorem finish_bitcnt (r : Byte) (s : State) : (finish r s).bitcnt = 0#9 := rfl
@[simp] theorem finish_cls (r : Byte) (s : State) : (finish r s).cls = s.cls := rfl
@[simp] theorem finish_perr (r : Byte) (s : State) : (finish r s).perr = s.perr := rfl
@[simp] theorem finish_ackinv (r : Byte) (s : State) : (finish r s).ackinv = s.ackinv := rfl
@[simp] theorem finish_debugPort (r : Byte) (s : State) : (finish r s).debugPort = s.debugPort := rfl
@[simp] theorem finish_turnaroundBits (r : Byte) (s : State) : (finish r s).turnaroundBits = s.turnaroundBits := rfl
@[simp] theorem finish_dataPhase (r : Byte) (s : State) : (finish r s).dataPhase = s.dataPhase := rfl
@[simp] theorem finish_idleCycles (r : Byte) (s : State) : (finish r s).idleCycles = s.idleCycles := rfl
@[simp] theorem finish_xferMode (r : Byte) (s : State) : (finish r s).xferMode = s.xferMode := rfl
@[simp] theorem finish_clockDelay (r : Byte) (s : State) : (finish r s).clockDelay = s.clockDelay := rfl
@[simp] theorem finish_timestamp (r : Byte) (s : State) : (finish r s).timestamp = s.timestamp := rfl
@[simp] theorem finish_pins (r : Byte) (s : State) : (finish r s).pins = s.pins := rfl
@[simp] theorem finish_spi (r : Byte) (s : State) : (finish r s).spi = s.spi := rfl
@[simp] theorem finish_host (r : Byte) (s : State) : (finish r s).host = s.host := rfl
@[simp] theorem finish_inputs (r : Byte) (s : State) : (finish r s).inputs = s.inputs := rfl
@[simp] theorem finish_wire (r : Byte) (s : State) : (finish r s).wire = s.wire := rfl
@[simp] theorem finish_pinEvents (r : Byte) (s : State) : (finish r s).pinEvents = s.pinEvents := rfl

/-! clearFlags -/

@[simp] theorem clearFlags_params (s : State) : (clearFlags s).params = s.params := rfl
@[simp] theorem clearFlags_cmd (s : State) : (clearFlags s).cmd = s.cmd := rfl
@[simp] theorem clearFlags_req (s : State) : (clearFlags s).req = s.req := rfl
@[simp] theorem clearFlags_wdata (s : State) : (clearFlags s).wdata = s.wdata := rfl
@[simp] theorem clearFlags_rdata (s : State) : (clearFlags s).rdata = s.rdata := rfl
@[simp] theorem clearFlags_ack (s : State) : (clearFlags s).ack = s.ack := rfl
@[simp] theorem clearFlags_par (s : State) : (clearFlags s).par = s.par := rfl
@[simp] theorem clearFlags_result (s : State) : (clearFlags s).result = s.result := rfl
@[simp] theorem clearFlags_seqBuf (s : State) : (clearFlags s).seqBuf = s.seqBuf := rfl
@[simp] theorem clearFlags_seqLen (s : State) : (clearFlags s).seqLen = s.seqLen := rfl
@[simp] theorem clearFlags_phase (s : State) : (clearFlags s).phase = s.phase := rfl
@[simp] theorem clearFlags_bitcnt (s : State) : (clearFlags s).bitcnt = s.bitcnt := rfl
@[simp] theorem clearFlags_cls (s : State) : (clearFlags s).cls = .ok := rfl
@[simp] theorem clearFlags_perr (s : State) : (clearFlags s).perr = false := rfl
@[simp] theorem clearFlags_ackinv (s : State) : (clearFlags s).ackinv = false := rfl
@[simp] theorem clearFlags_debugPort (s : State) : (clearFlags s).debugPort = s.debugPort := rfl
@[simp] theorem clearFlags_turnaroundBits (s : State) : (clearFlags s).turnaroundBits = s.turnaroundBits := rfl
@[simp] theorem clearFlags_dataPhase (s : State) : (clearFlags s).dataPhase = s.dataPhase := rfl
@[simp] theorem clearFlags_idleCycles (s : State) : (clearFlags s).idleCycles = s.idleCycles := rfl
@[simp] theorem clearFlags_xferMode (s : State) : (clearFlags s).xferMode = s.xferMode := rfl
@[simp] theorem clearFlags_clockDelay (s : State) : (clearFlags s).clockDelay = s.clockDelay := rfl
@[simp] theorem clearFlags_timestamp (s : State) : (clearFlags s).timestamp = s.timestamp := rfl
@[simp] theorem clearFlags_pins (s : State) : (clearFlags s).pins = s.pins := rfl
@[simp] theorem clearFlags_spi (s : State) : (clearFlags s).spi = s.spi := rfl
@[simp] theorem clearFlags_host (s : State) : (clearFlags s).host = s.host := rfl
@[simp] theorem clearFlags_inputs (s : State) : (clearFlags s).inputs = s.inputs := rfl
@[simp] theorem clearFlags_wire (s : State) : (clearFlags s).wire = s.wire := rfl
@[simp] theorem clearFlags_pinEvents (s : State) : (clearFlags s).pinEvents = s.pinEvents := rfl

/-! latchAck -/

@[simp] theorem latchAck_params (a : BitVec 3) (s : State) : (latchAck a s).params = s.params := rfl
@[simp] theorem latchAck_cmd (a : BitVec 3) (s : State) : (latchAck a s).cmd = s.cmd := rfl
@[simp] theorem latchAck_req (a : BitVec 3) (s : State) : (latchAck a s).req = s.req := rfl
@[simp] theorem latchAck_wdata (a : BitVec 3) (s : State) : (latchAck a s).wdata = s.wdata := rfl
@[simp] theorem latchAck_rdata (a : BitVec 3) (s : State) : (latchAck a s).rdata = s.rdata := rfl
@[simp] theorem latchAck_ack (a : BitVec 3) (s : State) : (latchAck a s).ack = a := rfl
@[simp] theorem latchAck_par (a : BitVec 3) (s : State) : (latchAck a s).par = s.par := rfl
@[simp] theorem latchAck_result (a : BitVec 3) (s : State) : (latchAck a s).result = s.result := rfl
@[simp] theorem latchAck_seqBuf (a : BitVec 3) (s : State) : (latchAck a s).seqBuf = s.seqBuf := rfl
@[simp] theorem latchAck_seqLen (a : BitVec 3) (s : State) : (latchAck a s).seqLen = s.seqLen := rfl
@[simp] theorem latchAck_phase (a : BitVec 3) (s : State) : (latchAck a s).phase = s.phase := rfl
@[simp] theorem latchAck_bitcnt (a : BitVec 3) (s : State) : (latchAck a s).bitcnt = s.bitcnt := rfl
@[simp] theorem latchAck_cls (a : BitVec 3) (s : State) : (latchAck a s).cls = ackClass a := rfl
@[simp] theorem latchAck_perr (a : BitVec 3) (s : State) : (latchAck a s).perr = s.perr := rfl
@[simp] theorem latchAck_ackinv (a : BitVec 3) (s : State) : (latchAck a s).ackinv = (ackClass a == .error) := rfl
@[simp] theorem latchAck_debugPort (a : BitVec 3) (s : State) : (latchAck a s).debugPort = s.debugPort := rfl
@[simp] theorem latchAck_turnaroundBits (a : BitVec 3) (s : State) : (latchAck a s).turnaroundBits = s.turnaroundBits := rfl
@[simp] theorem latchAck_dataPhase (a : BitVec 3) (s : State) : (latchAck a s).dataPhase = s.dataPhase := rfl
@[simp] theorem latchAck_idleCycles (a : BitVec 3) (s : State) : (latchAck a s).idleCycles = s.idleCycles := rfl
@[simp] theorem latchAck_xferMode (a : BitVec 3) (s : State) : (latchAck a s).xferMode = s.xferMode := rfl
@[simp] theorem latchAck_clockDelay (a : BitVec 3) (s : State) : (latchAck a s).clockDelay = s.clockDelay := rfl
@[simp] theorem latchAck_timestamp (a : BitVec 3) (s : State) : (latchAck a s).timestamp = s.timestamp := rfl
@[simp] theorem latchAck_pins (a : BitVec 3) (s : State) : (latchAck a s).pins = s.pins := rfl
@[simp] theorem latchAck_spi (a : BitVec 3) (s : State) : (latchAck a s).spi = s.spi := rfl
@[simp] theorem latchAck_host (a : BitVec 3) (s : State) : (latchAck a s).host = s.host := rfl
@[simp] theorem latchAck_inputs (a : BitVec 3) (s : State) : (latchAck a s).inputs = s.inputs := rfl
@[simp] theorem latchAck_wire (a : BitVec 3) (s : State) : (latchAck a s).wire = s.wire := rfl
@[simp] theorem latchAck_pinEvents (a : BitVec 3) (s : State) : (latchAck a s).pinEvents = s.pinEvents := rfl

/-! checkParity -/

@[simp] theorem checkParity_params (p : Bool) (s : State) : (checkParity p s).params = s.params := rfl
@[simp] theorem checkParity_cmd (p : Bool) (s : State) : (checkParity p s).cmd = s.cmd := rfl
@[simp] theorem checkParity_req (p : Bool) (s : State) : (checkParity p s).req = s.req := rfl
@[simp] theorem checkParity_wdata (p : Bool) (s : State) : (checkParity p s).wdata = s.wdata := rfl
@[simp] theorem checkParity_rdata (p : Bool) (s : State) : (checkParity p s).rdata = s.rdata := rfl
@[simp] theorem checkParity_ack (p : Bool) (s : State) : (checkParity p s).ack = s.ack := rfl
@[simp] theorem checkParity_par (p : Bool) (s : State) : (checkParity p s).par = s.par := rfl
@[simp] theorem checkParity_result (p : Bool) (s : State) : (checkParity p s).result = s.result := rfl
@[simp] theorem checkParity_seqBuf (p : Bool) (s : State) : (checkParity p s).seqBuf = s.seqBuf := rfl
@[simp] theorem checkParity_seqLen (p : Bool) (s : State) : (checkParity p s).seqLen = s.seqLen := rfl
@[simp] theorem checkParity_phase (p : Bool) (s : State) : (checkParity p s).phase = s.phase := rfl
@[simp] theorem checkParity_bitcnt (p : Bool) (s : State) : (checkParity p s).bitcnt = s.bitcnt := rfl
@[simp] theorem checkParity_cls (p : Bool) (s : State) : (checkParity p s).cls = (if p = s.par then s.cls else .error) := rfl
@[simp] theorem checkParity_perr (p : Bool) (s : State) : (checkParity p s).perr = (p != s.par) := rfl
@[simp] theorem checkParity_ackinv (p : Bool) (s : State) : (checkParity p s).ackinv = s.ackinv := rfl
@[simp] theorem checkParity_debugPort (p : Bool) (s : State) : (checkParity p s).debugPort = s.debugPort := rfl
@[simp] theorem checkParity_turnaroundBits (p : Bool) (s : State) : (checkParity p s).turnaroundBits = s.turnaroundBits := rfl
@[simp] theorem checkParity_dataPhase (p : Bool) (s : State) : (checkParity p s).dataPhase = s.dataPhase := rfl
@[simp] theorem checkParity_idleCycles (p : Bool) (s : State) : (checkParity p s).idleCycles = s.idleCycles := rfl
@[simp] theorem checkParity_xferMode (p : Bool) (s : State) : (checkParity p s).xferMode = s.xferMode := rfl
@[simp] theorem checkParity_clockDelay (p : Bool) (s : State) : (checkParity p s).clockDelay = s.clockDelay := rfl
@[simp] theorem checkParity_timestamp (p : Bool) (s : State) : (checkParity p s).timestamp = s.timestamp := rfl
@[simp] theorem checkParity_pins (p : Bool) (s : State) : (checkParity p s).pins = s.pins := rfl
@[simp] theorem checkParity_spi (p : Bool) (s : State) : (checkParity p s).spi = s.spi := rfl
@[simp] theorem checkParity_host (p : Bool) (s : State) : (checkParity p s).host = s.host := rfl
@[simp] theorem checkParity_inputs (p : Bool) (s : State) : (checkParity p s).inputs = s.inputs := rfl
@[simp] theorem checkParity_wire (p : Bool) (s : State) : (checkParity p s).wire = s.wire := rfl
@[simp] theorem checkParity_pinEvents (p : Bool) (s : State) : (checkParity p s).pinEvents = s.pinEvents := rfl

/-! dropAnswers -/

@[simp] theorem State.dropAnswers_params (s : State) (n : Nat) : (s.dropAnswers n).params = s.params := rfl
@[simp] theorem State.dropAnswers_cmd (s : State) (n : Nat) : (s.dropAnswers n).cmd = s.cmd := rfl
@[simp] theorem State.dropAnswers_req (s : State) (n : Nat) : (s.dropAnswers n).req = s.req := rfl
@[simp] theorem State.dropAnswers_wdata (s : State) (n : Nat) : (s.dropAnswers n).wdata = s.wdata := rfl
@[simp] theorem State.dropAnswers_rdata (s : State) (n : Nat) : (s.dropAnswers n).rdata = s.rdata := rfl
@[simp] theorem State.dropAnswers_ack (s : State) (n : Nat) : (s.dropAnswers n).ack = s.ack := rfl
@[simp] theorem State.dropAnswers_par (s : State) (n : Nat) : (s.dropAnswers n).par = s.par := rfl
@[simp] theorem State.dropAnswers_result (s : State) (n : Nat) : (s.dropAnswers n).result = s.result := rfl
@[simp] theorem State.dropAnswers_seqBuf (s : State) (n : Nat) : (s.dropAnswers n).seqBuf = s.seqBuf := rfl
@[simp] theorem State.dropAnswers_seqLen (s : State) (n : Nat) : (s.dropAnswers n).seqLen = s.seqLen := rfl
@[simp] theorem State.dropAnswers_phase (s : State) (n : Nat) : (s.dropAnswers n).phase = s.phase := rfl
@[simp] theorem State.dropAnswers_bitcnt (s : State) (n : Nat) : (s.dropAnswers n).bitcnt = s.bitcnt := rfl
@[simp] theorem State.dropAnswers_cls (s : State) (n : Nat) : (s.dropAnswers n).cls = s.cls := rfl
@[simp] theorem State.dropAnswers_perr (s : State) (n : Nat) : (s.dropAnswers n).perr = s.perr := rfl
@[simp] theorem State.dropAnswers_ackinv (s : State) (n : Nat) : (s.dropAnswers n).ackinv = s.ackinv := rfl
@[simp] theorem State.dropAnswers_debugPort (s : State) (n : Nat) : (s.dropAnswers n).debugPort = s.debugPort := rfl
@[simp] theorem State.dropAnswers_turnaroundBits (s : State) (n : Nat) : (s.dropAnswers n).turnaroundBits = s.turnaroundBits := rfl
@[simp] theorem State.dropAnswers_dataPhase (s : State) (n : Nat) : (s.dropAnswers n).dataPhase = s.dataPhase := rfl
@[simp] theorem State.dropAnswers_idleCycles (s : State) (n : Nat) : (s.dropAnswers n).idleCycles = s.idleCycles := rfl
@[simp] theorem State.dropAnswers_xferMode (s : State) (n : Nat) : (s.dropAnswers n).xferMode = s.xferMode := rfl
@[simp] theorem State.dropAnswers_clockDelay (s : State) (n : Nat) : (s.dropAnswers n).clockDelay = s.clockDelay := rfl
@[simp] theorem State.dropAnswers_timestamp (s : State) (n : Nat) : (s.dropAnswers n).timestamp = s.timestamp := rfl
@[simp] theorem State.dropAnswers_pins (s : State) (n : Nat) : (s.dropAnswers n).pins = s.pins := rfl
@[simp] theorem State.dropAnswers_spi (s : State) (n : Nat) : (s.dropAnswers n).spi = s.spi := rfl
@[simp] theorem State.dropAnswers_host (s : State) (n : Nat) : (s.dropAnswers n).host = s.host := rfl
@[simp] theorem State.dropAnswers_inputs (s : State) (n : Nat) : (s.dropAnswers n).inputs = { s.inputs with answers := s.inputs.answers.drop n, samples := s.inputs.samples + n } := rfl
@[simp] theorem State.dropAnswers_wire (s : State) (n : Nat) : (s.dropAnswers n).wire = s.wire := rfl
@[simp] theorem State.dropAnswers_pinEvents (s : State) (n : Nat) : (s.dropAnswers n).pinEvents = s.pinEvents := rfl

/-! withAnswers -/

@[simp] theorem State.withAnswers_params (s : State) (bs : List Bool) : (s.withAnswers bs).params = s.params := rfl
@[simp] theorem State.withAnswers_cmd (s : State) (bs : List Bool) : (s.withAnswers bs).cmd = s.cmd := rfl
@[simp] theorem State.withAnswers_req (s : State) (bs : List Bool) : (s.withAnswers bs).req = s.req := rfl
@[simp] theorem State.withAnswers_wdata (s : State) (bs : List Bool) : (s.withAnswers bs).wdata = s.wdata := rfl
@[simp] theorem State.withAnswers_rdata (s : State) (bs : List Bool) : (s.withAnswers bs).rdata = s.rdata := rfl
@[simp] theorem State.withAnswers_ack (s : State) (bs : List Bool) : (s.withAnswers bs).ack = s.ack := rfl
@[simp] theorem State.withAnswers_par (s : State) (bs : List Bool) : (s.withAnswers bs).par = s.par := rfl
@[simp] theorem State.withAnswers_result (s : State) (bs : List Bool) : (s.withAnswers bs).result = s.result := rfl
@[simp] theorem State.withAnswers_seqBuf (s : State) (bs : List Bool) : (s.withAnswers bs).seqBuf = s.seqBuf := rfl
@[simp] theorem State.withAnswers_seqLen (s : State) (bs : List Bool) : (s.withAnswers bs).seqLen = s.seqLen := rfl
@[simp] theorem State.withAnswers_phase (s : State) (bs : List Bool) : (s.withAnswers bs).phase = s.phase := rfl
@[simp] theorem State.withAnswers_bitcnt (s : State) (bs : List Bool) : (s.withAnswers bs).bitcnt = s.bitcnt := rfl
@[simp] theorem State.withAnswers_cls (s : State) (bs : List Bool) : (s.withAnswers bs).cls = s.cls := rfl
@[simp] theorem State.withAnswers_perr (s : State) (bs : List Bool) : (s.withAnswers bs).perr = s.perr := rfl
@[simp] theorem State.withAnswers_ackinv (s : State) (bs : List Bool) : (s.withAnswers bs).ackinv = s.ackinv := rfl
@[simp] theorem State.withAnswers_debugPort (s : State) (bs : List Bool) : (s.withAnswers bs).debugPort = s.debugPort := rfl
@[simp] theorem State.withAnswers_turnaroundBits (s : State) (bs : List Bool) : (s.withAnswers bs).turnaroundBits = s.turnaroundBits := rfl
@[simp] theorem State.withAnswers_dataPhase (s : State) (bs : List Bool) : (s.withAnswers bs).dataPhase = s.dataPhase := rfl
@[simp] theorem State.withAnswers_idleCycles (s : State) (bs : List Bool) : (s.withAnswers bs).idleCycles = s.idleCycles := rfl
@[simp] theorem State.withAnswers_xferMode (s : State) (bs : List Bool) : (s.withAnswers bs).xferMode = s.xferMode := rfl
@[simp] theorem State.withAnswers_clockDelay (s : State) (bs : List Bool) : (s.withAnswers bs).clockDelay = s.clockDelay := rfl
@[simp] theorem State.withAnswers_timestamp (s : State) (bs : List Bool) : (s.withAnswers bs).timestamp = s.timestamp := rfl
@[simp] theorem State.withAnswers_pins (s : State) (bs : List Bool) : (s.withAnswers bs).pins = s.pins := rfl
@[simp] theorem State.withAnswers_spi (s : State) (bs : List Bool) : (s.withAnswers bs).spi = s.spi := rfl
@[simp] theorem State.withAnswers_host (s : State) (bs : List Bool) : (s.withAnswers bs).host = s.host := rfl
@[simp] theorem State.withAnswers_inputs (s : State) (bs : List Bool) : (s.withAnswers bs).inputs = { s.inputs with answers := bs ++ s.inputs.answers.drop bs.length } := rfl
@[simp] theorem State.withAnswers_wire (s : State) (bs : List Bool) : (s.withAnswers bs).wire = s.wire := rfl
@[simp] theorem State.withAnswers_pinEvents (s : State) (bs : List Bool) : (s.withAnswers bs).pinEvents = s.pinEvents := rfl

/-! captureTimestamp -/

@[simp] theorem captureTimestamp_params (s : State) : (captureTimestamp s).params = s.params := rfl
@[simp] theorem captureTimestamp_cmd (s : State) : (captureTimestamp s).cmd = s.cmd := rfl
@[simp] theorem captureTimestamp_req (s : State) : (captureTimestamp s).req = s.req := rfl
@[simp] theorem captureTimestamp_wdata (s : State) : (captureTimestamp s).wdata = s.wdata := rfl
@[simp] theorem captureTimestamp_rdata (s : State) : (captureTimestamp s).rdata = s.rdata := rfl
@[simp] theorem captureTimestamp_ack (s : State) : (captureTimestamp s).ack = s.ack := rfl
@[simp] theorem captureTimestamp_par (s : State) : (captureTimestamp s).par = s.par := rfl
@[simp] theorem captureTimestamp_result (s : State) : (captureTimestamp s).result = s.result := rfl
@[simp] theorem captureTimestamp_seqBuf (s : State) : (captureTimestamp s).seqBuf = s.seqBuf := rfl
@[simp] theorem captureTimestamp_seqLen (s : State) : (captureTimestamp s).seqLen = s.seqLen := rfl
@[simp] theorem captureTimestamp_phase (s : State) : (captureTimestamp s).phase = s.phase := rfl
@[simp] theorem captureTimestamp_bitcnt (s : State) : (captureTimestamp s).bitcnt = s.bitcnt := rfl
@[simp] theorem captureTimestamp_cls (s : State) : (captureTimestamp s).cls = s.cls := rfl
@[simp] theorem captureTimestamp_perr (s : State) : (captureTimestamp s).perr = s.perr := rfl
@[simp] theorem captureTimestamp_ackinv (s : State) : (captureTimestamp s).ackinv = s.ackinv := rfl
@[simp] theorem captureTimestamp_debugPort (s : State) : (captureTimestamp s).debugPort = s.debugPort := rfl
@[simp] theorem captureTimestamp_turnaroundBits (s : State) : (captureTimestamp s).turnaroundBits = s.turnaroundBits := rfl
@[simp] theorem captureTimestamp_dataPhase (s : State) : (captureTimestamp s).dataPhase = s.dataPhase := rfl
@[simp] theorem captureTimestamp_idleCycles (s : State) : (captureTimestamp s).idleCycles = s.idleCycles := rfl
@[simp] theorem captureTimestamp_xferMode (s : State) : (captureTimestamp s).xferMode = s.xferMode := rfl
@[simp] theorem captureTimestamp_clockDelay (s : State) : (captureTimestamp s).clockDelay = s.clockDelay := rfl
@[simp] theorem captureTimestamp_timestamp (s : State) : (captureTimestamp s).timestamp = s.inputs.nows.getD 0 (Config.now s.inputs.nowCalls) := rfl
@[simp] theorem captureTimestamp_pins (s : State) : (captureTimestamp s).pins = s.pins := rfl
@[simp] theorem captureTimestamp_spi (s : State) : (captureTimestamp s).spi = s.spi := rfl
@[simp] theorem captureTimestamp_host (s : State) : (captureTimestamp s).host = s.host := rfl
@[simp] theorem captureTimestamp_inputs (s : State) : (captureTimestamp s).inputs = { s.inputs with nows := s.inputs.nows.drop 1, nowCalls := s.inputs.nowCalls + 1 } := rfl
@[simp] theorem captureTimestamp_wire (s : State) : (captureTimestamp s).wire = s.wire := rfl
@[simp] theorem captureTimestamp_pinEvents (s : State) : (captureTimestamp s).pinEvents = s.pinEvents := rfl

/-! xferStart -/

@[simp] theorem xferStart_params (r : Byte) (d : Word) (s : State) : (xferStart r d s).params = s.params := rfl
@[simp] theorem xferStart_cmd (r : Byte) (d : Word) (s : State) : (xferStart r d s).cmd = s.cmd := rfl
@[simp] theorem xferStart_req (r : Byte) (d : Word) (s : State) : (xferStart r d s).req = r := rfl
@[simp] theorem xferStart_wdata (r : Byte) (d : Word) (s : State) : (xferStart r d s).wdata = (if r.getLsbD 1 then s.wdata else d) := rfl
@[simp] theorem xferStart_rdata (r : Byte) (d : Word) (s : State) : (xferStart r d s).rdata = s.rdata := rfl
@[simp] theorem xferStart_ack (r : Byte) (d : Word) (s : State) : (xferStart r d s).ack = s.ack := rfl
@[simp] theorem xferStart_par (r : Byte) (d : Word) (s : State) : (xferStart r d s).par = s.par := rfl
@[simp] theorem xferStart_result (r : Byte) (d : Word) (s : State) : (xferStart r d s).result = s.result := rfl
@[simp] theorem xferStart_seqBuf (r : Byte) (d : Word) (s : State) : (xferStart r d s).seqBuf = s.seqBuf := rfl
@[simp] theorem xferStart_seqLen (r : Byte) (d : Word) (s : State) : (xferStart r d s).seqLen = s.seqLen := rfl
@[simp] theorem xferStart_phase (r : Byte) (d : Word) (s : State) : (xferStart r d s).phase = s.phase := rfl
@[simp] theorem xferStart_bitcnt (r : Byte) (d : Word) (s : State) : (xferStart r d s).bitcnt = s.bitcnt := rfl
@[simp] theorem xferStart_cls (r : Byte) (d : Word) (s : State) : (xferStart r d s).cls = .ok := rfl
@[simp] theorem xferStart_perr (r : Byte) (d : Word) (s : State) : (xferStart r d s).perr = false := rfl
@[simp] theorem xferStart_ackinv (r : Byte) (d : Word) (s : State) : (xferStart r d s).ackinv = false := rfl
@[simp] theorem xferStart_debugPort (r : Byte) (d : Word) (s : State) : (xferStart r d s).debugPort = s.debugPort := rfl
@[simp] theorem xferStart_turnaroundBits (r : Byte) (d : Word) (s : State) : (xferStart r d s).turnaroundBits = s.turnaroundBits := rfl
@[simp] theorem xferStart_dataPhase (r : Byte) (d : Word) (s : State) : (xferStart r d s).dataPhase = s.dataPhase := rfl
@[simp] theorem xferStart_idleCycles (r : Byte) (d : Word) (s : State) : (xferStart r d s).idleCycles = s.idleCycles := rfl
@[simp] theorem xferStart_xferMode (r : Byte) (d : Word) (s : State) : (xferStart r d s).xferMode = s.xferMode := rfl
@[simp] theorem xferStart_clockDelay (r : Byte) (d : Word) (s : State) : (xferStart r d s).clockDelay = s.clockDelay := rfl
@[simp] theorem xferStart_timestamp (r : Byte) (d : Word) (s : State) : (xferStart r d s).timestamp = s.timestamp := rfl
@[simp] theorem xferStart_pins (r : Byte) (d : Word) (s : State) : (xferStart r d s).pins = s.pins := rfl
@[simp] theorem xferStart_spi (r : Byte) (d : Word) (s : State) : (xferStart r d s).spi = s.spi := rfl
@[simp] theorem xferStart_host (r : Byte) (d : Word) (s : State) : (xferStart r d s).host = s.host := rfl
@[simp] theorem xferStart_inputs (r : Byte) (d : Word) (s : State) : (xferStart r d s).inputs = s.inputs := rfl
@[simp] theorem xferStart_wire (r : Byte) (d : Word) (s : State) : (xferStart r d s).wire = s.wire := rfl
@[simp] theorem xferStart_pinEvents (r : Byte) (d : Word) (s : State) : (xferStart r d s).pinEvents = s.pinEvents := rfl

/-! seqStart -/

@[simp] theorem seqStart_params (c : Byte) (bs : List Byte) (s : State) : (seqStart c bs s).params = s.params := by
  unfold seqStart
  rfl
@[simp] theorem seqStart_cmd (c : Byte) (bs : List Byte) (s : State) : (seqStart c bs s).cmd = s.cmd := by
  unfold seqStart
  rfl
@[simp] theorem seqStart_req (c : Byte) (bs : List Byte) (s : State) : (seqStart c bs s).req = s.req := by
  unfold seqStart
  rfl
@[simp] theorem seqStart_wdata (c : Byte) (bs : List Byte) (s : State) : (seqStart c bs s).wdata = s.wdata := by
  unfold seqStart
  rfl
@[simp] theorem seqStart_rdata (c : Byte) (bs : List Byte) (s : State) : (seqStart c bs s).rdata = s.rdata := by
  unfold seqStart
  rfl
@[simp] theorem seqStart_ack (c : Byte) (bs : List Byte) (s : State) : (seqStart c bs s).ack = s.ack := by
  unfold seqStart
  rfl
@[simp] theorem seqStart_par (c : Byte) (bs : List Byte) (s : State) : (seqStart c bs s).par = s.par := by
  unfold seqStart
  rfl
@[simp] theorem seqStart_result (c : Byte) (bs : List Byte) (s : State) : (seqStart c bs s).result = s.result := by
  unfold seqStart
  rfl
@[simp] theorem seqStart_seqBuf (c : Byte) (bs : List Byte) (s : State) : (seqStart c bs s).seqBuf = seqLoad (seqLength c) bs s.seqBuf := rfl
@[simp] theorem seqStart_seqLen (c : Byte) (bs : List Byte) (s : State) : (seqStart c bs s).seqLen = BitVec.ofNat 9 (seqLength c) := rfl
@[simp] theorem seqStart_phase (c : Byte) (bs : List Byte) (s : State) : (seqStart c bs s).phase = s.phase := by
  unfold seqStart
  rfl
@[simp] theorem seqStart_bitcnt (c : Byte) (bs : List Byte) (s : State) : (seqStart c bs s).bitcnt = s.bitcnt := by
  unfold seqStart
  rfl
@[simp] theorem seqStart_cls (c : Byte) (bs : List Byte) (s : State) : (seqStart c bs s).cls = s.cls := by
  unfold seqStart
  rfl
@[simp] theorem seqStart_perr (c : Byte) (bs : List Byte) (s : State) : (seqStart c bs s).perr = s.perr := by
  unfold seqStart
  rfl
@[simp] theorem seqStart_ackinv (c : Byte) (bs : List Byte) (s : State) : (seqStart c bs s).ackinv = s.ackinv := by
  unfold seqStart
  rfl
@[simp] theorem seqStart_debugPort (c : Byte) (bs : List Byte) (s : State) : (seqStart c bs s).debugPort = s.debugPort := by
  unfold seqStart
  rfl
@[simp] theorem seqStart_turnaroundBits (c : Byte) (bs : List Byte) (s : State) : (seqStart c bs s).turnaroundBits = s.turnaroundBits := by
  unfold seqStart
  rfl
@[simp] theorem seqStart_dataPhase (c : Byte) (bs : List Byte) (s : State) : (seqStart c bs s).dataPhase = s.dataPhase := by
  unfold seqStart
  rfl
@[simp] theorem seqStart_idleCycles (c : Byte) (bs : List Byte) (s : State) : (seqStart c bs s).idleCycles = s.idleCycles := by
  unfold seqStart
  rfl
@[simp] theorem seqStart_xferMode (c : Byte) (bs : List Byte) (s : State) : (seqStart c bs s).xferMode = s.xferMode := by
  unfold seqStart
  rfl
@[simp] theorem seqStart_clockDelay (c : Byte) (bs : List Byte) (s : State) : (seqStart c bs s).clockDelay = s.clockDelay := by
  unfold seqStart
  rfl
@[simp] theorem seqStart_timestamp (c : Byte) (bs : List Byte) (s : State) : (seqStart c bs s).timestamp = s.timestamp := by
  unfold seqStart
  rfl
@[simp] theorem seqStart_pins (c : Byte) (bs : List Byte) (s : State) : (seqStart c bs s).pins = s.pins := by
  unfold seqStart
  rfl
@[simp] theorem seqStart_spi (c : Byte) (bs : List Byte) (s : State) : (seqStart c bs s).spi = s.spi := by
  unfold seqStart
  rfl
@[simp] theorem seqStart_host (c : Byte) (bs : List Byte) (s : State) : (seqStart c bs s).host = s.host := by
  unfold seqStart
  rfl
@[simp] theorem seqStart_inputs (c : Byte) (bs : List Byte) (s : State) : (seqStart c bs s).inputs = s.inputs := by
  unfold seqStart
  rfl
@[simp] theorem seqStart_wire (c : Byte) (bs : List Byte) (s : State) : (seqStart c bs s).wire = s.wire := by
  unfold seqStart
  rfl
@[simp] theorem seqStart_pinEvents (c : Byte) (bs : List Byte) (s : State) : (seqStart c bs s).pinEvents = s.pinEvents := by
  unfold seqStart
  rfl

/-! loadCfg8 -/

@[simp] theorem loadCfg8_params (c : Byte) (s : State) : (loadCfg8 c s).params = s.params := rfl
@[simp] theorem loadCfg8_cmd (c : Byte) (s : State) : (loadCfg8 c s).cmd = s.cmd := rfl
@[simp] theorem loadCfg8_req (c : Byte) (s : State) : (loadCfg8 c s).req = s.req := rfl
@[simp] theorem loadCfg8_wdata (c : Byte) (s : State) : (loadCfg8 c s).wdata = s.wdata := rfl
@[simp] theorem loadCfg8_rdata (c : Byte) (s : State) : (loadCfg8 c s).rdata = s.rdata := rfl
@[simp] theorem loadCfg8_ack (c : Byte) (s : State) : (loadCfg8 c s).ack = s.ack := rfl
@[simp] theorem loadCfg8_par (c : Byte) (s : State) : (loadCfg8 c s).par = s.par := rfl
@[simp] theorem loadCfg8_result (c : Byte) (s : State) : (loadCfg8 c s).result = s.result := rfl
@[simp] theorem loadCfg8_seqBuf (c : Byte) (s : State) : (loadCfg8 c s).seqBuf = s.seqBuf := rfl
@[simp] theorem loadCfg8_seqLen (c : Byte) (s : State) : (loadCfg8 c s).seqLen = s.seqLen := rfl
@[simp] theorem loadCfg8_phase (c : Byte) (s : State) : (loadCfg8 c s).phase = s.phase := rfl
@[simp] theorem loadCfg8_bitcnt (c : Byte) (s : State) : (loadCfg8 c s).bitcnt = s.bitcnt := rfl
@[simp] theorem loadCfg8_cls (c : Byte) (s : State) : (loadCfg8 c s).cls = s.cls := rfl
@[simp] theorem loadCfg8_perr (c : Byte) (s : State) : (loadCfg8 c s).perr = s.perr := rfl
@[simp] theorem loadCfg8_ackinv (c : Byte) (s : State) : (loadCfg8 c s).ackinv = s.ackinv := rfl
@[simp] theorem loadCfg8_debugPort (c : Byte) (s : State) : (loadCfg8 c s).debugPort = s.debugPort := rfl
@[simp] theorem loadCfg8_turnaroundBits (c : Byte) (s : State) : (loadCfg8 c s).turnaroundBits = cfgTurnaround c := rfl
@[simp] theorem loadCfg8_dataPhase (c : Byte) (s : State) : (loadCfg8 c s).dataPhase = cfgDataPhase c := rfl
@[simp] theorem loadCfg8_idleCycles (c : Byte) (s : State) : (loadCfg8 c s).idleCycles = s.idleCycles := rfl
@[simp] theorem loadCfg8_xferMode (c : Byte) (s : State) : (loadCfg8 c s).xferMode = s.xferMode := rfl
@[simp] theorem loadCfg8_clockDelay (c : Byte) (s : State) : (loadCfg8 c s).clockDelay = s.clockDelay := rfl
@[simp] theorem loadCfg8_timestamp (c : Byte) (s : State) : (loadCfg8 c s).timestamp = s.timestamp := rfl
@[simp] theorem loadCfg8_pins (c : Byte) (s : State) : (loadCfg8 c s).pins = s.pins := rfl
@[simp] theorem loadCfg8_spi (c : Byte) (s : State) : (loadCfg8 c s).spi = s.spi := rfl
@[simp] theorem loadCfg8_host (c : Byte) (s : State) : (loadCfg8 c s).host = s.host := rfl
@[simp] theorem loadCfg8_inputs (c : Byte) (s : State) : (loadCfg8 c s).inputs = s.inputs := rfl
@[simp] theorem loadCfg8_wire (c : Byte) (s : State) : (loadCfg8 c s).wire = s.wire := rfl
@[simp] theorem loadCfg8_pinEvents (c : Byte) (s : State) : (loadCfg8 c s).pinEvents = s.pinEvents := rfl

/-! setClk -/

@[simp] theorem setClk_params (b : Bool) (s : State) : (setClk b s).params = s.params := rfl
@[simp] theorem setClk_cmd (b : Bool) (s : State) : (setClk b s).cmd = s.cmd := rfl
@[simp] theorem setClk_req (b : Bool) (s : State) : (setClk b s).req = s.req := rfl
@[simp] theorem setClk_wdata (b : Bool) (s : State) : (setClk b s).wdata = s.wdata := rfl
@[simp] theorem setClk_rdata (b : Bool) (s : State) : (setClk b s).rdata = s.rdata := rfl
@[simp] theorem setClk_ack (b : Bool) (s : State) : (setClk b s).ack = s.ack := rfl
@[simp] theorem setClk_par (b : Bool) (s : State) : (setClk b s).par = s.par := rfl
@[simp] theorem setClk_result (b : Bool) (s : State) : (setClk b s).result = s.result := rfl
@[simp] theorem setClk_seqBuf (b : Bool) (s : State) : (setClk b s).seqBuf = s.seqBuf := rfl
@[simp] theorem setClk_seqLen (b : Bool) (s : State) : (setClk b s).seqLen = s.seqLen := rfl
@[simp] theorem setClk_phase (b : Bool) (s : State) : (setClk b s).phase = s.phase := rfl
@[simp] theorem setClk_bitcnt (b : Bool) (s : State) : (setClk b s).bitcnt = s.bitcnt := rfl
@[simp] theorem setClk_cls (b : Bool) (s : State) : (setClk b s).cls = s.cls := rfl
@[simp] theorem setClk_perr (b : Bool) (s : State) : (setClk b s).perr = s.perr := rfl
@[simp] theorem setClk_ackinv (b : Bool) (s : State) : (setClk b s).ackinv = s.ackinv := rfl
@[simp] theorem setClk_debugPort (b : Bool) (s : State) : (setClk b s).debugPort = s.debugPort := rfl
@[simp] theorem setClk_turnaroundBits (b : Bool) (s : State) : (setClk b s).turnaroundBits = s.turnaroundBits := rfl
@[simp] theorem setClk_dataPhase (b : Bool) (s : State) : (setClk b s).dataPhase = s.dataPhase := rfl
@[simp] theorem setClk_idleCycles (b : Bool) (s : State) : (setClk b s).idleCycles = s.idleCycles := rfl
@[simp] theorem setClk_xferMode (b : Bool) (s : State) : (setClk b s).xferMode = s.xferMode := rfl
@[simp] theorem setClk_clockDelay (b : Bool) (s : State) : (setClk b s).clockDelay = s.clockDelay := rfl
@[simp] theorem setClk_timestamp (b : Bool) (s : State) : (setClk b s).timestamp = s.timestamp := rfl
@[simp] theorem setClk_pins (b : Bool) (s : State) : (setClk b s).pins = { s.pins with swclkO := b } := rfl
@[simp] theorem setClk_spi (b : Bool) (s : State) : (setClk b s).spi = s.spi := rfl
@[simp] theorem setClk_host (b : Bool) (s : State) : (setClk b s).host = s.host := rfl
@[simp] theorem setClk_inputs (b : Bool) (s : State) : (setClk b s).inputs = s.inputs := rfl
@[simp] theorem setClk_wire (b : Bool) (s : State) : (setClk b s).wire = s.wire := rfl
@[simp] theorem setClk_pinEvents (b : Bool) (s : State) : (setClk b s).pinEvents = s.pinEvents := rfl

/-! setSense -/

@[simp] theorem setSense_params (b : Bool) (s : State) : (setSense b s).params = s.params := rfl
@[simp] theorem setSense_cmd (b : Bool) (s : State) : (setSense b s).cmd = s.cmd := rfl
@[simp] theorem setSense_req (b : Bool) (s : State) : (setSense b s).req = s.req := rfl
@[simp] theorem setSense_wdata (b : Bool) (s : State) : (setSense b s).wdata = s.wdata := rfl
@[simp] theorem setSense_rdata (b : Bool) (s : State) : (setSense b s).rdata = s.rdata := rfl
@[simp] theorem setSense_ack (b : Bool) (s : State) : (setSense b s).ack = s.ack := rfl
@[simp] theorem setSense_par (b : Bool) (s : State) : (setSense b s).par = s.par := rfl
@[simp] theorem setSense_result (b : Bool) (s : State) : (setSense b s).result = s.result := rfl
@[simp] theorem setSense_seqBuf (b : Bool) (s : State) : (setSense b s).seqBuf = s.seqBuf := rfl
@[simp] theorem setSense_seqLen (b : Bool) (s : State) : (setSense b s).seqLen = s.seqLen := rfl
@[simp] theorem setSense_phase (b : Bool) (s : State) : (setSense b s).phase = s.phase := rfl
@[simp] theorem setSense_bitcnt (b : Bool) (s : State) : (setSense b s).bitcnt = s.bitcnt := rfl
@[simp] theorem setSense_cls (b : Bool) (s : State) : (setSense b s).cls = s.cls := rfl
@[simp] theorem setSense_perr (b : Bool) (s : State) : (setSense b s).perr = s.perr := rfl
@[simp] theorem setSense_ackinv (b : Bool) (s : State) : (setSense b s).ackinv = s.ackinv := rfl
@[simp] theorem setSense_debugPort (b : Bool) (s : State) : (setSense b s).debugPort = s.debugPort := rfl
@[simp] theorem setSense_turnaroundBits (b : Bool) (s : State) : (setSense b s).turnaroundBits = s.turnaroundBits := rfl
@[simp] theorem setSense_dataPhase (b : Bool) (s : State) : (setSense b s).dataPhase = s.dataPhase := rfl
@[simp] theorem setSense_idleCycles (b : Bool) (s : State) : (setSense b s).idleCycles = s.idleCycles := rfl
@[simp] theorem setSense_xferMode (b : Bool) (s : State) : (setSense b s).xferMode = s.xferMode := rfl
@[simp] theorem setSense_clockDelay (b : Bool) (s : State) : (setSense b s).clockDelay = s.clockDelay := rfl
@[simp] theorem setSense_timestamp (b : Bool) (s : State) : (setSense b s).timestamp = s.timestamp := rfl
@[simp] theorem setSense_pins (b : Bool) (s : State) : (setSense b s).pins = { s.pins with swdioOe := !b } := rfl
@[simp] theorem setSense_spi (b : Bool) (s : State) : (setSense b s).spi = { s.spi with sense := b } := rfl
@[simp] theorem setSense_host (b : Bool) (s : State) : (setSense b s).host = s.host := rfl
@[simp] theorem setSense_inputs (b : Bool) (s : State) : (setSense b s).inputs = s.inputs := rfl
@[simp] theorem setSense_wire (b : Bool) (s : State) : (setSense b s).wire = s.wire := rfl
@[simp] theorem setSense_pinEvents (b : Bool) (s : State) : (setSense b s).pinEvents = s.pinEvents := rfl

/-! shiftStart -/

@[simp] theorem shiftStart_params (xs : List OutSlot) (is : List InSlot) (s : State) : (shiftStart xs is s).params = s.params := rfl
@[simp] theorem shiftStart_cmd (xs : List OutSlot) (is : List InSlot) (s : State) : (shiftStart xs is s).cmd = s.cmd := rfl
@[simp] theorem shiftStart_req (xs : List OutSlot) (is : List InSlot) (s : State) : (shiftStart xs is s).req = s.req := rfl
@[simp] theorem shiftStart_wdata (xs : List OutSlot) (is : List InSlot) (s : State) : (shiftStart xs is s).wdata = s.wdata := rfl
@[simp] theorem shiftStart_rdata (xs : List OutSlot) (is : List InSlot) (s : State) : (shiftStart xs is s).rdata = s.rdata := rfl
@[simp] theorem shiftStart_ack (xs : List OutSlot) (is : List InSlot) (s : State) : (shiftStart xs is s).ack = s.ack := rfl
@[simp] theorem shiftStart_par (xs : List OutSlot) (is : List InSlot) (s : State) : (shiftStart xs is s).par = s.par := rfl
@[simp] theorem shiftStart_result (xs : List OutSlot) (is : List InSlot) (s : State) : (shiftStart xs is s).result = s.result := rfl
@[simp] theorem shiftStart_seqBuf (xs : List OutSlot) (is : List InSlot) (s : State) : (shiftStart xs is s).seqBuf = s.seqBuf := rfl
@[simp] theorem shiftStart_seqLen (xs : List OutSlot) (is : List InSlot) (s : State) : (shiftStart xs is s).seqLen = s.seqLen := rfl
@[simp] theorem shiftStart_phase (xs : List OutSlot) (is : List InSlot) (s : State) : (shiftStart xs is s).phase = s.phase := rfl
@[simp] theorem shiftStart_bitcnt (xs : List OutSlot) (is : List InSlot) (s : State) : (shiftStart xs is s).bitcnt = s.bitcnt := rfl
@[simp] theorem shiftStart_cls (xs : List OutSlot) (is : List InSlot) (s : State) : (shiftStart xs is s).cls = s.cls := rfl
@[simp] theorem shiftStart_perr (xs : List OutSlot) (is : List InSlot) (s : State) : (shiftStart xs is s).perr = s.perr := rfl
@[simp] theorem shiftStart_ackinv (xs : List OutSlot) (is : List InSlot) (s : State) : (shiftStart xs is s).ackinv = s.ackinv := rfl
@[simp] theorem shiftStart_debugPort (xs : List OutSlot) (is : List InSlot) (s : State) : (shiftStart xs is s).debugPort = s.debugPort := rfl
@[simp] theorem shiftStart_turnaroundBits (xs : List OutSlot) (is : List InSlot) (s : State) : (shiftStart xs is s).turnaroundBits = s.turnaroundBits := rfl
@[simp] theorem shiftStart_dataPhase (xs : List OutSlot) (is : List InSlot) (s : State) : (shiftStart xs is s).dataPhase = s.dataPhase := rfl
@[simp] theorem shiftStart_idleCycles (xs : List OutSlot) (is : List InSlot) (s : State) : (shiftStart xs is s).idleCycles = s.idleCycles := rfl
@[simp] theorem shiftStart_xferMode (xs : List OutSlot) (is : List InSlot) (s : State) : (shiftStart xs is s).xferMode = s.xferMode := rfl
@[simp] theorem shiftStart_clockDelay (xs : List OutSlot) (is : List InSlot) (s : State) : (shiftStart xs is s).clockDelay = s.clockDelay := rfl
@[simp] theorem shiftStart_timestamp (xs : List OutSlot) (is : List InSlot) (s : State) : (shiftStart xs is s).timestamp = s.timestamp := rfl
@[simp] theorem shiftStart_pins (xs : List OutSlot) (is : List InSlot) (s : State) : (shiftStart xs is s).pins = s.pins := rfl
@[simp] theorem shiftStart_spi (xs : List OutSlot) (is : List InSlot) (s : State) : (shiftStart xs is s).spi = { s.spi with outLen := xs.length, inLen := is.length, buf := overlay (xs.map OutSlot.bit) s.spi.buf, busy := true } := rfl
@[simp] theorem shiftStart_host (xs : List OutSlot) (is : List InSlot) (s : State) : (shiftStart xs is s).host = s.host := rfl
@[simp] theorem shiftStart_inputs (xs : List OutSlot) (is : List InSlot) (s : State) : (shiftStart xs is s).inputs = s.inputs := rfl
@[simp] theorem shiftStart_wire (xs : List OutSlot) (is : List InSlot) (s : State) : (shiftStart xs is s).wire = s.wire := rfl
@[simp] theorem shiftStart_pinEvents (xs : List OutSlot) (is : List InSlot) (s : State) : (shiftStart xs is s).pinEvents = s.pinEvents := rfl

/-! setPostRead -/

@[simp] theorem setPostRead_params (b : Bool) (s : State) : (setPostRead b s).params = s.params := rfl
@[simp] theorem setPostRead_cmd (b : Bool) (s : State) : (setPostRead b s).cmd = s.cmd := rfl
@[simp] theorem setPostRead_req (b : Bool) (s : State) : (setPostRead b s).req = s.req := rfl
@[simp] theorem setPostRead_wdata (b : Bool) (s : State) : (setPostRead b s).wdata = s.wdata := rfl
@[simp] theorem setPostRead_rdata (b : Bool) (s : State) : (setPostRead b s).rdata = s.rdata := rfl
@[simp] theorem setPostRead_ack (b : Bool) (s : State) : (setPostRead b s).ack = s.ack := rfl
@[simp] theorem setPostRead_par (b : Bool) (s : State) : (setPostRead b s).par = s.par := rfl
@[simp] theorem setPostRead_result (b : Bool) (s : State) : (setPostRead b s).result = s.result := rfl
@[simp] theorem setPostRead_seqBuf (b : Bool) (s : State) : (setPostRead b s).seqBuf = s.seqBuf := rfl
@[simp] theorem setPostRead_seqLen (b : Bool) (s : State) : (setPostRead b s).seqLen = s.seqLen := rfl
@[simp] theorem setPostRead_phase (b : Bool) (s : State) : (setPostRead b s).phase = s.phase := rfl
@[simp] theorem setPostRead_bitcnt (b : Bool) (s : State) : (setPostRead b s).bitcnt = s.bitcnt := rfl
@[simp] theorem setPostRead_cls (b : Bool) (s : State) : (setPostRead b s).cls = s.cls := rfl
@[simp] theorem setPostRead_perr (b : Bool) (s : State) : (setPostRead b s).perr = s.perr := rfl
@[simp] theorem setPostRead_ackinv (b : Bool) (s : State) : (setPostRead b s).ackinv = s.ackinv := rfl
@[simp] theorem setPostRead_debugPort (b : Bool) (s : State) : (setPostRead b s).debugPort = s.debugPort := rfl
@[simp] theorem setPostRead_turnaroundBits (b : Bool) (s : State) : (setPostRead b s).turnaroundBits = s.turnaroundBits := rfl
@[simp] theorem setPostRead_dataPhase (b : Bool) (s : State) : (setPostRead b s).dataPhase = s.dataPhase := rfl
@[simp] theorem setPostRead_idleCycles (b : Bool) (s : State) : (setPostRead b s).idleCycles = s.idleCycles := rfl
@[simp] theorem setPostRead_xferMode (b : Bool) (s : State) : (setPostRead b s).xferMode = s.xferMode := rfl
@[simp] theorem setPostRead_clockDelay (b : Bool) (s : State) : (setPostRead b s).clockDelay = s.clockDelay := rfl
@[simp] theorem setPostRead_timestamp (b : Bool) (s : State) : (setPostRead b s).timestamp = s.timestamp := rfl
@[simp] theorem setPostRead_pins (b : Bool) (s : State) : (setPostRead b s).pins = s.pins := rfl
@[simp] theorem setPostRead_spi (b : Bool) (s : State) : (setPostRead b s).spi = s.spi := rfl
@[simp] theorem setPostRead_host (b : Bool) (s : State) : (setPostRead b s).host = { s.host with postRead := b } := rfl
@[simp] theorem setPostRead_inputs (b : Bool) (s : State) : (setPostRead b s).inputs = s.inputs := rfl
@[simp] theorem setPostRead_wire (b : Bool) (s : State) : (setPostRead b s).wire = s.wire := rfl
@[simp] theorem setPostRead_pinEvents (b : Bool) (s : State) : (setPostRead b s).pinEvents = s.pinEvents := rfl

end Sys2Proof.Machine
end

