-- ==== Sys2Proof/Laws/Gpio.lean ====
section
/-! SUPPORT. What each GPIO operation does, said once: closed forms of the runs of cycles. -/

namespace Sys2Proof.Machine

/-! Runs of cycles with `BITCNT` counting down from a given value -/

/-- The records of a run that starts at `BITCNT = n`. -/
def runFrom (p : Phase) (n : BitVec 9) : List WireCycle → List CycleRec
  | [] => []
  | c :: cs => { phase := p, left := n, cycle := c } :: runFrom p (n - 1#9) cs

theorem runFrom_append (p : Phase) (n : BitVec 9) (cs ds : List WireCycle) :
    runFrom p n (cs ++ ds) = runFrom p n cs ++ runFrom p (n - BitVec.ofNat 9 cs.length) ds := by
  induction cs generalizing n with
  | nil => simp [runFrom]
  | cons c cs ih =>
    simp only [List.cons_append, runFrom, ih, List.length_cons]
    congr 3
    bv_omega

theorem runFrom_length_eq_runOf (p : Phase) (cs : List WireCycle) :
    runFrom p (BitVec.ofNat 9 cs.length) cs = runOf p cs := by
  induction cs with
  | nil => rfl
  | cons c cs ih =>
    have h : BitVec.ofNat 9 (cs.length + 1) - 1#9 = BitVec.ofNat 9 cs.length := by bv_omega
    simp [runFrom, runOf, h, ih]

@[simp] theorem runOf_length (p : Phase) (cs : List WireCycle) : (runOf p cs).length = cs.length := by
  induction cs with
  | nil => rfl
  | cons c cs ih => simp [runOf, ih]

@[simp] theorem driven_length (bs : List Bool) : (driven bs).length = bs.length := by simp [driven]

@[simp] theorem sampled_length (bs : List Bool) : (sampled bs).length = bs.length := by simp [sampled]

@[simp] theorem released_length (n : Nat) : (released n).length = n := by simp [released]

@[simp] theorem lows_length (n : Nat) : (lows n).length = n := by simp [lows]

theorem runOf_cycles (p : Phase) (cs : List WireCycle) : (runOf p cs).map CycleRec.cycle = cs := by
  induction cs with
  | nil => rfl
  | cons c cs ih => simp [runOf, ih]

/-! The target's answers -/

@[simp] theorem peekAnswers_zero (s : State) : s.peekAnswers 0 = [] := rfl

@[simp] theorem peekAnswers_length (s : State) (n : Nat) : (s.peekAnswers n).length = n := by simp [State.peekAnswers]

theorem answer_dropAnswers (s : State) (n k : Nat) : (s.dropAnswers n).answer k = s.answer (n + k) := by
  simp [State.answer, List.getD_eq_getElem?_getD, Nat.add_assoc]

theorem peekAnswers_succ (s : State) (n : Nat) :
    s.peekAnswers (n + 1) = s.answer 0 :: (s.dropAnswers 1).peekAnswers n := by
  simp [State.peekAnswers, List.range_succ_eq_map, answer_dropAnswers, Function.comp_def, Nat.add_comm]

theorem dropAnswers_dropAnswers (s : State) (m n : Nat) : (s.dropAnswers m).dropAnswers n = s.dropAnswers (m + n) := by
  simp [State.dropAnswers, Nat.add_assoc]

/-- The answers depend on the inputs alone. -/
theorem peekAnswers_congr {s t : State} (h : t.inputs.answers = s.inputs.answers)
    (h' : t.inputs.samples = s.inputs.samples) (n : Nat) : t.peekAnswers n = s.peekAnswers n := by
  simp [State.peekAnswers, State.answer, h, h']

/-! Single cycles -/

/-- The pins after a whole cycle. -/
theorem clockEvents_apply (s : State) (p : Pins) :
    (clockEvents s).foldl PinEvent.apply p = { p with swclkO := true } := by
  simp only [clockEvents, gDelay]
  split <;> rfl

theorem gCycle_eq (s : State) :
    gCycle s = { s with wire := s.wire ++ [{ phase := s.phase, left := s.bitcnt, cycle := heldCycle s }],
                        bitcnt := s.bitcnt - 1#9, pinEvents := s.pinEvents ++ clockEvents s,
                        pins := { s.pins with swclkO := true } } := by
  simp [gCycle, recordCycle, emit, clockEvents_apply]

theorem gWrite_eq (b : Bool) (s : State) :
    gWrite b s = { s with wire := s.wire ++ [{ phase := s.phase, left := s.bitcnt, cycle := .drive b }],
                          bitcnt := s.bitcnt - 1#9, pinEvents := s.pinEvents ++ .dio b :: clockEvents s,
                          pins := { s.pins with swclkO := true, swdioO := b } } := by
  simp [gWrite, recordCycle, emit, clockEvents_apply, PinEvent.apply]

/-- The pin events of one sampled cycle (43_gpio_backend.md R197). -/
def readEvents (s : State) (b : Bool) : List PinEvent := [.clk false] ++ gDelay s ++ [.rd b, .clk true] ++ gDelay s

theorem gRead_eq (s : State) (h : s.pins.swdioOe = false) :
    gRead s = (s.answer 0,
      { s.dropAnswers 1 with
          wire := s.wire ++ [{ phase := s.phase, left := s.bitcnt, cycle := .sample (s.answer 0) }],
          bitcnt := s.bitcnt - 1#9, pinEvents := s.pinEvents ++ readEvents s (s.answer 0),
          pins := { s.pins with swclkO := true } }) := by
  have hd : ∀ p : Pins, ([PinEvent.clk false] ++ gDelay s).foldl PinEvent.apply p = { p with swclkO := false } := by
    intro p
    simp only [gDelay]
    split <;> rfl
  have hu : ∀ (b : Bool) (p : Pins),
      ([PinEvent.rd b, PinEvent.clk true] ++ gDelay s).foldl PinEvent.apply p = { p with swclkO := true } := by
    intro b p
    simp only [gDelay]
    split <;> rfl
  simp only [gRead, sampleSwdio, emit, hd, h, Bool.false_eq_true, if_false, recordCycle, State.dropAnswers,
    State.answer, hu, readEvents, List.append_assoc]

/-! Runs -/

theorem gIdleCycles_eq (n : Nat) (s : State) :
    gIdleCycles n s =
      { s with wire := s.wire ++ runFrom s.phase s.bitcnt (List.replicate n (heldCycle s)),
               bitcnt := s.bitcnt - BitVec.ofNat 9 n,
               pinEvents := s.pinEvents ++ (List.replicate n (clockEvents s)).flatten,
               pins := if n = 0 then s.pins else { s.pins with swclkO := true } } := by
  induction n generalizing s with
  | zero => simp [gIdleCycles, runFrom]
  | succ n ih =>
    rw [gIdleCycles, ih, gCycle_eq]
    simp only [heldCycle, clockEvents, gDelay, List.replicate_succ, runFrom, List.flatten_cons, List.append_assoc,
      List.cons_append, List.nil_append, State.mk.injEq, true_and]
    refine ⟨by bv_omega, ?_, trivial⟩
    split <;> simp

theorem gWriteBits_eq (bs : List Bool) (s : State) :
    gWriteBits bs s =
      { s with wire := s.wire ++ runFrom s.phase s.bitcnt (driven bs),
               bitcnt := s.bitcnt - BitVec.ofNat 9 bs.length,
               pinEvents := s.pinEvents ++ bs.flatMap (fun b => .dio b :: clockEvents s),
               pins := if bs = [] then s.pins
                       else { s.pins with swclkO := true, swdioO := bs.getLastD true } } := by
  induction bs generalizing s with
  | nil => simp [gWriteBits, runFrom, driven]
  | cons b bs ih =>
    rw [gWriteBits, ih, gWrite_eq]
    simp only [driven, clockEvents, gDelay, List.map_cons, runFrom, List.flatMap_cons, List.append_assoc,
      List.cons_append, List.nil_append, State.mk.injEq, true_and, List.length_cons]
    refine ⟨by bv_omega, ?_, trivial⟩
    cases bs <;> simp [List.getLastD]

theorem gReadBits_eq (n : Nat) (s : State) (h : s.pins.swdioOe = false) :
    gReadBits n s =
      (s.peekAnswers n,
        { s.dropAnswers n with
            wire := s.wire ++ runFrom s.phase s.bitcnt (sampled (s.peekAnswers n)),
            bitcnt := s.bitcnt - BitVec.ofNat 9 n,
            pinEvents := s.pinEvents ++ (s.peekAnswers n).flatMap (readEvents s),
            pins := if n = 0 then s.pins else { s.pins with swclkO := true } }) := by
  induction n generalizing s with
  | zero => simp [gReadBits, runFrom, State.dropAnswers, sampled]
  | succ n ih =>
    rw [gReadBits, gRead_eq s h, peekAnswers_succ]
    simp only
    rw [ih _ (by simpa using h)]
    have hp : State.peekAnswers
        { s.dropAnswers 1 with
            wire := s.wire ++ [{ phase := s.phase, left := s.bitcnt, cycle := .sample (s.answer 0) }],
            bitcnt := s.bitcnt - 1#9, pinEvents := s.pinEvents ++ readEvents s (s.answer 0),
            pins := { s.pins with swclkO := true } } n = (s.dropAnswers 1).peekAnswers n := rfl
    rw [hp]
    simp only [sampled, List.map_cons, runFrom, List.flatMap_cons, List.append_assoc, List.cons_append,
      List.nil_append, Prod.mk.injEq, State.mk.injEq, true_and, State.dropAnswers, List.drop_drop, Nat.add_comm 1 n,
      Nat.add_assoc]
    refine ⟨by bv_omega, ?_, ?_⟩
    · split <;> simp
    · rfl

theorem gReadData_eq (n : Nat) (s : State) (h : s.pins.swdioOe = false) :
    gReadData n s =
      ((gReadBits n s).1, { (gReadBits n s).2 with par := parSerial s.par (s.peekAnswers n) }) := by
  induction n generalizing s with
  | zero => simp [gReadData, gReadBits, parSerial]
  | succ n ih =>
    have hg : ∀ (m : Nat) (p : Bool) (t : State), t.pins.swdioOe = false →
        gReadBits m { t with par := p } = ((gReadBits m t).1, { (gReadBits m t).2 with par := p }) := by
      intro m p t ht
      rw [gReadBits_eq _ t ht, gReadBits_eq m { t with par := p } ht]
      rfl
    have hoe : (gRead s).2.pins.swdioOe = false := by rw [gRead_eq s h]; simpa using h
    rw [gReadData, gReadBits]
    simp only
    rw [ih { (gRead s).2 with par := (gRead s).2.par ^^ (gRead s).1 } hoe, hg _ _ _ hoe, peekAnswers_succ]
    have h1 : (gRead s).1 = s.answer 0 := by rw [gRead_eq s h]
    have h2 : (gRead s).2.par = s.par := by rw [gRead_eq s h]; rfl
    have h3 : State.peekAnswers { (gRead s).2 with par := (gRead s).2.par ^^ (gRead s).1 } n =
        (s.dropAnswers 1).peekAnswers n := by rw [gRead_eq s h]; rfl
    rw [h3, h1, h2]
    simp [parSerial]

theorem gWriteData_eq (bs : List Bool) (s : State) :
    gWriteData bs s = { gWriteBits bs s with par := parSerial s.par bs } := by
  induction bs generalizing s with
  | nil => simp [gWriteData, gWriteBits, parSerial]
  | cons b bs ih =>
    have hg : ∀ (p : Bool) (t : State), gWriteBits bs { t with par := p } = { gWriteBits bs t with par := p } := by
      intro p t
      rw [gWriteBits_eq bs t, gWriteBits_eq bs { t with par := p }]
      rfl
    rw [gWriteData, gWriteBits]
    simp only
    rw [ih, hg, gWrite_eq]
    rfl

/-! A whole phase: `BITCNT` starts at the number of cycles -/

theorem gIdleCycles_phase (p : Phase) (n : Nat) (s : State) :
    gIdleCycles n (enterPhase p n s) =
      { s with phase := p, bitcnt := 0#9,
               wire := s.wire ++ runOf p (List.replicate n (heldCycle s)),
               pinEvents := s.pinEvents ++ (List.replicate n (clockEvents s)).flatten,
               pins := if n = 0 then s.pins else { s.pins with swclkO := true } } := by
  rw [gIdleCycles_eq]
  have := runFrom_length_eq_runOf p (List.replicate n (heldCycle s))
  rw [List.length_replicate] at this
  simp [enterPhase, heldCycle] at this ⊢
  exact ⟨this, rfl⟩

theorem gWriteBits_phase (p : Phase) (bs : List Bool) (s : State) :
    gWriteBits bs (enterPhase p bs.length s) =
      { s with phase := p, bitcnt := 0#9, wire := s.wire ++ runOf p (driven bs),
               pinEvents := s.pinEvents ++ bs.flatMap (fun b => .dio b :: clockEvents s),
               pins := if bs = [] then s.pins
                       else { s.pins with swclkO := true, swdioO := bs.getLastD true } } := by
  rw [gWriteBits_eq]
  have := runFrom_length_eq_runOf p (driven bs)
  rw [driven_length] at this
  simp [enterPhase, this]
  rfl

theorem gReadBits_phase (p : Phase) (n : Nat) (s : State) (h : s.pins.swdioOe = false) :
    gReadBits n (enterPhase p n s) =
      (s.peekAnswers n,
        { s.dropAnswers n with
            phase := p, bitcnt := 0#9, wire := s.wire ++ runOf p (sampled (s.peekAnswers n)),
            pinEvents := s.pinEvents ++ (s.peekAnswers n).flatMap (readEvents s),
            pins := if n = 0 then s.pins else { s.pins with swclkO := true } }) := by
  rw [gReadBits_eq _ _ (by simpa using h)]
  have hp : (enterPhase p n s).peekAnswers n = s.peekAnswers n := rfl
  have := runFrom_length_eq_runOf p (sampled (s.peekAnswers n))
  rw [sampled_length, peekAnswers_length] at this
  rw [hp]
  simp [enterPhase, this, State.dropAnswers]
  rfl

end Sys2Proof.Machine
end

