-- ==== Sys2Proof/Laws/Core.lean ====
section
/-! SUPPORT. The part of the state both backends agree on: the state without the position, the peripheral, the pin-event
trace and the count of discarded positions. -/

namespace Sys2Proof.Machine

/-- What both backends agree on. -/
def State.core (s : State) : State :=
  { s with phase := .idle, bitcnt := 0#9, pinEvents := [],
           spi := { outLen := 0, inLen := 0, buf := [], busy := false, sense := false },
           inputs := { s.inputs with discards := 0 } }

@[simp] theorem core_params (s : State) : s.core.params = s.params := rfl
@[simp] theorem core_cmd (s : State) : s.core.cmd = s.cmd := rfl
@[simp] theorem core_req (s : State) : s.core.req = s.req := rfl
@[simp] theorem core_wdata (s : State) : s.core.wdata = s.wdata := rfl
@[simp] theorem core_rdata (s : State) : s.core.rdata = s.rdata := rfl
@[simp] theorem core_ack (s : State) : s.core.ack = s.ack := rfl
@[simp] theorem core_par (s : State) : s.core.par = s.par := rfl
@[simp] theorem core_result (s : State) : s.core.result = s.result := rfl
@[simp] theorem core_seqBuf (s : State) : s.core.seqBuf = s.seqBuf := rfl
@[simp] theorem core_seqLen (s : State) : s.core.seqLen = s.seqLen := rfl
@[simp] theorem core_phase (s : State) : s.core.phase = .idle := rfl
@[simp] theorem core_bitcnt (s : State) : s.core.bitcnt = 0#9 := rfl
@[simp] theorem core_cls (s : State) : s.core.cls = s.cls := rfl
@[simp] theorem core_perr (s : State) : s.core.perr = s.perr := rfl
@[simp] theorem core_ackinv (s : State) : s.core.ackinv = s.ackinv := rfl
@[simp] theorem core_debugPort (s : State) : s.core.debugPort = s.debugPort := rfl
@[simp] theorem core_turnaroundBits (s : State) : s.core.turnaroundBits = s.turnaroundBits := rfl
@[simp] theorem core_dataPhase (s : State) : s.core.dataPhase = s.dataPhase := rfl
@[simp] theorem core_idleCycles (s : State) : s.core.idleCycles = s.idleCycles := rfl
@[simp] theorem core_xferMode (s : State) : s.core.xferMode = s.xferMode := rfl
@[simp] theorem core_clockDelay (s : State) : s.core.clockDelay = s.clockDelay := rfl
@[simp] theorem core_timestamp (s : State) : s.core.timestamp = s.timestamp := rfl
@[simp] theorem core_pins (s : State) : s.core.pins = s.pins := rfl
@[simp] theorem core_host (s : State) : s.core.host = s.host := rfl
@[simp] theorem core_inputs (s : State) : s.core.inputs = { s.inputs with discards := 0 } := rfl
@[simp] theorem core_wire (s : State) : s.core.wire = s.wire := rfl
@[simp] theorem core_core (s : State) : s.core.core = s.core := rfl

theorem answer_core (s : State) (k : Nat) : s.core.answer k = s.answer k := rfl
theorem turnaround_core (s : State) : s.core.turnaround = s.turnaround := rfl
theorem rnw_core (s : State) : s.core.rnw = s.rnw := rfl

/-- Two states with the same core differ only in the position, the peripheral, the pin-event trace and the count of
discarded positions. -/
theorem eq_of_core_eq {s t : State} (h : t.core = s.core) :
    t = { s with phase := t.phase, bitcnt := t.bitcnt, spi := t.spi, pinEvents := t.pinEvents,
                 inputs := { s.inputs with discards := t.inputs.discards } } := by
  obtain ⟨⟩ := s
  obtain ⟨⟩ := t
  simp only [State.core, State.mk.injEq] at h ⊢
  simp_all [Inputs.mk.injEq]
  rename_i i1 _ _ i2 _ _
  obtain ⟨⟩ := i1
  obtain ⟨⟩ := i2
  simp_all

end Sys2Proof.Machine
end

