-- ==== Sys2Proof/Laws/Spi.lean ====
section
/-! SUPPORT. What each SPI operation does, said once: the shift, its completion, and runs of any length. -/

namespace Sys2Proof.Machine

/-! The cycles and the bits of a shift -/

/-- The cycles of an input part whose first used bit is the target's answer number `k`. -/
def slotRecords (s : State) : Nat → List InSlot → List CycleRec
  | _, [] => []
  | k, x :: xs =>
    if x.used then { phase := x.phase, left := x.left, cycle := .sample (s.answer k) } :: slotRecords s (k + 1) xs
    else { phase := x.phase, left := x.left, cycle := .released } :: slotRecords s k xs

/-- The bits of an input part: the target's answers from number `k` on, free values at the discarded positions. -/
def slotBits (s : State) : Nat → Nat → List InSlot → List Bool
  | _, _, [] => []
  | k, d, x :: xs =>
    if x.used then s.answer k :: slotBits s (k + 1) d xs
    else Config.discardedBit (s.inputs.discards + d) :: slotBits s k (d + 1) xs

/-- The cycles of an input part are those of its bits. -/
theorem slotRecords_eq_zipWith (s : State) (k d : Nat) (ins : List InSlot) :
    slotRecords s k ins = List.zipWith InSlot.toCycle ins (slotBits s k d ins) := by
  induction ins generalizing k d with
  | nil => rfl
  | cons x xs ih =>
    by_cases h : x.used = true
    · simp [slotRecords, slotBits, InSlot.toCycle, h, ih (k + 1) d]
    · simp [slotRecords, slotBits, InSlot.toCycle, h, ih k (d + 1)]

/-- The used bits of an input part are the target's answers in order. -/
theorem usedBits_slotBits (s : State) (k d : Nat) (ins : List InSlot) :
    usedBits ins (slotBits s k d ins) = s.answersFrom k (ins.countP InSlot.used) := by
  induction ins generalizing k d with
  | nil => rfl
  | cons x xs ih =>
    simp only [usedBits] at ih ⊢
    by_cases h : x.used = true
    · simp [slotBits, h, ih (k + 1) d, State.answersFrom, List.range_succ_eq_map, Nat.add_assoc, Nat.add_comm 1]
    · simp [slotBits, h, ih k (d + 1)]

/-- How many bits of an input part are used. -/
def usedCount (ins : List InSlot) : Nat := ins.countP InSlot.used

/-- The pins after a shift, or a run of shifts (44_spi_backend.md R212 (e), (f)). -/
def pinsAfter (outs : List OutSlot) (ins : List InSlot) (p : Pins) : Pins :=
  { swclkO := if outs = [] ∧ ins = [] then p.swclkO else true
    swclkOe := p.swclkOe
    swdioO := if outs = [] then p.swdioO else (outs.map OutSlot.bit).getLastD true
    swdioOe := if ins = [] then (if outs = [] then p.swdioOe else true) else false }

@[simp] theorem slotBits_length (s : State) (k d : Nat) (ins : List InSlot) : (slotBits s k d ins).length = ins.length := by
  induction ins generalizing k d with
  | nil => rfl
  | cons x xs ih => simp only [slotBits]; split <;> simp [ih]

theorem slotRecords_append (s : State) (k : Nat) (xs ys : List InSlot) :
    slotRecords s k (xs ++ ys) = slotRecords s k xs ++ slotRecords s (k + usedCount xs) ys := by
  induction xs generalizing k with
  | nil => simp [slotRecords, usedCount]
  | cons x xs ih =>
    simp only [List.cons_append, slotRecords, usedCount, List.countP_cons]
    split <;> simp_all [usedCount, Nat.add_comm, Nat.add_assoc]

theorem slotBits_append (s : State) (k d : Nat) (xs ys : List InSlot) :
    slotBits s k d (xs ++ ys) =
      slotBits s k d xs ++ slotBits s (k + usedCount xs) (d + (xs.length - usedCount xs)) ys := by
  induction xs generalizing k d with
  | nil => simp [slotBits, usedCount]
  | cons x xs ih =>
    have hle : usedCount xs ≤ xs.length := List.countP_le_length
    simp only [List.cons_append, slotBits, usedCount, List.countP_cons, List.length_cons]
    by_cases hx : x.used
    · simp only [hx, if_true, ih, List.cons_append, usedCount] at hle ⊢
      congr 3
      all_goals omega
    · simp only [hx, ih, List.cons_append, usedCount, Bool.false_eq_true, if_false] at hle ⊢
      congr 3
      all_goals omega

theorem usedCount_append (xs ys : List InSlot) : usedCount (xs ++ ys) = usedCount xs + usedCount ys := by
  simp [usedCount]

theorem slotRecords_shift {s t : State} {n : Nat} (h : ∀ k, t.answer k = s.answer (n + k)) (k : Nat)
    (xs : List InSlot) : slotRecords t k xs = slotRecords s (n + k) xs := by
  induction xs generalizing k with
  | nil => rfl
  | cons x xs ih => simp only [slotRecords, h, ih, Nat.add_assoc]

theorem slotBits_shift {s t : State} {n m : Nat} (h : ∀ k, t.answer k = s.answer (n + k))
    (hd : t.inputs.discards = s.inputs.discards + m) (k d : Nat) (xs : List InSlot) :
    slotBits t k d xs = slotBits s (n + k) (m + d) xs := by
  induction xs generalizing k d with
  | nil => rfl
  | cons x xs ih => simp only [slotBits, h, ih, hd, Nat.add_assoc]

/-! One shift -/

theorem shiftOut_eq (xs : List OutSlot) (s : State) :
    shiftOut xs s =
      { s with phase := (xs.getLast?.map OutSlot.phase).getD s.phase,
               bitcnt := (xs.getLast?.map fun x => x.left - 1#9).getD s.bitcnt,
               wire := s.wire ++ xs.map OutSlot.toCycle,
               pins := if xs = [] then s.pins
                       else { s.pins with swclkO := true, swdioO := (xs.map OutSlot.bit).getLastD true } } := by
  induction xs generalizing s with
  | nil => simp [shiftOut]
  | cons x xs ih =>
    simp only [shiftOut]
    rw [ih]
    cases xs <;> simp [recordCycle, setClk, OutSlot.toCycle, List.getLast?_cons, List.getLastD]

theorem answer_eq_of_inputs {s t : State} (h : t.inputs.answers = s.inputs.answers)
    (h' : t.inputs.samples = s.inputs.samples) (k : Nat) : t.answer k = s.answer k := by
  simp [State.answer, h, h']

/-- The input part of a shift on a released line. -/
theorem shiftIn_spec (xs : List InSlot) (s : State) (h : s.pins.swdioOe = false) :
    ∃ t, shiftIn xs s = (slotBits s 0 0 xs, t) ∧
      t = { s with
              phase := t.phase, bitcnt := t.bitcnt, wire := s.wire ++ slotRecords s 0 xs,
              inputs := s.inputs.after (usedCount xs) (s.inputs.discards + (xs.length - usedCount xs)),
              pins := if xs = [] then s.pins else { s.pins with swclkO := true } } := by
  induction xs generalizing s with
  | nil => exact ⟨s, rfl, by simp [slotRecords, usedCount, Inputs.after]⟩
  | cons x xs ih =>
    have hle : usedCount xs ≤ xs.length := List.countP_le_length
    have hoe : (shiftInBit x s).2.pins.swdioOe = false := by
      simp only [shiftInBit, sampleSwdio, setClk, recordCycle, State.dropAnswers, h]
      split <;> simp
    obtain ⟨t, ht, hs⟩ := ih (shiftInBit x s).2 hoe
    refine ⟨t, ?_, ?_⟩
    · simp only [shiftIn, ht, slotBits]
      by_cases hx : x.used
      · have h1 : (shiftInBit x s).1 = s.answer 0 := by
          simp [shiftInBit, sampleSwdio, setClk, h, hx, State.answer]
        have h2 : ∀ k, (shiftInBit x s).2.answer k = s.answer (1 + k) := by
          intro k
          rw [← answer_dropAnswers]
          exact answer_eq_of_inputs (by simp [shiftInBit, sampleSwdio, setClk, h, hx])
            (by simp [shiftInBit, sampleSwdio, setClk, h, hx]) k
        have h3 : (shiftInBit x s).2.inputs.discards = s.inputs.discards + 0 := by
          simp [shiftInBit, sampleSwdio, setClk, h, hx]
        rw [h1, slotBits_shift h2 h3]
        simp [hx]
      · have h1 : (shiftInBit x s).1 = Config.discardedBit s.inputs.discards := by
          simp [shiftInBit, setClk, hx]
        have h2 : ∀ k, (shiftInBit x s).2.answer k = s.answer (0 + k) := by
          intro k
          rw [Nat.zero_add]
          exact answer_eq_of_inputs (by simp [shiftInBit, setClk, hx]) (by simp [shiftInBit, setClk, hx]) k
        have h3 : (shiftInBit x s).2.inputs.discards = s.inputs.discards + 1 := by
          simp [shiftInBit, setClk, hx]
        rw [h1, slotBits_shift h2 h3]
        simp [hx]
    · rw [hs]
      by_cases hx : x.used
      · have h2 : ∀ k, (shiftInBit x s).2.answer k = s.answer (1 + k) := by
          intro k
          rw [← answer_dropAnswers]
          exact answer_eq_of_inputs (by simp [shiftInBit, sampleSwdio, setClk, h, hx])
            (by simp [shiftInBit, sampleSwdio, setClk, h, hx]) k
        rw [slotRecords_shift h2]
        have hc : usedCount (x :: xs) = usedCount xs + 1 := by simp [usedCount, hx]
        simp [shiftInBit, sampleSwdio, setClk, recordCycle, State.dropAnswers, h, hx, slotRecords, hc, Inputs.after,
          Nat.add_comm, State.answer]
        omega
      · have h2 : ∀ k, (shiftInBit x s).2.answer k = s.answer (0 + k) := by
          intro k
          rw [Nat.zero_add]
          exact answer_eq_of_inputs (by simp [shiftInBit, setClk, hx]) (by simp [shiftInBit, setClk, hx]) k
        rw [slotRecords_shift h2]
        have hc : usedCount (x :: xs) = usedCount xs := by simp [usedCount, hx]
        simp [shiftInBit, setClk, recordCycle, hx, slotRecords, hc, Inputs.after]
        omega

/-- `hal.shift` in full (44_spi_backend.md R212). -/
theorem halShift_spec (outs : List OutSlot) (ins : List InSlot) (s : State) :
    ∃ t, halShift outs ins s = (slotBits s 0 0 ins, t) ∧
      t = { s with
              phase := t.phase, bitcnt := t.bitcnt,
              wire := s.wire ++ outs.map OutSlot.toCycle ++ slotRecords s 0 ins,
              inputs := s.inputs.after (usedCount ins) (s.inputs.discards + (ins.length - usedCount ins)),
              pins := pinsAfter outs ins s.pins,
              spi := { outLen := outs.length, inLen := ins.length,
                       buf := overlay (slotBits s 0 0 ins) (overlay (outs.map OutSlot.bit) s.spi.buf), busy := false,
                       sense := if ins = [] then (if outs = [] then s.spi.sense else false) else true },
              pinEvents := s.pinEvents ++ [.shift (outs.map OutSlot.bit) (slotBits s 0 0 ins)] } := by
  have hout : ∀ u : State, u = (if outs.isEmpty then shiftStart outs ins s
        else shiftOut outs (setSense false (shiftStart outs ins s))) →
      u = { s with
              phase := u.phase, bitcnt := u.bitcnt, wire := s.wire ++ outs.map OutSlot.toCycle,
              pins := pinsAfter outs [] s.pins,
              spi := { outLen := outs.length, inLen := ins.length,
                       buf := overlay (outs.map OutSlot.bit) s.spi.buf, busy := true,
                       sense := if outs = [] then s.spi.sense else false } } := by
    rintro u rfl
    cases outs with
    | nil => simp [shiftStart, pinsAfter]
    | cons x xs => simp [shiftStart, setSense, shiftOut_eq, pinsAfter]
  generalize hu : (if outs.isEmpty then shiftStart outs ins s
        else shiftOut outs (setSense false (shiftStart outs ins s))) = u at hout
  have hu' := hout u rfl
  have hsh : halShift outs ins s =
      ((if ins.isEmpty then ([], u) else shiftIn ins (setSense true u)).1,
        shiftDone (outs.map OutSlot.bit) (if ins.isEmpty then ([], u) else shiftIn ins (setSense true u)).1
          (if ins.isEmpty then ([], u) else shiftIn ins (setSense true u)).2) := by
    simp only [halShift, hu]
  cases ins with
  | nil =>
    refine ⟨shiftDone (outs.map OutSlot.bit) [] u, by rw [hsh]; rfl, ?_⟩
    have hc : ∀ v : State, shiftDone (outs.map OutSlot.bit) [] v =
        { v with spi := { v.spi with busy := false },
                 pinEvents := v.pinEvents ++ [.shift (outs.map OutSlot.bit) []] } := by
      intro v
      simp [shiftDone, emit, overlay, PinEvent.apply]
    rw [hc, hu']
    simp [slotBits, slotRecords, usedCount, overlay, Inputs.after]
  | cons y ys =>
    obtain ⟨v, hv, hv'⟩ := shiftIn_spec (y :: ys) (setSense true u) (by simp)
    have hb : slotBits (setSense true u) 0 0 (y :: ys) = slotBits s 0 0 (y :: ys) := by
      rw [slotBits_shift (s := s) (n := 0) (m := 0) (fun k => by rw [Nat.zero_add, hu']; rfl) (by rw [hu']; rfl)]
    have hr : slotRecords (setSense true u) 0 (y :: ys) = slotRecords s 0 (y :: ys) := by
      rw [slotRecords_shift (s := s) (n := 0) (fun k => by rw [Nat.zero_add, hu']; rfl)]
    rw [hr] at hv'
    rw [hb] at hv
    refine ⟨shiftDone (outs.map OutSlot.bit) (slotBits s 0 0 (y :: ys)) v, ?_, ?_⟩
    · rw [hsh]
      simp only [List.isEmpty_cons, Bool.false_eq_true, if_false, hv]
    · have hc : ∀ (bs : List Bool) (v : State), shiftDone (outs.map OutSlot.bit) bs v =
          { v with spi := { v.spi with buf := overlay bs v.spi.buf, busy := false },
                   pinEvents := v.pinEvents ++ [.shift (outs.map OutSlot.bit) bs] } := by
        intro bs v
        simp [shiftDone, emit, PinEvent.apply]
      rw [hc, hv', setSense, hu']
      simp [pinsAfter]

/-- The wait ends at once when the peripheral is done (44_spi_backend.md R214). -/
theorem spiWait_done (s : State) (h : s.spi.busy = false) : spiWait s = some (emit [.poll false] s) := by
  simp [spiWait, Params.pollBound, spiPoll, h]

/-! Runs of any length -/

/-- `t` is a state in which a run of shifts from `s` may end: everything the run does is said here. -/
structure SpiRan (outs : List OutSlot) (ins : List InSlot) (s t : State) : Prop where
  core : t.core = { s.core with
    wire := s.wire ++ outs.map OutSlot.toCycle ++ slotRecords s 0 ins,
    inputs := s.inputs.after (usedCount ins) 0, pins := pinsAfter outs ins s.pins }
  discards : t.inputs.discards = s.inputs.discards + (ins.length - usedCount ins)
  busy : t.spi.busy = false
  sense : t.spi.sense = if ins = [] then (if outs = [] then s.spi.sense else false) else true
  buf : s.spi.buf.length = s.params.spiMaxBits → t.spi.buf.length = s.params.spiMaxBits
  lens : s.spi.outLen + s.spi.inLen ≤ s.params.spiMaxBits → t.spi.outLen + t.spi.inLen ≤ s.params.spiMaxBits
  events : ∃ ev, t.pinEvents = s.pinEvents ++ ev ∧ ∀ e ∈ ev, e.shiftFits s.params = true

theorem SpiRan.refl (s : State) (h : s.spi.busy = false) : SpiRan [] [] s s where
  core := by simp [slotRecords, usedCount, Inputs.after, pinsAfter]; rfl
  discards := by simp [usedCount]
  busy := h
  sense := by simp
  buf := id
  lens := id
  events := ⟨[], by simp, by simp⟩

theorem SpiRan.params {outs : List OutSlot} {ins : List InSlot} {s t : State} (h : SpiRan outs ins s t) :
    t.params = s.params := by
  have := congrArg State.params h.core
  simpa using this

theorem SpiRan.pins {outs : List OutSlot} {ins : List InSlot} {s t : State} (h : SpiRan outs ins s t) :
    t.pins = pinsAfter outs ins s.pins := by
  have := congrArg State.pins h.core
  simpa using this

theorem SpiRan.wire {outs : List OutSlot} {ins : List InSlot} {s t : State} (h : SpiRan outs ins s t) :
    t.wire = s.wire ++ outs.map OutSlot.toCycle ++ slotRecords s 0 ins := by
  have := congrArg State.wire h.core
  simpa using this

theorem SpiRan.inputs {outs : List OutSlot} {ins : List InSlot} {s t : State} (h : SpiRan outs ins s t) :
    t.inputs = s.inputs.after (usedCount ins) (s.inputs.discards + (ins.length - usedCount ins)) := by
  have h1 := congrArg State.inputs h.core
  have h2 := h.discards
  simp only [core_inputs, Inputs.after] at h1 ⊢
  generalize t.inputs = i at h1 h2 ⊢
  obtain ⟨⟩ := i
  simp_all

theorem SpiRan.answer {outs : List OutSlot} {ins : List InSlot} {s t : State} (h : SpiRan outs ins s t) (k : Nat) :
    t.answer k = s.answer (usedCount ins + k) := by
  rw [← answer_dropAnswers]
  exact answer_eq_of_inputs (by rw [h.inputs]; rfl) (by rw [h.inputs]; rfl) k

/-- Two runs, one after the other. -/
theorem SpiRan.trans {outs outs' : List OutSlot} {ins ins' : List InSlot} {s t u : State}
    (h : SpiRan outs ins s t) (h' : SpiRan outs' ins' t u) (hd : ins = [] ∨ outs' = []) :
    SpiRan (outs ++ outs') (ins ++ ins') s u where
  core := by
    have hr : slotRecords t 0 ins' = slotRecords s (usedCount ins) ins' := slotRecords_shift h.answer 0 ins'
    have hp := h.pins
    have hi := h.inputs
    rw [h'.core, h.core, hr, h.wire, hp, hi, slotRecords_append, usedCount_append]
    have hrec : s.wire ++ List.map OutSlot.toCycle outs ++ slotRecords s 0 ins ++ List.map OutSlot.toCycle outs' =
        s.wire ++ List.map OutSlot.toCycle (outs ++ outs') ++ slotRecords s 0 ins := by
      rcases hd with rfl | rfl <;> simp [slotRecords]
    have hpin : pinsAfter outs' ins' (pinsAfter outs ins s.pins) = pinsAfter (outs ++ outs') (ins ++ ins') s.pins := by
      rcases hd with rfl | rfl
      · cases outs' <;> cases ins' <;> simp [pinsAfter, List.getLast?_cons]
      · cases ins' <;> cases ins <;> simp [pinsAfter]
    rw [hrec, hpin]
    simp [Inputs.after, Nat.add_assoc]
  discards := by
    have h1 : usedCount ins ≤ ins.length := List.countP_le_length
    have h2 : usedCount ins' ≤ ins'.length := List.countP_le_length
    rw [h'.discards, h.discards, usedCount_append, List.length_append]
    omega
  busy := h'.busy
  sense := by
    rw [h'.sense, h.sense]
    rcases hd with rfl | rfl
    · cases ins' <;> cases outs' <;> simp
    · cases ins' <;> cases ins <;> simp
  buf := fun hb => by
    have := h'.buf (by rw [h.params]; exact h.buf hb)
    rwa [h.params] at this
  lens := fun hb => by
    have := h'.lens (by rw [h.params]; exact h.lens hb)
    rwa [h.params] at this
  events := by
    obtain ⟨e1, h1, h2⟩ := h.events
    obtain ⟨e2, h3, h4⟩ := h'.events
    refine ⟨e1 ++ e2, by rw [h3, h1, List.append_assoc], ?_⟩
    intro e he
    rcases List.mem_append.mp he with he | he
    · exact h2 e he
    · rw [← h.params]; exact h4 e he

/-- One shift and its wait. -/
theorem shiftWait_spec (outs : List OutSlot) (ins : List InSlot) (s : State) (h : s.spi.busy = false)
    (h1 : 1 ≤ outs.length + ins.length) (hm : outs.length + ins.length ≤ s.params.spiMaxBits) :
    ∃ t, shiftWait outs ins s = some (slotBits s 0 0 ins, t) ∧ SpiRan outs ins s t := by
  obtain ⟨t, ht, hs⟩ := halShift_spec outs ins s
  have hb : t.spi.busy = false := by rw [hs]
  refine ⟨emit [.poll false] t, ?_, ?_⟩
  · simp [shiftWait, h, ht, spiWait_done t hb]
  · have hpe : ∀ u : State, emit [.poll false] u = { u with pinEvents := u.pinEvents ++ [.poll false] } := by
      intro u
      simp [emit, PinEvent.apply]
    rw [hpe]
    refine ⟨?_, ?_, hb, ?_, ?_, ?_, ?_⟩
    · rw [hs]; simp [State.core, Inputs.after]
    · rw [hs]; rfl
    · rw [hs]
    · intro hl
      rw [hs]
      simp [overlay, hl]
      omega
    · intro _
      rw [hs]
      exact hm
    · refine ⟨[.shift (outs.map OutSlot.bit) (slotBits s 0 0 ins), .poll false], by rw [hs]; simp, ?_⟩
      intro e he
      simp only [List.mem_cons, List.not_mem_nil, or_false] at he
      rcases he with rfl | rfl
      · simp [PinEvent.shiftFits, h1, hm]
      · rfl

theorem spiMaxBits_pos (p : Params) : 34 ≤ p.spiMaxBits := by simp [Params.spiMaxBits]

theorem spiRunIn_spec (fuel : Nat) (ins : List InSlot) (s : State) (h : s.spi.busy = false)
    (hf : ins.length ≤ fuel) :
    ∃ t, spiRunIn fuel ins s = some (slotBits s 0 0 ins, t) ∧ SpiRan [] ins s t := by
  induction fuel generalizing ins s with
  | zero =>
    obtain rfl : ins = [] := by simpa using hf
    exact ⟨s, rfl, SpiRan.refl s h⟩
  | succ n ih =>
    cases ins with
    | nil => exact ⟨s, rfl, SpiRan.refl s h⟩
    | cons x xs =>
      have hp := spiMaxBits_pos s.params
      obtain ⟨t, ht, ha⟩ := shiftWait_spec [] ((x :: xs).take s.params.spiMaxBits) s h
        (by simp; omega) (by simp)
      obtain ⟨u, hu, hb⟩ := ih ((x :: xs).drop s.params.spiMaxBits) t ha.busy (by simp at hf ⊢; omega)
      have hsplit := List.take_append_drop s.params.spiMaxBits (x :: xs)
      refine ⟨u, ?_, ?_⟩
      · simp only [spiRunIn, List.isEmpty_cons, Bool.false_eq_true, if_false, ht, Option.bind_some, hu,
          Option.map_some]
        rw [slotBits_shift ha.answer ha.discards, Nat.add_zero, Nat.add_zero]
        conv_rhs => rw [← hsplit, slotBits_append, Nat.zero_add, Nat.zero_add]
      · have := ha.trans hb (.inr rfl)
        rwa [hsplit] at this

theorem spiRunOut_spec (fuel : Nat) (outs : List OutSlot) (ins : List InSlot) (s : State) (h : s.spi.busy = false)
    (hf : outs.length ≤ fuel) :
    ∃ t, spiRunOut fuel outs ins s = some (slotBits s 0 0 ins, t) ∧ SpiRan outs ins s t := by
  induction fuel generalizing outs s with
  | zero =>
    obtain rfl : outs = [] := by simpa using hf
    exact spiRunIn_spec _ ins s h (Nat.le_refl _)
  | succ n ih =>
    cases outs with
    | nil => simpa [spiRunOut] using spiRunIn_spec _ ins s h (Nat.le_refl _)
    | cons x xs =>
      have hp := spiMaxBits_pos s.params
      by_cases hfit : (x :: xs).length + ins.length ≤ s.params.spiMaxBits
      · obtain ⟨t, ht, ha⟩ := shiftWait_spec (x :: xs) ins s h (by simp; omega) hfit
        refine ⟨t, ?_, ha⟩
        simp only [spiRunOut, List.isEmpty_cons, Bool.false_eq_true, if_false, if_pos hfit, ht]
      · obtain ⟨t, ht, ha⟩ := shiftWait_spec ((x :: xs).take s.params.spiMaxBits) [] s h
          (by simp; omega) (by simp)
        obtain ⟨u, hu, hb⟩ := ih ((x :: xs).drop s.params.spiMaxBits) t ha.busy (by simp at hf ⊢; omega)
        have hsplit := List.take_append_drop s.params.spiMaxBits (x :: xs)
        refine ⟨u, ?_, ?_⟩
        · simp only [spiRunOut, List.isEmpty_cons, Bool.false_eq_true, if_false, if_neg hfit, ht, Option.bind_some, hu]
          rw [slotBits_shift ha.answer ha.discards]
          simp [usedCount]
        · have := ha.trans hb (.inl rfl)
          rwa [hsplit, List.nil_append] at this

/-- A run of shifts of any length: the result and everything it does (44_spi_backend.md R215). -/
theorem spiRun_spec (outs : List OutSlot) (ins : List InSlot) (s : State) (h : s.spi.busy = false) :
    ∃ t, spiRun outs ins s = some (slotBits s 0 0 ins, t) ∧ SpiRan outs ins s t :=
  spiRunOut_spec _ outs ins s h (Nat.le_refl _)

theorem spiReadBits_spec (ins : List InSlot) (s : State) (h : s.spi.busy = false) :
    ∃ t, spiReadBits ins s = some (slotBits s 0 0 ins, t) ∧ SpiRan [] ins s t := spiRun_spec [] ins s h

theorem spiWriteBits_spec (outs : List OutSlot) (s : State) (h : s.spi.busy = false) :
    ∃ t, spiWriteBits outs s = some t ∧ SpiRan outs [] s t := by
  cases outs with
  | nil => exact ⟨s, rfl, SpiRan.refl s h⟩
  | cons x xs =>
    obtain ⟨t, ht, ha⟩ := spiRun_spec (x :: xs) [] s h
    exact ⟨t, by simp [spiWriteBits, ht], ha⟩

/-- A run on a busy peripheral never ends well. -/
theorem spiRun_busy (outs : List OutSlot) (ins : List InSlot) (s : State) (h : s.spi.busy = true)
    (h1 : outs ≠ [] ∨ ins ≠ []) : spiRun outs ins s = none := by
  have hw : ∀ os is, shiftWait os is s = none := fun os is => by simp [shiftWait, h]
  cases outs with
  | nil =>
    cases ins with
    | nil => simp at h1
    | cons y ys => simp [spiRun, spiRunOut, spiRunIn, hw]
  | cons x xs =>
    simp only [spiRun, List.length_cons, spiRunOut, List.isEmpty_cons, Bool.false_eq_true, if_false, hw]
    split <;> rfl

/-! The slots of whole phases -/

@[simp] theorem outSlots_length (p : Phase) (bs : List Bool) : (outSlots p bs).length = bs.length := by
  induction bs with
  | nil => rfl
  | cons b bs ih => simp [outSlots, ih]

@[simp] theorem inSlots_length (p : Phase) (u : Bool) (n : Nat) : (inSlots p u n).length = n := by
  induction n with
  | zero => rfl
  | succ n ih => simp [inSlots, ih]

@[simp] theorem outSlots_records (p : Phase) (bs : List Bool) :
    (outSlots p bs).map OutSlot.toCycle = runOf p (driven bs) := by
  induction bs with
  | nil => rfl
  | cons b bs ih => simp [outSlots, driven, runOf, OutSlot.toCycle, ih] at ih ⊢

@[simp] theorem outSlots_bits (p : Phase) (bs : List Bool) : (outSlots p bs).map OutSlot.bit = bs := by
  induction bs with
  | nil => rfl
  | cons b bs ih => simp [outSlots, ih]

@[simp] theorem inSlots_usedCount (p : Phase) (u : Bool) (n : Nat) : usedCount (inSlots p u n) = if u then n else 0 := by
  induction n with
  | zero => simp [inSlots, usedCount]
  | succ n ih =>
    simp only [inSlots, usedCount, List.countP_cons] at ih ⊢
    cases u <;> simp_all

@[simp] theorem inSlots_records_released (s : State) (k : Nat) (p : Phase) (n : Nat) :
    slotRecords s k (inSlots p false n) = runOf p (released n) := by
  induction n with
  | zero => rfl
  | succ n ih =>
    simp only [inSlots, slotRecords, Bool.false_eq_true, if_false, ih, released, List.replicate_succ, runOf,
      List.length_replicate]

@[simp] theorem inSlots_records_sampled (s : State) (k : Nat) (p : Phase) (n : Nat) :
    slotRecords s k (inSlots p true n) = runOf p (sampled (s.answersFrom k n)) := by
  induction n generalizing k with
  | zero => rfl
  | succ n ih =>
    simp only [inSlots, slotRecords, if_true, ih, sampled, State.answersFrom, List.range_succ_eq_map, List.map_cons,
      List.map_map, runOf, List.length_map, List.length_range, Nat.add_zero]
    congr 4
    funext i
    simp [Nat.add_assoc, Nat.add_comm 1 i]

@[simp] theorem inSlots_bits_sampled (s : State) (k d : Nat) (p : Phase) (n : Nat) :
    slotBits s k d (inSlots p true n) = s.answersFrom k n := by
  induction n generalizing k with
  | zero => rfl
  | succ n ih =>
    simp only [inSlots, slotBits, if_true, ih, State.answersFrom, List.range_succ_eq_map, List.map_cons, List.map_map,
      Nat.add_zero]
    congr 2
    funext i
    simp [Nat.add_assoc, Nat.add_comm 1 i]

end Sys2Proof.Machine
end

