-- ==== Sys2Proof/Laws/Transfer.lean ====
section
/-! SUPPORT. What an XFER does from each of its stages to its end, on either backend. -/

namespace Sys2Proof.Machine

/-! Acknowledge and answers -/

theorem peekAnswers_eq_answersFrom (s : State) (n : Nat) : s.peekAnswers n = s.answersFrom 0 n := by
  simp [State.peekAnswers, State.answersFrom]

@[simp] theorem answersFrom_length (s : State) (k n : Nat) : (s.answersFrom k n).length = n := by
  simp [State.answersFrom]

theorem answersFrom_append (s : State) (k m n : Nat) :
    s.answersFrom k m ++ s.answersFrom (k + m) n = s.answersFrom k (m + n) := by
  simp only [State.answersFrom, List.range_add, List.map_append, List.map_map]
  congr 2
  funext i
  simp [Nat.add_assoc]

theorem answersFrom_shift {s t : State} {n : Nat} (h : ∀ k, t.answer k = s.answer (n + k)) (k m : Nat) :
    t.answersFrom k m = s.answersFrom (n + k) m := by
  simp [State.answersFrom, h, Nat.add_assoc]

theorem answersFrom_take (s : State) (k m n : Nat) : (s.answersFrom k (m + n)).take m = s.answersFrom k m := by
  rw [← answersFrom_append, List.take_left' (by simp)]

theorem answersFrom_drop (s : State) (k m n : Nat) : (s.answersFrom k (m + n)).drop m = s.answersFrom (k + m) n := by
  rw [← answersFrom_append, List.drop_left' (by simp)]

theorem answersFrom_one (s : State) (k : Nat) : s.answersFrom k 1 = [s.answer k] := by
  simp [State.answersFrom]

theorem answersFrom_getD (s : State) (k n i : Nat) (d : Bool) (h : i < n) :
    (s.answersFrom k n).getD i d = s.answer (k + i) := by
  simp [State.answersFrom, List.getD_eq_getElem?_getD, h]

theorem ofBool_le (b : Bool) : b.toNat ≤ 1 := by cases b <;> decide

theorem natOfBits_lt (bs : List Bool) : natOfBits bs < 2 ^ bs.length := by
  induction bs with
  | nil => decide
  | cons b bs ih =>
    have := ofBool_le b
    simp only [natOfBits, List.length_cons, Nat.pow_succ]
    omega

theorem natOfBits_testBit (bs : List Bool) (i : Nat) : (natOfBits bs).testBit i = bs.getD i false := by
  induction bs generalizing i with
  | nil => simp [natOfBits]
  | cons b bs ih =>
    cases i with
    | zero => cases b <;> simp [natOfBits]
    | succ i =>
      have h : (b.toNat + 2 * natOfBits bs) / 2 = natOfBits bs := by
        have := ofBool_le b
        omega
      simp only [natOfBits, List.getD_cons_succ, ← ih, Nat.testBit_succ, h]

/-- A value assembled from bits: bit `i` is the `i`-th bit of the list (10_state.md R23). -/
theorem ofBits_getLsbD (w : Nat) (bs : List Bool) (i : Nat) :
    (ofBits w bs).getLsbD i = (decide (i < w) && bs.getD i false) := by
  simp [ofBits, BitVec.getLsbD_ofNat, natOfBits_testBit]

@[simp] theorem bitsOf_length {w : Nat} (v : BitVec w) : (bitsOf v).length = w := by simp [bitsOf]

theorem bitsOf_getD {w : Nat} (v : BitVec w) (i : Nat) (h : i < w) : (bitsOf v).getD i false = v.getLsbD i := by
  simp [bitsOf, List.getD_eq_getElem?_getD, h]

/-- A value is assembled from its own bits. -/
theorem ofBits_bitsOf {w : Nat} (v : BitVec w) : ofBits w (bitsOf v) = v := by
  apply BitVec.eq_of_getLsbD_eq
  intro i hi
  rw [ofBits_getLsbD, bitsOf_getD v i hi]
  simp [hi]

/-- The bits of an assembled value. -/
theorem bitsOf_ofBits (bs : List Bool) : bitsOf (ofBits bs.length bs) = bs := by
  apply List.ext_getElem (by simp)
  intro i h1 h2
  simp only [bitsOf, List.getElem_map, List.getElem_range, ofBits_getLsbD, h2, decide_true, Bool.true_and]
  simp [List.getD_eq_getElem?_getD, h2]

theorem parSerial_append (p : Bool) (xs ys : List Bool) : parSerial p (xs ++ ys) = parSerial (parSerial p xs) ys := by
  simp [parSerial]

/-- The serial form ends at `PAR32` of the word the bits make (40_parity.md R115). -/
theorem parSerial_ofBits (bs : List Bool) (h : bs.length = 32) : parSerial false bs = par32 (ofBits 32 bs) := by
  have : bitsOf (ofBits 32 bs) = bs := by
    have := bitsOf_ofBits bs
    rwa [h] at this
  rw [par32, this]

/-! What every run keeps -/

/-- What a run on the SPI backend keeps. -/
structure SpiKept (s t : State) : Prop where
  params : t.params = s.params
  busy : t.spi.busy = false
  sense : (s.spi.sense = true → s.pins.swdioOe = false) → t.spi.sense = true → t.pins.swdioOe = false
  buf : s.spi.buf.length = s.params.spiMaxBits → t.spi.buf.length = s.params.spiMaxBits
  lens : s.spi.outLen + s.spi.inLen ≤ s.params.spiMaxBits → t.spi.outLen + t.spi.inLen ≤ s.params.spiMaxBits
  events : ∃ ev, t.pinEvents = s.pinEvents ++ ev ∧ ∀ e ∈ ev, e.shiftFits s.params = true

theorem SpiKept.trans {s t u : State} (h : SpiKept s t) (h' : SpiKept t u) : SpiKept s u where
  params := h'.params.trans h.params
  busy := h'.busy
  sense := fun hs => h'.sense (h.sense hs)
  buf := fun hb => by
    have := h'.buf (by rw [h.params]; exact h.buf hb)
    rwa [h.params] at this
  lens := fun hb => by
    have := h'.lens (by rw [h.params]; exact h.lens hb)
    rwa [h.params] at this
  events := by
    obtain ⟨e1, h1, h2⟩ := h.events
    obtain ⟨e2, h3, h4⟩ := h'.events
    refine ⟨e1 ++ e2, by rw [h3, h1, List.append_assoc], ?_⟩
    intro e he
    rcases List.mem_append.mp he with he | he
    · exact h2 e he
    · rw [← h.params]; exact h4 e he

theorem SpiRan.kept {outs : List OutSlot} {ins : List InSlot} {s t : State} (h : SpiRan outs ins s t) :
    SpiKept s t where
  params := h.params
  busy := h.busy
  sense := by
    rw [h.sense, h.pins]
    cases ins <;> cases outs <;> simp [pinsAfter]
  buf := h.buf
  lens := h.lens
  events := h.events

/-- A step that touches neither the peripheral nor the pins. -/
theorem SpiKept.of_same {s t : State} (hb : s.spi.busy = false) (hp : t.params = s.params) (h1 : t.spi = s.spi)
    (h2 : t.pins = s.pins) (h3 : t.pinEvents = s.pinEvents) : SpiKept s t where
  params := hp
  busy := by rw [h1]; exact hb
  sense := by rw [h1, h2]; exact id
  buf := by rw [h1]; exact id
  lens := by rw [h1]; exact id
  events := ⟨[], by simp [h3], by simp⟩

theorem spiOutEnable_kept (s : State) (hb : s.spi.busy = false) : SpiKept s (spiOutEnable s) where
  params := rfl
  busy := hb
  sense := by simp [spiOutEnable]
  buf := id
  lens := id
  events := ⟨[.oe true], rfl, by simp [PinEvent.shiftFits]⟩

theorem spiDrive_kept (b : Bool) (s : State) (hb : s.spi.busy = false) : SpiKept s (spiDrive b s) := by
  unfold spiDrive
  split
  · rename_i ho
    exact ⟨rfl, hb, by simp [PinEvent.apply], id, id, ⟨[.dio b], rfl, by simp [PinEvent.shiftFits]⟩⟩
  · exact ⟨rfl, hb, by simp [spiOutEnable], id, id,
      ⟨[.oe true, .dio b], by simp [spiOutEnable], by simp [PinEvent.shiftFits]⟩⟩

/-- What every operation on the wires keeps, on either backend. -/
structure Kept (s t : State) : Prop where
  phase : t.phase = .idle
  bitcnt : t.bitcnt = 0#9
  busy : s.spi.busy = false → t.spi.busy = false
  sense : s.spi.sense = false → t.spi.sense = false
  buf : s.spi.buf.length = s.params.spiMaxBits → t.spi.buf.length = s.params.spiMaxBits
  lens : s.spi.outLen + s.spi.inLen ≤ s.params.spiMaxBits → t.spi.outLen + t.spi.inLen ≤ s.params.spiMaxBits
  /-- On the GPIO backend the peripheral's registers keep their values. -/
  gpio : s.xferMode ≠ .spi → t.spi = s.spi

theorem SpiKept.toKept {s t : State} (h : SpiKept s t) (hp : t.phase = .idle) (hb : t.bitcnt = 0#9)
    (ho : t.pins.swdioOe = true) (hm : s.xferMode = .spi) : Kept s t where
  gpio := fun hg => absurd hm hg
  phase := hp
  bitcnt := hb
  busy := fun _ => h.busy
  sense := fun hs => by
    cases hc : t.spi.sense with
    | false => rfl
    | true =>
      have := h.sense (by simp [hs]) hc
      simp [ho] at this
  buf := h.buf
  lens := h.lens

theorem Kept.of_spi_eq {s t : State} (hp : t.phase = .idle) (hb : t.bitcnt = 0#9) (h : t.spi = s.spi) : Kept s t where
  gpio := fun _ => h
  phase := hp
  bitcnt := hb
  busy := by rw [h]; exact id
  sense := by rw [h]; exact id
  buf := by rw [h]; exact id
  lens := by rw [h]; exact id

/-! The stages on the GPIO backend -/

theorem timestampIfAsked_eq (s : State) :
    timestampIfAsked s =
      { s with timestamp := if s.req.getLsbD 7 then s.inputs.nextNow else s.timestamp,
               inputs := s.inputs.stamped (s.req.getLsbD 7) } := by
  unfold timestampIfAsked captureTimestamp Inputs.nextNow Inputs.stamped
  split <;> simp_all

/-- What the end of an OK transaction leaves, in terms both backends share. -/
def okEnd (s : State) : State :=
  { s.core with
      timestamp := if s.req.getLsbD 7 then s.inputs.nextNow else s.timestamp,
      inputs := (s.inputs.after 0 0).stamped (s.req.getLsbD 7),
      wire := s.wire ++ runOf .idlec (lows s.idleCycles.toNat), pins := s.pins.restored, result := okCode s }

/-- What a WAIT or FAULT transaction leaves after `recs`. -/
def nakEnd (recs : List CycleRec) (s : State) : State :=
  { s.core with wire := s.wire ++ recs, pins := s.pins.restored, result := s.ack.setWidth 8 }

/-- What an invalid acknowledge leaves after `recs`. -/
def errorEnd (recs : List CycleRec) (s : State) : State :=
  { s.core with wire := s.wire ++ recs, pins := s.pins.restored, result := errorCode }

theorem gDrive_true_eq (s : State) :
    gDrive true s = { s with pins := { s.pins with swdioO := true, swdioOe := true },
                             pinEvents := (gDrive true s).pinEvents } := by
  unfold gDrive gOutEnable
  split <;> simp_all [emit, PinEvent.apply]

theorem gLowCycles_phase (p : Phase) (n : Nat) (s : State) (h : s.pins.swdioOe = true) :
    ∃ ev, gLowCycles n (enterPhase p n s) =
      { s with phase := p, bitcnt := 0#9, wire := s.wire ++ runOf p (lows n), pinEvents := ev,
               pins := if n = 0 then s.pins else { s.pins with swclkO := true, swdioO := false } } := by
  unfold gLowCycles
  by_cases hn : n = 0
  · subst hn
    exact ⟨s.pinEvents, by simp [enterPhase, lows, driven, runOf]⟩
  · rw [if_neg hn]
    have he : emit [.dio false] (enterPhase p n s) = enterPhase p n (emit [.dio false] s) := rfl
    rw [he, gIdleCycles_phase]
    have hc : List.replicate n (heldCycle (emit [.dio false] s)) = lows n := by
      simp [heldCycle, emit, PinEvent.apply, h, lows, driven]
    rw [hc]
    exact ⟨_, by simp [hn, emit, PinEvent.apply]; rfl⟩

theorem gFinishOk_spec (s : State) (h : s.pins.swdioOe = true) (hc : s.pins.swclkO = true) :
    (gFinishOk s).core = okEnd s ∧ (gFinishOk s).spi = s.spi ∧ (gFinishOk s).phase = .idle ∧
      (gFinishOk s).bitcnt = 0#9 := by
  unfold gFinishOk
  rw [timestampIfAsked_eq]
  simp only
  obtain ⟨ev, hl⟩ := gLowCycles_phase .idlec s.idleCycles.toNat
    { s with timestamp := if s.req.getLsbD 7 then s.inputs.nextNow else s.timestamp,
             inputs := s.inputs.stamped (s.req.getLsbD 7) } h
  rw [hl, gDrive_true_eq]
  refine ⟨?_, rfl, rfl, rfl⟩
  simp only [okEnd, State.core, finish, raiseResult, enterPhase, okCode, Pins.restored, Inputs.stamped, Inputs.after,
    State.mk.injEq, true_and, and_true, List.drop_zero, Nat.add_zero, Pins.mk.injEq]
  split <;> simp [hc]

/-- Released cycles: nothing but the trace changes. -/
theorem gReleased_phase (p : Phase) (n : Nat) (s : State) (h : s.pins.swdioOe = false) (hc : s.pins.swclkO = true) :
    ∃ ev, gIdleCycles n (enterPhase p n s) =
      { s with phase := p, bitcnt := 0#9, wire := s.wire ++ runOf p (released n), pinEvents := ev } := by
  rw [gIdleCycles_phase]
  have hh : heldCycle s = .released := by simp [heldCycle, h]
  have hp : (if n = 0 then s.pins else { s.pins with swclkO := true }) = s.pins := by
    split
    · rfl
    · rw [← hc]
  rw [hh, hp]
  exact ⟨_, rfl⟩

theorem gOutEnable_eq (s : State) :
    gOutEnable s = { s with pins := { s.pins with swdioOe := true }, pinEvents := s.pinEvents ++ [.oe true] } := rfl

theorem gOutDisable_eq (s : State) :
    gOutDisable s = { s with pins := { s.pins with swdioOe := false }, pinEvents := s.pinEvents ++ [.oe false] } := rfl

theorem gNak_spec (s : State) (h : s.pins.swdioOe = false) (hc : s.pins.swclkO = true) :
    (gNak s).core = nakEnd (nakFrame s.dataPhase s.rnw s.turnaround) s ∧ (gNak s).spi = s.spi ∧
      (gNak s).phase = .idle ∧ (gNak s).bitcnt = 0#9 := by
  obtain ⟨e1, h1⟩ := gReleased_phase .dummyR 33 s h hc
  have hq : ∃ (q : Phase) (m : BitVec 9) (e2 : List PinEvent),
      (if s.dataPhase && s.rnw then gIdleCycles 33 (enterPhase .dummyR 33 s) else s) =
      { s with phase := q, bitcnt := m, pinEvents := e2,
               wire := s.wire ++ (if s.dataPhase && s.rnw then runOf .dummyR (released 33) else []) } := by
    split
    · exact ⟨_, _, _, h1⟩
    · exact ⟨s.phase, s.bitcnt, s.pinEvents, by simp⟩
  obtain ⟨q, m, e2, h2⟩ := hq
  obtain ⟨e3, h3⟩ := gReleased_phase .trnF s.turnaround
    { s with phase := q, bitcnt := m, pinEvents := e2,
             wire := s.wire ++ (if s.dataPhase && s.rnw then runOf .dummyR (released 33) else []) } h hc
  have h4 := gLowCycles_phase .dummyW 33
    (gOutEnable { s with
      phase := .trnF, bitcnt := 0#9, pinEvents := e3,
      wire := s.wire ++ (if s.dataPhase && s.rnw then runOf .dummyR (released 33) else []) ++
        runOf .trnF (released s.turnaround) }) rfl
  obtain ⟨e4, h4⟩ := h4
  unfold gNak
  simp only [h2]
  have ht : State.turnaround { s with
      phase := q, bitcnt := m, pinEvents := e2,
      wire := s.wire ++ (if s.dataPhase && s.rnw then runOf .dummyR (released 33) else []) } = s.turnaround := rfl
  rw [ht, h3]
  have hr : State.rnw (gOutEnable { s with
      phase := .trnF, bitcnt := 0#9, pinEvents := e3,
      wire := s.wire ++ (if s.dataPhase && s.rnw then runOf .dummyR (released 33) else []) ++
        runOf .trnF (released s.turnaround) }) = s.rnw := rfl
  rw [hr, h4]
  have hd : (gOutEnable { s with
      phase := .trnF, bitcnt := 0#9, pinEvents := e3,
      wire := s.wire ++ (if s.dataPhase && s.rnw then runOf .dummyR (released 33) else []) ++
        runOf .trnF (released s.turnaround) }).dataPhase = s.dataPhase := rfl
  rw [hd, gDrive_true_eq, gOutEnable_eq]
  by_cases hw : (s.dataPhase && !s.rnw) = true
  · simp [hw, nakEnd, nakFrame, State.core, finish, raiseResult, enterPhase, Pins.restored]
  · simp [hw, nakEnd, nakFrame, State.core, finish, raiseResult, enterPhase, Pins.restored, hc]

theorem gRecov_spec (s : State) (h : s.pins.swdioOe = false) (hc : s.pins.swclkO = true) :
    (gRecov s).core = errorEnd (recoveryFrame s.turnaround) s ∧ (gRecov s).spi = s.spi ∧
      (gRecov s).phase = .idle ∧ (gRecov s).bitcnt = 0#9 := by
  obtain ⟨e1, h1⟩ := gReleased_phase .recov (s.turnaround + 33) s h hc
  unfold gRecov
  simp only [h1]
  rw [gDrive_true_eq]
  simp [errorEnd, recoveryFrame, State.core, finish, raiseResult, enterPhase, Pins.restored, hc]

/-- The state after a read data phase and its parity bit: what both backends share (41_swd_transfer.md R130 to R133). -/
def readBits (bits : List Bool) (s : State) : State :=
  { s with rdata := ofBits 32 (bits.take 32), par := par32 (ofBits 32 (bits.take 32)),
           perr := bits.getD 32 false != par32 (ofBits 32 (bits.take 32)),
           cls := if bits.getD 32 false = par32 (ofBits 32 (bits.take 32)) then s.cls else .error }

/-- What the read data phase and everything after it leaves. -/
def readEnd (bits : List Bool) (s : State) : State :=
  { okEnd (readBits bits s) with
      wire := s.wire ++ readFrame s.turnaround s.idleCycles.toNat bits,
      inputs := (s.inputs.after 33 0).stamped (s.req.getLsbD 7) }

/-- What the write data phase and everything after it leaves. -/
def writeEnd (frame : List CycleRec) (s : State) : State :=
  { okEnd { s with par := par32 s.wdata } with wire := s.wire ++ frame }

theorem stamped_nextNow (i : Inputs) (n d : Nat) : (i.after n d).nextNow = i.nextNow := rfl

/-- One sampled bit in a phase of its own. -/
theorem gRead_phase (p : Phase) (t : State) (h : t.pins.swdioOe = false) (hc : t.pins.swclkO = true) :
    ∃ ev, gRead (enterPhase p 1 t) = (t.answer 0, { t.dropAnswers 1 with
      phase := p, bitcnt := 0#9, wire := t.wire ++ runOf p (sampled [t.answer 0]), pinEvents := ev }) := by
  have hp : ({ t.pins with swclkO := true } : Pins) = t.pins := by rw [← hc]
  refine ⟨t.pinEvents ++ readEvents (enterPhase p 1 t) (t.answer 0), ?_⟩
  rw [gRead_eq _ (by simpa using h)]
  have ha : (enterPhase p 1 t).answer 0 = t.answer 0 := rfl
  rw [ha]
  simp only [enterPhase, State.dropAnswers, hp, sampled, List.map_cons, List.map_nil, runOf, List.length_nil]
  rfl

/-- The trailing turnaround of a read and what follows it (41_swd_transfer.md R132, R135 to R137). -/
theorem gReadTail_spec (u : State) (h : u.pins.swdioOe = false) (hc : u.pins.swclkO = true) :
    (gFinishOk (gOutEnable (gIdleCycles u.turnaround (enterPhase .trnR u.turnaround u)))).core =
        okEnd { u with wire := u.wire ++ runOf .trnR (released u.turnaround) } ∧
      (gFinishOk (gOutEnable (gIdleCycles u.turnaround (enterPhase .trnR u.turnaround u)))).spi = u.spi ∧
      (gFinishOk (gOutEnable (gIdleCycles u.turnaround (enterPhase .trnR u.turnaround u)))).phase = .idle ∧
      (gFinishOk (gOutEnable (gIdleCycles u.turnaround (enterPhase .trnR u.turnaround u)))).bitcnt = 0#9 := by
  obtain ⟨ev, he⟩ := gReleased_phase .trnR u.turnaround u h hc
  rw [he]
  obtain ⟨f1, f2, f3, f4⟩ := gFinishOk_spec (gOutEnable { u with
    phase := .trnR, bitcnt := 0#9, wire := u.wire ++ runOf .trnR (released u.turnaround), pinEvents := ev }) rfl hc
  exact ⟨f1.trans rfl, f2, f3, f4⟩

/-- The 32 data bits of a read (41_swd_transfer.md R130). -/
theorem gReadWord_spec (s : State) (h : s.pins.swdioOe = false) (hc : s.pins.swclkO = true) :
    ∃ ev, gReadData 32 { enterPhase .rdata 32 s with par := false } =
      (s.answersFrom 0 32, { s.dropAnswers 32 with
        phase := .rdata, bitcnt := 0#9, wire := s.wire ++ runOf .rdata (sampled (s.answersFrom 0 32)),
        pinEvents := ev, par := par32 (ofBits 32 (s.answersFrom 0 32)) }) := by
  rw [gReadData_eq _ _ (by simpa using h)]
  have hx : gReadBits 32 { enterPhase .rdata 32 s with par := false } =
      gReadBits 32 (enterPhase .rdata 32 { s with par := false }) := rfl
  rw [hx, gReadBits_phase _ _ _ (by simpa using h)]
  have hy : State.peekAnswers { enterPhase .rdata 32 s with par := false } 32 = s.answersFrom 0 32 :=
    peekAnswers_eq_answersFrom s 32
  have hz : State.peekAnswers { s with par := false } 32 = s.answersFrom 0 32 := peekAnswers_eq_answersFrom s 32
  rw [hy, hz, parSerial_ofBits _ (by simp)]
  have hp : (if (32 : Nat) = 0 then s.pins else { s.pins with swclkO := true }) = s.pins := by
    rw [if_neg (by decide), ← hc]
  simp only [State.dropAnswers]
  rw [hp]
  exact ⟨_, rfl⟩

theorem gRdata_spec (s : State) (h : s.pins.swdioOe = false) (hc : s.pins.swclkO = true) :
    (gRdata s).core = readEnd (s.answersFrom 0 33) s ∧ (gRdata s).spi = s.spi ∧ (gRdata s).phase = .idle ∧
      (gRdata s).bitcnt = 0#9 := by
  have he : gEnsureReleased s = s := by simp [gEnsureReleased, h]
  obtain ⟨e1, h1⟩ := gReadWord_spec s h hc
  generalize ht : ({ s.dropAnswers 32 with
        phase := .rdata, bitcnt := 0#9, wire := s.wire ++ runOf .rdata (sampled (s.answersFrom 0 32)),
        pinEvents := e1, par := par32 (ofBits 32 (s.answersFrom 0 32)) } : State) = t at h1
  have htp : t.pins = s.pins := by rw [← ht]; rfl
  have htt : t.turnaroundBits = s.turnaroundBits := by rw [← ht]; rfl
  obtain ⟨e2, h2⟩ := gRead_phase .rpar t (by rw [htp]; exact h) (by rw [htp]; exact hc)
  have ha : t.answer 0 = s.answer 32 := by
    have := answer_dropAnswers s 32 0
    rw [Nat.add_zero] at this
    rw [← this, ← ht]
    rfl
  rw [ha] at h2
  have hg : gRdata s = gFinishOk (gOutEnable (gIdleCycles s.turnaround (enterPhase .trnR s.turnaround
      (checkParity (s.answer 32) { { t.dropAnswers 1 with
        phase := .rpar, bitcnt := 0#9, wire := t.wire ++ runOf .rpar (sampled [s.answer 32]), pinEvents := e2 } with
        rdata := ofBits 32 (s.answersFrom 0 32) })))) := by
    have hx : State.turnaround (checkParity (s.answer 32) { { t.dropAnswers 1 with
        phase := .rpar, bitcnt := 0#9, wire := t.wire ++ runOf .rpar (sampled [s.answer 32]), pinEvents := e2 } with
        rdata := ofBits 32 (s.answersFrom 0 32) }) = s.turnaround := by
      simp only [State.turnaround, checkParity_turnaroundBits, State.dropAnswers_turnaroundBits, htt]
    unfold gRdata
    simp only [he, h1, h2]
    simp only at hx
    rw [hx]
  generalize hu : checkParity (s.answer 32) { { t.dropAnswers 1 with
        phase := .rpar, bitcnt := 0#9, wire := t.wire ++ runOf .rpar (sampled [s.answer 32]), pinEvents := e2 } with
        rdata := ofBits 32 (s.answersFrom 0 32) } = u at hg
  have hut : u.turnaround = s.turnaround := by
    rw [← hu]
    simp only [State.turnaround, checkParity_turnaroundBits, State.dropAnswers_turnaroundBits, htt]
  have hup : u.pins = s.pins := by
    rw [← hu]
    simp only [checkParity_pins, State.dropAnswers_pins, htp]
  rw [← hut] at hg
  obtain ⟨f1, f2, f3, f4⟩ := gReadTail_spec u (by rw [hup]; exact h) (by rw [hup]; exact hc)
  rw [hg]
  refine ⟨f1.trans ?_, f2.trans ?_, f3, f4⟩
  · have htk : (s.answersFrom 0 33).take 32 = s.answersFrom 0 32 := answersFrom_take s 0 32 1
    have hdr : (s.answersFrom 0 33).drop 32 = [s.answer 32] := by
      rw [answersFrom_drop s 0 32 1, answersFrom_one]
    have hgd : (s.answersFrom 0 33).getD 32 false = s.answer 32 := by
      rw [answersFrom_getD _ _ _ _ _ (by decide)]
    rw [hut, ← hu, ← ht]
    unfold readEnd readBits readFrame
    rw [htk, hgd, hdr]
    generalize s.answer 32 = a
    generalize s.answersFrom 0 32 = v
    generalize ofBits 32 v = w
    generalize par32 w = q
    simp only [okEnd, checkParity, State.core, okCode, Pins.restored, Inputs.stamped, Inputs.after, Inputs.nextNow,
      State.dropAnswers, List.append_assoc, List.drop_zero, List.drop_drop, Nat.add_zero, Nat.add_assoc]
  · rw [← hu, ← ht]
    simp only [checkParity_spi, State.dropAnswers_spi]

theorem gEnsureDriven_eq (s : State) :
    ∃ ev, gEnsureDriven s = { s with pins := { s.pins with swdioOe := true }, pinEvents := ev } := by
  unfold gEnsureDriven
  split
  · rename_i h
    exact ⟨s.pinEvents, by rw [← h]⟩
  · exact ⟨_, gOutEnable_eq s⟩

/-- Driven cycles of one phase on a driven line. -/
theorem gDriven_phase (p : Phase) (bs : List Bool) (s : State) (hc : s.pins.swclkO = true) :
    ∃ ev, gWriteBits bs (enterPhase p bs.length s) =
      { s with phase := p, bitcnt := 0#9, wire := s.wire ++ runOf p (driven bs), pinEvents := ev,
               pins := if bs = [] then s.pins else { s.pins with swdioO := bs.getLastD true } } := by
  rw [gWriteBits_phase]
  have hp : ∀ b : Bool, ({ s.pins with swclkO := true, swdioO := b } : Pins) = { s.pins with swdioO := b } := by
    intro b
    rw [← hc]
  exact ⟨s.pinEvents ++ bs.flatMap (fun b => .dio b :: clockEvents s), by rw [hp]⟩

/-- The write data phase: the line is taken if it was not (41_swd_transfer.md R142, R143). -/
theorem gWdata_spec (s : State) (hc : s.pins.swclkO = true) :
    (gWdata s).core = writeEnd (writeDataFrame false s.idleCycles.toNat s.wdata) s ∧ (gWdata s).spi = s.spi ∧
      (gWdata s).phase = .idle ∧ (gWdata s).bitcnt = 0#9 := by
  obtain ⟨e0, h0⟩ := gEnsureDriven_eq s
  obtain ⟨e1, h1⟩ := gDriven_phase .wdata (bitsOf s.wdata)
    { s with pins := { s.pins with swdioOe := true }, pinEvents := e0, par := false } hc
  rw [bitsOf_length] at h1
  have hne : bitsOf s.wdata ≠ [] := fun h => by simpa using congrArg List.length h
  rw [if_neg hne] at h1
  have hw : gWriteData (bitsOf s.wdata) { enterPhase .wdata 32 (gEnsureDriven s) with par := false } =
      { s with phase := .wdata, bitcnt := 0#9, wire := s.wire ++ runOf .wdata (driven (bitsOf s.wdata)),
               pinEvents := e1, par := par32 s.wdata,
               pins := { s.pins with swdioOe := true, swdioO := (bitsOf s.wdata).getLastD true } } := by
    rw [gWriteData_eq, h0]
    have hx : ({ enterPhase .wdata 32
          { s with pins := { s.pins with swdioOe := true }, pinEvents := e0 } with par := false } : State) =
        enterPhase .wdata 32 { s with pins := { s.pins with swdioOe := true }, pinEvents := e0, par := false } := rfl
    rw [hx, h1]
    rfl
  have hwd : (gEnsureDriven s).wdata = s.wdata := by rw [h0]
  generalize hu : ({ s with
      phase := .wdata, bitcnt := 0#9, wire := s.wire ++ runOf .wdata (driven (bitsOf s.wdata)),
      pinEvents := e1, par := par32 s.wdata,
      pins := { s.pins with swdioOe := true, swdioO := (bitsOf s.wdata).getLastD true } } : State) = u at hw
  have hup : u.par = par32 s.wdata := by rw [← hu]
  obtain ⟨e2, h2⟩ := gDriven_phase .wpar [u.par] u (by rw [← hu]; exact hc)
  have hg : gWdata s = gFinishOk { u with
      phase := .wpar, bitcnt := 0#9, wire := u.wire ++ runOf .wpar (driven [par32 s.wdata]), pinEvents := e2,
      pins := { u.pins with swdioO := par32 s.wdata } } := by
    have hx : gWdata s = gFinishOk (gWriteBits
        [(gWriteData (bitsOf (gEnsureDriven s).wdata)
          { enterPhase .wdata 32 (gEnsureDriven s) with par := false }).par]
        (enterPhase .wpar 1 (gWriteData (bitsOf (gEnsureDriven s).wdata)
          { enterPhase .wdata 32 (gEnsureDriven s) with par := false }))) := rfl
    rw [hx, hwd, hw]
    rw [show enterPhase .wpar 1 u = enterPhase .wpar [u.par].length u from rfl, h2, hup]
    simp
  obtain ⟨f1, f2, f3, f4⟩ := gFinishOk_spec { u with
      phase := .wpar, bitcnt := 0#9, wire := u.wire ++ runOf .wpar (driven [par32 s.wdata]), pinEvents := e2,
      pins := { u.pins with swdioO := par32 s.wdata } } (by rw [← hu]) (by rw [← hu]; exact hc)
  rw [hg]
  refine ⟨f1.trans ?_, f2.trans (by rw [← hu]), f3, f4⟩
  rw [← hu]
  unfold writeEnd writeDataFrame
  generalize par32 s.wdata = q
  generalize bitsOf s.wdata = bs
  simp only [okEnd, State.core, okCode, Pins.restored, Inputs.stamped, Inputs.after, Inputs.nextNow,
    List.append_assoc, Bool.false_eq_true, if_false, List.nil_append]

/-- The turnaround of a write and its data phase (41_swd_transfer.md R141 to R143). -/
theorem gTrnW_spec (s : State) (h : s.pins.swdioOe = false) (hc : s.pins.swclkO = true) :
    (gTrnW s).core = writeEnd (writeFrame false s.turnaround s.idleCycles.toNat s.wdata) s ∧
      (gTrnW s).spi = s.spi ∧ (gTrnW s).phase = .idle ∧ (gTrnW s).bitcnt = 0#9 := by
  obtain ⟨e1, h1⟩ := gReleased_phase .trnW s.turnaround s h hc
  unfold gTrnW
  rw [h1]
  obtain ⟨f1, f2, f3, f4⟩ := gWdata_spec (gOutEnable { s with
    phase := .trnW, bitcnt := 0#9, wire := s.wire ++ runOf .trnW (released s.turnaround), pinEvents := e1 }) hc
  refine ⟨f1.trans ?_, f2, f3, f4⟩
  simp only [writeEnd, writeFrame, gOutEnable_eq, okEnd, State.core, okCode, Pins.restored, Inputs.stamped,
    Inputs.nextNow, List.append_assoc]
  rfl

/-- What a transaction leaves from its latched acknowledge on; `bits` are the target's next 33 answers. -/
def pathEnd (s : State) (bits : List Bool) : State :=
  match ackClass s.ack with
  | .ok => if s.rnw then readEnd bits s
           else writeEnd (writeFrame s.extraCycle s.turnaround s.idleCycles.toNat s.wdata) s
  | .wait => nakEnd (nakFrame s.dataPhase s.rnw s.turnaround) s
  | .fault => nakEnd (nakFrame s.dataPhase s.rnw s.turnaround) s
  | .error => errorEnd (recoveryFrame s.turnaround) s

theorem gDispatch_spec (s : State) (h : s.pins.swdioOe = false) (hc : s.pins.swclkO = true) (hm : s.xferMode ≠ .spi) :
    (gDispatch s).core = pathEnd s (s.answersFrom 0 33) ∧ (gDispatch s).spi = s.spi ∧ (gDispatch s).phase = .idle ∧
      (gDispatch s).bitcnt = 0#9 := by
  have he : s.extraCycle = false := by simp [State.extraCycle, hm]
  unfold gDispatch pathEnd
  cases ackClass s.ack with
  | ok =>
    simp only [he]
    split
    · exact gRdata_spec s h hc
    · exact gTrnW_spec s h hc
  | wait => exact gNak_spec s h hc
  | fault => exact gNak_spec s h hc
  | error => exact gRecov_spec s h hc

/-- The request, the first turnaround and the acknowledge on the GPIO backend (41_swd_transfer.md R125 to R127). -/
theorem gRequestHeader_spec (rb : Byte) (s : State) :
    ∃ ev, gRequestHeader rb false s = (s.answersFrom 0 3, { s.dropAnswers 3 with
      phase := .acks, bitcnt := 0#9, pinEvents := ev,
      wire := s.wire ++ (runOf .req (driven (bitsOf rb)) ++ runOf .trn1 (released s.turnaround) ++
        runOf .acks (sampled (s.answersFrom 0 3))),
      pins := { s.pins with swclkO := true, swdioO := (bitsOf rb).getLastD true, swdioOe := false } }) := by
  obtain ⟨e0, h0⟩ := gEnsureDriven_eq (enterPhase .req 8 s)
  have h1 := gWriteBits_phase .req (bitsOf rb) { s with pins := { s.pins with swdioOe := true }, pinEvents := e0 }
  rw [bitsOf_length, if_neg (fun h => by simpa using congrArg List.length h)] at h1
  have h2 : ∃ ev, gWriteBits (bitsOf rb) (gEnsureDriven (enterPhase .req 8 s)) = { s with
      phase := .req, bitcnt := 0#9, wire := s.wire ++ runOf .req (driven (bitsOf rb)), pinEvents := ev,
      pins := { s.pins with swclkO := true, swdioO := (bitsOf rb).getLastD true, swdioOe := true } } := by
    rw [h0]
    exact ⟨_, h1⟩
  obtain ⟨e2, h2⟩ := h2
  obtain ⟨e3, h3⟩ := gReleased_phase .trn1 s.turnaround (gOutDisable { s with
      phase := .req, bitcnt := 0#9, wire := s.wire ++ runOf .req (driven (bitsOf rb)), pinEvents := e2,
      pins := { s.pins with swclkO := true, swdioO := (bitsOf rb).getLastD true, swdioOe := true } }) rfl rfl
  generalize hu : ({ (gOutDisable { s with
      phase := .req, bitcnt := 0#9, wire := s.wire ++ runOf .req (driven (bitsOf rb)), pinEvents := e2,
      pins := { s.pins with swclkO := true, swdioO := (bitsOf rb).getLastD true, swdioOe := true } }) with
      phase := .trn1, bitcnt := 0#9, pinEvents := e3,
      wire := (gOutDisable { s with
        phase := .req, bitcnt := 0#9, wire := s.wire ++ runOf .req (driven (bitsOf rb)), pinEvents := e2,
        pins := { s.pins with
          swclkO := true, swdioO := (bitsOf rb).getLastD true, swdioOe := true } }).wire ++
        runOf .trn1 (released s.turnaround) } : State) = u at h3
  have hup : u.pins = { s.pins with swclkO := true, swdioO := (bitsOf rb).getLastD true, swdioOe := false } := by
    rw [← hu]
    rfl
  have hui : u.inputs = s.inputs := by rw [← hu]; rfl
  have hans : ∀ n, u.peekAnswers n = s.answersFrom 0 n := by
    intro n
    rw [← peekAnswers_eq_answersFrom]
    exact peekAnswers_congr (by rw [hui]) (by rw [hui]) n
  have h4 := gReadBits_phase .acks 3 u (by rw [hup])
  rw [hans] at h4
  have hx : gRequestHeader rb false s = gReadBits 3 (enterPhase .acks 3 (gIdleCycles s.turnaround
      (gOutDisable (enterPhase .trn1 s.turnaround
        (gWriteBits (bitsOf rb) (gEnsureDriven (enterPhase .req 8 s))))))) := rfl
  have hy : gIdleCycles s.turnaround (gOutDisable (enterPhase .trn1 s.turnaround
      (gWriteBits (bitsOf rb) (gEnsureDriven (enterPhase .req 8 s))))) = u := by
    rw [h2]
    exact h3
  rw [hx, hy, h4, if_neg (by decide)]
  refine ⟨u.pinEvents ++ (s.answersFrom 0 3).flatMap (readEvents u), ?_⟩
  rw [← hu]
  simp only [gOutDisable_eq, State.dropAnswers, List.append_assoc]

/-- The state once the acknowledge is latched, `frame` being the cycles before it. -/
def ackedAt (frame : List CycleRec) (s : State) : State :=
  latchAck s.nextAck { s with wire := s.wire ++ frame, inputs := s.inputs.after 3 s.inputs.discards }

/-- What an XFER leaves from its request phase on. -/
def xferEnd (s : State) : State :=
  pathEnd (ackedAt (headerFrame (requestNibble s.req) s.turnaround (s.answersFrom 0 3)) s) (s.answersFrom 3 33)

/-- What an XFER leaves from its acknowledge phase on. -/
def acksEnd (s : State) : State :=
  pathEnd (ackedAt (runOf .acks (sampled (s.answersFrom 0 3))) s) (s.answersFrom 3 33)

/-- The end of a path depends only on what both backends share, and on no pin but the enable of SWCLK. -/
theorem pathEnd_congr {s t : State} (bits : List Bool) (h : t.core = { s.core with pins := t.pins })
    (hp : t.pins.swclkOe = s.pins.swclkOe) : pathEnd t bits = pathEnd s bits := by
  have hr : t.pins.restored = s.pins.restored := by simp [Pins.restored, hp]
  obtain ⟨⟩ := s
  obtain ⟨⟩ := t
  simp only [State.core, State.mk.injEq] at h
  obtain ⟨rfl, rfl, rfl, rfl, rfl, rfl, rfl, rfl, rfl, rfl, -, -, rfl, rfl, rfl, rfl, rfl, rfl, rfl, rfl, rfl, rfl, -,
    -, rfl, hi, rfl, -⟩ := h
  simp only at hr
  have hi1 := congrArg Inputs.answers hi
  have hi2 := congrArg Inputs.samples hi
  have hi3 := congrArg Inputs.nows hi
  have hi4 := congrArg Inputs.nowCalls hi
  have hi5 := congrArg Inputs.abortPolls hi
  simp only at hi1 hi2 hi3 hi4 hi5
  simp only [pathEnd, readEnd, writeEnd, nakEnd, errorEnd, okEnd, readBits, State.core, State.rnw, State.extraCycle,
    State.turnaround, okCode, Inputs.after, Inputs.stamped, Inputs.nextNow, hr, hi1, hi2, hi3, hi4, hi5]

theorem okEnd_congr {s t : State} (h : t.core = { s.core with pins := t.pins })
    (hp : t.pins.swclkOe = s.pins.swclkOe) : okEnd t = okEnd s := by
  have hr : t.pins.restored = s.pins.restored := by simp [Pins.restored, hp]
  obtain ⟨⟩ := s
  obtain ⟨⟩ := t
  simp only [State.core, State.mk.injEq] at h
  obtain ⟨rfl, rfl, rfl, rfl, rfl, rfl, rfl, rfl, rfl, rfl, -, -, rfl, rfl, rfl, rfl, rfl, rfl, rfl, rfl, rfl, rfl, -,
    -, rfl, hi, rfl, -⟩ := h
  simp only at hr
  have hi1 := congrArg Inputs.answers hi
  have hi2 := congrArg Inputs.samples hi
  have hi3 := congrArg Inputs.nows hi
  have hi4 := congrArg Inputs.nowCalls hi
  have hi5 := congrArg Inputs.abortPolls hi
  simp only at hi1 hi2 hi3 hi4 hi5
  simp only [okEnd, State.core, okCode, Inputs.after, Inputs.stamped, Inputs.nextNow, hr, hi1, hi2, hi3, hi4, hi5]

theorem gXfer_spec (s : State) (hm : s.xferMode ≠ .spi) :
    (gXfer s).core = xferEnd s ∧ Kept s (gXfer s) := by
  obtain ⟨ev, h⟩ := gRequestHeader_spec (requestByte (requestNibble s.req)) s
  generalize hu : ({ s.dropAnswers 3 with
      phase := .acks, bitcnt := 0#9, pinEvents := ev,
      wire := s.wire ++ (runOf .req (driven (bitsOf (requestByte (requestNibble s.req)))) ++
        runOf .trn1 (released s.turnaround) ++ runOf .acks (sampled (s.answersFrom 0 3))),
      pins := { s.pins with
        swclkO := true, swdioO := (bitsOf (requestByte (requestNibble s.req))).getLastD true,
        swdioOe := false } } : State) = u at h
  have hx : gXfer s = gDispatch (latchAck s.nextAck u) := by
    unfold gXfer
    rw [h]
    rfl
  have hans : ∀ k, (latchAck s.nextAck u).answer k = s.answer (3 + k) := by
    intro k
    rw [← answer_dropAnswers]
    exact answer_eq_of_inputs (by rw [← hu]; rfl) (by rw [← hu]; rfl) k
  obtain ⟨f1, f2, f3, f4⟩ := gDispatch_spec (latchAck s.nextAck u) (by rw [← hu]; rfl) (by rw [← hu]; rfl)
    (by rw [← hu]; exact hm)
  rw [hx]
  refine ⟨f1.trans ?_, Kept.of_spi_eq f3 f4 (f2.trans (by rw [← hu]; rfl))⟩
  rw [answersFrom_shift hans, xferEnd]
  apply pathEnd_congr
  · rw [← hu]
    rfl
  · rw [← hu]
    rfl

theorem gAcks_spec (s : State) (hm : s.xferMode ≠ .spi) : (gAcks s).core = acksEnd s ∧ Kept s (gAcks s) := by
  have he : ∃ ev, gEnsureReleased s = { s with pins := { s.pins with swdioOe := false }, pinEvents := ev } := by
    unfold gEnsureReleased
    split
    · exact ⟨_, gOutDisable_eq s⟩
    · rename_i h
      simp only [Bool.not_eq_true] at h
      exact ⟨s.pinEvents, by rw [← h]⟩
  obtain ⟨e0, h0⟩ := he
  have h : ∃ ev, gReadBits 3 (enterPhase .acks 3 (gEnsureReleased s)) = (s.answersFrom 0 3, { s.dropAnswers 3 with
      phase := .acks, bitcnt := 0#9, pinEvents := ev, wire := s.wire ++ runOf .acks (sampled (s.answersFrom 0 3)),
      pins := { s.pins with swclkO := true, swdioOe := false } }) := by
    have h := gReadBits_phase .acks 3 { s with pins := { s.pins with swdioOe := false }, pinEvents := e0 } rfl
    have hpk : State.peekAnswers { s with pins := { s.pins with swdioOe := false }, pinEvents := e0 } 3 =
        s.answersFrom 0 3 := peekAnswers_eq_answersFrom s 3
    rw [hpk, if_neg (by decide)] at h
    rw [h0]
    exact ⟨_, h⟩
  obtain ⟨e1, h⟩ := h
  generalize hu : ({ s.dropAnswers 3 with
      phase := .acks, bitcnt := 0#9, pinEvents := e1, wire := s.wire ++ runOf .acks (sampled (s.answersFrom 0 3)),
      pins := { s.pins with swclkO := true, swdioOe := false } } : State) = u at h
  have hx : gAcks s = gDispatch (latchAck s.nextAck u) := by
    unfold gAcks
    rw [h]
    rfl
  have hans : ∀ k, (latchAck s.nextAck u).answer k = s.answer (3 + k) := by
    intro k
    rw [← answer_dropAnswers]
    exact answer_eq_of_inputs (by rw [← hu]; rfl) (by rw [← hu]; rfl) k
  obtain ⟨f1, f2, f3, f4⟩ := gDispatch_spec (latchAck s.nextAck u) (by rw [← hu]; rfl) (by rw [← hu]; rfl)
    (by rw [← hu]; exact hm)
  rw [hx]
  refine ⟨f1.trans ?_, Kept.of_spi_eq f3 f4 (f2.trans (by rw [← hu]; rfl))⟩
  rw [answersFrom_shift hans, acksEnd]
  apply pathEnd_congr
  · rw [← hu]
    rfl
  · rw [← hu]
    rfl

/-! The stages on the SPI backend -/

/-- Everything a run on the SPI backend to the end of an operation shows. -/
structure SpiEnds (s t u : State) : Prop where
  core : t.core = u
  kept : SpiKept s t
  phase : t.phase = .idle
  bitcnt : t.bitcnt = 0#9
  oe : t.pins.swdioOe = true

theorem SpiEnds.after {s t u v : State} (h : SpiKept s t) (h' : SpiEnds t u v) : SpiEnds s u v :=
  ⟨h'.core, h.trans h'.kept, h'.phase, h'.bitcnt, h'.oe⟩

theorem SpiEnds.toKept {s t u : State} (h : SpiEnds s t u) (hm : s.xferMode = .spi) : Kept s t :=
  h.kept.toKept h.phase h.bitcnt h.oe hm

/-- The closing `drive(1)` and the result (44_spi_backend.md R221). -/
theorem spiClose_spec (r : Byte) (s : State) (hb : s.spi.busy = false) :
    SpiEnds s (finish r (spiDrive true s))
      { s.core with pins := { s.pins with swdioO := true, swdioOe := true }, result := r } := by
  have hc : (finish r (spiDrive true s)).core =
      { s.core with pins := { s.pins with swdioO := true, swdioOe := true }, result := r } := by
    unfold spiDrive
    split
    · rename_i h
      simp [finish, raiseResult, enterPhase, emit, PinEvent.apply, State.core, h]
    · simp [finish, raiseResult, enterPhase, spiOutEnable, emit, PinEvent.apply, State.core]
  have hk := spiDrive_kept true s hb
  refine ⟨hc, ⟨hk.params, hk.busy, ?_, hk.buf, hk.lens, hk.events⟩, rfl, rfl, ?_⟩
  · exact hk.sense
  · exact congrArg (fun t : State => t.pins.swdioOe) hc

theorem spiFinishOk_spec (s : State) (hb : s.spi.busy = false) (hc : s.pins.swclkO = true) :
    ∃ t, spiFinishOk s = some t ∧ SpiEnds s t (okEnd s) := by
  unfold spiFinishOk
  rw [timestampIfAsked_eq]
  generalize hu : enterPhase .idlec s.idleCycles.toNat ({ s with
    timestamp := if s.req.getLsbD 7 then s.inputs.nextNow else s.timestamp,
    inputs := s.inputs.stamped (s.req.getLsbD 7) } : State) = u
  obtain ⟨t, ht, hr⟩ := spiWriteBits_spec (outSlots .idlec (List.replicate s.idleCycles.toNat false)) u
    (by rw [← hu]; exact hb)
  have hl : spiLowCycles .idlec s.idleCycles.toNat u = some t := ht
  simp only [hu, hl, Option.map_some]
  have he := spiClose_spec (okCode t) t hr.busy
  have hk : SpiKept s u := SpiKept.of_same hb (by rw [← hu]; rfl) (by rw [← hu]; rfl) (by rw [← hu]; rfl)
    (by rw [← hu]; rfl)
  have hcore := hr.core
  have hperr : t.perr = s.perr := by
    have := congrArg State.perr hcore
    rw [← hu] at this
    exact this
  refine ⟨_, rfl, ?_⟩
  have hd : okCode (spiDrive true t) = okCode t := by
    unfold spiDrive
    split <;> rfl
  rw [hd]
  refine ⟨?_, (hk.trans hr.kept).trans he.kept, he.phase, he.bitcnt, he.oe⟩
  have hpins : ({ t.pins with swdioO := true, swdioOe := true } : Pins) = s.pins.restored := by
    rw [hr.pins, ← hu]
    by_cases h0 : s.idleCycles.toNat = 0
    · simp [pinsAfter, Pins.restored, h0, outSlots, hc]
    · have hne : outSlots .idlec (List.replicate s.idleCycles.toNat false) ≠ [] := fun h =>
        h0 (by simpa using congrArg List.length h)
      simp [pinsAfter, Pins.restored, hne]
  rw [he.core, hpins, hcore, ← hu]
  have hok : okCode t = okCode s := by simp [okCode, hperr]
  rw [hok]
  simp only [okEnd, State.core, enterPhase, outSlots_records, slotRecords, List.append_nil, Inputs.after,
    Inputs.stamped, usedCount, List.countP_nil, List.drop_zero, Nat.add_zero, Inputs.nextNow]
  rfl

/-- Data, parity and trailing turnaround of a read in one run (44_spi_backend.md R217 D-r). -/
theorem spiRdata_spec (s : State) (hb : s.spi.busy = false) :
    ∃ t, spiRdata s = some t ∧ SpiEnds s t (readEnd (s.answersFrom 0 33) s) := by
  obtain ⟨u, hu, hr⟩ := spiReadBits_spec
    (inSlots .rdata true 32 ++ inSlots .rpar true 1 ++ inSlots .trnR false s.turnaround) s hb
  have hbits : (slotBits s 0 0 (inSlots .rdata true 32 ++ inSlots .rpar true 1 ++
      inSlots .trnR false s.turnaround)).take 33 = s.answersFrom 0 33 := by
    rw [slotBits_append, slotBits_append]
    simp only [inSlots_bits_sampled, inSlots_usedCount, if_true, Nat.zero_add]
    rw [answersFrom_append]
    exact List.take_left' (by simp)
  generalize hbs : slotBits s 0 0 (inSlots .rdata true 32 ++ inSlots .rpar true 1 ++
      inSlots .trnR false s.turnaround) = bs at hu hbits
  have h32 : bs.take 32 = (s.answersFrom 0 33).take 32 := by
    rw [← hbits, List.take_take]
    rfl
  have hp : bs.getD 32 false = (s.answersFrom 0 33).getD 32 false := by
    rw [← hbits]
    simp [List.getD_eq_getElem?_getD]
  generalize hv : spiOutEnable (checkParity (bs.getD 32 false)
    { u with rdata := ofBits 32 (bs.take 32), par := par32 (ofBits 32 (bs.take 32)) }) = v
  have hx : spiRdata s = spiFinishOk v := by
    unfold spiRdata
    simp only [hu, Option.bind_some, hv]
  have hub : u.spi.busy = false := hr.busy
  have hck : (u.pins.swclkO = true) := by
    rw [hr.pins]
    have hne : inSlots .rdata true 32 ++ inSlots .rpar true 1 ++ inSlots .trnR false s.turnaround ≠ [] := fun h => by
      simpa using congrArg List.length h
    simp only [pinsAfter, hne, and_false, if_false]
  have hvp : v.pins = { u.pins with swdioOe := true } := by rw [← hv]; rfl
  obtain ⟨t, ht, he⟩ := spiFinishOk_spec v (by rw [← hv]; exact hub) (by rw [hvp]; exact hck)
  have hk : SpiKept u v := by
    generalize hw : checkParity (bs.getD 32 false)
      { u with rdata := ofBits 32 (bs.take 32), par := par32 (ofBits 32 (bs.take 32)) } = w at hv
    have hw1 : w.spi = u.spi := by rw [← hw]; simp only [checkParity_spi]
    have hk1 : SpiKept u w := SpiKept.of_same hub (by rw [← hw]; simp only [checkParity_params]) hw1
      (by rw [← hw]; simp only [checkParity_pins]) (by rw [← hw]; simp only [checkParity_pinEvents])
    rw [← hv]
    exact hk1.trans (spiOutEnable_kept w (by rw [hw1]; exact hub))
  refine ⟨t, hx.trans ht, ?_⟩
  have hend : okEnd v = readEnd (s.answersFrom 0 33) s := by
    have hw : okEnd v = okEnd { readBits (s.answersFrom 0 33) s with
        inputs := s.inputs.after 33 0,
        wire := s.wire ++ (runOf .rdata (sampled ((s.answersFrom 0 33).take 32)) ++
          runOf .rpar (sampled ((s.answersFrom 0 33).drop 32)) ++ runOf .trnR (released s.turnaround)) } := by
      have hcore := hr.core
      have hrec : slotRecords s 0 (inSlots .rdata true 32 ++ inSlots .rpar true 1 ++ inSlots .trnR false s.turnaround) =
          runOf .rdata (sampled ((s.answersFrom 0 33).take 32)) ++
          runOf .rpar (sampled ((s.answersFrom 0 33).drop 32)) ++ runOf .trnR (released s.turnaround) := by
        rw [slotRecords_append, slotRecords_append]
        simp only [inSlots_records_sampled, inSlots_records_released, inSlots_usedCount, if_true, Nat.zero_add]
        rw [answersFrom_take s 0 32 1, answersFrom_drop s 0 32 1]
      have hcnt : usedCount (inSlots .rdata true 32 ++ inSlots .rpar true 1 ++ inSlots .trnR false s.turnaround) =
          33 := by
        rw [usedCount_append, usedCount_append]
        simp
      rw [hrec, hcnt] at hcore
      generalize runOf .rdata (sampled ((s.answersFrom 0 33).take 32)) ++
          runOf .rpar (sampled ((s.answersFrom 0 33).drop 32)) ++ runOf .trnR (released s.turnaround) = rs at hcore ⊢
      apply okEnd_congr
      · rw [← hv, h32, hp]
        unfold readBits
        generalize (s.answersFrom 0 33).getD 32 false = a
        generalize ofBits 32 ((s.answersFrom 0 33).take 32) = w
        generalize par32 w = q
        have hc2 : (spiOutEnable (checkParity a { u with rdata := w, par := q })).core =
            { u.core with rdata := w, par := q, perr := a != q, cls := if a = q then u.core.cls else .error,
                          pins := { u.pins with swdioOe := true } } := rfl
        rw [hc2, hcore]
        simp [State.core, Inputs.after, spiOutEnable, emit, PinEvent.apply]
      · rw [hvp, hr.pins]
        rfl
    rw [hw]
    unfold readEnd readFrame
    generalize s.answersFrom 0 33 = bs
    simp only [okEnd, readBits, State.core, okCode, Pins.restored, Inputs.stamped, Inputs.after, Inputs.nextNow,
      List.append_assoc, List.drop_zero, Nat.add_zero]
  rw [← hend]
  exact SpiEnds.after (hr.kept.trans hk) he

end Sys2Proof.Machine
end

