-- ==== Sys2Proof/Laws/SpiTransfer.lean ====
section
/-! SUPPORT. The stages of an XFER on the SPI backend after the read data phase, and the whole of it. -/

namespace Sys2Proof.Machine

/-- A state that differs from another only in the register `PAR` keeps all that a run keeps. -/
theorem SpiKept.withPar (s : State) (b : Bool) (hb : s.spi.busy = false) : SpiKept s { s with par := b } :=
  SpiKept.of_same hb rfl rfl rfl rfl

/-- Data, parity and the extra cycle of a write in one run (44_spi_backend.md R217 D-w, R220). -/
theorem spiWdata_spec (s : State) (hb : s.spi.busy = false) :
    ∃ t, spiWdata s = some t ∧
      SpiEnds s t (writeEnd (writeDataFrame s.params.wr33 s.idleCycles.toNat s.wdata) s) := by
  have hrec : (outSlots .wdata (bitsOf s.wdata) ++ outSlots .wpar [par32 s.wdata] ++
      (if s.params.wr33 then outSlots .wextra [false] else [])).map OutSlot.toCycle =
      runOf .wdata (driven (bitsOf s.wdata)) ++ runOf .wpar (driven [par32 s.wdata]) ++
        (if s.params.wr33 then runOf .wextra (lows 1) else []) := by
    simp only [List.map_append, outSlots_records]
    split <;> simp [outSlots_records, lows]
  generalize hq : par32 s.wdata = q at hrec
  generalize hf : outSlots .wdata (bitsOf s.wdata) ++ outSlots .wpar [q] ++
      (if s.params.wr33 then outSlots .wextra [false] else []) = f at hrec
  have hne : f ≠ [] := fun h => by
    have := congrArg List.length (hf.trans h)
    simp at this
  obtain ⟨u, hu, hr⟩ := spiWriteBits_spec f { s with par := q } hb
  have hx : spiWdata s = spiFinishOk u := by
    unfold spiWdata
    simp only [hq]
    rw [hf, hu]
    rfl
  have hck : u.pins.swclkO = true := by
    rw [hr.pins]
    simp [pinsAfter, hne]
  obtain ⟨t, ht, he⟩ := spiFinishOk_spec u hr.busy hck
  refine ⟨t, hx.trans ht, ?_⟩
  have hend : okEnd u = writeEnd (writeDataFrame s.params.wr33 s.idleCycles.toNat s.wdata) s := by
    have hw : okEnd u = okEnd { s with
        par := q, wire := s.wire ++ (runOf .wdata (driven (bitsOf s.wdata)) ++ runOf .wpar (driven [q]) ++
          (if s.params.wr33 then runOf .wextra (lows 1) else [])) } := by
      rw [← hrec]
      apply okEnd_congr
      · rw [hr.core]
        simp [State.core, slotRecords, Inputs.after, usedCount, hr.pins]
      · rw [hr.pins]
        rfl
    rw [hw]
    unfold writeEnd writeDataFrame
    rw [hq]
    simp only [okEnd, State.core, okCode, Pins.restored, Inputs.stamped, Inputs.after, Inputs.nextNow,
      List.append_assoc]
  rw [← hend]
  exact SpiEnds.after ((SpiKept.withPar s q hb).trans hr.kept) he

/-- What the frame of a transaction still holds after the tail of a write's header. -/
def afterTail (s : State) (frame : List CycleRec) : List CycleRec := if s.rnw then frame else frame.drop s.turnaround

/-- `runOf` of released cycles, cut after the first ones. -/
theorem runOf_released_drop (p : Phase) (m n : Nat) :
    (runOf p (released (m + n))).drop m = runOf p (released n) := by
  induction m with
  | zero => simp
  | succ m ih =>
    rw [Nat.succ_add]
    simp only [released, List.replicate_succ, runOf, List.drop_succ_cons] at ih ⊢
    exact ih

theorem drop_runOf_released (p : Phase) (n : Nat) (rest : List CycleRec) :
    (runOf p (released n) ++ rest).drop n = rest := List.drop_left' (by simp [released])

/-- WAIT or FAULT after the header (44_spi_backend.md R217 F-r1, F-r0, F-w1, F-w0). -/
theorem spiNak_spec (s : State) (hb : s.spi.busy = false) (hc : s.pins.swclkO = true) :
    ∃ t, spiNak s = some t ∧
      SpiEnds s t (nakEnd (afterTail s (nakFrame s.dataPhase s.rnw s.turnaround)) s) := by
  have hrun : ∃ u, (if s.rnw then
        (spiReadBits ((if s.dataPhase then inSlots .dummyR false 33 else []) ++ inSlots .trnF false s.turnaround) s).map
          fun (_, s) => spiOutEnable s
      else if s.dataPhase then spiLowCycles .dummyW 33 (spiOutEnable s)
      else some (spiOutEnable s)) = some u ∧ SpiKept s u ∧ u.pins.swclkO = true ∧ u.pins.swclkOe = s.pins.swclkOe ∧
        u.ack = s.ack ∧
        u.core = { s.core with
          wire := s.wire ++ afterTail s (nakFrame s.dataPhase s.rnw s.turnaround), pins := u.pins } := by
    by_cases hw : s.rnw = true
    · rw [if_pos hw]
      generalize hi : (if s.dataPhase then inSlots .dummyR false 33 else []) ++ inSlots .trnF false s.turnaround = ins
      have hne : ins ≠ [] := fun h => by
        have := congrArg List.length (hi.trans h)
        simp [State.turnaround] at this
      obtain ⟨u, hu, hr⟩ := spiReadBits_spec ins s hb
      refine ⟨spiOutEnable u, by rw [hu]; rfl, hr.kept.trans (spiOutEnable_kept u hr.busy), ?_, ?_, ?_, ?_⟩
      · have : (spiOutEnable u).pins.swclkO = u.pins.swclkO := rfl
        rw [this, hr.pins]
        simp [pinsAfter, hne]
      · have : (spiOutEnable u).pins.swclkOe = u.pins.swclkOe := rfl
        rw [this, hr.pins]
        rfl
      · have := congrArg State.ack hr.core
        exact this
      · have h2 : (spiOutEnable u).core = { u.core with pins := (spiOutEnable u).pins } := rfl
        rw [h2, hr.core, ← hi]
        have h3 : usedCount ((if s.dataPhase then inSlots .dummyR false 33 else []) ++
            inSlots .trnF false s.turnaround) = 0 := by
          rw [usedCount_append]
          split
          · simp only [Bool.false_eq_true, if_false, inSlots_usedCount]
          · simp only [Bool.false_eq_true, if_false, inSlots_usedCount]
            rfl
        rw [h3, slotRecords_append]
        simp only [afterTail, nakFrame, hw, Bool.and_true, Bool.not_true, Bool.and_false, if_true, State.core,
          Inputs.after, inSlots_records_released]
        cases s.dataPhase <;> simp [slotRecords]
    · simp only [hw, if_false, Bool.false_eq_true]
      simp only [Bool.not_eq_true] at hw
      by_cases hd : s.dataPhase = true
      · rw [if_pos hd]
        have hk := spiOutEnable_kept s hb
        obtain ⟨u, hu, hr⟩ := spiWriteBits_spec (outSlots .dummyW (List.replicate 33 false)) (spiOutEnable s) hb
        have ha := congrArg State.ack hr.core
        refine ⟨u, hu, hk.trans hr.kept, ?_, ?_, ha, ?_⟩
        · rw [hr.pins]
          rfl
        · rw [hr.pins]
          rfl
        · rw [hr.core, hr.pins]
          have h3 : afterTail s (nakFrame s.dataPhase false s.turnaround) = runOf .dummyW (lows 33) := by
            simp only [afterTail, nakFrame, hw, hd, Bool.and_false, Bool.false_eq_true, if_false, Bool.not_false,
              Bool.and_true, if_true, List.nil_append]
            exact drop_runOf_released _ _ _
          rw [h3]
          simp only [outSlots_records, slotRecords, List.append_nil]
          rfl
      · rw [if_neg hd]
        simp only [Bool.not_eq_true] at hd
        refine ⟨spiOutEnable s, rfl, spiOutEnable_kept s hb, hc, rfl, rfl, ?_⟩
        have h3 : afterTail s (nakFrame s.dataPhase false s.turnaround) = [] := by
          simp only [afterTail, nakFrame, hw, hd, Bool.and_false, Bool.false_eq_true, if_false, Bool.not_false,
            Bool.and_true, List.nil_append]
          exact drop_runOf_released _ _ []
        rw [h3, List.append_nil]
        rfl
  obtain ⟨u, hu, hk, h1, h2, h3, h4⟩ := hrun
  unfold spiNak
  simp only
  rw [hu]
  refine ⟨_, rfl, ?_⟩
  have he := spiClose_spec (u.ack.setWidth 8) u hk.busy
  have hd : (spiDrive true u).ack = u.ack := by
    unfold spiDrive
    split <;> rfl
  simp only [hd]
  refine SpiEnds.after hk ⟨?_, he.kept, he.phase, he.bitcnt, he.oe⟩
  rw [he.core, h4, h3]
  have hp : ({ u.pins with swdioO := true, swdioOe := true } : Pins) = s.pins.restored := by
    simp [Pins.restored, h1, h2]
  rw [hp]
  rfl

/-- An invalid acknowledge after the header (44_spi_backend.md R217 X-r, X-w). -/
theorem spiRecov_spec (s : State) (hb : s.spi.busy = false) :
    ∃ t, spiRecov s = some t ∧ SpiEnds s t (errorEnd (afterTail s (recoveryFrame s.turnaround)) s) := by
  have hs : spiRecov s = (spiReadBits (inSlots .recov false (if s.rnw then s.turnaround + 33 else 33)) s).map
    fun (_, s) => finish errorCode (spiDrive true s) := rfl
  generalize hn : (if s.rnw then s.turnaround + 33 else 33) = n at hs
  have hpos : n ≠ 0 := by
    rw [← hn]
    split <;> omega
  obtain ⟨u, hu, hr⟩ := spiReadBits_spec (inSlots .recov false n) s hb
  have hne : inSlots .recov false n ≠ [] := fun h => hpos (by simpa using congrArg List.length h)
  refine ⟨_, by rw [hs, hu]; rfl, ?_⟩
  have he := spiClose_spec errorCode u hr.busy
  refine SpiEnds.after hr.kept ⟨?_, he.kept, he.phase, he.bitcnt, he.oe⟩
  have hp : ({ u.pins with swdioO := true, swdioOe := true } : Pins) = s.pins.restored := by
    rw [hr.pins]
    simp [Pins.restored, pinsAfter, hne]
  have hf : afterTail s (recoveryFrame s.turnaround) = runOf .recov (released n) := by
    unfold afterTail recoveryFrame
    rw [← hn]
    split
    · rfl
    · exact runOf_released_drop _ _ _
  rw [he.core, hp, hr.core, hf]
  simp only [inSlots_records_released, inSlots_usedCount, List.map_nil, List.append_nil, Bool.false_eq_true, if_false]
  rfl

/-- What the frame of a transaction holds in the tail of a write's header. -/
def tailRecs (s : State) (frame : List CycleRec) : List CycleRec := if s.rnw then [] else frame.take s.turnaround

theorem tailRecs_afterTail (s : State) (frame : List CycleRec) : tailRecs s frame ++ afterTail s frame = frame := by
  unfold tailRecs afterTail
  split <;> simp

/-- The dispatch after the header, the tail of which is on the wire already. -/
theorem spiDispatch_spec (s : State) (w : List CycleRec) (bits : List Bool) (hb : s.spi.busy = false)
    (hc : s.pins.swclkO = true) (hm : s.xferMode = .spi) (hbits : bits = s.answersFrom 0 33)
    (hw : s.wire = w ++ tailRecs s (tailFrame s s.ack bits)) :
    ∃ t, spiDispatch s = some t ∧ SpiEnds s t (pathEnd { s with wire := w } bits) := by
  have hx : s.extraCycle = s.params.wr33 := by simp [State.extraCycle, hm]
  have hj : ∀ f, tailFrame s s.ack bits = f → w ++ (tailRecs s f ++ afterTail s f) = w ++ f := by
    intro f _
    rw [tailRecs_afterTail]
  unfold spiDispatch pathEnd
  unfold tailFrame at hw hj
  simp only
  have hr : State.rnw { s with wire := w } = s.rnw := rfl
  have ht : State.turnaround { s with wire := w } = s.turnaround := rfl
  have he : State.extraCycle { s with wire := w } = s.params.wr33 := hx
  rw [hr, ht, he]
  cases hcl : ackClass s.ack with
  | ok =>
    simp only [hcl] at hw
    by_cases hn : s.rnw = true
    · simp only [hn, if_true] at hw ⊢
      obtain ⟨t, h1, h2⟩ := spiRdata_spec s hb
      refine ⟨t, h1, ?_⟩
      have : s.wire = w := by rw [hw]; simp [tailRecs, hn]
      rw [← this, hbits]
      exact h2
    · simp only [Bool.not_eq_true] at hn
      simp only [hn, Bool.false_eq_true, if_false] at hw ⊢
      obtain ⟨t, h1, h2⟩ := spiWdata_spec s hb
      refine ⟨t, h1, ?_⟩
      have : writeEnd (writeDataFrame s.params.wr33 s.idleCycles.toNat s.wdata) s =
          writeEnd (writeFrame s.params.wr33 s.turnaround s.idleCycles.toNat s.wdata) { s with wire := w } := by
        have h4 : tailRecs s (writeFrame s.extraCycle s.turnaround s.idleCycles.toNat s.wdata) =
            runOf .trnW (released s.turnaround) := by
          unfold tailRecs writeFrame
          rw [hn]
          exact List.take_left' (by simp [released])
        rw [h4] at hw
        unfold writeEnd writeFrame
        rw [hw, List.append_assoc]
        rfl
      rw [← this]
      exact h2
  | wait =>
    simp only [hcl] at hw
    obtain ⟨t, h1, h2⟩ := spiNak_spec s hb hc
    refine ⟨t, h1, ?_⟩
    have : nakEnd (afterTail s (nakFrame s.dataPhase s.rnw s.turnaround)) s =
        nakEnd (nakFrame s.dataPhase s.rnw s.turnaround) { s with wire := w } := by
      unfold nakEnd
      rw [hw, List.append_assoc, tailRecs_afterTail]
      rfl
    rw [← this]
    exact h2
  | fault =>
    simp only [hcl] at hw
    obtain ⟨t, h1, h2⟩ := spiNak_spec s hb hc
    refine ⟨t, h1, ?_⟩
    have : nakEnd (afterTail s (nakFrame s.dataPhase s.rnw s.turnaround)) s =
        nakEnd (nakFrame s.dataPhase s.rnw s.turnaround) { s with wire := w } := by
      unfold nakEnd
      rw [hw, List.append_assoc, tailRecs_afterTail]
      rfl
    rw [← this]
    exact h2
  | error =>
    simp only [hcl] at hw
    obtain ⟨t, h1, h2⟩ := spiRecov_spec s hb
    refine ⟨t, h1, ?_⟩
    have : errorEnd (afterTail s (recoveryFrame s.turnaround)) s =
        errorEnd (recoveryFrame s.turnaround) { s with wire := w } := by
      unfold errorEnd
      rw [hw, List.append_assoc, tailRecs_afterTail]
      rfl
    rw [← this]
    exact h2

theorem slotRecords_take (s : State) (k n : Nat) (xs : List InSlot) :
    slotRecords s k (xs.take n) = (slotRecords s k xs).take n := by
  induction xs generalizing k n with
  | nil => simp [slotRecords]
  | cons x xs ih =>
    cases n with
    | zero => simp [slotRecords]
    | succ n =>
      simp only [List.take_succ_cons, slotRecords]
      split <;> simp [ih]

/-- Released cycles need no bit of the target. -/
theorem usedCount_take_released (p : Phase) (m n : Nat) : usedCount ((inSlots p false m).take n) = 0 := by
  have hle : usedCount ((inSlots p false m).take n) ≤ usedCount (inSlots p false m) :=
    (List.take_sublist n (inSlots p false m)).countP_le
  rw [inSlots_usedCount] at hle
  simpa using hle

@[simp] theorem spiTail_usedCount (ack : BitVec 3) (s : State) : usedCount (spiTail ack s) = 0 := by
  unfold spiTail
  split
  · rfl
  · cases ackClass ack <;> simp [usedCount_take_released]

/-- The tail of a write's header is the first part of the frame its acknowledge selects. -/
theorem spiTail_records (ack : BitVec 3) (s : State) (k : Nat) (bits : List Bool) :
    slotRecords s k (spiTail ack s) = tailRecs s (tailFrame s ack bits) := by
  have htake : ∀ (p : Phase) (rest : List CycleRec),
      (runOf p (released s.turnaround) ++ rest).take s.turnaround = runOf p (released s.turnaround) := fun p rest =>
    List.take_left' (by simp [released])
  unfold spiTail tailRecs tailFrame
  by_cases hr : s.rnw = true
  · simp [hr, slotRecords]
  · simp only [Bool.not_eq_true] at hr
    simp only [hr, Bool.false_eq_true, if_false]
    cases ackClass ack with
    | ok =>
      simp only [inSlots_records_released]
      exact (htake _ _).symm
    | wait =>
      simp only [inSlots_records_released, nakFrame, Bool.and_false, Bool.false_eq_true, if_false, List.nil_append]
      exact (htake _ _).symm
    | fault =>
      simp only [inSlots_records_released, nakFrame, Bool.and_false, Bool.false_eq_true, if_false, List.nil_append]
      exact (htake _ _).symm
    | error =>
      simp only [slotRecords_take, inSlots_records_released, recoveryFrame]

/-- Dispatch after a run that ended with the acknowledge window and the tail. -/
theorem spiAcked_spec (outs : List OutSlot) (ins : List InSlot) (s u : State) (frame : List CycleRec)
    (hr : SpiRan outs ins s u) (hm : s.xferMode = .spi) (hne : ins ≠ []) (hn : usedCount ins = 3)
    (hw : outs.map OutSlot.toCycle ++ slotRecords s 0 ins =
      frame ++ tailRecs s (tailFrame s s.nextAck (s.answersFrom 3 33))) :
    ∃ t, spiDispatch (latchAck s.nextAck u) = some t ∧
      SpiEnds s t (pathEnd (ackedAt frame s) (s.answersFrom 3 33)) := by
  have hcore := hr.core
  generalize hv : latchAck s.nextAck u = v
  have hvc : v.core = { u.core with
      ack := s.nextAck, cls := ackClass s.nextAck, ackinv := ackClass s.nextAck == .error } := by
    rw [← hv]
    rfl
  have hvp : v.pins = pinsAfter outs ins s.pins := by
    rw [← hv, latchAck_pins, hr.pins]
  have hans : ∀ k, v.answer k = s.answer (3 + k) := by
    intro k
    rw [← hn, ← hr.answer]
    exact answer_eq_of_inputs (by rw [← hv]; rfl) (by rw [← hv]; rfl) k
  have hreq : v.req = s.req := by
    have := congrArg State.req (hvc.trans (by rw [hcore]))
    exact this
  have hta : v.turnaroundBits = s.turnaroundBits := by
    have := congrArg State.turnaroundBits (hvc.trans (by rw [hcore]))
    exact this
  have hmode : v.xferMode = s.xferMode := by
    have := congrArg State.xferMode (hvc.trans (by rw [hcore]))
    exact this
  have hpar : v.params = s.params := by
    have := congrArg State.params (hvc.trans (by rw [hcore]))
    exact this
  have hidle : v.idleCycles = s.idleCycles := by
    have := congrArg State.idleCycles (hvc.trans (by rw [hcore]))
    exact this
  have hwd : v.wdata = s.wdata := by
    have := congrArg State.wdata (hvc.trans (by rw [hcore]))
    exact this
  have hdp : v.dataPhase = s.dataPhase := by
    have := congrArg State.dataPhase (hvc.trans (by rw [hcore]))
    exact this
  have hwire : v.wire = u.wire := by rw [← hv, latchAck_wire]
  have hack : v.ack = s.nextAck := by rw [← hv, latchAck_ack]
  have htf : tailFrame v v.ack (s.answersFrom 3 33) = tailFrame s s.nextAck (s.answersFrom 3 33) := by
    rw [hack]
    simp only [tailFrame, State.rnw, State.turnaround, State.extraCycle, hreq, hta, hmode, hpar, hidle, hwd, hdp]
    rfl
  have htr : ∀ f, tailRecs v f = tailRecs s f := by
    intro f
    simp only [tailRecs, State.rnw, State.turnaround, hreq, hta]
    rfl
  obtain ⟨t, ht, he⟩ := spiDispatch_spec v (s.wire ++ frame) (s.answersFrom 3 33) (by rw [← hv]; exact hr.busy)
    (by rw [hvp]; simp [pinsAfter, hne]) (hmode.trans hm) (by rw [answersFrom_shift hans])
    (by rw [htf, htr, hwire, hr.wire, List.append_assoc, List.append_assoc, hw])
  refine ⟨t, ht, ?_⟩
  have hk : SpiKept u v := SpiKept.of_same hr.busy (by rw [← hv]; rfl) (by rw [← hv]; rfl) (by rw [← hv]; rfl)
    (by rw [← hv]; rfl)
  have hend : pathEnd { v with wire := s.wire ++ frame } (s.answersFrom 3 33) =
      pathEnd (ackedAt frame s) (s.answersFrom 3 33) := by
    apply pathEnd_congr
    · have h1 : State.core { v with wire := s.wire ++ frame } = { v.core with wire := s.wire ++ frame } := rfl
      rw [h1, hvc, hcore, hn]
      simp only [ackedAt, State.core, Inputs.after, latchAck, hvp]
    · show v.pins.swclkOe = _
      rw [hvp]
      rfl
  rw [← hend]
  exact SpiEnds.after (hr.kept.trans hk) he

theorem spiXfer_spec (s : State) (hb : s.spi.busy = false) (hm : s.xferMode = .spi) :
    ∃ t, spiXfer s = some t ∧ SpiEnds s t (xferEnd s) := by
  obtain ⟨u, hu, hr⟩ := spiRun_spec (outSlots .req (bitsOf (requestByte (requestNibble s.req))))
    (inSlots .trn1 false s.turnaround ++ inSlots .acks true 3 ++ spiTail s.nextAck s) s hb
  have hbits : ((slotBits s 0 0 (inSlots .trn1 false s.turnaround ++ inSlots .acks true 3 ++
      spiTail s.nextAck s)).drop s.turnaround).take 3 = s.answersFrom 0 3 := by
    rw [slotBits_append, slotBits_append, List.append_assoc, List.drop_left' (by simp), List.take_left' (by simp)]
    simp
  have hx : spiXfer s = spiDispatch (latchAck s.nextAck u) := by
    have h1 : spiRequestHeader (requestByte (requestNibble s.req)) s =
        some (slotBits s 0 0 (inSlots .trn1 false s.turnaround ++ inSlots .acks true 3 ++ spiTail s.nextAck s), u) := by
      unfold spiRequestHeader
      rw [peekAnswers_eq_answersFrom]
      exact hu
    unfold spiXfer
    rw [h1]
    simp only [Option.bind_some, hbits]
    rfl
  rw [hx]
  apply spiAcked_spec _ _ s u _ hr hm
  · intro h
    have := congrArg List.length h
    simp [State.turnaround] at this
  · simp [usedCount_append]
  · rw [slotRecords_append, slotRecords_append, spiTail_records _ _ _ (s.answersFrom 3 33)]
    simp [headerFrame]

theorem spiAcks_spec (s : State) (hb : s.spi.busy = false) (hm : s.xferMode = .spi) :
    ∃ t, spiAcks s = some t ∧ SpiEnds s t (acksEnd s) := by
  obtain ⟨u, hu, hr⟩ := spiReadBits_spec (inSlots .acks true 3 ++ spiTail s.nextAck s) s hb
  have hbits : (slotBits s 0 0 (inSlots .acks true 3 ++ spiTail s.nextAck s)).take 3 = s.answersFrom 0 3 := by
    rw [slotBits_append, List.take_left' (by simp)]
    simp
  have hx : spiAcks s = spiDispatch (latchAck s.nextAck u) := by
    unfold spiAcks
    rw [peekAnswers_eq_answersFrom]
    have h1 : spiReadBits (inSlots .acks true 3 ++ spiTail (ofBits 3 (s.answersFrom 0 3)) s) s =
        some (slotBits s 0 0 (inSlots .acks true 3 ++ spiTail s.nextAck s), u) := hu
    rw [h1]
    simp only [Option.bind_some, hbits]
    rfl
  rw [hx]
  apply spiAcked_spec _ _ s u _ hr hm
  · intro h
    have := congrArg List.length h
    simp at this
  · simp [usedCount_append]
  · rw [slotRecords_append, spiTail_records _ _ _ (s.answersFrom 3 33)]
    simp

end Sys2Proof.Machine
end

