-- ==== Sys2Proof/Laws/Operations.lean ====
section
/-! SUPPORT. What each operation on the wires does, on either backend: the one lemma to cite instead of unfolding it. -/

namespace Sys2Proof.Machine

theorem State.backendReady.busy {s : State} (h : s.backendReady) (hm : s.xferMode = .spi) : s.spi.busy = false := h hm

/-- The rest of an XFER from its request phase (41_swd_transfer.md R125 to R143, 44_spi_backend.md R222). -/
theorem xferBody_spec (s : State) (h : s.backendReady) :
    ∃ t, xferBody s = some t ∧ t.core = xferEnd s ∧ Kept s t := by
  unfold xferBody
  by_cases hm : s.xferMode = .spi
  · obtain ⟨t, ht, he⟩ := spiXfer_spec s (h hm) hm
    exact ⟨t, by rw [if_pos hm, ht], he.core, he.toKept hm⟩
  · obtain ⟨h1, h2⟩ := gXfer_spec s hm
    exact ⟨gXfer s, by rw [if_neg hm], h1, h2⟩

/-- The rest of an XFER from its acknowledge phase. -/
theorem xferAcks_spec (s : State) (h : s.backendReady) :
    ∃ t, xferAcks s = some t ∧ t.core = acksEnd s ∧ Kept s t := by
  unfold xferAcks
  by_cases hm : s.xferMode = .spi
  · obtain ⟨t, ht, he⟩ := spiAcks_spec s (h hm) hm
    exact ⟨t, by rw [if_pos hm, ht], he.core, he.toKept hm⟩
  · obtain ⟨h1, h2⟩ := gAcks_spec s hm
    exact ⟨gAcks s, by rw [if_neg hm], h1, h2⟩

/-- The rest of an XFER from its write data phase (41_swd_transfer.md R142, R143). -/
theorem xferWdata_spec (s : State) (h : s.backendReady) (hc : s.pins.swclkO = true) :
    ∃ t, xferWdata s = some t ∧ t.core = writeEnd (writeDataFrame s.extraCycle s.idleCycles.toNat s.wdata) s ∧
      Kept s t := by
  unfold xferWdata
  by_cases hm : s.xferMode = .spi
  · obtain ⟨t, ht, he⟩ := spiWdata_spec s (h hm)
    have hx : s.extraCycle = s.params.wr33 := by simp [State.extraCycle, hm]
    exact ⟨t, by rw [if_pos hm, ht], by rw [hx]; exact he.core, he.toKept hm⟩
  · obtain ⟨h1, h2, h3, h4⟩ := gWdata_spec s hc
    have hx : s.extraCycle = false := by simp [State.extraCycle, hm]
    exact ⟨gWdata s, by rw [if_neg hm], by rw [hx]; exact h1, Kept.of_spi_eq h3 h4 h2⟩

/-- The read data phase on a line that may still be driven: the engine releases it first (log 19). -/
theorem gRdata_released (s : State) : gRdata s = gRdata (gEnsureReleased s) := by
  have h : gEnsureReleased (gEnsureReleased s) = gEnsureReleased s := by
    unfold gEnsureReleased
    by_cases hs : s.pins.swdioOe = true
    · simp [hs, gOutDisable, emit, PinEvent.apply]
    · simp [hs]
  unfold gRdata
  rw [h]

theorem answersFrom_congr {s t : State} (h : t.inputs = s.inputs) (k n : Nat) :
    t.answersFrom k n = s.answersFrom k n := by
  have ha : ∀ i, t.answer i = s.answer i := answer_eq_of_inputs (by rw [h]) (by rw [h])
  simp only [State.answersFrom, ha]

/-- The end of a read depends on no pin but the enable of SWCLK. -/
theorem readEnd_congr {s t : State} (bits : List Bool) (h : t.core = { s.core with pins := t.pins })
    (hp : t.pins.swclkOe = s.pins.swclkOe) : readEnd bits t = readEnd bits s := by
  have hr : t.pins.restored = s.pins.restored := by simp [Pins.restored, hp]
  obtain ⟨⟩ := s
  obtain ⟨⟩ := t
  simp only [State.core, State.mk.injEq] at h
  obtain ⟨rfl, rfl, rfl, rfl, rfl, rfl, rfl, rfl, rfl, rfl, -, -, rfl, rfl, rfl, rfl, rfl, rfl, rfl, rfl, rfl, rfl, -,
    -, rfl, hi, rfl, -⟩ := h
  simp only at hr
  have hi1 := congrArg Inputs.answers hi
  have hi2 := congrArg Inputs.samples hi
  have hi3 := congrArg Inputs.nows hi
  have hi4 := congrArg Inputs.nowCalls hi
  have hi5 := congrArg Inputs.abortPolls hi
  simp only at hi1 hi2 hi3 hi4 hi5
  simp only [readEnd, okEnd, readBits, State.core, State.turnaround, okCode, Inputs.after, Inputs.stamped,
    Inputs.nextNow, hr, hi1, hi2, hi3, hi4, hi5]

/-- The rest of an XFER from its read data phase (41_swd_transfer.md R130 to R137). -/
theorem xferRdata_spec (s : State) (h : s.backendReady) (hc : s.pins.swclkO = true) :
    ∃ t, xferRdata s = some t ∧ t.core = readEnd (s.answersFrom 0 33) s ∧ Kept s t := by
  unfold xferRdata
  by_cases hm : s.xferMode = .spi
  · obtain ⟨t, ht, he⟩ := spiRdata_spec s (h hm)
    exact ⟨t, by rw [if_pos hm, ht], he.core, he.toKept hm⟩
  · obtain ⟨u, hu⟩ : ∃ u, gEnsureReleased s = u := ⟨_, rfl⟩
    have hs : u.spi = s.spi ∧ u.core = { s.core with pins := u.pins } ∧ u.pins.swdioOe = false ∧
        u.pins.swclkO = true ∧ u.pins.swclkOe = s.pins.swclkOe ∧ u.inputs = s.inputs := by
      rw [← hu]
      unfold gEnsureReleased
      split
      · exact ⟨rfl, rfl, rfl, hc, rfl, rfl⟩
      · rename_i hn
        simp only [Bool.not_eq_true] at hn
        exact ⟨rfl, rfl, hn, hc, rfl, rfl⟩
    obtain ⟨g1, g2, g3, g4, g5, g6⟩ := hs
    obtain ⟨h1, h2, h3, h4⟩ := gRdata_spec u g3 g4
    have ha : u.answersFrom 0 33 = s.answersFrom 0 33 := answersFrom_congr g6 0 33
    have hx : gRdata s = gRdata u := by rw [gRdata_released, hu]
    have hr := readEnd_congr (s.answersFrom 0 33) g2 g5
    rw [ha, hr] at h1
    have hk : Kept s (gRdata u) := Kept.of_spi_eq h3 h4 (h2.trans g1)
    rw [if_neg hm, hx]
    generalize gRdata u = t at h1 hk
    exact ⟨t, rfl, h1, hk⟩

/-- The wire cycles of SEQ (42_sequence_and_config.md R162, 44_spi_backend.md R223): the position at its end, before the
result is written. -/
theorem seqBody_spec (s : State) (h : s.backendReady) (hn : seqBits s ≠ []) :
    ∃ t, seqBody s = some t ∧
      t.core = { s.core with
        wire := s.wire ++ runOf .seq (driven (seqBits s)),
        pins := { s.pins with swclkO := true, swdioOe := true, swdioO := (seqBits s).getLastD true } } ∧
      Kept s { t with phase := .idle, bitcnt := 0#9 } ∧ t.inputs = s.inputs := by
  unfold seqBody
  by_cases hm : s.xferMode = .spi
  · obtain ⟨t, ht, hr⟩ := spiWriteBits_spec (outSlots .seq (seqBits s)) (enterPhase .seq s.seqLen.toNat s) (h hm)
    have hne : outSlots .seq (seqBits s) ≠ [] := fun hx => hn (by simpa using congrArg List.length hx)
    have hp : t.pins = { s.pins with swclkO := true, swdioOe := true, swdioO := (seqBits s).getLastD true } := by
      rw [hr.pins]
      simp [pinsAfter, hne]
    refine ⟨t, by rw [if_pos hm, ht], ?_, ?_, ?_⟩
    · rw [hr.core, ← hr.pins, hp]
      simp only [outSlots_records, slotRecords, List.append_nil]
      rfl
    · have hk := hr.kept
      have hk2 : SpiKept s { t with phase := .idle, bitcnt := 0#9 } := ⟨hk.params, hk.busy, hk.sense, hk.buf, hk.lens, hk.events⟩
      exact hk2.toKept rfl rfl (by show t.pins.swdioOe = true; rw [hp]) hm
    · rw [hr.inputs]
      simp only [usedCount, List.countP_nil, List.length_nil, Inputs.after, List.drop_zero, Nat.add_zero, Nat.sub_self]
      rfl
  · obtain ⟨ev, he⟩ := gEnsureDriven_eq (enterPhase .seq s.seqLen.toNat s)
    have h1 := gWriteBits_phase .seq (seqBits s)
      { s with pins := { s.pins with swdioOe := true }, pinEvents := ev }
    have hl : (seqBits s).length = s.seqLen.toNat := by simp [seqBits]
    rw [hl, if_neg hn] at h1
    refine ⟨_, by rw [if_neg hm, he], ?_, ?_, ?_⟩
    · exact (congrArg State.core h1).trans rfl
    · have hsp := congrArg State.spi h1
      exact Kept.of_spi_eq rfl rfl hsp
    · have hin := congrArg State.inputs h1
      exact hin

end Sys2Proof.Machine
end

