-- ==== Sys2Proof/Laws/Conclusion.lean ====
section
/-! SUPPORT. What each operation on the wires leaves, as a whole state in the terms of Safety.lean. -/

namespace Sys2Proof.Machine

/-- A state is known from its core and from what the core erases. -/
theorem eq_concluded {s t u : State} {ack : BitVec 3} {bits : List Bool} {frame : List CycleRec}
    (hc : t.core = (s.concluded ack bits frame u).core) (hk : Kept s t) :
    t = s.concluded ack bits frame t := by
  have h := eq_of_core_eq (s := s.concluded ack bits frame u) hc
  have hp : t.phase = .idle := hk.phase
  have hb : t.bitcnt = 0#9 := hk.bitcnt
  rw [hp, hb] at h
  exact h.trans rfl

/-- Which acknowledges are WAIT, FAULT and OK (30_encoding.md R84). -/
theorem ackClass_ok : ∀ ack : BitVec 3, ackClass ack = .ok ↔ ack = 0b001#3 := by decide
theorem ackClass_wait : ∀ ack : BitVec 3, ackClass ack = .wait ↔ ack = 0b010#3 := by decide
theorem ackClass_fault : ∀ ack : BitVec 3, ackClass ack = .fault ↔ ack = 0b100#3 := by decide

/-- The latched acknowledge and the path it selects, as one state. -/
theorem pathEnd_core (s : State) (frame : List CycleRec) (bits : List Bool) :
    pathEnd (ackedAt frame s) bits =
      (s.concluded s.nextAck bits (frame ++ tailFrame s s.nextAck bits) s).core := by
  unfold State.concluded State.settled pathEnd tailFrame ackedAt State.samplesTaken
  generalize s.nextAck = ack
  simp only [latchAck_ack]
  generalize hv : ofBits 32 (bits.take 32) = v
  generalize hq : par32 v = q
  generalize hp : bits.getD 32 false = p
  generalize hd : par32 s.wdata = d
  have hb : ∀ b : Bool, (ResultClass.ok == ResultClass.ok && b) = b := fun b => rfl
  cases hcl : ackClass ack with
  | ok =>
    by_cases hw : s.req.getLsbD 1 = true
    · simp only [latchAck, hcl, readEnd, okEnd, readBits, okCode, State.core, State.rnw, State.turnaround, hw, if_true,
        hv, hq, hp, Inputs.after, Inputs.stamped, Inputs.nextNow, List.append_assoc, and_self, hb]
      cases p <;> cases q <;> simp
    · simp only [latchAck, hcl, writeEnd, okEnd, okCode, State.core, State.rnw, State.turnaround, hw, if_false,
        State.extraCycle, hd, Inputs.after, Inputs.stamped, Inputs.nextNow, List.append_assoc, and_false, hb,
        Bool.false_eq_true]
      simp
  | wait =>
    have h := (ackClass_wait ack).mp hcl
    subst h
    simp [latchAck, hcl, nakEnd, State.core, State.rnw, State.turnaround, Inputs.after, Inputs.stamped]
  | fault =>
    have h := (ackClass_fault ack).mp hcl
    subst h
    simp [latchAck, hcl, nakEnd, State.core, State.rnw, State.turnaround, Inputs.after, Inputs.stamped]
  | error =>
    simp [latchAck, hcl, errorEnd, errorCode, State.core, State.turnaround, Inputs.after, Inputs.stamped]

/-- The whole of an XFER from its request phase, on either backend (41_swd_transfer.md R125 to R143, 44_spi_backend.md
R222). -/
theorem xferBody_concluded (s : State) (h : s.backendReady) :
    ∃ t, xferBody s = some t ∧ Kept s t ∧
      t = s.concluded s.nextAck (s.answersFrom 3 33)
        (headerFrame (requestNibble s.req) s.turnaround (s.answersFrom 0 3) ++
          tailFrame s s.nextAck (s.answersFrom 3 33)) t := by
  obtain ⟨t, ht, hc, hk⟩ := xferBody_spec s h
  exact ⟨t, ht, hk, eq_concluded (hc.trans (pathEnd_core s _ _)) hk⟩

/-- The whole of an XFER from its acknowledge phase. -/
theorem xferAcks_concluded (s : State) (h : s.backendReady) :
    ∃ t, xferAcks s = some t ∧ Kept s t ∧
      t = s.concluded s.nextAck (s.answersFrom 3 33)
        (runOf .acks (sampled (s.answersFrom 0 3)) ++ tailFrame s s.nextAck (s.answersFrom 3 33)) t := by
  obtain ⟨t, ht, hc, hk⟩ := xferAcks_spec s h
  exact ⟨t, ht, hk, eq_concluded (hc.trans (pathEnd_core s _ _)) hk⟩

end Sys2Proof.Machine
end

