-- ==== Sys2Proof/Laws/Exec.lean ====
section
/-! SUPPORT. The instructions of one shape, each as one call of the operation they share. -/

namespace Sys2Proof.Machine

theorem requestFields_requestOperand : ∀ (rnw : Bool) (r : XferReq), requestFields (requestOperand rnw r) = r := by
  rintro rnw ⟨a, b, c, d, e, f, g⟩
  revert rnw a b c d e f g
  decide

theorem requestOperand_rnw : ∀ (rnw : Bool) (r : XferReq), (requestOperand rnw r).getLsbD 1 = rnw := by
  rintro rnw ⟨a, b, c, d, e, f, g⟩
  revert rnw a b c d e f g
  decide

theorem requestOperand_requestFields : ∀ b : Byte, requestOperand (b.getLsbD 1) (requestFields b) = b := by decide

theorem req8Row_format : ∀ nibble : Nibble, (req8Row nibble).format = .req8 := by decide

/-- Every XFER, under its own name or as a pseudo-operation. -/
theorem exec_issues {i : Instr} {request : Byte} {data : Word} (h : issues i request data) (s : State) :
    exec i s = xfer request (if request.getLsbD 1 then s.wdata else data) s := by
  rcases h with ⟨r, hc, rfl⟩ | ⟨r, hc, rfl⟩
  · rw [requestOperand_rnw, if_pos rfl]
    cases i <;> simp only [Instr.canonical, Instr.xferR.injEq, reduceCtorEq] at hc
    case xferR => subst hc; rfl
    case idcode => subst hc; rfl
    case rdbuff => subst hc; rfl
    case req8 n =>
      have hf := req8Row_format n
      rw [hc] at hf
      cases hf
  · rw [requestOperand_rnw, if_neg (by decide)]
    cases i <;> simp only [Instr.canonical, Instr.xferW.injEq, reduceCtorEq] at hc
    case xferW => obtain ⟨rfl, rfl⟩ := hc; rfl
    case abort => obtain ⟨rfl, rfl⟩ := hc; rfl
    case req8 n =>
      have hf := req8Row_format n
      rw [hc] at hf
      cases hf

/-- Every SEQ, under its own name or as a pseudo-operation. -/
theorem exec_seq {i : Instr} {bitCount : Byte} {bits : List Byte} (h : i.canonical = .seq bitCount bits)
    (hl : bits.length = seqByteCount bitCount) (s : State) : exec i s = sequence bitCount bits s := by
  cases i <;> simp only [Instr.canonical, Instr.seq.injEq, reduceCtorEq] at h
  case seq => obtain ⟨rfl, rfl⟩ := h; simp [exec, execSeq, hl]
  case linereset => obtain ⟨rfl, rfl⟩ := h; rfl
  case jtag2swd => obtain ⟨rfl, rfl⟩ := h; rfl
  case swd2jtag => obtain ⟨rfl, rfl⟩ := h; rfl
  case idle => obtain ⟨rfl, rfl⟩ := h; rfl
  case req8 n =>
    have hf := req8Row_format n
    rw [h] at hf
    cases hf

/-- The sixteen request rows and their general pattern. -/
theorem exec_req8 (nibble : Nibble) (s : State) :
    exec (req8Row nibble) s = requestItem nibble s ∧ exec (.req8 nibble) s = requestItem nibble s := by
  refine ⟨?_, rfl⟩
  have h : ∀ n : Fin 16, exec (req8Row (BitVec.ofFin n)) s = requestItem (BitVec.ofFin n) s := by
    intro n
    fin_cases n <;> rfl
  exact h nibble.toFin

/-- The eight acknowledge rows. -/
theorem exec_ack3 (ack : BitVec 3) (s : State) : exec (ack3Row ack) s = ackItem ack s := by
  have h : ∀ n : Fin 8, exec (ack3Row (BitVec.ofFin n)) s = ackItem (BitVec.ofFin n) s := by
    intro n
    fin_cases n <;> rfl
  exact h ack.toFin

end Sys2Proof.Machine
end

