-- ==== Sys2Proof/Laws/Frames.lean ====
section
/-! SUPPORT. How `BITCNT` runs within one phase of a frame (10_state.md R25, R26), and what `post_read <- b` writes. -/

namespace Sys2Proof.Machine

/-- The first cycle of a run holds its length (10_state.md R25). -/
theorem runOf_head? (p : Phase) (cs : List WireCycle) (r : CycleRec) (h : (runOf p cs).head? = some r) :
    r.phase = p ∧ r.left = BitVec.ofNat 9 cs.length := by
  cases cs with
  | nil => cases h
  | cons c cs =>
    cases h
    exact ⟨rfl, rfl⟩

/-- Pieces of a pin-event trace in which every shift is polled join to one. -/
theorem shiftsPolled_append (xs ys : List PinEvent) (h : shiftsPolled xs = true) :
    shiftsPolled (xs ++ ys) = shiftsPolled ys := by
  fun_induction shiftsPolled xs <;> simp_all [shiftsPolled]

/-- One shift with its poll. -/
theorem shiftsPolled_shift (o i : List Bool) : shiftsPolled [.shift o i, .poll false] = true := rfl

/-- The last cycle of a run is at 1 (R26). -/
theorem runOf_getLast? (p : Phase) (cs : List WireCycle) (r : CycleRec) (h : (runOf p cs).getLast? = some r) :
    r.phase = p ∧ r.left = 1#9 := by
  induction cs with
  | nil => cases h
  | cons c cs ih =>
    cases cs with
    | nil =>
      cases h
      exact ⟨rfl, rfl⟩
    | cons d ds => exact ih (by simpa [runOf] using h)

/-- Within a run `BITCNT` goes down by one (R26). -/
theorem runOf_isChain (entry : Phase → Nat) (p : Phase) (cs : List WireCycle) (h : cs.length ≤ 511) :
    (runOf p cs).IsChain (CycleRec.advances entry) := by
  induction cs with
  | nil => exact .nil
  | cons c cs ih =>
    cases cs with
    | nil => exact .singleton _
    | cons d ds =>
      simp only [List.length_cons] at h
      refine .cons_cons (.inl ⟨rfl, ?_⟩) (ih (by simp only [List.length_cons]; omega))
      simp only [BitVec.toNat_ofNat, List.length_cons]
      omega

/-- A bounded response never exceeds the packet size, and is the response itself where that fits (R250). -/
theorem boundedResponse_spec (n : BitVec 16) (response : List Byte) :
    (boundedResponse n response).length ≤ n.toNat ∧
      (response.length ≤ n.toNat → boundedResponse n response = response) := by
  unfold boundedResponse
  split
  · exact ⟨‹_›, fun _ => rfl⟩
  · exact ⟨List.length_take_le _ _, fun h => absurd h ‹_›⟩

@[simp] theorem setPostRead_postRead (b : Bool) (s : State) : (setPostRead b s).host.postRead = b := rfl

end Sys2Proof.Machine
end

