-- ==== Sys2Proof/Laws/PerInstr.lean ====
section
/-! SUPPORT. One law about every instruction as syntax: how many bytes its encoding has. -/

namespace Sys2Proof

open Sys2Proof.Machine

/-- The bit string of a sequence has 1 to 32 bytes (30_encoding.md R89 (a)). -/
theorem seqByteCount_bounds (count : Byte) : 1 ≤ seqByteCount count ∧ seqByteCount count ≤ 32 := by
  have h := count.isLt
  unfold seqByteCount seqLength
  split
  · omega
  · next hc =>
    have : count.toNat ≠ 0 := fun h0 => hc (BitVec.eq_of_toNat_eq (by simpa using h0))
    omega

/-- The bytes of a filled sequence (R100). -/
@[simp] theorem seqFill_length (count fill : Byte) : (seqFill count fill).length = seqByteCount count :=
  List.length_replicate

/-- A well-formed instruction takes at least one byte and at most the 34 of the longest SEQ (R95). -/
def Laws.EncodingLength.Statement (i : Instr) : Prop :=
  WellFormed i = true → 1 ≤ (encode i).length ∧ (encode i).length ≤ longestInstr

theorem Laws.EncodingLength.connect (portId : Byte) : Laws.EncodingLength.Statement (.connect portId) :=
  fun _ => ⟨Nat.succ_pos _, Nat.le_of_ble_eq_true rfl⟩

theorem Laws.EncodingLength.disconnect : Laws.EncodingLength.Statement .disconnect :=
  fun _ => ⟨Nat.succ_pos _, Nat.le_of_ble_eq_true rfl⟩

theorem Laws.EncodingLength.cfgIdle (idleCycles : Byte) : Laws.EncodingLength.Statement (.cfgIdle idleCycles) :=
  fun _ => ⟨Nat.succ_pos _, Nat.le_of_ble_eq_true rfl⟩

theorem Laws.EncodingLength.clk (freq : Word) : Laws.EncodingLength.Statement (.clk freq) :=
  fun _ => ⟨Nat.succ_pos _, Nat.le_of_ble_eq_true rfl⟩

theorem Laws.EncodingLength.seq (bitCount : Byte) (bits : List Byte) : Laws.EncodingLength.Statement (.seq bitCount bits) := by
  intro h
  have hl : bits.length = seqByteCount bitCount := by simpa [WellFormed] using h
  have := seqByteCount_bounds bitCount
  simp only [encode, List.length_cons, hl, longestInstr]
  omega

theorem Laws.EncodingLength.cfgSwd (cfg : Byte) : Laws.EncodingLength.Statement (.cfgSwd cfg) :=
  fun _ => ⟨Nat.succ_pos _, Nat.le_of_ble_eq_true rfl⟩

theorem Laws.EncodingLength.xferR (request : XferReq) : Laws.EncodingLength.Statement (.xferR request) :=
  fun _ => ⟨Nat.succ_pos _, Nat.le_of_ble_eq_true rfl⟩

theorem Laws.EncodingLength.xferW (request : XferReq) (data : Word) : Laws.EncodingLength.Statement (.xferW request data) :=
  fun _ => ⟨Nat.succ_pos _, Nat.le_of_ble_eq_true rfl⟩

theorem Laws.EncodingLength.anyOtherOp (op : Byte) : Laws.EncodingLength.Statement (.anyOtherOp op) :=
  fun _ => ⟨Nat.succ_pos _, Nat.le_of_ble_eq_true rfl⟩

theorem Laws.EncodingLength.req8DpW0 : Laws.EncodingLength.Statement .req8DpW0 :=
  fun _ => ⟨Nat.succ_pos _, Nat.le_of_ble_eq_true rfl⟩

theorem Laws.EncodingLength.req8ApW0 : Laws.EncodingLength.Statement .req8ApW0 :=
  fun _ => ⟨Nat.succ_pos _, Nat.le_of_ble_eq_true rfl⟩

theorem Laws.EncodingLength.req8DpR0 : Laws.EncodingLength.Statement .req8DpR0 :=
  fun _ => ⟨Nat.succ_pos _, Nat.le_of_ble_eq_true rfl⟩

theorem Laws.EncodingLength.req8ApR0 : Laws.EncodingLength.Statement .req8ApR0 :=
  fun _ => ⟨Nat.succ_pos _, Nat.le_of_ble_eq_true rfl⟩

theorem Laws.EncodingLength.req8DpW4 : Laws.EncodingLength.Statement .req8DpW4 :=
  fun _ => ⟨Nat.succ_pos _, Nat.le_of_ble_eq_true rfl⟩

theorem Laws.EncodingLength.req8ApW4 : Laws.EncodingLength.Statement .req8ApW4 :=
  fun _ => ⟨Nat.succ_pos _, Nat.le_of_ble_eq_true rfl⟩

theorem Laws.EncodingLength.req8DpR4 : Laws.EncodingLength.Statement .req8DpR4 :=
  fun _ => ⟨Nat.succ_pos _, Nat.le_of_ble_eq_true rfl⟩

theorem Laws.EncodingLength.req8ApR4 : Laws.EncodingLength.Statement .req8ApR4 :=
  fun _ => ⟨Nat.succ_pos _, Nat.le_of_ble_eq_true rfl⟩

theorem Laws.EncodingLength.req8DpW8 : Laws.EncodingLength.Statement .req8DpW8 :=
  fun _ => ⟨Nat.succ_pos _, Nat.le_of_ble_eq_true rfl⟩

theorem Laws.EncodingLength.req8ApW8 : Laws.EncodingLength.Statement .req8ApW8 :=
  fun _ => ⟨Nat.succ_pos _, Nat.le_of_ble_eq_true rfl⟩

theorem Laws.EncodingLength.req8DpR8 : Laws.EncodingLength.Statement .req8DpR8 :=
  fun _ => ⟨Nat.succ_pos _, Nat.le_of_ble_eq_true rfl⟩

theorem Laws.EncodingLength.req8ApR8 : Laws.EncodingLength.Statement .req8ApR8 :=
  fun _ => ⟨Nat.succ_pos _, Nat.le_of_ble_eq_true rfl⟩

theorem Laws.EncodingLength.req8DpWC : Laws.EncodingLength.Statement .req8DpWC :=
  fun _ => ⟨Nat.succ_pos _, Nat.le_of_ble_eq_true rfl⟩

theorem Laws.EncodingLength.req8ApWC : Laws.EncodingLength.Statement .req8ApWC :=
  fun _ => ⟨Nat.succ_pos _, Nat.le_of_ble_eq_true rfl⟩

theorem Laws.EncodingLength.req8DpRC : Laws.EncodingLength.Statement .req8DpRC :=
  fun _ => ⟨Nat.succ_pos _, Nat.le_of_ble_eq_true rfl⟩

theorem Laws.EncodingLength.req8ApRC : Laws.EncodingLength.Statement .req8ApRC :=
  fun _ => ⟨Nat.succ_pos _, Nat.le_of_ble_eq_true rfl⟩

theorem Laws.EncodingLength.req8 (nibble : Nibble) : Laws.EncodingLength.Statement (.req8 nibble) :=
  fun _ => ⟨Nat.succ_pos _, Nat.le_of_ble_eq_true rfl⟩

theorem Laws.EncodingLength.ack3Invalid0 : Laws.EncodingLength.Statement .ack3Invalid0 :=
  fun _ => ⟨Nat.succ_pos _, Nat.le_of_ble_eq_true rfl⟩

theorem Laws.EncodingLength.ack3Ok : Laws.EncodingLength.Statement .ack3Ok :=
  fun _ => ⟨Nat.succ_pos _, Nat.le_of_ble_eq_true rfl⟩

theorem Laws.EncodingLength.ack3Wait : Laws.EncodingLength.Statement .ack3Wait :=
  fun _ => ⟨Nat.succ_pos _, Nat.le_of_ble_eq_true rfl⟩

theorem Laws.EncodingLength.ack3Invalid3 : Laws.EncodingLength.Statement .ack3Invalid3 :=
  fun _ => ⟨Nat.succ_pos _, Nat.le_of_ble_eq_true rfl⟩

theorem Laws.EncodingLength.ack3Fault : Laws.EncodingLength.Statement .ack3Fault :=
  fun _ => ⟨Nat.succ_pos _, Nat.le_of_ble_eq_true rfl⟩

theorem Laws.EncodingLength.ack3Invalid5 : Laws.EncodingLength.Statement .ack3Invalid5 :=
  fun _ => ⟨Nat.succ_pos _, Nat.le_of_ble_eq_true rfl⟩

theorem Laws.EncodingLength.ack3Invalid6 : Laws.EncodingLength.Statement .ack3Invalid6 :=
  fun _ => ⟨Nat.succ_pos _, Nat.le_of_ble_eq_true rfl⟩

theorem Laws.EncodingLength.ack3Invalid7 : Laws.EncodingLength.Statement .ack3Invalid7 :=
  fun _ => ⟨Nat.succ_pos _, Nat.le_of_ble_eq_true rfl⟩

theorem Laws.EncodingLength.data33 (data : Word) (parity : Bool) : Laws.EncodingLength.Statement (.data33 data parity) :=
  fun _ => ⟨Nat.succ_pos _, Nat.le_of_ble_eq_true rfl⟩

theorem Laws.EncodingLength.cfg8 (cfg : Byte) : Laws.EncodingLength.Statement (.cfg8 cfg) :=
  fun _ => ⟨Nat.succ_pos _, Nat.le_of_ble_eq_true rfl⟩

theorem Laws.EncodingLength.linereset (count : Byte) : Laws.EncodingLength.Statement (.linereset count) := by
  intro _
  have := seqByteCount_bounds count
  simp only [encode, List.length_cons, seqFill_length, longestInstr]
  omega

theorem Laws.EncodingLength.jtag2swd : Laws.EncodingLength.Statement .jtag2swd :=
  fun _ => ⟨Nat.succ_pos _, Nat.le_of_ble_eq_true rfl⟩

theorem Laws.EncodingLength.swd2jtag : Laws.EncodingLength.Statement .swd2jtag :=
  fun _ => ⟨Nat.succ_pos _, Nat.le_of_ble_eq_true rfl⟩

theorem Laws.EncodingLength.idle (count : Byte) : Laws.EncodingLength.Statement (.idle count) := by
  intro _
  have := seqByteCount_bounds count
  simp only [encode, List.length_cons, seqFill_length, longestInstr]
  omega

theorem Laws.EncodingLength.idcode : Laws.EncodingLength.Statement .idcode :=
  fun _ => ⟨Nat.succ_pos _, Nat.le_of_ble_eq_true rfl⟩

theorem Laws.EncodingLength.rdbuff : Laws.EncodingLength.Statement .rdbuff :=
  fun _ => ⟨Nat.succ_pos _, Nat.le_of_ble_eq_true rfl⟩

theorem Laws.EncodingLength.abort (value : Word) : Laws.EncodingLength.Statement (.abort value) :=
  fun _ => ⟨Nat.succ_pos _, Nat.le_of_ble_eq_true rfl⟩

end Sys2Proof
end

