-- ==== Sys2Proof/Laws/Resume.lean ====
section
/-! SUPPORT. What a run on the backend in use does, said once for both backends (43_gpio_backend.md R191): the laws the
rest of an operation is followed with (10_state.md R26). -/

namespace Sys2Proof.Machine

/-- Inside an operation the backend is ready for the next shift (44_spi_backend.md R214), and nothing else of the state has
changed. -/
theorem shiftFinished_spec (s : State) :
    (shiftFinished s).backendReady ∧ (shiftFinished s).core = s.core ∧
      (s.xferMode ≠ .spi → shiftFinished s = s) := by
  unfold shiftFinished
  split
  · exact ⟨fun _ => rfl, rfl, fun h => absurd ‹_› h⟩
  · exact ⟨fun h => absurd h ‹_›, rfl, fun _ => rfl⟩

/-- With no cycle left the register keeps its bits. -/
@[simp] theorem joinBits_nil {w : Nat} (done : BitVec w) : joinBits done [] = done := by
  simp [joinBits, List.take_of_length_le, ofBits_bitsOf]

/-- With every cycle left the register holds the new bits alone. -/
theorem joinBits_full {w : Nat} (done : BitVec w) (left : List Bool) (h : left.length = w) :
    joinBits done left = ofBits w left := by
  simp [joinBits, h]

/-- Driven cycles on the GPIO backend: the wire and the pins, and nothing else but the position and the pin events. -/
theorem gRunOut_spec (xs : List OutSlot) (s : State) :
    gRunOut xs s =
      { s with phase := (gRunOut xs s).phase, bitcnt := (gRunOut xs s).bitcnt, pinEvents := (gRunOut xs s).pinEvents,
               wire := s.wire ++ xs.map OutSlot.toCycle,
               pins := if xs = [] then s.pins
                       else { s.pins with swclkO := true, swdioO := (xs.map OutSlot.bit).getLastD true } } := by
  induction xs generalizing s with
  | nil => simp [gRunOut]
  | cons x xs ih =>
    rw [gRunOut, ih, gWrite_eq]
    cases xs <;> simp [OutSlot.toCycle, List.getLast?_cons]

/-- Released cycles on the GPIO backend: the sampled bits, the wire, the answers used. -/
theorem gRunIn_spec (xs : List InSlot) (s : State) (h : s.pins.swdioOe = false) :
    ∃ t, gRunIn xs s = (s.answersFrom 0 (usedCount xs), t) ∧
      t = { s with phase := t.phase, bitcnt := t.bitcnt, pinEvents := t.pinEvents,
                   wire := s.wire ++ slotRecords s 0 xs,
                   pins := if xs = [] then s.pins else { s.pins with swclkO := true },
                   inputs := s.inputs.after (usedCount xs) s.inputs.discards } := by
  induction xs generalizing s with
  | nil => exact ⟨s, rfl, by simp [slotRecords, usedCount, Inputs.after]⟩
  | cons x xs ih =>
    by_cases hu : x.used = true
    · have hc : usedCount (x :: xs) = 1 + usedCount xs := by simp [usedCount, hu, Nat.add_comm]
      have hr := gRead_eq { s with phase := x.phase, bitcnt := x.left } h
      generalize hg : gRead { s with phase := x.phase, bitcnt := x.left } = r at hr
      obtain ⟨b, u⟩ := r
      obtain ⟨hb, hv⟩ := Prod.mk.inj hr
      obtain ⟨t, ht, hs⟩ := ih u (by rw [hv]; exact h)
      have ha : ∀ k, u.answer k = s.answer (1 + k) := by
        intro k
        rw [hv, ← answer_dropAnswers]
        rfl
      refine ⟨t, ?_, ?_⟩
      · simp only [gRunIn, hu, if_true, hg, ht]
        rw [answersFrom_shift ha, hc, ← answersFrom_append, answersFrom_one, hb]
        rfl
      · rw [slotRecords_shift ha] at hs
        rw [hs, hv, hc]
        cases xs <;> simp [slotRecords, hu, Inputs.after, State.dropAnswers, State.answer, Nat.add_comm 1, Nat.add_assoc]
    · have hc : usedCount (x :: xs) = usedCount xs := by simp [usedCount, hu]
      have hv := gCycle_eq { s with phase := x.phase, bitcnt := x.left }
      generalize hg : gCycle { s with phase := x.phase, bitcnt := x.left } = u at hv
      obtain ⟨t, ht, hs⟩ := ih u (by rw [hv]; exact h)
      have ha : ∀ k, u.answer k = s.answer (0 + k) := by
        intro k
        rw [hv, Nat.zero_add]
        rfl
      refine ⟨t, ?_, ?_⟩
      · simp only [gRunIn, hu, if_false, Bool.false_eq_true, hg, ht, answersFrom_shift ha, hc, Nat.zero_add]
      · rw [slotRecords_shift ha] at hs
        rw [hs, hv, hc]
        cases xs <;> simp [slotRecords, hu, heldCycle, h, Inputs.after]

/-- A run on the backend in use: the sampled bits, and all it changes that both backends agree on. -/
theorem backendRun_spec (outs : List OutSlot) (ins : List InSlot) (s : State) (h : s.backendReady) :
    ∃ t, backendRun outs ins s = some (s.answersFrom 0 (usedCount ins), t) ∧
      t.core = { s.core with
        wire := s.wire ++ outs.map OutSlot.toCycle ++ slotRecords s 0 ins,
        inputs := s.inputs.after (usedCount ins) 0, pins := pinsAfter outs ins s.pins } ∧
      (s.xferMode ≠ .spi → t.spi = s.spi) ∧ t.backendReady := by
  by_cases hm : s.xferMode = .spi
  · obtain ⟨t, ht, hr⟩ := spiRun_spec outs ins s (h hm)
    refine ⟨t, ?_, hr.core, fun h' => absurd hm h', fun _ => hr.busy⟩
    simp only [backendRun, hm, if_true, ht, Option.map_some, usedBits_slotBits]
    rfl
  · have hd : ∃ u, (if outs.isEmpty then s else gRunOut outs (gEnsureDriven s)) = u ∧
        u = { s with phase := u.phase, bitcnt := u.bitcnt, pinEvents := u.pinEvents,
                     wire := s.wire ++ outs.map OutSlot.toCycle, pins := pinsAfter outs [] s.pins } := by
      cases outs with
      | nil => exact ⟨s, rfl, by simp [pinsAfter]⟩
      | cons x xs =>
        refine ⟨_, rfl, ?_⟩
        have hg := gRunOut_spec (x :: xs) (gEnsureDriven s)
        generalize gRunOut (x :: xs) (gEnsureDriven s) = u at hg
        obtain ⟨ev, he⟩ := gEnsureDriven_eq s
        rw [List.isEmpty_cons, if_neg Bool.false_ne_true, hg, he]
        simp [pinsAfter]
    obtain ⟨u, hu, hs⟩ := hd
    cases ins with
    | nil =>
      refine ⟨u, by simp only [backendRun, hm, if_false, gRun, hu, List.isEmpty_nil, if_true]; rfl, ?_, fun _ => by rw [hs], ?_⟩
      · rw [hs]
        simp [State.core, slotRecords, usedCount, Inputs.after]
      · intro h'
        rw [hs] at h'
        exact absurd h' hm
    | cons y ys =>
      have he : gEnsureReleased u =
          { u with pinEvents := (gEnsureReleased u).pinEvents, pins := { u.pins with swdioOe := false } } := by
        unfold gEnsureReleased
        by_cases ho : u.pins.swdioOe = true
        · simp only [ho, if_true, gOutDisable, emit, List.foldl_cons, List.foldl_nil, PinEvent.apply]
        · simp only [ho, Bool.false_eq_true, if_false]
          have hp : u.pins = { u.pins with swdioOe := false } := by
            rw [← Bool.eq_false_iff.mpr ho]
          rw [← hp]
      generalize hv : gEnsureReleased u = v at he
      obtain ⟨t, ht, hr⟩ := gRunIn_spec (y :: ys) v (by rw [he])
      have ha : ∀ k, v.answer k = s.answer (0 + k) := by
        intro k
        rw [he, hs, Nat.zero_add]
        rfl
      refine ⟨t, ?_, ?_, fun _ => by rw [hr, he, hs], ?_⟩
      · simp only [backendRun, hm, if_false, gRun, hu, List.isEmpty_cons, Bool.false_eq_true, hv, ht,
          answersFrom_shift ha]
      · rw [slotRecords_shift ha] at hr
        rw [hr, he, hs]
        simp [State.core, Inputs.after, pinsAfter]
      · intro h'
        rw [hr, he, hs] at h'
        exact absurd h' hm

end Sys2Proof.Machine
end

