-- ==== Sys2Proof/Tests/Slice0.lean ====
section
/-! SUPPORT. Tests of one step each, from the vectors of spec/95_test_vectors.md (V-…) and the tables of the section files
(R<n>), and witnesses that the hypotheses of the statements can be met. -/

namespace Sys2Proof.Tests

open Sys2Proof Sys2Proof.Machine

-- The kernel evaluates the tests one after another, not each in a thread of its own.
set_option Elab.async false

/-! Helpers -/

/-- The parameters the vectors are computed with (160 MHz, two IO cycles), with the write workaround. -/
def bench : Params :=
  { busClockPred := 159999999, ioCycles := 2, delayUnit := 1, hasSpi := true, wr33 := true, spiExtraBits := 30,
    pollBoundPred := 3 }

/-- The "SWD-ready" state of the vectors, with a backend and the target's answers. -/
def ready (mode : XferMode) (answers : List Bool) : State where
  params := bench
  cmd := []
  req := 0#8
  wdata := 0#32
  rdata := 0#32
  ack := 0#3
  par := false
  result := 0#8
  seqBuf := 0#256
  seqLen := 0#9
  phase := .idle
  bitcnt := 0#9
  cls := .ok
  perr := false
  ackinv := false
  debugPort := .swd
  turnaroundBits := 0#2
  dataPhase := false
  idleCycles := 0#8
  xferMode := mode
  clockDelay := 78#32
  timestamp := 0x11#32
  pins := { swclkO := true, swclkOe := true, swdioO := true, swdioOe := true }
  spi := { outLen := 0, inLen := 0, buf := List.replicate 64 false, busy := false, sense := false }
  host := { retryCount := 3#16, matchRetry := 2#16, matchMask := 0#32, abort := false, postRead := false,
            packetSize := 64#16, packetCount := 1#8 }
  inputs := { answers := answers, samples := 0, nows := [], nowCalls := 0, discards := 0, abortPolls := [] }
  wire := []
  pinEvents := []

/-- The same before `Connect`. -/
def unplugged : State :=
  { ready .gpioDelayed [] with
      debugPort := .disabled, pins := { swclkO := true, swclkOe := false, swdioO := true, swdioOe := false } }

/-- With an answer of the cycle counter to come. -/
def clocked (s : State) : State := { s with inputs := { s.inputs with nows := [0x00ABCDEF#32] } }

/-- The first `n` bits of a number, bit 0 first. -/
def bitString (n w : Nat) : List Bool := (List.range n).map w.testBit

/-- At the request phase; the target will answer WAIT. -/
def inRequest : State := { ready .gpioFast (bitString 3 0b010) with phase := .req, bitcnt := 8#9 }

/-- At the acknowledge phase of a read, the line released, 33 zero bits to follow. -/
def inAcknowledge : State :=
  { ready .gpioFast (List.replicate 36 false) with
      phase := .acks, bitcnt := 3#9, req := 0x02#8,
      pins := { swclkO := true, swclkOe := true, swdioO := true, swdioOe := false } }

/-- At a position inside an operation on a backend, 33 zero bits to follow. -/
def inside (mode : XferMode) (phase : Phase) (left : BitVec 9) : State :=
  { ready mode (List.replicate 36 false) with phase := phase, bitcnt := left }

/-- The outcome is a next state of which `p` holds. -/
def sees (o : Host.Outcome State Fault Refusal) (p : State → Bool) : Bool :=
  match o with
  | .next t => p t
  | .fault _ => false
  | .refused _ => false

/-- `D<b>×n`. -/
def driven (b : Bool) (n : Nat) : List WireCycle := List.replicate n (.drive b)

/-- `Z×n`. -/
def gap (n : Nat) : List WireCycle := List.replicate n .released

/-- `S=<b>×n`. -/
def heard (b : Bool) (n : Nat) : List WireCycle := List.replicate n (.sample b)

/-- Driven cycles with these levels. -/
def levels (bits : List Nat) : List WireCycle := bits.map fun b => .drive (b == 1)

/-! Tests -/

/-- R92 and R94: each operation of the command port from its bytes. -/
theorem test_decode_operations :
    decode .cmd [0x02#8, 0x01#8] = .ok (.connect 1#8) [] ∧
    decode .cmd [0x03#8] = .ok (.disconnect) [] ∧
    decode .cmd [0x04#8, 0xFF#8] = .ok (.cfgIdle 255#8) [] ∧
    decode .cmd [0x11#8, 0x40#8, 0x4B#8, 0x4C#8, 0x00#8] = .ok (.clk 5000000#32) [] ∧
    decode .cmd [0x12#8, 0x0C#8, 0x5A#8, 0xF3#8] = .ok (.seq 12#8 [0x5A#8, 0xF3#8]) [] ∧
    decode .cmd [0x13#8, 0x05#8] = .ok (.cfgSwd 5#8) [] ∧
    decode .cmd [0x40#8, 0x8E#8] = .ok (.xferR ⟨false, true, true, false, false, false, true⟩) [] ∧
    decode .cmd [0x40#8, 0x31#8, 0x78#8, 0x56#8, 0x34#8, 0x12#8] =
      .ok (.xferW ⟨true, false, false, true, true, false, false⟩ 0x12345678#32) [] ∧
    decode .cmd [0x00#8] = .ok (.anyOtherOp 0#8) [] := by
  decide +kernel

/-- R82 (V-R1): each request byte; the general pattern `req8` has the words of its row. -/
theorem test_decode_requests :
    decode .req8 [0x81#8] = .ok (.req8DpW0) [] ∧
    decode .req8 [0xA3#8] = .ok (.req8ApW0) [] ∧
    decode .req8 [0xA5#8] = .ok (.req8DpR0) [] ∧
    decode .req8 [0x87#8] = .ok (.req8ApR0) [] ∧
    decode .req8 [0xA9#8] = .ok (.req8DpW4) [] ∧
    decode .req8 [0x8B#8] = .ok (.req8ApW4) [] ∧
    decode .req8 [0x8D#8] = .ok (.req8DpR4) [] ∧
    decode .req8 [0xAF#8] = .ok (.req8ApR4) [] ∧
    decode .req8 [0xB1#8] = .ok (.req8DpW8) [] ∧
    decode .req8 [0x93#8] = .ok (.req8ApW8) [] ∧
    decode .req8 [0x95#8] = .ok (.req8DpR8) [] ∧
    decode .req8 [0xB7#8] = .ok (.req8ApR8) [] ∧
    decode .req8 [0x99#8] = .ok (.req8DpWC) [] ∧
    decode .req8 [0xBB#8] = .ok (.req8ApWC) [] ∧
    decode .req8 [0xBD#8] = .ok (.req8DpRC) [] ∧
    decode .req8 [0x9F#8] = .ok (.req8ApRC) [] ∧
    (Instr.req8 0x2#4).canonical = .req8DpR0 ∧ encode (.req8 0x2#4) = [0xA5#8] := by
  decide +kernel

/-- R85: each of the eight acknowledge values. -/
theorem test_decode_acknowledges :
    decode .ack3 [0#8] = .ok (.ack3Invalid0) [] ∧
    decode .ack3 [1#8] = .ok (.ack3Ok) [] ∧
    decode .ack3 [2#8] = .ok (.ack3Wait) [] ∧
    decode .ack3 [3#8] = .ok (.ack3Invalid3) [] ∧
    decode .ack3 [4#8] = .ok (.ack3Fault) [] ∧
    decode .ack3 [5#8] = .ok (.ack3Invalid5) [] ∧
    decode .ack3 [6#8] = .ok (.ack3Invalid6) [] ∧
    decode .ack3 [7#8] = .ok (.ack3Invalid7) [] := by
  decide +kernel

/-- R86 and R88: a data phase with its parity in bit 32, and CFG8. -/
theorem test_decode_data_and_config :
    decode .data33 [0x77#8, 0x14#8, 0xA0#8, 0x2B#8, 0x00#8] = .ok (.data33 0x2BA01477#32 false) [] ∧
    decode .data33 [0x78#8, 0x56#8, 0x34#8, 0x12#8, 0x01#8] = .ok (.data33 0x12345678#32 true) [] ∧
    decode .cfg8 [0xFF#8] = .ok (.cfg8 255#8) [] := by
  decide +kernel

/-- R100: the words of each pseudo-operation. -/
theorem test_decode_pseudo_operations :
    encode (.linereset 56#8) = [0x12#8, 56#8, 0xFF#8, 0xFF#8, 0xFF#8, 0xFF#8, 0xFF#8, 0xFF#8, 0xFF#8] ∧
    (Instr.linereset 56#8).canonical = .seq 56#8 [0xFF#8, 0xFF#8, 0xFF#8, 0xFF#8, 0xFF#8, 0xFF#8, 0xFF#8] ∧
    decode .cmd [0x12#8, 0x10#8, 0x9E#8, 0xE7#8] = .ok Instr.jtag2swd.canonical [] ∧
    decode .cmd [0x12#8, 0x10#8, 0x3C#8, 0xE7#8] = .ok Instr.swd2jtag.canonical [] ∧
    decode .cmd [0x12#8, 0x08#8, 0x00#8] = .ok (Instr.idle 8#8).canonical [] ∧
    decode .cmd [0x40#8, 0x02#8] = .ok Instr.idcode.canonical [] ∧
    decode .cmd [0x40#8, 0x0E#8] = .ok Instr.rdbuff.canonical [] ∧
    decode .cmd [0x40#8, 0x00#8, 0x1E#8, 0x00#8, 0x00#8, 0x00#8] = .ok (Instr.abort 0x1E#32).canonical [] := by
  decide +kernel

/-- R80, R81, R92: what is no instruction is rejected by name. -/
theorem test_decode_rejects_by_name :
    decode .req8 [0x85#8] = .bad .notARequest ∧
    decode .req8 [0x01#8] = .bad .notARequest ∧
    decode .ack3 [0x08#8] = .bad .tooWide ∧
    decode .cmd [0x40#8, 0x00#8, 0x1E#8] = .bad .truncated ∧
    decode .cmd [0x12#8, 0x0C#8, 0x5A#8] = .bad .truncated ∧
    decode .cmd [] = .bad .empty := by
  decide +kernel

/-- Words of spec/opcode_table.json are read in the format of their width (log 15). -/
theorem test_table_words :
    decodeTableWord 16 0x0102 = some (.connect 1#8) ∧
    decodeTableWord 8 0xA5 = some .req8DpR0 ∧
    decodeTableWord 8 0x03 = some .disconnect ∧
    decodeTableWord 3 0x2 = some .ack3Wait ∧
    decodeTableWord 33 0x12BA01477 = some (.data33 0x2BA01477#32 true) ∧
    decodeTableWord 16 0x0240 = some Instr.idcode.canonical := by
  decide +kernel

/-- R95: a sequence with a byte too few, and one with its bytes. -/
theorem test_wellformed_seq :
    WellFormed (.seq 12#8 [0x5A#8]) = false ∧ WellFormed (.seq 12#8 [0x5A#8, 0xF3#8]) = true := by
  decide +kernel

/-- R92: the code of SEQ is not the default row's. -/
theorem test_wellformed_anyOtherOp :
    WellFormed (.anyOtherOp 0x12#8) = false ∧ WellFormed (.anyOtherOp 0x14#8) = true := by
  decide +kernel

/-- R86: an odd data phase, and an even one. -/
theorem test_wellformed_data33 :
    WellFormed (.data33 0x2BA01477#32 true) = false ∧ WellFormed (.data33 0x2BA01477#32 false) = true := by
  decide +kernel

/-- R100: 49 cycles are no line reset; 50 and 256 are one. -/
theorem test_wellformed_linereset :
    WellFormed (.linereset 49#8) = false ∧ WellFormed (.linereset 50#8) = true ∧ WellFormed (.linereset 0#8) = true := by
  decide +kernel

/-- V-N1. -/
theorem test_connect :
    sees (exec (.connect 1#8) unplugged) (fun t =>
      t.result == 1#8 && t.debugPort == .swd &&
      decide (t.pins = { swclkO := true, swclkOe := true, swdioO := true, swdioOe := true })) = true := by
  decide +kernel

/-- V-N3. -/
theorem test_connect_jtag :
    sees (exec (.connect 2#8) unplugged) (fun t =>
      decide (t = { unplugged with result := 0#8 })) = true := by
  decide +kernel

/-- V-N7. -/
theorem test_disconnect :
    sees (exec .disconnect (ready .gpioDelayed [])) (fun t =>
      t.result == 0#8 && t.debugPort == .disabled &&
      decide (t.pins = { swclkO := true, swclkOe := false, swdioO := true, swdioOe := false })) = true := by
  decide +kernel

/-- V-C2. -/
theorem test_cfgIdle :
    sees (exec (.cfgIdle 0xFF#8) unplugged) (fun t =>
      t.idleCycles == 255#8 && t.result == 0#8) = true := by
  decide +kernel

/-- V-K3 (160 MHz, 2 cycles). -/
theorem test_clk :
    sees (exec (.clk 500000#32) (ready .gpioFast [])) (fun t =>
      t.xferMode == .gpioDelayed && t.clockDelay == 158#32 && t.result == 0#8) = true := by
  decide +kernel

/-- V-K11. -/
theorem test_clk_zero :
    sees (exec (.clk 0#32) (ready .gpioFast [])) (fun t =>
      decide (t = { ready .gpioFast [] with result := 0xFF#8 })) = true := by
  decide +kernel

/-- V-S3. -/
theorem test_seq :
    sees (exec (.seq 12#8 [0x5A#8, 0xF3#8]) (ready .gpioDelayed [])) (fun t =>
      decide (t.wireTrace =
        driven false 1 ++ driven true 1 ++ driven false 1 ++ driven true 2 ++ driven false 1 ++
        driven true 1 ++ driven false 1 ++ driven true 2 ++ driven false 2) &&
      t.seqLen == 12#9 && t.result == 0#8 && !t.pins.swdioO) = true := by
  decide +kernel

/-- V-S7. -/
theorem test_seq_refused :
    sees (exec (.seq 8#8 [0xFF#8]) unplugged) (fun t =>
      decide (t = { unplugged with result := 0xFF#8 })) = true := by
  decide +kernel

/-- V-C1, row `13 05`. -/
theorem test_cfgSwd :
    sees (exec (.cfgSwd 0x05#8) (ready .gpioDelayed [])) (fun t =>
      t.turnaround == 2 && t.dataPhase && t.result == 0#8) = true := by
  decide +kernel

/-- V-C1, row `13 F8`. -/
theorem test_cfgSwd_high_bits :
    sees (exec (.cfgSwd 0xF8#8) (ready .gpioDelayed [])) (fun t =>
      t.turnaround == 1 && !t.dataPhase) = true := by
  decide +kernel

/-- V-C1, row `13 0A`, its operand byte alone. -/
theorem test_cfg8 :
    sees (exec (.cfg8 0x0A#8) (ready .gpioDelayed [])) (fun t =>
      t.turnaround == 3 && !t.dataPhase) = true := by
  decide +kernel

/-- R90. -/
theorem test_anyOtherOp :
    sees (exec (.anyOtherOp 0x7F#8) (ready .gpioDelayed [])) (fun t =>
      decide (t = { ready .gpioDelayed [] with result := 0xFF#8 })) = true := by
  decide +kernel

/-- V-X13. -/
theorem test_xferR_parity :
    sees (exec (.xferR (requestFields 0x02#8))
      { ready .gpioFast (bitString 36 0b100101011101000000001010001110111001) with idleCycles := 1#8 }) (fun t =>
      decide (t.wireTrace =
        driven true 1 ++ driven false 1 ++ driven true 1 ++ driven false 2 ++ driven true 1 ++
        driven false 1 ++ driven true 1 ++ gap 1 ++ heard true 1 ++ heard false 2 ++ heard true 3 ++
        heard false 1 ++ heard true 3 ++ heard false 3 ++ heard true 1 ++ heard false 1 ++ heard true 1 ++
        heard false 8 ++ heard true 1 ++ heard false 1 ++ heard true 3 ++ heard false 1 ++ heard true 1 ++
        heard false 1 ++ heard true 1 ++ heard false 2 ++ heard true 1 ++ gap 1 ++ driven false 1) &&
      t.rdata == 0x2BA01477#32 && t.perr && !t.ackinv && t.result == 8#8) = true := by
  decide +kernel

/-- V-X15, on the SPI backend (V-K14). -/
theorem test_xferR_timestamp :
    sees (exec (.xferR (requestFields 0x82#8))
      (clocked (ready .spi (bitString 36 0b000101011101000000001010001110111001)))) (fun t =>
      decide (t.wireTrace =
        driven true 1 ++ driven false 1 ++ driven true 1 ++ driven false 2 ++ driven true 1 ++
        driven false 1 ++ driven true 1 ++ gap 1 ++ heard true 1 ++ heard false 2 ++ heard true 3 ++
        heard false 1 ++ heard true 3 ++ heard false 3 ++ heard true 1 ++ heard false 1 ++ heard true 1 ++
        heard false 8 ++ heard true 1 ++ heard false 1 ++ heard true 3 ++ heard false 1 ++ heard true 1 ++
        heard false 1 ++ heard true 1 ++ heard false 3 ++ gap 1) &&
      t.timestamp == 0x00ABCDEF#32 && t.req == 0x82#8 && t.result == 1#8) = true := by
  decide +kernel

/-- V-X3. -/
theorem test_xferW :
    sees (exec (.xferW (requestFields 0x05#8) 0xDEADBEEF#32) (ready .gpioFast (bitString 3 0b001))) (fun t =>
      decide (t.wireTrace =
        driven true 2 ++ driven false 1 ++ driven true 1 ++ driven false 3 ++ driven true 1 ++ gap 1 ++
        heard true 1 ++ heard false 2 ++ gap 1 ++ driven true 4 ++ driven false 1 ++ driven true 3 ++
        driven false 1 ++ driven true 5 ++ driven false 1 ++ driven true 2 ++ driven false 1 ++
        driven true 2 ++ driven false 1 ++ driven true 1 ++ driven false 1 ++ driven true 1 ++
        driven false 1 ++ driven true 4 ++ driven false 1 ++ driven true 2 ++ driven false 1) &&
      t.rdata == 0#32 && t.wdata == 0xDEADBEEF#32 && !t.par && t.result == 1#8) = true := by
  decide +kernel

/-- V-X18, the extra bit of the SPI workaround. -/
theorem test_xferW_spi :
    sees (exec (.xferW (requestFields 0x05#8) 0x23000052#32)
      { ready .spi (bitString 3 0b001) with idleCycles := 2#8 }) (fun t =>
      decide (t.wireTrace =
        driven true 2 ++ driven false 1 ++ driven true 1 ++ driven false 3 ++ driven true 1 ++ gap 1 ++
        heard true 1 ++ heard false 2 ++ gap 1 ++ driven false 1 ++ driven true 1 ++ driven false 2 ++
        driven true 1 ++ driven false 1 ++ driven true 1 ++ driven false 17 ++ driven true 2 ++
        driven false 3 ++ driven true 1 ++ driven false 6) &&
      t.ack == 1#3 && t.result == 1#8) = true := by
  decide +kernel

/-- V-X1. -/
theorem test_idcode :
    sees (exec .idcode
      (ready .gpioFast (bitString 36 0b000101011101000000001010001110111001))) (fun t =>
      decide (t.wireTrace =
        driven true 1 ++ driven false 1 ++ driven true 1 ++ driven false 2 ++ driven true 1 ++
        driven false 1 ++ driven true 1 ++ gap 1 ++ heard true 1 ++ heard false 2 ++ heard true 3 ++
        heard false 1 ++ heard true 3 ++ heard false 3 ++ heard true 1 ++ heard false 1 ++ heard true 1 ++
        heard false 8 ++ heard true 1 ++ heard false 1 ++ heard true 3 ++ heard false 1 ++ heard true 1 ++
        heard false 1 ++ heard true 1 ++ heard false 3 ++ gap 1) &&
      t.rdata == 0x2BA01477#32 && t.ack == 1#3 && t.result == 1#8) = true := by
  decide +kernel

/-- V-X10. -/
theorem test_idcode_no_target :
    sees (exec .idcode
      { ready .gpioFast (bitString 3 0b111) with idleCycles := 2#8 }) (fun t =>
      decide (t.wireTrace =
        driven true 1 ++ driven false 1 ++ driven true 1 ++ driven false 2 ++ driven true 1 ++
        driven false 1 ++ driven true 1 ++ gap 1 ++ heard true 3 ++ gap 34) &&
      t.ackinv && !t.perr && t.result == 8#8) = true := by
  decide +kernel

/-- V-X14. -/
theorem test_rdbuff :
    sees (exec .rdbuff
      (ready .gpioFast (bitString 36 0b111111111111111111111111111111111001))) (fun t =>
      decide (t.wireTrace =
        driven true 1 ++ driven false 1 ++ driven true 4 ++ driven false 1 ++ driven true 1 ++ gap 1 ++
        heard true 1 ++ heard false 2 ++ heard true 33 ++ gap 1) &&
      t.rdata == 0xFFFFFFFF#32 && t.perr && t.result == 8#8) = true := by
  decide +kernel

/-- V-X17. -/
theorem test_rdbuff_refused :
    sees (exec .rdbuff unplugged) (fun t =>
      decide (t = { unplugged with result := 0xFF#8 })) = true := by
  decide +kernel

/-- V-X4 at DP 0x0: its frame has the request byte 0x81. -/
theorem test_abort :
    sees (exec (.abort 0#32)
      { ready .gpioFast (bitString 3 0b001) with turnaroundBits := 1#2, idleCycles := 3#8 }) (fun t =>
      decide (t.wireTrace =
        driven true 1 ++ driven false 6 ++ driven true 1 ++ gap 2 ++ heard true 1 ++ heard false 2 ++ gap 2 ++
        driven false 36) &&
      t.result == 1#8) = true := by
  decide +kernel

/-- V-X9 at DP 0x0. -/
theorem test_abort_wait :
    sees (exec (.abort 0xDEADBEEF#32)
      { ready .gpioFast (bitString 3 0b010) with turnaroundBits := 1#2, dataPhase := true }) (fun t =>
      decide (t.wireTrace =
        driven true 1 ++ driven false 6 ++ driven true 1 ++ gap 2 ++ heard false 1 ++ heard true 1 ++
        heard false 1 ++ gap 2 ++ driven false 33) &&
      t.result == 2#8 && t.wdata == 0xDEADBEEF#32) = true := by
  decide +kernel

/-- V-S1. -/
theorem test_linereset :
    sees (exec (.linereset 56#8) (ready .spi [])) (fun t =>
      decide (t.wireTrace =
        driven true 56) &&
      t.seqLen == 56#9 && t.pins.swdioO) = true := by
  decide +kernel

/-- V-S2. -/
theorem test_jtag2swd :
    sees (exec .jtag2swd (ready .gpioDelayed [])) (fun t =>
      decide (t.wireTrace =
        driven false 1 ++ driven true 4 ++ driven false 2 ++ driven true 4 ++ driven false 2 ++
        driven true 3) &&
      t.seqLen == 16#9 && t.result == 0#8) = true := by
  decide +kernel

/-- R164: 0x3C, 0xE7 least significant bit first. -/
theorem test_swd2jtag :
    sees (exec .swd2jtag (ready .gpioDelayed [])) (fun t =>
      decide (t.wireTrace =
        driven false 2 ++ driven true 4 ++ driven false 2 ++ driven true 3 ++ driven false 2 ++
        driven true 3) &&
      t.seqLen == 16#9) = true := by
  decide +kernel

/-- V-S6. -/
theorem test_idle :
    sees (exec (.idle 8#8) (ready .gpioDelayed [])) (fun t =>
      decide (t.wireTrace =
        driven false 8) &&
      !t.pins.swdioO && t.result == 0#8) = true := by
  decide +kernel

/-- V-R1. -/
theorem test_req8DpW0 :
    sees (exec .req8DpW0 inRequest) (fun t =>
      decide (t.wireTrace.take 8 = levels [1, 0, 0, 0, 0, 0, 0, 1]) && t.result == 2#8) = true := by
  decide +kernel

/-- V-R1. -/
theorem test_req8ApW0 :
    sees (exec .req8ApW0 inRequest) (fun t =>
      decide (t.wireTrace.take 8 = levels [1, 1, 0, 0, 0, 1, 0, 1]) && t.result == 2#8) = true := by
  decide +kernel

/-- V-R1. -/
theorem test_req8DpR0 :
    sees (exec .req8DpR0 inRequest) (fun t =>
      decide (t.wireTrace.take 8 = levels [1, 0, 1, 0, 0, 1, 0, 1]) && t.result == 2#8) = true := by
  decide +kernel

/-- V-R1. -/
theorem test_req8ApR0 :
    sees (exec .req8ApR0 inRequest) (fun t =>
      decide (t.wireTrace.take 8 = levels [1, 1, 1, 0, 0, 0, 0, 1]) && t.result == 2#8) = true := by
  decide +kernel

/-- V-R1. -/
theorem test_req8DpW4 :
    sees (exec .req8DpW4 inRequest) (fun t =>
      decide (t.wireTrace.take 8 = levels [1, 0, 0, 1, 0, 1, 0, 1]) && t.result == 2#8) = true := by
  decide +kernel

/-- V-R1. -/
theorem test_req8ApW4 :
    sees (exec .req8ApW4 inRequest) (fun t =>
      decide (t.wireTrace.take 8 = levels [1, 1, 0, 1, 0, 0, 0, 1]) && t.result == 2#8) = true := by
  decide +kernel

/-- V-R1. -/
theorem test_req8DpR4 :
    sees (exec .req8DpR4 inRequest) (fun t =>
      decide (t.wireTrace.take 8 = levels [1, 0, 1, 1, 0, 0, 0, 1]) && t.result == 2#8) = true := by
  decide +kernel

/-- V-R1. -/
theorem test_req8ApR4 :
    sees (exec .req8ApR4 inRequest) (fun t =>
      decide (t.wireTrace.take 8 = levels [1, 1, 1, 1, 0, 1, 0, 1]) && t.result == 2#8) = true := by
  decide +kernel

/-- V-R1. -/
theorem test_req8DpW8 :
    sees (exec .req8DpW8 inRequest) (fun t =>
      decide (t.wireTrace.take 8 = levels [1, 0, 0, 0, 1, 1, 0, 1]) && t.result == 2#8) = true := by
  decide +kernel

/-- V-R1. -/
theorem test_req8ApW8 :
    sees (exec .req8ApW8 inRequest) (fun t =>
      decide (t.wireTrace.take 8 = levels [1, 1, 0, 0, 1, 0, 0, 1]) && t.result == 2#8) = true := by
  decide +kernel

/-- V-R1. -/
theorem test_req8DpR8 :
    sees (exec .req8DpR8 inRequest) (fun t =>
      decide (t.wireTrace.take 8 = levels [1, 0, 1, 0, 1, 0, 0, 1]) && t.result == 2#8) = true := by
  decide +kernel

/-- V-R1. -/
theorem test_req8ApR8 :
    sees (exec .req8ApR8 inRequest) (fun t =>
      decide (t.wireTrace.take 8 = levels [1, 1, 1, 0, 1, 1, 0, 1]) && t.result == 2#8) = true := by
  decide +kernel

/-- V-R1. -/
theorem test_req8DpWC :
    sees (exec .req8DpWC inRequest) (fun t =>
      decide (t.wireTrace.take 8 = levels [1, 0, 0, 1, 1, 0, 0, 1]) && t.result == 2#8) = true := by
  decide +kernel

/-- V-R1. -/
theorem test_req8ApWC :
    sees (exec .req8ApWC inRequest) (fun t =>
      decide (t.wireTrace.take 8 = levels [1, 1, 0, 1, 1, 1, 0, 1]) && t.result == 2#8) = true := by
  decide +kernel

/-- V-R1. -/
theorem test_req8DpRC :
    sees (exec .req8DpRC inRequest) (fun t =>
      decide (t.wireTrace.take 8 = levels [1, 0, 1, 1, 1, 1, 0, 1]) && t.result == 2#8) = true := by
  decide +kernel

/-- V-R1. -/
theorem test_req8ApRC :
    sees (exec .req8ApRC inRequest) (fun t =>
      decide (t.wireTrace.take 8 = levels [1, 1, 1, 1, 1, 0, 0, 1]) && t.result == 2#8) = true := by
  decide +kernel

/-- V-R1, nibble 0x2, by the general pattern. -/
theorem test_req8 :
    sees (exec (.req8 0x2#4) inRequest) (fun t =>
      decide (t.wireTrace.take 8 = levels [1, 0, 1, 0, 0, 1, 0, 1]) && t.req == 0x02#8) = true := by
  decide +kernel

/-- V-A1. -/
theorem test_ack3Invalid0 :
    sees (exec .ack3Invalid0 inAcknowledge) (fun t =>
      t.ack == 0#3 && t.result == 8#8 && t.ackinv) = true := by
  decide +kernel

/-- V-A1. -/
theorem test_ack3Ok :
    sees (exec .ack3Ok inAcknowledge) (fun t =>
      t.ack == 1#3 && t.result == 1#8 && !t.ackinv) = true := by
  decide +kernel

/-- V-A1. -/
theorem test_ack3Wait :
    sees (exec .ack3Wait inAcknowledge) (fun t =>
      t.ack == 2#3 && t.result == 2#8 && !t.ackinv) = true := by
  decide +kernel

/-- V-A1. -/
theorem test_ack3Invalid3 :
    sees (exec .ack3Invalid3 inAcknowledge) (fun t =>
      t.ack == 3#3 && t.result == 8#8 && t.ackinv) = true := by
  decide +kernel

/-- V-A1. -/
theorem test_ack3Fault :
    sees (exec .ack3Fault inAcknowledge) (fun t =>
      t.ack == 4#3 && t.result == 4#8 && !t.ackinv) = true := by
  decide +kernel

/-- V-A1. -/
theorem test_ack3Invalid5 :
    sees (exec .ack3Invalid5 inAcknowledge) (fun t =>
      t.ack == 5#3 && t.result == 8#8 && t.ackinv) = true := by
  decide +kernel

/-- V-A1. -/
theorem test_ack3Invalid6 :
    sees (exec .ack3Invalid6 inAcknowledge) (fun t =>
      t.ack == 6#3 && t.result == 8#8 && t.ackinv) = true := by
  decide +kernel

/-- V-A1. -/
theorem test_ack3Invalid7 :
    sees (exec .ack3Invalid7 inAcknowledge) (fun t =>
      t.ack == 7#3 && t.result == 8#8 && t.ackinv) = true := by
  decide +kernel

/-- V-X13: the received parity bit is wrong. -/
theorem test_data33_read :
    sees (exec (.data33 0x2BA01477#32 true)
      { inAcknowledge with phase := .rdata, bitcnt := 32#9 }) (fun t =>
      t.rdata == 0x2BA01477#32 && t.perr && t.result == 8#8) = true := by
  decide +kernel

/-- V-X5: the parity bit that is driven is the computed one. -/
theorem test_data33_write :
    sees (exec (.data33 0x00000001#32 false)
      { inAcknowledge with phase := .wdata, bitcnt := 32#9 }) (fun t =>
      decide (t.wireTrace =
        driven true 1 ++ driven false 31 ++ driven true 1) &&
      t.result == 1#8) = true := by
  decide +kernel

/-- Log 15: a word placed at the fetch is the next instruction run. -/
theorem test_step_fetches :
    sees (step ((ready .gpioFast []).withFetchWord 16 0x0102)) (fun t => t.result == 1#8 && t.debugPort == .swd) = true ∧
    sees (step (State.reset.withFetchWord 16 0x0102)) (fun t => t.result == 1#8 && t.debugPort == .swd) = true := by
  decide +kernel

/-- R141 to R143: one turnaround cycle of an OK write to go, then 32 data bits and the parity bit; the line ends high. -/
theorem test_goes_on_from_trnW :
    sees (step { inside .gpioFast .trnW 1#9 with wdata := 0x00000001#32 }) (fun t =>
      decide (t.wireTrace = [.released] ++ levels [1] ++ driven false 31 ++ driven true 1) && t.result == 1#8 &&
      t.pins.swdioO && t.phase == .idle) = true := by
  decide +kernel

/-- R138, R139: the last cycle of a dummy read on the SPI backend, then the turnaround; RESULT is the acknowledge. -/
theorem test_goes_on_from_dummyR :
    sees (step { inside .spi .dummyR 1#9 with req := 0x02#8, ack := 0b010#3 }) (fun t =>
      decide (t.wireTrace = [.released, .released]) && t.result == 2#8 && t.pins.swdioOe) = true := by
  decide +kernel

/-- R26, R212: found inside its header shift, SPI_BUSY set, a read goes on from the acknowledge to its end. -/
theorem test_goes_on_from_acks_in_shift :
    sees (step { inside .spi .acks 3#9 with req := 0x02#8, spi := { (ready .spi []).spi with busy := true },
                                            inputs := (ready .spi (bitString 3 0b010)).inputs }) (fun t =>
      t.result == 2#8 && t.phase == .idle && !t.spi.busy) = true := by
  decide +kernel

/-- V-H1 with k = r = 3: four attempts. -/
theorem test_host_retries :
    (match bus 0x02#8 0#32 (ready .gpioFast (bitString 9 0b010010010 ++ okReadAnswers 0x2BA01477#32)) with
      | .next (r, t) => r == 0x01#8 && t.rdata == 0x2BA01477#32 && t.inputs.samples == 45
      | _ => false) = true := by
  decide +kernel

/-- R250 and R255: the response of the source's scenario from its command, and its packed sizes in 32 bits. -/
theorem test_host_transfer_command :
    (match transferCommand [0x00#8, 0x01#8, 0x02#8] (ready .gpioFast (okReadAnswers 0x2BA01477#32)) with
      | .next (h, _) => h.2 == [0x01#8, 0x01#8, 0x77#8, 0x14#8, 0xA0#8, 0x2B#8] && packSizes 16 h == 0x00040006#32
      | _ => false) = true := by
  decide +kernel

/-- V-H4: the response of the source's scenario. -/
theorem test_host_transfer :
    (match transferBatch 1 [0x02#8] (ready .gpioFast (okReadAnswers 0x2BA01477#32)) with
      | .next (b, _) => b.completed == 1#8 && b.ack == 1#8 && decide (b.out = [0x77#8, 0x14#8, 0xA0#8, 0x2B#8])
      | _ => false) = true := by
  decide +kernel

/-- R251 and R252: two AP reads of a block take three transactions; a posted read that stood before is gone after it. -/
theorem test_host_block :
    (match transferBlock 2 0x03#8 [] { ready .gpioFast (okReadAnswers 9#32 ++ okReadAnswers 1#32 ++ okReadAnswers 2#32)
        with host := { (ready .gpioFast []).host with postRead := true } } with
      | .next (out, t) => decide (out = [2#8, 0#8, 1#8, 1#8, 0#8, 0#8, 0#8, 2#8, 0#8, 0#8, 0#8]) &&
          t.inputs.samples == 108 && !t.host.postRead
      | _ => false) = true := by
  decide +kernel

/-- R251: a block read that fails after its posting transaction leaves PostedRead without collecting. -/
theorem test_host_block_fails :
    (match transferBlock 2 0x03#8 [] (ready .gpioFast (okReadAnswers 9#32 ++ bitString 3 0b100)) with
      | .next (out, t) => decide (out = [0#8, 0#8, 4#8]) && !t.host.postRead
      | _ => false) = true := by
  decide +kernel

/-- R245: an ordinary write and then a match-mask write, with the verification read of the ordinary one (log 38). -/
theorem test_host_write_then_mask :
    (match transferBatch 2 [0x05#8, 0xEF#8, 0xBE#8, 0xAD#8, 0xDE#8, 0x20#8, 0xFF#8, 0xFF#8, 0x00#8, 0x00#8]
        (ready .gpioFast (bitString 3 0b001 ++ okReadAnswers 9#32)) with
      | .next (b, t) => b.completed == 2#8 && b.ack == 1#8 && b.out.isEmpty && t.inputs.samples == 39 &&
          t.host.matchMask == 0xFFFF#32
      | _ => false) = true := by
  decide +kernel

/-! Witnesses: a concrete state and operands that meet the hypotheses of each statement -/

theorem runs (o : Host.Outcome State Fault Refusal) (h : sees o (fun _ => true) = true) : ∃ t, o = .next t := by
  cases o with
  | next t => exact ⟨t, rfl⟩
  | fault f => cases h
  | refused r => cases h

theorem runs_with (o : Host.Outcome State Fault Refusal) (p : State → Bool) (h : sees o p = true) :
    ∃ t, o = .next t ∧ p t = true := by
  cases o with
  | next t => exact ⟨t, rfl, h⟩
  | fault f => cases h
  | refused r => cases h

/-- 36 answers: OK, then `0x2BA01477` and its parity bit. -/
def idcodeAnswers : List Bool := okReadAnswers 0x2BA01477#32

/-- The acknowledge `ack`, then zeros. -/
def answering (ack : BitVec 3) : List Bool := bitsOf ack ++ List.replicate 33 false

theorem idcode_issues (d : Word) : issues .idcode 0x02#8 d := Or.inl ⟨requestFields 0x02#8, rfl, by decide⟩

theorem abort_issues (d : Word) : issues (.abort d) 0x00#8 d := Or.inr ⟨requestFields 0x00#8, rfl, by decide⟩

theorem stamped_issues (d : Word) : issues (.xferR (requestFields 0x82#8)) 0x82#8 d :=
  Or.inl ⟨requestFields 0x82#8, rfl, by decide⟩

theorem ready_swdReady (mode : XferMode) (answers : List Bool) : (ready mode answers).swdReady :=
  ⟨rfl, rfl, fun _ => rfl⟩

theorem disconnect_not_issues : ¬ ∃ request data, issues .disconnect request data := by
  rintro ⟨_, _, ⟨_, h, _⟩ | ⟨_, h, _⟩⟩ <;> cases h

theorem witness_OtherBytesAreNoRequest : ∀ nibble : Nibble, requestByte nibble ≠ 0x85#8 := by decide

theorem witness_DecodeOfEncode :
    WellFormed (.seq 9#8 [0xFF#8, 0x01#8]) = true ∧ WellFormed (.anyOtherOp 0x00#8) = true := by
  decide

theorem witness_DecodedBytesReencode :
    decode .cmd [0x04#8, 0x08#8, 0x03#8] = .ok (.cfgIdle 8#8) [0x03#8] ∧ Format.cmd ≠ .data33 ∧
    decode .data33 [0x01#8, 0x00#8, 0x00#8, 0x00#8, 0x00#8] = .ok (.data33 1#32 false) [] := by
  decide

theorem witness_ExecFollowsTheExpansion :
    WellFormed (.linereset 50#8) = true ∧ WellFormed (.req8 0xF#4) = true := by decide

theorem witness_StepRunsTheDecodedInstruction :
    ({ ready .gpioFast [] with cmd := [0x02#8, 0x01#8, 0x03#8] } : State).phase = .idle ∧
    decode .cmd [0x02#8, 0x01#8, 0x03#8] = .ok (.connect 1#8) [0x03#8] ∧
    inRequest.phase = .req ∧ inRequest.bitcnt = 8#9 ∧ inAcknowledge.phase = .acks ∧ inAcknowledge.bitcnt = 3#9 ∧
    (inside .gpioFast .rdata 32#9).phase = .rdata ∧ (inside .gpioFast .rdata 32#9).bitcnt = 32#9 ∧
    (inside .gpioFast .wdata 32#9).phase = .wdata ∧ (inside .gpioFast .wdata 32#9).bitcnt = 32#9 := by
  decide

/-- The last clause at the ends of the count of several phases, the position with no cycle left, and two items about to
start. -/
theorem witness_StepWaitsStopsOrGoesOn :
    (ready .spi []).phase = .idle ∧ (ready .spi []).cmd = [] ∧
    ({ ready .spi [] with cmd := [0x40#8] } : State).cmd ≠ [] ∧ decode .cmd [0x40#8] = .bad .truncated ∧
    (inside .spi .trn1 1#9).inOperation ∧ (inside .gpioFast .req 8#9).inOperation ∧
    (inside .gpioDelayed .rpar 1#9).inOperation ∧ (inside .spi .dummyR 33#9).inOperation ∧
    (inside .gpioFast .recov 34#9).inOperation ∧ (inside .spi .idlec 0#9).inOperation ∧
    (inside .spi .acks 3#9).inOperation ∧ (inside .spi .wdata 32#9).inOperation := by
  unfold State.inOperation
  decide

/-- The six configuration statements ask for an idle sequencer only; the state before `Connect` and the ready one. -/
theorem witness_configuration : unplugged.phase = .idle ∧ (ready .spi []).phase = .idle := by decide

/-- The operand values at which the clauses of CONNECT meet. -/
theorem witness_ConnectSelectsSwd :
    sees (exec (.connect 0#8) unplugged) (fun t => t.debugPort == .swd) = true ∧
    sees (exec (.connect 1#8) unplugged) (fun t => t.debugPort == .swd) = true ∧
    sees (exec (.connect 2#8) unplugged) (fun t => t.debugPort == .disabled) = true := by
  decide +kernel

/-- V-K1 to V-K10: the frequencies at which the clauses of CLK meet. -/
theorem witness_ClkSelectsTheBackend :
    sees (exec (.clk 1#32) unplugged) (fun t => t.xferMode == .gpioDelayed && t.clockDelay == 79999998#32) = true ∧
    sees (exec (.clk 1999999#32) unplugged) (fun t => t.xferMode == .gpioDelayed && t.clockDelay == 39#32) = true ∧
    sees (exec (.clk 2000000#32) unplugged) (fun t => t.xferMode == .gpioFast && t.clockDelay == 78#32) = true ∧
    sees (exec (.clk 9999999#32) unplugged) (fun t => t.xferMode == .gpioFast) = true ∧
    sees (exec (.clk 10000000#32) unplugged) (fun t => t.xferMode == .spi && t.clockDelay == 78#32) = true := by
  decide +kernel

/-- V-K13 and R302. -/
theorem witness_DelayIsTheLeastQuotient :
    0 < 1999999 ∧ delayUnits { bench with busClockPred := 7999999, ioCycles := 4 } 1999999 = 1 ∧
    delayUnits { bench with busClockPred := 7999999, ioCycles := 4 } 500000 = 4 ∧ delayUnits bench 1000000 = 78 := by
  decide

theorem witness_RefusedUnlessSwd :
    (∃ request data, issues .idcode request data) ∧
    (∃ bitCount bits, Instr.jtag2swd.canonical = .seq bitCount bits ∧ bits.length = seqByteCount bitCount) ∧
    unplugged.phase = .idle ∧ unplugged.debugPort ≠ .swd :=
  ⟨⟨_, 0#32, idcode_issues _⟩, ⟨16#8, [0x9E#8, 0xE7#8], rfl, by decide⟩, rfl, by decide⟩

theorem witness_OneOperationAtATime :
    WellFormed .disconnect = true ∧ Instr.disconnect.format = .cmd ∧ (Instr.cfg8 0#8).format = .cfg8 ∧
    inRequest.phase ≠ .idle ∧ [0xFF#8].length ≠ seqByteCount 9#8 := by
  decide

/-- XferRunsToItsEnd, and the premises that every statement about a transaction shares: a read and a write, on each
backend. -/
theorem witness_XferRunsToItsEnd :
    issues .idcode 0x02#8 0#32 ∧ issues (.abort 0x1E#32) 0x00#8 0x1E#32 ∧ (ready .gpioDelayed []).swdReady ∧
    (ready .gpioFast []).swdReady ∧ (ready .spi []).swdReady :=
  ⟨idcode_issues _, abort_issues _, ready_swdReady _ _, ready_swdReady _ _, ready_swdReady _ _⟩

/-- With the parity bit the word has, with the other one, and with the request for a capture. -/
theorem witness_ReadAnsweredOk :
    issues .idcode 0x02#8 0#32 ∧ issues (.xferR (requestFields 0x82#8)) 0x82#8 0#32 ∧
    (0x02#8 : Byte).getLsbD 1 = true ∧ (0x82#8 : Byte).getLsbD 1 = true ∧
    (ready .spi idcodeAnswers).swdReady ∧ (ready .spi idcodeAnswers).nextAck = 0b001#3 ∧
    (ready .spi idcodeAnswers).answersFrom 3 33 = data33Bits 0x2BA01477#32 false ∧
    (ready .spi (bitsOf 0b001#3 ++ data33Bits 0x2BA01477#32 true)).answersFrom 3 33 = data33Bits 0x2BA01477#32 true :=
  ⟨idcode_issues _, stamped_issues _, by decide, by decide, ready_swdReady _ _, by decide, by decide +kernel,
    by decide +kernel⟩

theorem witness_WriteAnsweredOk :
    issues (.abort 0x1E#32) 0x00#8 0x1E#32 ∧ (0x00#8 : Byte).getLsbD 1 = false ∧
    (ready .spi (answering 1#3)).swdReady ∧ (ready .spi (answering 1#3)).nextAck = 0b001#3 :=
  ⟨abort_issues _, by decide, ready_swdReady _ _, by decide⟩

theorem witness_WaitAndFaultMoveNoData :
    issues .idcode 0x02#8 0#32 ∧ issues (.abort 0x1E#32) 0x00#8 0x1E#32 ∧
    (ready .gpioFast (answering 2#3)).swdReady ∧ (ready .gpioFast (answering 2#3)).nextAck = 0b010#3 ∧
    (ready .gpioFast (answering 4#3)).swdReady ∧ (ready .gpioFast (answering 4#3)).nextAck = 0b100#3 :=
  ⟨idcode_issues _, abort_issues _, ready_swdReady _ _, by decide, ready_swdReady _ _, by decide⟩

theorem witness_InvalidAcknowledgeRecovers :
    issues .idcode 0x02#8 0#32 ∧ ∀ ack ∈ [0#3, 3#3, 5#3, 6#3, 7#3],
      (ready .gpioFast (answering ack)).swdReady ∧ (ready .gpioFast (answering ack)).nextAck = ack :=
  ⟨idcode_issues _, fun ack h => ⟨ready_swdReady _ _, by revert ack; decide⟩⟩

/-- TurnaroundThenAcknowledge, LeastSignificantBitFirst and FrameLengths: a read and a write that run and are answered
OK. -/
theorem witness_transactions_run :
    issues .idcode 0x02#8 0#32 ∧ (ready .gpioFast idcodeAnswers).swdReady ∧
    (∃ t, exec .idcode (ready .gpioFast idcodeAnswers) = .next t) ∧
    (ready .gpioFast idcodeAnswers).nextAck = 0b001#3 ∧ (0x02#8 : Byte).getLsbD 1 = true ∧
    issues (.abort 0x1E#32) 0x00#8 0x1E#32 ∧ (ready .spi (answering 1#3)).swdReady ∧
    (∃ t, exec (.abort 0x1E#32) (ready .spi (answering 1#3)) = .next t) ∧
    (ready .spi (answering 1#3)).nextAck = 0b001#3 ∧ (0x00#8 : Byte).getLsbD 1 = false :=
  ⟨idcode_issues _, ready_swdReady _ _, runs _ (by decide +kernel), by decide, by decide, abort_issues _,
    ready_swdReady _ _, runs _ (by decide +kernel), by decide, by decide⟩

/-- The peripheral busy before an operation. -/
def stuck : State :=
  { ready .spi [] with spi := { outLen := 0, inLen := 0, buf := List.replicate 64 false, busy := true, sense := false } }

theorem witness_BusyPeripheralTimesOut :
    (∃ request data, issues .idcode request data) ∧
    (∃ bitCount bits, Instr.jtag2swd.canonical = .seq bitCount bits ∧ bits.length = seqByteCount bitCount) ∧
    stuck.phase = .idle ∧ stuck.debugPort = .swd ∧ stuck.xferMode = .spi ∧ stuck.spi.busy = true :=
  ⟨⟨_, 0#32, idcode_issues _⟩, ⟨16#8, [0x9E#8, 0xE7#8], rfl, by decide⟩, rfl, rfl, rfl, rfl⟩

/-- One bit, eight bits, and 256 of them. -/
theorem witness_SeqDrivesItsBits :
    (Instr.seq 1#8 [0xFE#8]).canonical = .seq 1#8 [0xFE#8] ∧ [0xFE#8].length = seqByteCount 1#8 ∧
    (Instr.idle 8#8).canonical = .seq 8#8 [0#8] ∧ [0#8].length = seqByteCount 8#8 ∧
    (List.replicate 32 0xAA#8).length = seqByteCount 0#8 ∧ (ready .spi []).swdReady :=
  ⟨rfl, by decide, by decide, by decide, by decide, ready_swdReady _ _⟩

theorem witness_SeqBufferHoldsTheBits : 255 < 256 ∧ seqBit [0xFE#8] 0 = false ∧ seqBit [0xFE#8] 1 = true := by decide

theorem witness_RequestItemsRunTheTransaction :
    (Instr.req8DpR0 = req8Row 0x2#4 ∨ Instr.req8DpR0 = .req8 0x2#4) ∧ (Instr.req8 0x2#4 = req8Row 0x2#4 ∨
      Instr.req8 0x2#4 = .req8 0x2#4) ∧ inRequest.phase = .req ∧ inRequest.backendReady :=
  ⟨Or.inl rfl, Or.inr rfl, rfl, fun _ => rfl⟩

theorem witness_AcknowledgeItemsSelectThePath : inAcknowledge.phase = .acks ∧ inAcknowledge.backendReady :=
  ⟨rfl, fun _ => rfl⟩

theorem witness_DataItems :
    ({ inAcknowledge with phase := .rdata } : State).phase = .rdata ∧
    ({ inAcknowledge with phase := .wdata } : State).phase = .wdata ∧
    ({ inAcknowledge with phase := .rdata } : State).backendReady ∧
    ({ inAcknowledge with phase := .wdata } : State).backendReady ∧ inAcknowledge.pins.swclkO = true :=
  ⟨rfl, rfl, fun _ => rfl, fun _ => rfl, rfl⟩

theorem witness_ItemsNeedTheirPhase :
    (ready .spi []).phase ≠ .req ∧ (ready .spi []).phase ≠ .acks ∧ (ready .spi []).phase ≠ .rdata ∧
    (ready .spi []).phase ≠ .wdata := by
  decide

theorem witness_WordParityFlipsWithAnyBit : 0 < 32 ∧ 31 < 32 := by decide

theorem witness_ClockCycleEvents :
    (ready .gpioDelayed []).xferMode = .gpioDelayed ∧ (ready .gpioFast []).xferMode = .gpioFast :=
  ⟨rfl, rfl⟩

theorem witness_BackendsAgree :
    issues .idcode 0x02#8 0#32 ∧ issues (.abort 0x1E#32) 0x00#8 0x1E#32 ∧
    Instr.jtag2swd.canonical = .seq 16#8 [0x9E#8, 0xE7#8] ∧ [0x9E#8, 0xE7#8].length = seqByteCount 16#8 ∧
    (ready .gpioDelayed (answering 1#3)).swdReady ∧ (ready .gpioDelayed (answering 1#3)).spi.busy = false :=
  ⟨idcode_issues _, abort_issues _, rfl, by decide, ready_swdReady _ _, rfl⟩

theorem witness_DelayedVariantOnlyDelays :
    (ready .spi idcodeAnswers).phase = .idle ∧ (ready .spi idcodeAnswers).debugPort = .swd ∧
    (∃ f, exec .idcode { ready .spi idcodeAnswers with xferMode := .gpioFast } = .next f) ∧
    (∃ d, exec .idcode { ready .spi idcodeAnswers with xferMode := .gpioDelayed } = .next d) ∧
    ∃ request data, issues .idcode request data :=
  ⟨rfl, rfl, runs _ (by decide +kernel), runs _ (by decide +kernel), _, 0#32, idcode_issues _⟩

/-- GpioEventsAreLegal and CyclesFitTheirPhase, OneAnswerForEachSample. -/
theorem witness_GpioEventsAreLegal :
    (ready .gpioDelayed idcodeAnswers).phase = .idle ∧ (ready .gpioDelayed idcodeAnswers).xferMode ≠ .spi ∧
    (ready .gpioDelayed idcodeAnswers).pins.swclkO = true ∧
    (∃ t, exec .idcode (ready .gpioDelayed idcodeAnswers) = .next t) ∧ ∃ request data, issues .idcode request data :=
  ⟨rfl, by decide, rfl, runs _ (by decide +kernel), _, 0#32, idcode_issues _⟩

theorem witness_ShiftsFitThePeripheral :
    (ready .spi idcodeAnswers).phase = .idle ∧ (ready .spi idcodeAnswers).xferMode = .spi ∧
    (∃ t, exec .idcode (ready .spi idcodeAnswers) = .next t) ∧ ∃ request data, issues .idcode request data :=
  ⟨rfl, rfl, runs _ (by decide +kernel), _, 0#32, idcode_issues _⟩

/-- An output part alone, an input part alone, and both. -/
theorem witness_ShiftTransactionEffect :
    1 ≤ (outSlots .req [true]).length + (inSlots .acks true 0).length ∧
    1 ≤ (outSlots .req []).length + (inSlots .acks true 1).length ∧
    (ready .spi []).pins.swclkO = true ∧
    ∃ t inBits, halShift (outSlots .req [true]) (inSlots .acks true 1) (ready .spi [true]) = (inBits, t) :=
  ⟨by decide, by decide, rfl, _, _, rfl⟩

theorem witness_DiscardedBitsNeverMatter :
    issues .idcode 0x02#8 0#32 ∧ (∃ t, exec .idcode (ready .spi idcodeAnswers) = .next t) ∧
    ∃ t, exec .idcode { ready .spi idcodeAnswers with
      inputs := { (ready .spi idcodeAnswers).inputs with discards := 9 } } = .next t :=
  ⟨idcode_issues _, runs _ (by decide +kernel), runs _ (by decide +kernel)⟩

theorem witness_StepsKeepTheRestingState :
    ({ ready .spi idcodeAnswers with cmd := [0x40#8, 0x02#8] } : State).resting = true ∧
    ∃ t, step { ready .spi idcodeAnswers with cmd := [0x40#8, 0x02#8] } = .next t :=
  ⟨by decide, runs _ (by decide +kernel)⟩

/-- TracesOnlyGrow, OperationsLeaveTheHostAlone and the five premises of OneWriterForEachControlRegister. -/
theorem witness_OneWriterForEachControlRegister :
    (∃ t, exec .idcode (ready .gpioFast idcodeAnswers) = .next t) ∧
    (∀ cfg, Instr.idcode ≠ .cfgSwd cfg ∧ Instr.idcode ≠ .cfg8 cfg) ∧ (∀ n, Instr.idcode ≠ .cfgIdle n) ∧
    (∀ freq, Instr.idcode ≠ .clk freq) ∧ (∀ portId, Instr.idcode ≠ .connect portId) ∧ Instr.idcode ≠ .disconnect ∧
    (ready .gpioFast idcodeAnswers).debugPort ≠ .jtag :=
  ⟨runs _ (by decide +kernel), fun _ => ⟨nofun, nofun⟩, fun _ => nofun, fun _ => nofun, fun _ => nofun, nofun, nofun⟩

theorem witness_OnlyXferWritesData :
    Instr.disconnect.format = .cmd ∧ (∃ t, exec .disconnect (ready .gpioFast []) = .next t) ∧
    (¬ ∃ request data, issues .disconnect request data) ∧
    (∀ bitCount bits, Instr.disconnect.canonical ≠ .seq bitCount bits) ∧
    ∃ t, exec (.xferR (requestFields 0x82#8)) (clocked (ready .gpioFast idcodeAnswers)) = .next t ∧
      (t.rdata != (ready .gpioFast []).rdata && t.timestamp != (ready .gpioFast []).timestamp) = true :=
  ⟨rfl, ⟨_, rfl⟩, disconnect_not_issues, fun _ _ => nofun,
    runs_with _ (fun t => t.rdata != (ready .gpioFast []).rdata && t.timestamp != (ready .gpioFast []).timestamp)
      (by decide +kernel)⟩

/-- An XFER with each of the two causes of ERROR, a sequence, and the five operations without wire cycles. -/
theorem witness_ResultsOfEachOperation :
    (∃ t, exec .idcode (ready .gpioFast (answering 0#3)) = .next t ∧ (t.result == 0x08#8) = true) ∧
    (∃ t, exec .idcode (ready .gpioFast (bitsOf 0b001#3 ++ data33Bits 0#32 true)) = .next t ∧
      (t.result == 0x08#8) = true) ∧
    (∃ t, exec .jtag2swd (ready .gpioFast []) = .next t) ∧ (∃ t, exec (.cfgSwd 0#8) (ready .gpioFast []) = .next t) ∧
    (∃ t, exec (.cfgIdle 0#8) (ready .gpioFast []) = .next t) ∧ (∃ t, exec .disconnect (ready .gpioFast []) = .next t) ∧
    (∃ t, exec (.clk 0#32) (ready .gpioFast []) = .next t) ∧ ∃ t, exec (.connect 0#8) (ready .gpioFast []) = .next t :=
  ⟨runs_with _ _ (by decide +kernel), runs_with _ _ (by decide +kernel), runs _ (by decide +kernel), ⟨_, rfl⟩, ⟨_, rfl⟩,
    ⟨_, rfl⟩, runs _ (by decide +kernel), runs _ (by decide +kernel)⟩

/-- As many WAITs as there are retries, and one more; a read and a write. -/
theorem witness_BusRetriesOnlyWait :
    (ready .gpioFast []).swdReady ∧ (ready .gpioFast []).host.abort = false ∧
    (ready .gpioFast []).inputs.abortPolls = [] ∧ 3 ≤ (ready .gpioFast []).host.retryCount.toNat ∧
    (ready .gpioFast []).host.retryCount.toNat < 4 ∧ isRead 0x02#8 = true ∧ isRead 0x05#8 = false ∧
    ∀ (k : Nat) (request : Byte), (ready .gpioFast ((List.replicate k (bitsOf 0b010#3)).flatten ++
      (if isRead request then okReadAnswers 0x2BA01477#32 else bitsOf 0b001#3) ++ [])).inputs.answers =
        (List.replicate k (bitsOf 0b010#3)).flatten ++
          (if isRead request then okReadAnswers 0x2BA01477#32 else bitsOf 0b001#3) ++ [] :=
  ⟨ready_swdReady _ _, rfl, rfl, by decide, by decide, by decide, by decide, fun _ _ => rfl⟩

/-- A result that is not WAIT, and WAIT with no retries left. -/
theorem witness_BusStopsAtTheFirstResult :
    (∃ t, attemptXfer 0x02#8 0#32 (ready .gpioFast (answering 4#3)) = .next t ∧ (t.result != 0x02#8) = true) ∧
    ∃ s, (∃ t, attemptXfer 0x02#8 0#32 s = .next t ∧ (t.result == 0x02#8) = true) ∧ s.host.retryCount = 0#16 :=
  ⟨runs_with _ _ (by decide +kernel), { ready .gpioFast (answering 2#3) with
    host := { (ready .gpioFast []).host with retryCount := 0#16 } }, runs_with _ _ (by decide +kernel), rfl⟩

theorem witness_PostedReadsAreNotShifted :
    (ready .gpioFast []).swdReady ∧ isRead 0x03#8 = true ∧ isAp 0x03#8 = true ∧ isMatchValue 0x03#8 = false ∧
    (ready .gpioFast []).host.abort = false ∧ (ready .gpioFast []).inputs.abortPolls = [] ∧
    [1#32, 2#32] ≠ [] ∧ [1#32, 2#32].length < 256 ∧
    (ready .gpioFast (okReadAnswers 0#32 ++ [1#32, 2#32].flatMap okReadAnswers ++ [])).inputs.answers =
      okReadAnswers 0#32 ++ [1#32, 2#32].flatMap okReadAnswers ++ [] :=
  ⟨ready_swdReady _ _, by decide, by decide, by decide, rfl, rfl, by decide, by decide, rfl⟩

theorem witness_MatchMaskWriteStaysInTheHost :
    isRead 0x20#8 = false ∧ isMatchMask 0x20#8 = true ∧ (ready .gpioFast []).inputs.abortPolls = [] := by
  decide

/-- Whether a host procedure answers. -/
def answers {α : Type} (r : HostRun α) : Bool :=
  match r with
  | .next _ => true
  | .fault _ => false
  | .refused _ => false

theorem answers_next {α : Type} (r : HostRun α) (h : answers r = true) : ∃ a t, r = .next (a, t) := by
  cases r with
  | next p => exact ⟨p.1, p.2, rfl⟩
  | fault f => cases h
  | refused q => cases h

theorem witness_TransferConsumesItsRequest :
    skipEntries 1 [0x02#8, 0x55#8] = some [0x55#8] ∧
    (∃ b t, transferBatch 1 [0x02#8, 0x55#8] (ready .gpioFast (answering 4#3)) = .next (b, t)) ∧
    (∃ out t, transferBlock 0 0x03#8 [] (ready .gpioFast []) = .next (out, t)) ∧
    (∃ out t, transferBlock 1 0x03#8 [] (ready .gpioFast (idcodeAnswers ++ idcodeAnswers)) = .next (out, t)) ∧
    (∃ out t, transferBlock 1 0x01#8 [1#32] (ready .gpioFast (answering 4#3)) = .next (out, t)) ∧
    ∃ h t, dispatchCommand (fun _ => .transfer) 1 [0x05#8, 0x00#8, 0x01#8, 0x02#8] (ready .gpioFast (answering 4#3)) =
      .next (h, t) :=
  ⟨by decide, answers_next _ (by decide +kernel), answers_next _ (by decide +kernel),
    answers_next _ (by decide +kernel), answers_next _ (by decide +kernel),
    answers_next _ (by decide +kernel)⟩

/-- The first clause, for a table without handlers; the second is the first at `Config.hostOpcode`, of which nothing is
known (log 22). -/
theorem witness_UnknownOpcodeTakesOneByte : (fun _ : Byte => HostOp.unknown) 0x00#8 = .unknown := rfl

/-- With each class of answer. -/
theorem witness_WriteAbortIsOneTransaction :
    (∀ ack, (ready .gpioFast (answering ack)).swdReady) ∧
    ackClass (ready .gpioFast (answering 1#3)).nextAck = .ok ∧
    ackClass (ready .gpioFast (answering 2#3)).nextAck = .wait ∧
    ackClass (ready .gpioFast (answering 4#3)).nextAck = .fault ∧
    ackClass (ready .gpioFast (answering 7#3)).nextAck = .error :=
  ⟨fun _ => ready_swdReady _ _, by decide, by decide, by decide, by decide⟩

theorem witness_TransferConfigureSplitsItsFields : (ready .gpioFast []).phase = .idle := rfl

end Sys2Proof.Tests
end

section
/-! PROOFS. The order of the bits of an item on the wire (20_memory.md R63): where each item of an XFER stands in the
wire cycles of its frame (30_encoding.md R87), and the values that the registers take from them. -/

namespace Sys2Proof.Machine

/-! One item in a frame -/

/-- A cycle of one run of a frame, counted from the run's first cycle. -/
theorem cycle_of_run {pre : List CycleRec} {n : Nat} (hn : pre.length = n) (p : Phase) (cs : List WireCycle)
    (post : List CycleRec) {k : Nat} (hk : k < cs.length) :
    ((pre ++ (runOf p cs ++ post))[n + k]?).map CycleRec.cycle = cs[k]? := by
  subst hn
  rw [List.getElem?_append_right (Nat.le_add_right _ _), Nat.add_sub_cancel_left,
    List.getElem?_append_left (by rwa [runOf_length]), ← List.getElem?_map, runOf_cycles]

theorem driven_bitsOf_getElem? {w : Nat} (v : BitVec w) {k : Nat} (hk : k < w) :
    (driven (bitsOf v))[k]? = some (.drive (v.getLsbD k)) := by
  simp [driven, bitsOf, hk]

theorem sampled_bitsOf_getElem? {w : Nat} (v : BitVec w) {k : Nat} (hk : k < w) :
    (sampled (bitsOf v))[k]? = some (.sample (v.getLsbD k)) := by
  simp [sampled, bitsOf, hk]

/-! The items of each frame -/

theorem headerFrame_length (nibble : Nibble) (t : Nat) (ack : BitVec 3) :
    (headerFrame nibble t (bitsOf ack)).length = 11 + t := by
  simp [headerFrame]
  omega

theorem headerFrame_request_cycle (nibble : Nibble) (t : Nat) (ack : List Bool) (rest : List CycleRec) {k : Nat}
    (hk : k < 8) :
    ((headerFrame nibble t ack ++ rest)[k]?).map CycleRec.cycle = some (.drive ((requestByte nibble).getLsbD k)) := by
  have h := cycle_of_run (pre := []) (n := 0) rfl .req (driven (bitsOf (requestByte nibble)))
    (runOf .trn1 (released t) ++ (runOf .acks (sampled ack) ++ rest)) (k := k) (by simpa)
  rw [driven_bitsOf_getElem? _ hk, Nat.zero_add, List.nil_append] at h
  simpa only [headerFrame, List.append_assoc] using h

theorem headerFrame_ack_cycle (nibble : Nibble) (t : Nat) (ack : BitVec 3) (rest : List CycleRec) {k : Nat}
    (hk : k < 3) :
    ((headerFrame nibble t (bitsOf ack) ++ rest)[8 + t + k]?).map CycleRec.cycle = some (.sample (ack.getLsbD k)) := by
  have h := cycle_of_run (pre := runOf .req (driven (bitsOf (requestByte nibble))) ++ runOf .trn1 (released t))
    (n := 8 + t) (by simp) .acks (sampled (bitsOf ack)) rest (k := k) (by simpa)
  rw [sampled_bitsOf_getElem? _ hk] at h
  simpa only [headerFrame, List.append_assoc] using h

/-- The read data frame of a word and its parity bit, run by run. -/
theorem readFrame_data33Bits (t idle : Nat) (v : Word) (p : Bool) :
    readFrame t idle (data33Bits v p) =
      runOf .rdata (sampled (bitsOf v)) ++
        (runOf .rpar (sampled [p]) ++ (runOf .trnR (released t) ++ runOf .idlec (lows idle))) := by
  have htake : (data33Bits v p).take 32 = bitsOf v := List.take_left' (bitsOf_length v)
  have hdrop : (data33Bits v p).drop 32 = [p] := List.drop_left' (bitsOf_length v)
  simp only [readFrame, htake, hdrop, List.append_assoc]

theorem readFrame_data_cycle {pre : List CycleRec} {n : Nat} (hn : pre.length = n) (t idle : Nat) (v : Word) (p : Bool)
    {k : Nat} (hk : k < 32) :
    ((pre ++ readFrame t idle (data33Bits v p))[n + k]?).map CycleRec.cycle = some (.sample (v.getLsbD k)) := by
  rw [readFrame_data33Bits, cycle_of_run hn _ _ _ (by simpa), sampled_bitsOf_getElem? v hk]

theorem readFrame_parity_cycle {pre : List CycleRec} {n : Nat} (hn : pre.length = n) (t idle : Nat) (v : Word)
    (p : Bool) :
    ((pre ++ readFrame t idle (data33Bits v p))[n + 32]?).map CycleRec.cycle = some (.sample p) := by
  have hl : (pre ++ runOf .rdata (sampled (bitsOf v))).length = n + 32 := by simp [hn]
  rw [readFrame_data33Bits, ← List.append_assoc]
  exact cycle_of_run hl .rpar (sampled [p]) _ (k := 0) (by simp)

/-- The write frame, run by run. -/
theorem writeFrame_runs (extra : Bool) (t idle : Nat) (v : Word) :
    writeFrame extra t idle v =
      runOf .trnW (released t) ++ (runOf .wdata (driven (bitsOf v)) ++ (runOf .wpar (driven [par32 v]) ++
        ((if extra then runOf .wextra (lows 1) else []) ++ runOf .idlec (lows idle)))) := by
  simp only [writeFrame, writeDataFrame, List.append_assoc]

theorem writeFrame_data_cycle {pre : List CycleRec} {n t : Nat} (hn : pre.length + t = n) (extra : Bool) (idle : Nat)
    (v : Word) {k : Nat} (hk : k < 32) :
    ((pre ++ writeFrame extra t idle v)[n + k]?).map CycleRec.cycle = some (.drive (v.getLsbD k)) := by
  have hl : (pre ++ runOf .trnW (released t)).length = n := by simp [hn]
  rw [writeFrame_runs, ← List.append_assoc, cycle_of_run hl _ _ _ (by simpa), driven_bitsOf_getElem? v hk]

theorem writeFrame_parity_cycle {pre : List CycleRec} {n t : Nat} (hn : pre.length + t = n) (extra : Bool) (idle : Nat)
    (v : Word) :
    ((pre ++ writeFrame extra t idle v)[n + 32]?).map CycleRec.cycle = some (.drive (par32 v)) := by
  have hl : (pre ++ runOf .trnW (released t) ++ runOf .wdata (driven (bitsOf v))).length = n + 32 := by
    simp [← hn, Nat.add_assoc]
  rw [writeFrame_runs, ← List.append_assoc, ← List.append_assoc]
  exact cycle_of_run hl .wpar (driven [par32 v]) _ (k := 0) (by simp)

/-! The bits that the target answers -/

/-- The acknowledge bits sampled are those of the acknowledge, in order (41_swd_transfer.md R127). -/
theorem bitsOf_nextAck (s : State) : bitsOf s.nextAck = s.answersFrom 0 3 := by
  have h := bitsOf_ofBits (s.answersFrom 0 3)
  rwa [answersFrom_length] at h

/-- The 33 bits sampled in a read data phase are those of the word they make and a parity bit (R130, R131). -/
theorem answersFrom_eq_data33Bits (s : State) :
    s.answersFrom 3 33 = data33Bits (ofBits 32 (s.answersFrom 3 32)) (s.answer 35) := by
  have hw := bitsOf_ofBits (s.answersFrom 3 32)
  rw [answersFrom_length] at hw
  rw [data33Bits, hw, ← answersFrom_one]
  exact (answersFrom_append s 3 32 1).symm

/-! What an XFER leaves -/

theorem settled_ack (s : State) (ack : BitVec 3) (bits : List Bool) : (s.settled ack bits).ack = ack := by
  unfold State.settled
  cases ackClass ack with
  | ok => cases s.rnw <;> rfl
  | wait => rfl
  | fault => rfl
  | error => rfl

theorem settled_rdata_of_read {s : State} (h : s.rnw = true) (bits : List Bool) :
    (s.settled 0b001#3 bits).rdata = ofBits 32 (bits.take 32) := by
  have hok : ackClass 0b001#3 = .ok := rfl
  simp only [State.settled, hok, h, if_true]

theorem tailFrame_of_read {s : State} (h : s.rnw = true) (bits : List Bool) :
    tailFrame s 0b001#3 bits = readFrame s.turnaround s.idleCycles.toNat bits := by
  have hok : ackClass 0b001#3 = .ok := rfl
  simp only [tailFrame, hok, h, if_true]

theorem tailFrame_of_write {s : State} (h : s.rnw = false) (bits : List Bool) :
    tailFrame s 0b001#3 bits = writeFrame s.extraCycle s.turnaround s.idleCycles.toNat s.wdata := by
  have hok : ackClass 0b001#3 = .ok := rfl
  simp only [tailFrame, hok, h, Bool.false_eq_true, if_false]

/-- A read latches no write data, so the data operand given with it does not matter (R121, R124). -/
theorem xferStart_data (request : Byte) (data : Word) (s : State) :
    xferStart request (if request.getLsbD 1 then s.wdata else data) s = xferStart request data s := by
  cases h : request.getLsbD 1 <;> simp [xferStart, h]

/-- An XFER that is accepted runs to its end, on either backend, and leaves the concluded state. -/
theorem exec_issues_concluded {i : Instr} {request : Byte} {data : Word} {s : State} (h : issues i request data)
    (hs : s.swdReady) :
    ∃ t, exec i s = .next t ∧ Kept (xferStart request data s) t ∧
      t = (xferStart request data s).concluded s.nextAck (s.answersFrom 3 33)
        (headerFrame (requestNibble request) s.turnaround (s.answersFrom 0 3) ++
          tailFrame (xferStart request data s) s.nextAck (s.answersFrom 3 33)) t := by
  obtain ⟨hphase, hport, hready⟩ := hs
  obtain ⟨t, hbody, hkept, ht⟩ := xferBody_concluded (xferStart request data s) hready
  refine ⟨t, ?_, hkept, ht⟩
  rw [exec_issues h, xfer, accept, if_pos hphase, if_pos hport, xferStart_data, hbody]
  rfl

/-- What an XFER that ran added to the wire trace, with the acknowledge and the read data it left. -/
theorem exec_issues_newCycles {i : Instr} {request : Byte} {data : Word} {s t : State} (h : issues i request data)
    (hs : s.swdReady) (he : exec i s = .next t) :
    newCycles s t =
        headerFrame (requestNibble request) s.turnaround (bitsOf s.nextAck) ++
          tailFrame (xferStart request data s) s.nextAck (s.answersFrom 3 33) ∧
      t.ack = s.nextAck ∧
      (s.nextAck = 0b001#3 → request.getLsbD 1 = true → t.rdata = ofBits 32 (s.answersFrom 3 32)) := by
  obtain ⟨u, hu, -, hc⟩ := exec_issues_concluded h hs
  obtain rfl : u = t := Host.Outcome.next.inj (hu.symm.trans he)
  refine ⟨?_, ?_, fun hok hread => ?_⟩
  · have hwire := congrArg State.wire hc
    simp only [State.concluded, xferStart_wire] at hwire
    rw [newCycles, hwire, List.drop_left, bitsOf_nextAck]
  · exact (congrArg State.ack hc).trans (settled_ack _ _ _)
  · have hrdata := congrArg State.rdata hc
    rw [hok] at hrdata
    rw [hrdata, ← answersFrom_take s 3 32 1]
    exact settled_rdata_of_read (s := xferStart request data s) hread _

/-- Settles O24: the wire cycles are the frame of R87, and each of its items is a run of the item's bits. -/
theorem leastSignificantBitFirst : Obligations.LeastSignificantBitFirst := by
  intro i request data s t hi hs he
  obtain ⟨hcycles, hack, hrdata⟩ := exec_issues_newCycles hi hs he
  have hheader := headerFrame_length (requestNibble request) s.turnaround s.nextAck
  rw [hcycles]
  refine ⟨fun k hk => headerFrame_request_cycle _ _ _ _ hk, fun k hk => ?_, fun hok hread => ?_, fun hok hwrite => ?_⟩
  · rw [hack]
    exact headerFrame_ack_cycle _ _ _ _ hk
  · have htail : tailFrame (xferStart request data s) s.nextAck (s.answersFrom 3 33) =
        readFrame s.turnaround s.idleCycles.toNat (data33Bits t.rdata (s.answer 35)) := by
      rw [hok, hrdata hok hread, ← answersFrom_eq_data33Bits]
      exact tailFrame_of_read (s := xferStart request data s) hread _
    rw [htail]
    refine ⟨fun k hk => readFrame_data_cycle hheader _ _ _ _ hk, ?_⟩
    have h := readFrame_parity_cycle hheader s.turnaround s.idleCycles.toNat t.rdata (s.answer 35)
    rwa [Nat.add_right_comm] at h
  · have htail : tailFrame (xferStart request data s) s.nextAck (s.answersFrom 3 33) =
        writeFrame (xferStart request data s).extraCycle s.turnaround s.idleCycles.toNat data := by
      have hdata : (xferStart request data s).wdata = data := by
        rw [xferStart_wdata, hwrite, if_neg Bool.false_ne_true]
      rw [hok, tailFrame_of_write (s := xferStart request data s) hwrite, hdata]
      rfl
    have hstart : (headerFrame (requestNibble request) s.turnaround (bitsOf s.nextAck)).length + s.turnaround =
        11 + 2 * s.turnaround := by omega
    rw [htail]
    refine ⟨fun k hk => writeFrame_data_cycle hstart _ _ _ hk, ?_⟩
    have h := writeFrame_parity_cycle hstart (xferStart request data s).extraCycle s.idleCycles.toNat data
    rwa [Nat.add_right_comm] at h

end Sys2Proof.Machine
end

section
/-! PROOFS. The request packet (30_encoding.md R81 to R83): its parity bit, its eight bits in wire order, and the row of
the opcode table it stands for. -/

namespace Sys2Proof.Machine

/-! The parity bit (R83) -/

/-- The table of R111, read at a request nibble. -/
theorem par4_eq_xor : ∀ nibble : Nibble,
    par4 nibble = (nibble.getLsbD 0 ^^ nibble.getLsbD 1 ^^ nibble.getLsbD 2 ^^ nibble.getLsbD 3) := by decide

theorem bitsOf_nibble (nibble : Nibble) :
    bitsOf nibble = [nibble.getLsbD 0, nibble.getLsbD 1, nibble.getLsbD 2, nibble.getLsbD 3] := rfl

theorem count_add_xor_even : ∀ a b c d : Bool,
    ([a, b, c, d].count true + (a ^^ b ^^ c ^^ d).toNat) % 2 = 0 := by decide

/-- Even parity: the four bits and the parity bit hold an even number of ones. -/
theorem count_add_par4_even (nibble : Nibble) : ((bitsOf nibble).count true + (par4 nibble).toNat) % 2 = 0 := by
  rw [bitsOf_nibble, par4_eq_xor]
  exact count_add_xor_even _ _ _ _

/-! The request byte (R81, R82) -/

/-- A request byte in the order of the wire: Start, the four bits of the nibble, Parity, Stop, Park. -/
theorem bitsOf_requestByte (nibble : Nibble) :
    bitsOf (requestByte nibble) =
      [true, nibble.getLsbD 0, nibble.getLsbD 1, nibble.getLsbD 2, nibble.getLsbD 3, par4 nibble, false, true] := by
  simp [bitsOf, List.range_succ, requestByte]

/-- The nibble stands in bits 4:1 of its request byte. -/
@[simp] theorem requestByte_extract_nibble (nibble : Nibble) : (requestByte nibble).extractLsb' 1 4 = nibble := by
  have hbits : bitsOf ((requestByte nibble).extractLsb' 1 4) = ((bitsOf (requestByte nibble)).drop 1).take 4 := by
    simp [bitsOf, List.range_succ]
  rw [bitsOf_requestByte] at hbits
  rw [← ofBits_bitsOf ((requestByte nibble).extractLsb' 1 4), hbits]
  exact ofBits_bitsOf nibble

@[simp] theorem decodeReq8_requestByte (nibble : Nibble) : decodeReq8 (requestByte nibble) = some (req8Row nibble) := by
  simp [decodeReq8]

theorem decode_requestByte (nibble : Nibble) (rest : List Byte) :
    decode .req8 (requestByte nibble :: rest) = .ok (req8Row nibble) rest := by
  simp [decode]

/-- The table of R82: the byte of each of its sixteen rows is the one the formula gives. -/
theorem encode_req8Row : ∀ nibble : Nibble, encode (req8Row nibble) = [requestByte nibble] := by decide

/-- Settles O2: the formula with the parity written out, the bits of the byte, and the table's row both ways. -/
theorem requestByteOfEveryNibble : Obligations.RequestByteOfEveryNibble := by
  intro nibble
  exact ⟨by rw [requestByte, par4_eq_xor], bitsOf_requestByte nibble, par4_eq_xor nibble,
    count_add_par4_even nibble, decode_requestByte nibble [], encode_req8Row nibble, rfl⟩

end Sys2Proof.Machine
end

section
/-! PROOFS. The parity generator (40_parity.md R110 to R114). Every parity function is the fold `parSerial false` over
the bits of its operand; the laws of the fold hold at every width, and the table of R111 is tied to it by nibbles. -/

namespace Sys2Proof.Machine

/-! The fold -/

/-- The register before the bits enters the fold as one more bit. -/
theorem parSerial_eq_xor (p : Bool) (bits : List Bool) : parSerial p bits = (p ^^ parSerial false bits) := by
  induction bits generalizing p with
  | nil => simp [parSerial]
  | cons b bits ih =>
    calc parSerial p (b :: bits) = parSerial (p ^^ b) bits := rfl
      _ = (p ^^ (b ^^ parSerial false bits)) := by rw [ih, Bool.xor_assoc]
      _ = (p ^^ parSerial b bits) := by rw [← ih]
      _ = (p ^^ parSerial false (b :: bits)) := by simp [parSerial]

theorem parSerial_cons (b : Bool) (bits : List Bool) :
    parSerial false (b :: bits) = (b ^^ parSerial false bits) := by
  rw [← parSerial_eq_xor]
  simp [parSerial]

theorem parSerial_append_eq_xor (xs ys : List Bool) :
    parSerial false (xs ++ ys) = (parSerial false xs ^^ parSerial false ys) := by
  rw [parSerial_append, parSerial_eq_xor]

/-- Even parity (R110): the exclusive-or of some bits is 1 exactly when an odd number of them are 1. -/
theorem parSerial_eq_true_iff (bits : List Bool) : parSerial false bits = true ↔ bits.count true % 2 = 1 := by
  induction bits with
  | nil => simp [parSerial]
  | cons b bits ih =>
    rw [parSerial_cons]
    cases b with
    | false => simpa using ih
    | true =>
      rw [Bool.true_xor, Bool.not_eq_true', ← Bool.not_eq_true, ih, List.count_cons_self]
      omega

theorem parSerial_map_xor (f g : Nat → Bool) (is : List Nat) :
    parSerial false (is.map fun i => f i ^^ g i) = (parSerial false (is.map f) ^^ parSerial false (is.map g)) := by
  induction is with
  | nil => rfl
  | cons i is ih =>
    simp only [List.map_cons, parSerial_cons, ih, Bool.xor_assoc, Bool.xor_left_comm]

/-! The fold over the bits of a value of any width (R114) -/

/-- R114 (a). -/
theorem parSerial_bitsOf_xor {w : Nat} (u v : BitVec w) :
    parSerial false (bitsOf (u ^^^ v)) = (parSerial false (bitsOf u) ^^ parSerial false (bitsOf v)) := by
  have hbits : bitsOf (u ^^^ v) = (List.range w).map fun i => u.getLsbD i ^^ v.getLsbD i := by simp [bitsOf]
  rw [hbits]
  exact parSerial_map_xor _ _ _

theorem bitsOf_one_shiftLeft_count {w k : Nat} (hk : k < w) : (bitsOf (1#w <<< k)).count true = 1 := by
  have hbit : ∀ i ∈ List.range w, (1#w <<< k).getLsbD i = (i == k) := by
    intro i _
    rw [← BitVec.twoPow_eq, BitVec.getLsbD_twoPow, decide_eq_true hk, Bool.true_and, Bool.eq_iff_iff,
      decide_eq_true_iff, beq_iff_eq, eq_comm]
  calc (bitsOf (1#w <<< k)).count true = (List.range w).countP (· == k) := by
        rw [bitsOf, List.map_congr_left hbit, List.count, List.countP_map]
        exact List.countP_congr fun i _ => by simp
    _ = 1 := List.count_eq_one_of_mem List.nodup_range (List.mem_range.2 hk)

/-- R114 (b). -/
theorem parSerial_bitsOf_one_shiftLeft {w k : Nat} (hk : k < w) : parSerial false (bitsOf (1#w <<< k)) = true := by
  rw [parSerial_eq_true_iff, bitsOf_one_shiftLeft_count hk]

/-- The bits of a field are those of its lower part, then those of its upper part. -/
theorem bitsOf_extract_append {w : Nat} (v : BitVec w) (start m n : Nat) :
    bitsOf (v.extractLsb' start (m + n)) =
      bitsOf (v.extractLsb' start m) ++ bitsOf (v.extractLsb' (start + m) n) := by
  simp only [bitsOf, List.range_add, List.map_append, List.map_map]
  congr 1
  · refine List.map_congr_left fun i hi => ?_
    have hi := List.mem_range.1 hi
    have hmn : i < m + n := by omega
    simp [hi, hmn]
  · refine List.map_congr_left fun i hi => ?_
    have hi := List.mem_range.1 hi
    simp [hi, Nat.add_assoc]

/-! The table (R111) and the nibble (R113) -/

/-- Row zero of the table is the truth table of `PAR4` (R113). -/
theorem rowZero_getLsbD : ∀ nibble : Nibble, (0x6996#16).getLsbD nibble.toNat = par4 nibble := by decide

/-- R111: a row is row zero, or its complement. -/
theorem parityRows_getD : ∀ row : Nibble,
    parityRows.getD row.toNat 0#16 = if par4 row = true then ~~~0x6996#16 else 0x6996#16 := by decide

/-- The entry in row `row` and column `col` of the table. -/
theorem parityRows_getD_getLsbD (row col : Nibble) :
    (parityRows.getD row.toNat 0#16).getLsbD col.toNat = (par4 row ^^ par4 col) := by
  rw [parityRows_getD, ← rowZero_getLsbD col]
  cases par4 row with
  | false => simp
  | true =>
    rw [if_pos rfl, BitVec.getLsbD_not, decide_eq_true col.isLt, Bool.true_and, Bool.true_xor]

/-- R114 (c) for a byte. -/
theorem par8_eq_par4_xor (v : Byte) : par8 v = (par4 (v.extractLsb' 4 4) ^^ par4 (v.extractLsb' 0 4)) := by
  have hrow : v.toNat / 16 = (v.extractLsb' 4 4).toNat := by
    have := v.isLt
    rw [BitVec.extractLsb'_toNat, Nat.shiftRight_eq_div_pow]
    omega
  have hcol : v.toNat % 16 = (v.extractLsb' 0 4).toNat := by simp [BitVec.extractLsb'_toNat]
  rw [par8, partab, hrow, hcol]
  exact parityRows_getD_getLsbD _ _

theorem par4_eq_parSerial (nibble : Nibble) : par4 nibble = parSerial false (bitsOf nibble) := by
  rw [par4_eq_xor, bitsOf_nibble]
  simp [parSerial]

theorem par8_eq_parSerial (v : Byte) : par8 v = parSerial false (bitsOf v) := by
  have hbits : bitsOf v = bitsOf (v.extractLsb' 0 4) ++ bitsOf (v.extractLsb' 4 4) := by
    simpa using bitsOf_extract_append v 0 4 4
  rw [hbits, parSerial_append_eq_xor, par8_eq_par4_xor, par4_eq_parSerial, par4_eq_parSerial, Bool.xor_comm]

theorem par8_eq_xor (v : Byte) :
    par8 v = (v.getLsbD 0 ^^ v.getLsbD 1 ^^ v.getLsbD 2 ^^ v.getLsbD 3 ^^ v.getLsbD 4 ^^ v.getLsbD 5 ^^
      v.getLsbD 6 ^^ v.getLsbD 7) := by
  rw [par8_eq_parSerial]
  simp [bitsOf, List.range_succ, parSerial]

/-- Settles O34: the table read by rows and columns is the exclusive-or of two nibbles, hence of the eight bits. -/
theorem parityTableIsExclusiveOr : Obligations.ParityTableIsExclusiveOr := by
  refine ⟨fun v => ⟨par8_eq_xor v, ?_, rfl⟩, fun nibble => ⟨rfl, ?_⟩, parityRows_getD, ?_⟩
  · rw [par8_eq_parSerial, parSerial_eq_true_iff]
  · rw [par4_eq_parSerial, parSerial_eq_true_iff]
  · decide

/-! The word (R112) -/

/-- R114 (c) for a word. -/
theorem par32_eq_par8_xor (v : Word) :
    par32 v = (par8 (v.extractLsb' 0 8) ^^ par8 (v.extractLsb' 8 8) ^^ par8 (v.extractLsb' 16 8) ^^
      par8 (v.extractLsb' 24 8)) := by
  have hbits : bitsOf v = bitsOf (v.extractLsb' 0 8) ++ (bitsOf (v.extractLsb' 8 8) ++
      (bitsOf (v.extractLsb' 16 8) ++ bitsOf (v.extractLsb' 24 8))) := by
    have h8 := bitsOf_extract_append v 0 8 24
    have h16 := bitsOf_extract_append v 8 8 16
    have h24 := bitsOf_extract_append v 16 8 8
    simp only [Nat.reduceAdd, BitVec.extractLsb'_eq_self] at h8 h16 h24
    rw [h8, h16, h24]
  rw [par32, hbits]
  simp only [parSerial_append_eq_xor, par8_eq_parSerial, Bool.xor_assoc]

/-- R112: corrupting any one bit flips the parity. -/
theorem par32_flip (v : Word) {k : Nat} (hk : k < 32) : par32 (v ^^^ (1#32 <<< k)) = !par32 v := by
  calc par32 (v ^^^ (1#32 <<< k)) = (par32 v ^^ par32 (1#32 <<< k)) := parSerial_bitsOf_xor _ _
    _ = (par32 v ^^ true) := congrArg _ (parSerial_bitsOf_one_shiftLeft hk)
    _ = !par32 v := Bool.xor_true _

/-- Settles O35 by the laws of the fold: `PAR32` is the fold over the 32 bits. -/
theorem wordParityFlipsWithAnyBit : Obligations.WordParityFlipsWithAnyBit := fun v =>
  ⟨parSerial_eq_true_iff _, par32_eq_par8_xor v, parSerial_bitsOf_xor v, fun _ hk => par32_flip v hk⟩

end Sys2Proof.Machine
end

section
/-! PROOFS. The first turnaround and the acknowledge of an XFER (41_swd_transfer.md R126, R127): where they stand in the
frame, and which answers of the target the acknowledge holds. -/

namespace Sys2Proof.Machine

/-- The turnaround is 1 to 4 cycles long (10_state.md R33). -/
theorem turnaround_bounds (s : State) : 1 ≤ s.turnaround ∧ s.turnaround ≤ 4 := by
  have := s.turnaroundBits.isLt
  rw [State.turnaround]
  omega

/-- Behind the eight request cycles of a frame stand its turnaround and then its acknowledge. -/
theorem headerFrame_after_request (nibble : Nibble) (t : Nat) (ack : List Bool) (rest : List CycleRec) :
    ((headerFrame nibble t ack ++ rest).drop 8).take (t + ack.length) =
      runOf .trn1 (released t) ++ runOf .acks (sampled ack) := by
  have hreq : (runOf .req (driven (bitsOf (requestByte nibble)))).length = 8 := by simp
  have hlen : (runOf .trn1 (released t) ++ runOf .acks (sampled ack)).length = t + ack.length := by simp
  rw [headerFrame, List.append_assoc, List.append_assoc, List.drop_left' hreq, ← List.append_assoc,
    List.take_left' hlen]

/-- The acknowledge holds the target's next three answers, the first one in bit 0. -/
theorem nextAck_getLsbD (s : State) {k : Nat} (hk : k < 3) : s.nextAck.getLsbD k = s.answer k := by
  rw [← bitsOf_getD s.nextAck k hk, bitsOf_nextAck, answersFrom_getD s 0 3 k false hk, Nat.zero_add]

/-- Settles O23: the frame does not depend on the answers up to the acknowledge, and the acknowledge is three of them. -/
theorem turnaroundThenAcknowledge : Obligations.TurnaroundThenAcknowledge := by
  intro i request data s hi hs
  obtain ⟨t, ht, -, -⟩ := exec_issues_concluded hi hs
  obtain ⟨hcycles, hack, -⟩ := exec_issues_newCycles hi hs ht
  obtain ⟨hmin, hmax⟩ := turnaround_bounds s
  refine ⟨t, ht, hmin, hmax, ?_, ?_, ?_, ?_⟩
  · rw [hcycles, bitsOf_nextAck]
    exact headerFrame_after_request _ s.turnaround (s.answersFrom 0 3) _
  all_goals
    rw [hack]
    exact nextAck_getLsbD s (by decide)

end Sys2Proof.Machine
end

section
/-! PROOFS. The delay and the clock cycle of the GPIO backend (43_gpio_backend.md R193, R194). The whole state after a
cycle is `gCycle_eq`; what stands here is the delay of each variant. -/

namespace Sys2Proof.Machine

/-- R193: the delayed variant waits once, for `CLOCK_DELAY`. -/
theorem gDelay_of_gpioDelayed {s : State} (h : s.xferMode = .gpioDelayed) : gDelay s = [.dly s.clockDelay] :=
  if_pos h

/-- R193: the fast variant does not wait. -/
theorem gDelay_of_gpioFast {s : State} (h : s.xferMode = .gpioFast) : gDelay s = [] :=
  if_neg (by simp [h])

/-- R194: one clock cycle appends low, delay, high, delay to the pin events. -/
theorem gCycle_pinEvents (s : State) :
    (gCycle s).pinEvents = s.pinEvents ++ [.clk false] ++ gDelay s ++ [.clk true] ++ gDelay s := by
  simp only [gCycle_eq, clockEvents, List.append_assoc]

/-- R194: a clock cycle leaves SWCLK high and touches neither the data line nor its direction. -/
theorem gCycle_pins (s : State) : (gCycle s).pins = { s.pins with swclkO := true } := by
  rw [gCycle_eq]

/-- R194: a clock cycle is one held cycle on the wire, at the position before it. -/
theorem gCycle_wire (s : State) :
    (gCycle s).wire = s.wire ++ [{ phase := s.phase, left := s.bitcnt, cycle := heldCycle s }] := by
  rw [gCycle_eq]

/-- Settles O36: the delay by variant, then the three components of the state after a cycle. -/
theorem clockCycleEvents : Obligations.ClockCycleEvents := fun s =>
  ⟨gDelay_of_gpioDelayed, gDelay_of_gpioFast, gCycle_pinEvents s, gCycle_pins s, gCycle_wire s⟩

end Sys2Proof.Machine
end

section
/-! PROOFS. An opcode without a handler at the Command Dispatcher (48_host_transfer_engine.md R257). -/

namespace Sys2Proof.Machine

/-- R257: the handler of an unknown opcode runs no operation, so the state it answers is the one it began in. -/
theorem simpleCommand_unknown (payload : List Byte) (s : State) :
    simpleCommand .unknown payload s = .next ((1, [Config.invalidMarker]), s) := rfl

/-- R257 at any depth of nesting: the dispatcher passes an unknown opcode on and neither reads the bytes behind it nor
enters a batch. -/
theorem dispatchCommand_of_unknown {ops : Byte → HostOp} {opcode : Byte} (h : ops opcode = .unknown) (fuel : Nat)
    (payload : List Byte) (s : State) :
    dispatchCommand ops (fuel + 1) (opcode :: payload) s = .next ((1, [Config.invalidMarker]), s) := by
  have hdelegate : dispatchCommand ops (fuel + 1) (opcode :: payload) s = simpleCommand .unknown payload s := by
    simp only [dispatchCommand, h]
  rw [hdelegate, simpleCommand_unknown]

/-- A packet with an opcode is dispatched by the model's own table, nested at most as deep as it has bytes. -/
theorem dispatchPacket_cons (opcode : Byte) (payload : List Byte) (s : State) :
    dispatchPacket (opcode :: payload) s =
      dispatchCommand Config.hostOpcode (payload.length + 1) (opcode :: payload) s := rfl

/-- Settles O60: the packet is the case of the model's own table. -/
theorem unknownOpcodeTakesOneByte : Obligations.UnknownOpcodeTakesOneByte := by
  refine ⟨fun ops fuel opcode payload s h => dispatchCommand_of_unknown h fuel payload s, fun opcode payload s h => ?_⟩
  rw [dispatchPacket_cons]
  exact dispatchCommand_of_unknown h payload.length payload s

end Sys2Proof.Machine
end

section
/-! PROOFS. The encoder and the decoders of the five formats (30_encoding.md R80 to R100), each the inverse of the other.
One lemma for each piece of a word, in both directions; the two round trips put the pieces together. -/

namespace Sys2Proof

open Sys2Proof.Machine

/-! The 4-byte operand (R89 (b), (d)) -/

theorem wordOfBytes_extract (v : Word) :
    wordOfBytes (v.extractLsb' 0 8) (v.extractLsb' 8 8) (v.extractLsb' 16 8) (v.extractLsb' 24 8) = v := by
  apply BitVec.eq_of_getLsbD_eq
  intro i hi
  simp only [wordOfBytes, BitVec.getLsbD_append, BitVec.getLsbD_extractLsb']
  grind

theorem bytesOfWord_wordOfBytes (b0 b1 b2 b3 : Byte) : bytesOfWord (wordOfBytes b0 b1 b2 b3) = [b0, b1, b2, b3] := by
  have hbyte : ∀ (k : Nat) (b : Byte), (∀ i, i < 8 → (wordOfBytes b0 b1 b2 b3).getLsbD (8 * k + i) = b.getLsbD i) →
      (wordOfBytes b0 b1 b2 b3).extractLsb' (8 * k) 8 = b := by
    intro k b h
    apply BitVec.eq_of_getLsbD_eq
    intro i hi
    rw [BitVec.getLsbD_extractLsb', decide_eq_true hi, Bool.true_and, h i hi]
  simp only [bytesOfWord, List.cons.injEq, and_true]
  refine ⟨hbyte 0 b0 ?_, hbyte 1 b1 ?_, hbyte 2 b2 ?_, hbyte 3 b3 ?_⟩ <;>
    intro i hi <;> simp only [wordOfBytes, BitVec.getLsbD_append] <;> grind

theorem decodeWord_bytesOfWord (k : Word → Instr) (v : Word) (rest : List Byte) :
    decodeWord k (bytesOfWord v ++ rest) = .ok (k v) rest := by
  simp only [bytesOfWord, List.cons_append, List.nil_append, decodeWord, wordOfBytes_extract]

/-- A 4-byte operand that is read is the encoding of the word it is read as. -/
theorem decodeWord_ok {k : Word → Instr} {bytes rest : List Byte} {i : Instr} (h : decodeWord k bytes = .ok i rest) :
    ∃ v, i = k v ∧ bytes = bytesOfWord v ++ rest := by
  match bytes, h with
  | b0 :: b1 :: b2 :: b3 :: _, h =>
    obtain ⟨rfl, rfl⟩ := Decoded.ok.inj h
    exact ⟨_, rfl, by rw [bytesOfWord_wordOfBytes]; rfl⟩

theorem decodeOne_ok {k : Byte → Instr} {bytes rest : List Byte} {i : Instr} (h : decodeOne k bytes = .ok i rest) :
    ∃ b, i = k b ∧ bytes = b :: rest := by
  match bytes, h with
  | b :: _, h =>
    obtain ⟨rfl, rfl⟩ := Decoded.ok.inj h
    exact ⟨b, rfl, rfl⟩

/-! The operands of SEQ and XFER (R94, R95) -/

theorem decodeSeq_append {bitCount : Byte} {bits : List Byte} (h : bits.length = seqByteCount bitCount)
    (rest : List Byte) : decodeSeq (bitCount :: (bits ++ rest)) = .ok (.seq bitCount bits) rest := by
  have hlong : ¬ (bits ++ rest).length < seqByteCount bitCount := by
    rw [List.length_append]
    omega
  rw [decodeSeq, if_neg hlong, ← h, List.take_left' rfl, List.drop_left' rfl]

theorem decodeSeq_ok {bytes rest : List Byte} {i : Instr} (h : decodeSeq bytes = .ok i rest) :
    ∃ bitCount bits, i = .seq bitCount bits ∧ bits.length = seqByteCount bitCount ∧
      bytes = bitCount :: (bits ++ rest) := by
  match bytes, h with
  | bitCount :: tail, h =>
    rw [decodeSeq] at h
    split at h
    · cases h
    · next hlong =>
      obtain ⟨rfl, rfl⟩ := Decoded.ok.inj h
      exact ⟨bitCount, _, rfl, List.length_take_of_le (Nat.le_of_not_lt hlong), by rw [List.take_append_drop]⟩

theorem decodeXfer_read (request : XferReq) (rest : List Byte) :
    decodeXfer (requestOperand true request :: rest) = .ok (.xferR request) rest := by
  rw [decodeXfer, requestOperand_rnw, if_pos rfl, requestFields_requestOperand]

theorem decodeXfer_write (request : XferReq) (data : Word) (rest : List Byte) :
    decodeXfer (requestOperand false request :: (bytesOfWord data ++ rest)) = .ok (.xferW request data) rest := by
  rw [decodeXfer, requestOperand_rnw, if_neg Bool.false_ne_true, requestFields_requestOperand, decodeWord_bytesOfWord]

theorem decodeXfer_ok {bytes rest : List Byte} {i : Instr} (h : decodeXfer bytes = .ok i rest) :
    (∃ request, i = .xferR request ∧ bytes = requestOperand true request :: rest) ∨
      ∃ request data, i = .xferW request data ∧ bytes = requestOperand false request :: (bytesOfWord data ++ rest) := by
  match bytes, h with
  | operand :: tail, h =>
    have hoperand := requestOperand_requestFields operand
    rw [decodeXfer] at h
    split at h
    · next hread =>
      obtain ⟨rfl, rfl⟩ := Decoded.ok.inj h
      rw [hread] at hoperand
      exact .inl ⟨_, rfl, by rw [hoperand]⟩
    · next hwrite =>
      obtain ⟨data, rfl, rfl⟩ := decodeWord_ok h
      rw [Bool.eq_false_iff.mpr hwrite] at hoperand
      exact .inr ⟨_, data, rfl, by rw [hoperand]⟩

/-! The rows of the request packets and the acknowledges (R82, R85) -/

theorem decode_encode_req8Row (nibble : Nibble) (rest : List Byte) :
    decode .req8 (encode (req8Row nibble) ++ rest) = .ok (req8Row nibble) rest := by
  rw [encode_req8Row]
  exact decode_requestByte nibble rest

theorem encode_ack3Row : ∀ ack : BitVec 3, encode (ack3Row ack) = [ack.setWidth 8] := by decide

theorem decode_encode_ack3Row (ack : BitVec 3) (rest : List Byte) :
    decode .ack3 (encode (ack3Row ack) ++ rest) = .ok (ack3Row ack) rest := by
  have hwidth : (ack.setWidth 8 : Byte).toNat < 8 := by
    rw [BitVec.toNat_setWidth]
    have := ack.isLt
    omega
  have hback : (ack.setWidth 8 : Byte).setWidth 3 = ack := by revert ack; decide
  rw [encode_ack3Row, List.singleton_append]
  simp only [decode, if_pos hwidth, hback]

/-- A row stands for itself and has no operand to be ill-formed. -/
theorem req8Row_canonical : ∀ nibble : Nibble,
    (req8Row nibble).canonical = req8Row nibble ∧ WellFormed (req8Row nibble) = true := by decide

theorem ack3Row_canonical : ∀ ack : BitVec 3,
    (ack3Row ack).format = .ack3 ∧ (ack3Row ack).canonical = ack3Row ack ∧ WellFormed (ack3Row ack) = true := by decide

/-! The codes of the command port (R90, R92) -/

theorem decodeCmd_anyOtherOp {op : Byte} (h : operationCodes.contains op = false) (rest : List Byte) :
    decodeCmd (op :: rest) = .ok (.anyOtherOp op) rest := by
  simp only [operationCodes, List.contains_eq_mem, decide_eq_false_iff_not, List.mem_cons, List.not_mem_nil, or_false,
    not_or] at h
  obtain ⟨h1, h2, h3, h4, h5, h6, h7⟩ := h
  simp only [decodeCmd, h1, h2, h3, h4, h5, h6, h7, if_false]

theorem decode_data33 (data : Word) (parity : Bool) (rest : List Byte) :
    decode .data33 (encode (.data33 data parity) ++ rest) = .ok (.data33 data parity) rest := by
  have hparity : ((BitVec.ofBool parity).setWidth 8 : Byte).toNat < 2 ∧
      ((BitVec.ofBool parity).setWidth 8 : Byte).getLsbD 0 = parity := by cases parity <;> decide
  simp only [encode, bytesOfWord, List.cons_append, List.nil_append, decode, if_pos hparity.1, hparity.2,
    wordOfBytes_extract]

theorem decodeSeq_seqFill (count fill : Byte) (rest : List Byte) :
    decodeSeq (count :: (seqFill count fill ++ rest)) = .ok (.seq count (seqFill count fill)) rest :=
  decodeSeq_append (seqFill_length count fill) rest

/-- Settles O4, by the format of the instruction and the pieces of its word. -/
theorem decodeOfEncode : Obligations.DecodeOfEncode := by
  intro i rest hwf
  cases i with
  -- an operation code alone or with one byte
  | connect _ => rfl
  | disconnect => rfl
  | cfgIdle _ => rfl
  | cfgSwd _ => rfl
  | anyOtherOp op => exact decodeCmd_anyOtherOp (by simpa [WellFormed] using hwf) rest
  -- an operation code with the operand of its kind
  | clk freq => exact decodeWord_bytesOfWord .clk freq rest
  | xferR request => exact decodeXfer_read request rest
  | xferW request data => exact decodeXfer_write request data rest
  | idcode => rfl
  | rdbuff => rfl
  | abort value => exact decodeWord_bytesOfWord (.xferW (requestFields 0x00#8)) value rest
  | seq bitCount bits => exact decodeSeq_append (by simpa [WellFormed] using hwf) rest
  | linereset count => exact decodeSeq_seqFill count 0xFF#8 rest
  | idle count => exact decodeSeq_seqFill count 0x00#8 rest
  | jtag2swd => exact decodeSeq_append (bitCount := 16#8) (bits := [0x9E#8, 0xE7#8]) rfl rest
  | swd2jtag => exact decodeSeq_append (bitCount := 16#8) (bits := [0x3C#8, 0xE7#8]) rfl rest
  -- the items of the wire formats
  | data33 data parity => exact decode_data33 data parity rest
  | cfg8 _ => rfl
  | req8 nibble => exact decode_requestByte nibble rest
  | req8DpW0 => exact decode_encode_req8Row 0x0#4 rest
  | req8ApW0 => exact decode_encode_req8Row 0x1#4 rest
  | req8DpR0 => exact decode_encode_req8Row 0x2#4 rest
  | req8ApR0 => exact decode_encode_req8Row 0x3#4 rest
  | req8DpW4 => exact decode_encode_req8Row 0x4#4 rest
  | req8ApW4 => exact decode_encode_req8Row 0x5#4 rest
  | req8DpR4 => exact decode_encode_req8Row 0x6#4 rest
  | req8ApR4 => exact decode_encode_req8Row 0x7#4 rest
  | req8DpW8 => exact decode_encode_req8Row 0x8#4 rest
  | req8ApW8 => exact decode_encode_req8Row 0x9#4 rest
  | req8DpR8 => exact decode_encode_req8Row 0xA#4 rest
  | req8ApR8 => exact decode_encode_req8Row 0xB#4 rest
  | req8DpWC => exact decode_encode_req8Row 0xC#4 rest
  | req8ApWC => exact decode_encode_req8Row 0xD#4 rest
  | req8DpRC => exact decode_encode_req8Row 0xE#4 rest
  | req8ApRC => exact decode_encode_req8Row 0xF#4 rest
  | ack3Invalid0 => exact decode_encode_ack3Row 0#3 rest
  | ack3Ok => exact decode_encode_ack3Row 1#3 rest
  | ack3Wait => exact decode_encode_ack3Row 2#3 rest
  | ack3Invalid3 => exact decode_encode_ack3Row 3#3 rest
  | ack3Fault => exact decode_encode_ack3Row 4#3 rest
  | ack3Invalid5 => exact decode_encode_ack3Row 5#3 rest
  | ack3Invalid6 => exact decode_encode_ack3Row 6#3 rest
  | ack3Invalid7 => exact decode_encode_ack3Row 7#3 rest

/-! What a decoder answers -/

/-- An instruction that stands for itself in its format, its words being those before `rest`. -/
def DecodedAs (f : Format) (bytes : List Byte) (i : Instr) (rest : List Byte) : Prop :=
  i.format = f ∧ i.canonical = i ∧ encode i ++ rest = bytes

theorem decodeCmd_ok {bytes rest : List Byte} {i : Instr} (h : decodeCmd bytes = .ok i rest) :
    DecodedAs .cmd bytes i rest ∧ WellFormed i = true := by
  match bytes, h with
  | op :: tail, h =>
    simp only [decodeCmd] at h
    split at h
    · next hop =>
      obtain ⟨portId, rfl, rfl⟩ := decodeOne_ok h
      exact ⟨⟨rfl, rfl, by rw [hop]; rfl⟩, rfl⟩
    split at h
    · next hop =>
      obtain ⟨rfl, rfl⟩ := Decoded.ok.inj h
      exact ⟨⟨rfl, rfl, by rw [hop]; rfl⟩, rfl⟩
    split at h
    · next hop =>
      obtain ⟨idleCycles, rfl, rfl⟩ := decodeOne_ok h
      exact ⟨⟨rfl, rfl, by rw [hop]; rfl⟩, rfl⟩
    split at h
    · next hop =>
      obtain ⟨freq, rfl, rfl⟩ := decodeWord_ok h
      exact ⟨⟨rfl, rfl, by rw [hop]; rfl⟩, rfl⟩
    split at h
    · next hop =>
      obtain ⟨bitCount, bits, rfl, hlen, rfl⟩ := decodeSeq_ok h
      exact ⟨⟨rfl, rfl, by rw [hop]; rfl⟩, by simp [WellFormed, hlen]⟩
    split at h
    · next hop =>
      obtain ⟨cfg, rfl, rfl⟩ := decodeOne_ok h
      exact ⟨⟨rfl, rfl, by rw [hop]; rfl⟩, rfl⟩
    split at h
    · next hop =>
      rcases decodeXfer_ok h with ⟨request, rfl, rfl⟩ | ⟨request, data, rfl, rfl⟩
      · exact ⟨⟨rfl, rfl, by rw [hop]; rfl⟩, rfl⟩
      · exact ⟨⟨rfl, rfl, by rw [hop]; rfl⟩, rfl⟩
    · obtain ⟨rfl, rfl⟩ := Decoded.ok.inj h
      refine ⟨⟨rfl, rfl, rfl⟩, ?_⟩
      simp [WellFormed, operationCodes, *]

theorem decodeReq8_some {b : Byte} {i : Instr} (h : decodeReq8 b = some i) :
    ∃ nibble, i = req8Row nibble ∧ requestByte nibble = b := by
  rw [decodeReq8] at h
  split at h
  · next hb => exact ⟨_, (Option.some.inj h).symm, hb⟩
  · cases h

/-- A byte that is no request packet is the request byte of no nibble (R81). -/
theorem decodeReq8_eq_none {b : Byte} (h : ∀ nibble, requestByte nibble ≠ b) : decodeReq8 b = none :=
  if_neg (h _)

theorem decodeReq8Format_ok {bytes rest : List Byte} {i : Instr} (h : decode .req8 bytes = .ok i rest) :
    DecodedAs .req8 bytes i rest ∧ WellFormed i = true := by
  match bytes, h with
  | b :: tail, h =>
    simp only [decode] at h
    split at h
    · next hrow =>
      obtain ⟨rfl, rfl⟩ := Decoded.ok.inj h
      obtain ⟨nibble, rfl, rfl⟩ := decodeReq8_some hrow
      obtain ⟨hself, hwf⟩ := req8Row_canonical nibble
      exact ⟨⟨req8Row_format nibble, hself, by rw [encode_req8Row]; rfl⟩, hwf⟩
    · cases h

theorem decodeAck3Format_ok {bytes rest : List Byte} {i : Instr} (h : decode .ack3 bytes = .ok i rest) :
    DecodedAs .ack3 bytes i rest ∧ WellFormed i = true := by
  match bytes, h with
  | b :: tail, h =>
    simp only [decode] at h
    split at h
    · next hwidth =>
      obtain ⟨rfl, rfl⟩ := Decoded.ok.inj h
      obtain ⟨hformat, hself, hwf⟩ := ack3Row_canonical (b.setWidth 3)
      have hb : (b.setWidth 3).setWidth 8 = b := by bv_omega
      exact ⟨⟨hformat, hself, by rw [encode_ack3Row, hb]; rfl⟩, hwf⟩
    · cases h

/-- A received data phase may hold a wrong parity bit (R90), so it may be ill-formed. -/
theorem decodeData33Format_ok {bytes rest : List Byte} {i : Instr} (h : decode .data33 bytes = .ok i rest) :
    DecodedAs .data33 bytes i rest := by
  match bytes, h with
  | b0 :: b1 :: b2 :: b3 :: p :: tail, h =>
    simp only [decode] at h
    split at h
    · next hwidth =>
      obtain ⟨rfl, rfl⟩ := Decoded.ok.inj h
      have hp : ((BitVec.ofBool (p.getLsbD 0)).setWidth 8 : Byte) = p := by
        have hlow : p = 0#8 ∨ p = 1#8 := by bv_omega
        rcases hlow with rfl | rfl <;> rfl
      exact ⟨rfl, rfl, by rw [encode, bytesOfWord_wordOfBytes, hp]; rfl⟩
    · cases h

theorem decodeCfg8Format_ok {bytes rest : List Byte} {i : Instr} (h : decode .cfg8 bytes = .ok i rest) :
    DecodedAs .cfg8 bytes i rest ∧ WellFormed i = true := by
  match bytes, h with
  | b :: tail, h =>
    obtain ⟨rfl, rfl⟩ := Decoded.ok.inj h
    exact ⟨⟨rfl, rfl, rfl⟩, rfl⟩

/-- Settles O5, by the format. -/
theorem decodedBytesReencode : Obligations.DecodedBytesReencode := by
  intro f bytes i rest h
  have hsplit : DecodedAs f bytes i rest ∧ (f ≠ .data33 → WellFormed i = true) := by
    cases f with
    | cmd => exact (decodeCmd_ok h).imp_right fun hwf _ => hwf
    | req8 => exact (decodeReq8Format_ok h).imp_right fun hwf _ => hwf
    | ack3 => exact (decodeAck3Format_ok h).imp_right fun hwf _ => hwf
    | data33 => exact ⟨decodeData33Format_ok h, fun hne => absurd rfl hne⟩
    | cfg8 => exact (decodeCfg8Format_ok h).imp_right fun hwf _ => hwf
  obtain ⟨⟨hformat, hself, hbytes⟩, hwf⟩ := hsplit
  exact ⟨hformat, hself, hbytes, hwf⟩

/-! Bytes written out from the tables, and bytes that stand in none -/

/-- Settles O1: the decoders run on the thirteen words. -/
theorem decodeReadsTheTables : Obligations.DecodeReadsTheTables := by
  unfold Obligations.DecodeReadsTheTables
  decide

/-- Settles O3. -/
theorem otherBytesAreNoRequest : Obligations.OtherBytesAreNoRequest := by
  intro b rest h
  simp only [decode, decodeReq8_eq_none h]

end Sys2Proof
end

section
/-! PROOFS. The configuration and life-cycle operations (42_sequence_and_config.md sections 2 to 5), the state after startup
(10_state.md R43), and which operations are refused where (10_state.md R27, 41_swd_transfer.md R122). -/

namespace Sys2Proof.Machine

/-! Acceptance -/

theorem accept_idle {s : State} (h : s.phase = .idle) (r : Host.Outcome State Fault Refusal) : accept s r = r := if_pos h

theorem accept_busy {s : State} (h : s.phase ≠ .idle) (r : Host.Outcome State Fault Refusal) :
    accept s r = .refused .busy := if_neg h

/-- An XFER outside SWD (R122). -/
theorem xfer_refused {s : State} (hidle : s.phase = .idle) (hport : s.debugPort ≠ .swd) (request : Byte) (data : Word) :
    xfer request data s = .next (raiseResult statusRefused s) := by
  rw [xfer, accept_idle hidle, if_neg hport]

/-- A SEQ outside SWD (R161). -/
theorem sequence_refused {s : State} (hidle : s.phase = .idle) (hport : s.debugPort ≠ .swd) (bitCount : Byte)
    (bits : List Byte) : sequence bitCount bits s = .next (raiseResult statusRefused s) := by
  rw [sequence, accept_idle hidle, if_neg hport]

/-- Settles O16. -/
theorem refusedUnlessSwd : Obligations.RefusedUnlessSwd := by
  rintro i s (⟨request, data, hi⟩ | ⟨bitCount, bits, hi, hlen⟩) hidle hport
  · rw [exec_issues hi, xfer_refused hidle hport]
    rfl
  · rw [exec_seq hi hlen, sequence_refused hidle hport]
    rfl

/-- An operation of the command port, or CFG8, in the middle of another operation (R27; log 12). -/
theorem exec_busy {i : Instr} {s : State} (hwf : WellFormed i = true) (hf : i.format = .cmd ∨ i.format = .cfg8)
    (h : s.phase ≠ .idle) : exec i s = .refused .busy := by
  cases i with
  | seq bitCount bits =>
    rw [exec_seq rfl (by simpa [WellFormed] using hwf)]
    exact accept_busy h _
  | connect _ | disconnect | cfgIdle _ | clk _ | cfgSwd _ | xferR _ | xferW _ _ | anyOtherOp _ | cfg8 _ | linereset _
  | jtag2swd | swd2jtag | idle _ | idcode | rdbuff | abort _ => exact accept_busy h _
  | _ => rcases hf with hf | hf <;> cases hf

/-- Settles O17. -/
theorem oneOperationAtATime : Obligations.OneOperationAtATime :=
  ⟨fun _ _ hwf hf h => exec_busy hwf hf h, fun _ _ _ hlen => if_neg hlen⟩

/-- Settles O33: the three kinds of items test their phase first. -/
theorem itemsNeedTheirPhase : Obligations.ItemsNeedTheirPhase := by
  refine ⟨fun nibble s h => ?_, fun ack s h => ?_, fun data parity s hr hw => ?_⟩
  · obtain ⟨hrow, hpattern⟩ := exec_req8 nibble s
    have hrefused : requestItem nibble s = .refused .notInPhase := if_neg h
    exact ⟨hrow.trans hrefused, hpattern.trans hrefused⟩
  · rw [exec_ack3]
    exact if_neg h
  · exact (if_neg hr).trans (if_neg hw)

/-! The configuration operations -/

/-- Settles O9. -/
theorem connectSelectsSwd : Obligations.ConnectSelectsSwd := by
  intro portId s h
  have hrun : exec (.connect portId) s = accept s (if portId = 1#8 ∨ portId = 0#8 then
      .next (raiseResult 1#8 { s with debugPort := .swd, pins := connectPins }) else .next (raiseResult 0#8 s)) := rfl
  rw [hrun, accept_idle h]
  by_cases hid : portId = 0#8 ∨ portId = 1#8
  · rw [if_pos hid.symm, if_pos hid]
    rfl
  · rw [if_neg fun hc => hid hc.symm, if_neg hid]
    rfl

/-- Settles O10. -/
theorem disconnectReleasesThePins : Obligations.DisconnectReleasesThePins := fun _ h => accept_idle h _

/-- Settles O11. -/
theorem cfgIdleStoresTheCount : Obligations.CfgIdleStoresTheCount := fun _ _ h => accept_idle h _

/-- Settles O12: CFG8 stores the two fields, and CFG_SWD writes the status besides. -/
theorem cfgSwdStoresItsFields : Obligations.CfgSwdStoresItsFields := by
  intro cfg s h
  refine ⟨_, accept_idle h _, accept_idle h _, rfl, ?_⟩
  simp [State.turnaround, cfgTurnaround, BitVec.extractLsb'_toNat]

/-- Settles O13: the selector tries the thresholds in the order of the statement. -/
theorem clkSelectsTheBackend : Obligations.ClkSelectsTheBackend := by
  intro freq s h
  have hrun : exec (.clk freq) s = if freq = 0#32 then .next (raiseResult statusRefused s)
      else .next (raiseResult statusDone (selectClock freq s)) := accept_idle h _
  rw [hrun]
  by_cases h0 : freq = 0#32
  · rw [if_pos h0, if_pos h0]
    rfl
  · rw [if_neg h0, if_neg h0, selectClock]
    split
    · rfl
    · split <;> rfl

/-- Settles O15. -/
theorem otherCodesAreRefused : Obligations.OtherCodesAreRefused := fun _ _ h => accept_idle h _

/-- Settles O59: CFG_IDLE in the block, then the two bounds in the host. -/
theorem transferConfigureSplitsItsFields : Obligations.TransferConfigureSplitsItsFields := by
  intro idleCycles retryCount matchRetry s h
  rw [transferConfigure, cfgIdleStoresTheCount idleCycles s h]

/-! The delay (R171) -/

theorem ceilDiv_le_iff {f : Nat} (hf : 0 < f) (a q : Nat) : ceilDiv a f ≤ q ↔ a ≤ q * f := by
  rw [ceilDiv, ← Nat.ceilDiv_eq_add_pred_div, ceilDiv_le_iff_le_mul hf, Nat.mul_comm]

/-- A higher frequency has no longer half period. -/
theorem ceilDiv_antitone {f f' : Nat} (hf : 0 < f) (hle : f ≤ f') (a : Nat) : ceilDiv a f' ≤ ceilDiv a f := by
  have hleast : a ≤ ceilDiv a f * f := (ceilDiv_le_iff hf a _).mp (Nat.le_refl _)
  exact (ceilDiv_le_iff (Nat.lt_of_lt_of_le hf hle) a _).mpr (hleast.trans (Nat.mul_le_mul_left _ hle))

/-- Settles O14: the least quotient is the ceiling of R171. -/
theorem delayIsTheLeastQuotient : Obligations.DelayIsTheLeastQuotient := by
  intro p f hf
  refine ⟨ceilDiv (p.busClock / 2) f, (ceilDiv_le_iff hf _ _).mp (Nat.le_refl _),
    fun q h => (ceilDiv_le_iff hf _ _).mpr h, rfl, fun f' hle => ?_⟩
  have hq := ceilDiv_antitone hf hle (p.busClock / 2)
  unfold delayUnits
  split <;> split <;> omega

/-! The sequence buffer (R162) -/

/-- Settles O28. -/
theorem seqBufferHoldsTheBits : Obligations.SeqBufferHoldsTheBits := by
  intro n bits old k hk
  rw [seqLoad, ofBits_getLsbD, decide_eq_true hk, Bool.true_and, List.getD_eq_getElem?_getD, List.getElem?_map,
    List.getElem?_range hk]
  rfl

/-! Startup (R43) -/

/-- Settles O43: each clause of the resting state on the reset values. -/
theorem resetRests : Obligations.ResetRests := by
  simp [Obligations.ResetRests, State.resting, State.reset]

/-- Settles O44. -/
theorem resetHoldsTheDefaults : Obligations.ResetHoldsTheDefaults :=
  ⟨rfl, rfl, rfl, rfl, rfl, rfl, rfl, rfl, rfl, rfl, rfl, rfl, rfl, rfl, rfl, rfl, rfl⟩

end Sys2Proof.Machine
end

section
/-! PROOFS. What a step takes up (10_state.md R25, R27) and what a pseudo-operation expands to (30_encoding.md R100). -/

namespace Sys2Proof.Machine

/-- Settles O6: a sequence under another name is `exec_seq` on both sides; the other expansions are the same call. -/
theorem execFollowsTheExpansion : Obligations.ExecFollowsTheExpansion := by
  have hseq : ∀ (i : Instr) (s : State) (bitCount : Byte) (bits : List Byte), i.canonical = .seq bitCount bits →
      bits.length = seqByteCount bitCount → exec i s = exec i.canonical s := by
    intro i s bitCount bits hi hlen
    rw [exec_seq hi hlen, hi, exec_seq rfl hlen]
  intro i s _
  cases i with
  | linereset count => exact hseq _ s _ _ rfl (seqFill_length count _)
  | idle count => exact hseq _ s _ _ rfl (seqFill_length count _)
  | jtag2swd => exact hseq _ s _ _ rfl rfl
  | swd2jtag => exact hseq _ s _ _ rfl rfl
  | req8 nibble =>
    obtain ⟨hrow, hpattern⟩ := exec_req8 nibble s
    exact hpattern.trans hrow.symm
  | _ => rfl

/-! The items on the wire, as the bytes a decoder reads -/

theorem decode_ack3_bits {bits : List Bool} (h : bits.length = 3) :
    decode .ack3 [ofBits 8 bits] = .ok (ack3Row (ofBits 3 bits)) [] := by
  match bits, h with
  | [a, b, c], _ => revert a b c; decide

theorem decode_data33_bits (v : Word) (p : Bool) :
    decode .data33 (itemBytes (data33Bits v p)) = .ok (.data33 v p) [] := by
  have htake : (data33Bits v p).take 32 = bitsOf v := List.take_left' (bitsOf_length v)
  have hdrop : (data33Bits v p).drop 32 = [p] := List.drop_left' (bitsOf_length v)
  have hp : (ofBits 8 [p] : Byte) = (BitVec.ofBool p).setWidth 8 := by cases p <;> rfl
  rw [itemBytes, htake, hdrop, ofBits_bitsOf, hp]
  exact decode_data33 v p []

/-- A step at the start of an item's phase, where the decoder reads the item. -/
theorem fetchItem_of_decode {count : BitVec 9} {f : Format} {bytes rest : List Byte} {s : State} {i : Instr}
    (hb : s.bitcnt = count) (hd : decode f bytes = .ok i rest) : fetchItem count f bytes s = .item i s := by
  rw [fetchItem, if_pos hb, hd]

theorem step_of_fetch {s u : State} {i : Instr} (h : fetch s = .item i u) : step s = exec i u := by
  rw [step, h]

/-- The operation at the head of the command port. -/
theorem fetchCommand_of_decode {s : State} {i : Instr} {rest : List Byte} (hd : decode .cmd s.cmd = .ok i rest) :
    fetchCommand s = .item i { s with cmd := rest } := by
  have hne : s.cmd ≠ [] := fun h => by rw [h] at hd; cases hd
  rw [fetchCommand, if_neg hne, hd]

/-- The target's next 33 answers are a word and a parity bit. -/
theorem answersFrom_zero_eq_data33Bits (s : State) :
    s.answersFrom 0 33 = data33Bits (ofBits 32 ((s.answersFrom 0 33).take 32)) (s.answer 32) := by
  have htake : (s.answersFrom 0 33).take 32 = s.answersFrom 0 32 := answersFrom_take s 0 32 1
  have hbits := bitsOf_ofBits (s.answersFrom 0 32)
  rw [answersFrom_length] at hbits
  rw [htake, data33Bits, hbits, ← answersFrom_one]
  exact (answersFrom_append s 0 32 1).symm

/-- Settles O7: what is fetched in each of the five phases. -/
theorem stepRunsTheDecodedInstruction : Obligations.StepRunsTheDecodedInstruction := by
  refine ⟨fun s i rest hp hd => step_of_fetch ?_, fun s hp hb => step_of_fetch ?_, fun s hp hb => step_of_fetch ?_,
    fun s hp hb => step_of_fetch ?_, fun s hp hb => step_of_fetch ?_⟩
  · have hfetch : fetch s = fetchCommand s := by rw [fetch, hp]
    exact hfetch.trans (fetchCommand_of_decode hd)
  all_goals simp only [fetch, hp]
  · exact fetchItem_of_decode hb (decode_requestByte _ [])
  · rw [peekAnswers_eq_answersFrom]
    exact fetchItem_of_decode hb (decode_ack3_bits (answersFrom_length s 0 3))
  · rw [peekAnswers_eq_answersFrom, answersFrom_zero_eq_data33Bits s]
    refine (fetchItem_of_decode hb (decode_data33_bits _ _)).trans ?_
    rw [← answersFrom_zero_eq_data33Bits]
  · exact fetchItem_of_decode hb (decode_data33_bits _ _)

end Sys2Proof.Machine
end

section
/-! PROOFS. What an XFER leaves on each path the acknowledge selects (41_swd_transfer.md R124 to R143): the whole state of
`State.concluded`, written out path by path, and the length of each frame (30_encoding.md R87). -/

namespace Sys2Proof.Machine

/-! Every XFER -/

/-- Settles O18. -/
theorem xferRunsToItsEnd : Obligations.XferRunsToItsEnd := by
  intro i request data s hi hs
  obtain ⟨t, ht, hkept, hc⟩ := exec_issues_concluded hi hs
  exact ⟨t, ht, hc, hkept.gpio⟩

/-! The four kinds of paths -/

/-- A read acknowledged OK (R130 to R137). -/
theorem concluded_read {s : State} (h : s.rnw = true) (v : Word) (p : Bool) (frame : List CycleRec) (t : State) :
    s.concluded 0b001#3 (data33Bits v p) frame t =
      { s with
          rdata := v, ack := 0b001#3, par := par32 v, perr := p != par32 v, ackinv := false,
          cls := if p = par32 v then .ok else .error, result := if p = par32 v then 0x01#8 else 0x08#8,
          timestamp := if s.req.getLsbD 7 then s.inputs.nextNow else s.timestamp,
          phase := .idle, bitcnt := 0#9, pins := s.pins.restored, spi := t.spi, pinEvents := t.pinEvents,
          inputs := (s.inputs.after 36 t.inputs.discards).stamped (s.req.getLsbD 7), wire := s.wire ++ frame } := by
  have hok : ackClass 0b001#3 = .ok := rfl
  have htake : (data33Bits v p).take 32 = bitsOf v := List.take_left' (bitsOf_length v)
  have hlast : (data33Bits v p).getD 32 false = p := by
    rw [data33Bits, List.getD_append_right _ _ _ _ (by simp)]
    simp
  have hsamples : s.samplesTaken 0b001#3 = 36 := if_pos ⟨hok, h⟩
  simp only [State.concluded, State.settled, hok, h, if_true, htake, hlast, ofBits_bitsOf, hsamples]
  rfl

/-- A write acknowledged OK (R135 to R137, R141 to R143). -/
theorem concluded_write {s : State} (h : s.rnw = false) (bits : List Bool) (frame : List CycleRec) (t : State) :
    s.concluded 0b001#3 bits frame t =
      { s with
          ack := 0b001#3, par := par32 s.wdata, ackinv := false, cls := .ok,
          result := if s.perr then 0x08#8 else 0x01#8,
          timestamp := if s.req.getLsbD 7 then s.inputs.nextNow else s.timestamp,
          phase := .idle, bitcnt := 0#9, pins := s.pins.restored, spi := t.spi, pinEvents := t.pinEvents,
          inputs := (s.inputs.after 3 t.inputs.discards).stamped (s.req.getLsbD 7), wire := s.wire ++ frame } := by
  have hok : ackClass 0b001#3 = .ok := rfl
  have hsamples : s.samplesTaken 0b001#3 = 3 := if_neg fun hr => by simp [h] at hr
  simp only [State.concluded, State.settled, hok, h, Bool.false_eq_true, if_false, hsamples]
  rfl

/-- Every path but that of OK (R138 to R140): three samples, no capture, and a result that the class decides. -/
theorem concluded_notOk (s : State) {ack : BitVec 3} (h : ackClass ack ≠ .ok) (bits : List Bool)
    (frame : List CycleRec) (t : State) :
    s.concluded ack bits frame t =
      { s with
          ack := ack, ackinv := ackClass ack == .error, cls := ackClass ack,
          result := if ackClass ack = .error then 0x08#8 else ack.setWidth 8,
          phase := .idle, bitcnt := 0#9, pins := s.pins.restored, spi := t.spi, pinEvents := t.pinEvents,
          inputs := s.inputs.after 3 t.inputs.discards, wire := s.wire ++ frame } := by
  have hsamples : s.samplesTaken ack = 3 := if_neg fun hr => h hr.1
  simp only [State.concluded, State.settled, hsamples]
  cases hclass : ackClass ack with
  | ok => exact absurd hclass h
  | wait =>
    obtain rfl := (ackClass_wait ack).mp hclass
    rfl
  | fault =>
    obtain rfl := (ackClass_fault ack).mp hclass
    rfl
  | error => rfl

/-- Settles O19. -/
theorem readAnsweredOk : Obligations.ReadAnsweredOk := by
  intro i request data s v p hi hread hs hok hbits
  obtain ⟨t, ht, hc, hgpio⟩ := xferRunsToItsEnd i request data s hi hs
  refine ⟨t, ht, hc.trans ?_, hgpio⟩
  have hrnw : (xferStart request data s).rnw = true := hread
  have hwdata : (xferStart request data s).wdata = s.wdata := by rw [xferStart_wdata, if_pos hread]
  rw [hok, hbits, concluded_read hrnw, tailFrame_of_read hrnw, ← bitsOf_nextAck, hok, hwdata]
  simp only [xferStart, clearFlags, hs.1]
  rfl

/-- Settles O20. -/
theorem writeAnsweredOk : Obligations.WriteAnsweredOk := by
  intro i request data s hi hwrite hs hok
  obtain ⟨t, ht, hc, hgpio⟩ := xferRunsToItsEnd i request data s hi hs
  refine ⟨t, ht, hc.trans ?_, hgpio⟩
  have hrnw : (xferStart request data s).rnw = false := hwrite
  have hwdata : (xferStart request data s).wdata = data := by
    rw [xferStart_wdata, hwrite, if_neg Bool.false_ne_true]
  rw [hok, concluded_write hrnw, tailFrame_of_write hrnw, ← bitsOf_nextAck, hok, hwdata]
  simp only [xferStart, clearFlags, hs.1]
  rfl

/-- The frame of WAIT and FAULT (R138, R139). -/
theorem tailFrame_of_nak (s : State) {ack : BitVec 3} (h : ack = 0b010#3 ∨ ack = 0b100#3) (bits : List Bool) :
    tailFrame s ack bits = nakFrame s.dataPhase s.rnw s.turnaround := by
  rcases h with rfl | rfl <;> rfl

/-- The frame of an invalid acknowledge (R140). -/
theorem tailFrame_of_invalid (s : State) {ack : BitVec 3} (h : ackClass ack = .error) (bits : List Bool) :
    tailFrame s ack bits = recoveryFrame s.turnaround := by
  simp only [tailFrame, h]

/-- Settles O21. -/
theorem waitAndFaultMoveNoData : Obligations.WaitAndFaultMoveNoData := by
  intro i request data s hi hs hack
  obtain ⟨t, ht, hc, hgpio⟩ := xferRunsToItsEnd i request data s hi hs
  refine ⟨t, ht, hc.trans ?_, hgpio⟩
  have hclass : ackClass s.nextAck = (if s.nextAck = 0b010#3 then .wait else .fault) := by
    rcases hack with h | h <;> rw [h] <;> rfl
  have hne : ackClass s.nextAck ≠ .ok ∧ ackClass s.nextAck ≠ .error := by
    rcases hack with h | h <;> rw [h] <;> decide
  rw [concluded_notOk _ hne.1, tailFrame_of_nak _ hack, if_neg hne.2, beq_false_of_ne hne.2, hclass, bitsOf_nextAck]
  simp only [xferStart, clearFlags, hs.1]
  rfl

/-- The five acknowledges that are none of the three (30_encoding.md R85). -/
theorem ackClass_error : ∀ ack : BitVec 3, ackClass ack = .error ↔ ack ∈ [0#3, 3#3, 5#3, 6#3, 7#3] := by decide

/-- Settles O22. -/
theorem invalidAcknowledgeRecovers : Obligations.InvalidAcknowledgeRecovers := by
  intro i request data s hi hs hack
  obtain ⟨t, ht, hc, hgpio⟩ := xferRunsToItsEnd i request data s hi hs
  refine ⟨t, ht, hc.trans ?_, hgpio⟩
  have hclass : ackClass s.nextAck = .error := (ackClass_error _).mpr hack
  rw [concluded_notOk _ (by rw [hclass]; decide), tailFrame_of_invalid _ hclass, hclass, if_pos rfl, bitsOf_nextAck]
  simp only [xferStart, clearFlags, hs.1]
  rfl

/-! The length of a frame -/

theorem readFrame_length (t idle : Nat) {bits : List Bool} (h : bits.length = 33) :
    (readFrame t idle bits).length = 33 + t + idle := by
  simp [readFrame, h]
  omega

theorem writeFrame_length (extra : Bool) (t idle : Nat) (v : Word) :
    (writeFrame extra t idle v).length = 33 + t + idle + (if extra then 1 else 0) := by
  cases extra <;> simp [writeFrame, writeDataFrame] <;> omega

theorem nakFrame_length (dataPhase rnw : Bool) (t : Nat) :
    (nakFrame dataPhase rnw t).length = if dataPhase then 33 + t else t := by
  cases dataPhase <;> cases rnw <;> simp [nakFrame]
  omega

theorem extraCycle_iff (s : State) : s.extraCycle = true ↔ s.xferMode = .spi ∧ s.params.wr33 = true := by
  simp [State.extraCycle]

/-- What follows the acknowledge, by its class (R87). -/
theorem tailFrame_length (s : State) (ack : BitVec 3) {bits : List Bool} (h : bits.length = 33) :
    (tailFrame s ack bits).length =
      match ackClass ack with
      | .ok => 33 + (if s.rnw then 0 else if s.extraCycle then 1 else 0) + s.turnaround + s.idleCycles.toNat
      | .wait => if s.dataPhase then 33 + s.turnaround else s.turnaround
      | .fault => if s.dataPhase then 33 + s.turnaround else s.turnaround
      | .error => 33 + s.turnaround := by
  unfold tailFrame
  cases ackClass ack with
  | ok =>
    cases hr : s.rnw with
    | true =>
      simp only [if_true, readFrame_length _ _ h]
    | false =>
      simp only [Bool.false_eq_true, if_false, writeFrame_length]
      omega
  | wait => exact nakFrame_length _ _ _
  | fault => exact nakFrame_length _ _ _
  | error =>
    simp only [recoveryFrame, runOf_length, released_length]
    omega

/-- The longest frame is a write of 255 idle cycles with the longest turnaround and the extra cycle (R145 (a)). -/
theorem tailFrame_length_le (s : State) (ack : BitVec 3) {bits : List Bool} (h : bits.length = 33) :
    (11 + s.turnaround) + (tailFrame s ack bits).length ≤ 308 := by
  obtain ⟨-, hturn⟩ := turnaround_bounds s
  have hidle := s.idleCycles.isLt
  rw [tailFrame_length s ack h]
  cases ackClass ack with
  | ok =>
    have hextra : (if s.rnw then 0 else if s.extraCycle then 1 else 0) ≤ 1 := by cases s.rnw <;> cases s.extraCycle <;> decide
    simp only
    omega
  | wait | fault =>
    simp only
    split <;> omega
  | error =>
    simp only
    omega

/-- Where the workaround of R220 lengthens an OK frame. -/
theorem xferStart_extra (request : Byte) (data : Word) (s : State) :
    (if (xferStart request data s).rnw then 0 else if (xferStart request data s).extraCycle then 1 else 0) =
      (if request.getLsbD 1 = false ∧ s.xferMode = .spi ∧ s.params.wr33 = true then 1 else 0) := by
  have hrnw : (xferStart request data s).rnw = request.getLsbD 1 := rfl
  have hiff : (xferStart request data s).extraCycle = true ↔ s.xferMode = .spi ∧ s.params.wr33 = true :=
    extraCycle_iff _
  rw [hrnw]
  cases request.getLsbD 1 <;> simp [hiff]

/-- Settles O25: the header takes 11 + T cycles. -/
theorem frameLengths : Obligations.FrameLengths := by
  intro i request data s t hi hs he
  obtain ⟨hcycles, -⟩ := exec_issues_newCycles hi hs he
  obtain ⟨u, hu, hc, -⟩ := xferRunsToItsEnd i request data s hi hs
  obtain rfl : u = t := Host.Outcome.next.inj (hu.symm.trans he)
  have hwire : u.wire = s.wire ++ newCycles s u := by
    have h := congrArg State.wire hc
    simp only [State.concluded, xferStart_wire] at h
    rw [hcycles, bitsOf_nextAck, h]
  have hturn : (xferStart request data s).turnaround = s.turnaround := rfl
  have hlen : (newCycles s u).length =
      (11 + s.turnaround) + (tailFrame (xferStart request data s) s.nextAck (s.answersFrom 3 33)).length := by
    rw [hcycles, List.length_append, headerFrame_length]
  refine ⟨by rw [hwire, newCycles, hwire, List.drop_left, List.length_append], ?_, ?_⟩
  · rw [hlen, ← hturn]
    exact tailFrame_length_le _ _ (answersFrom_length s 3 33)
  · rw [hlen, tailFrame_length _ _ (answersFrom_length s 3 33)]
    cases ackClass s.nextAck with
    | ok =>
      simp only [xferStart_extra, hturn, xferStart_idleCycles]
      omega
    | wait | fault =>
      simp only [hturn, xferStart_dataPhase]
      split <;> omega
    | error =>
      simp only [hturn]
      omega

end Sys2Proof.Machine
end

section
/-! PROOFS. SEQ on either backend (42_sequence_and_config.md R160 to R164), the one stop of an operation on the wires
(44_spi_backend.md R214), and the effect of one shift transaction (R212). -/

namespace Sys2Proof.Machine

/-! SEQ -/

/-- A sequence has 1 to 256 bits (30_encoding.md R89 (a)). -/
theorem seqLength_bounds (bitCount : Byte) : 1 ≤ seqLength bitCount ∧ seqLength bitCount ≤ 256 := by
  have hlt := bitCount.isLt
  unfold seqLength
  split
  · omega
  · next hne =>
    have : bitCount.toNat ≠ 0 := fun h0 => hne (BitVec.eq_of_toNat_eq h0)
    omega

/-- `SEQLEN` holds the whole length. -/
theorem seqStart_seqLen_toNat (bitCount : Byte) (bits : List Byte) (s : State) :
    (seqStart bitCount bits s).seqLen.toNat = seqLength bitCount := by
  have := (seqLength_bounds bitCount).2
  rw [seqStart_seqLen, BitVec.toNat_ofNat]
  omega

/-- What SEQ drives are the bits of its operand (20_memory.md R65). -/
theorem seqBits_seqStart (bitCount : Byte) (bits : List Byte) (s : State) :
    seqBits (seqStart bitCount bits s) = (List.range (seqLength bitCount)).map (seqBit bits) := by
  rw [seqBits, seqStart_seqLen_toNat, seqStart_seqBuf]
  refine List.map_congr_left fun k hk => ?_
  have hk := List.mem_range.mp hk
  have hmax := (seqLength_bounds bitCount).2
  rw [seqBufferHoldsTheBits _ _ _ k (by omega), if_pos hk]

theorem seqBits_seqStart_ne_nil (bitCount : Byte) (bits : List Byte) (s : State) :
    seqBits (seqStart bitCount bits s) ≠ [] := by
  have := (seqLength_bounds bitCount).1
  intro h
  have hlen := congrArg List.length h
  rw [seqBits_seqStart] at hlen
  simp at hlen
  omega

theorem range_map_getLastD {n : Nat} (hn : 1 ≤ n) (f : Nat → Bool) :
    ((List.range n).map f).getLastD true = f (n - 1) := by
  obtain ⟨m, rfl⟩ : ∃ m, n = m + 1 := ⟨n - 1, by omega⟩
  simp [List.range_succ]

/-- A SEQ that is accepted runs to its end on either backend: the state it leaves, and what every operation keeps. -/
theorem exec_seq_concluded {i : Instr} {bitCount : Byte} {bits : List Byte} {s : State}
    (hi : i.canonical = .seq bitCount bits) (hlen : bits.length = seqByteCount bitCount) (hs : s.swdReady) :
    ∃ t, exec i s = .next t ∧ Kept s t ∧
      t = { s with
              seqLen := BitVec.ofNat 9 (seqLength bitCount), seqBuf := seqLoad (seqLength bitCount) bits s.seqBuf,
              result := 0x00#8, bitcnt := 0#9, spi := t.spi, pinEvents := t.pinEvents,
              pins := { s.pins with
                swclkO := true, swdioOe := true, swdioO := seqBit bits (seqLength bitCount - 1) },
              wire := s.wire ++ runOf .seq (driven ((List.range (seqLength bitCount)).map (seqBit bits))) } := by
  obtain ⟨hidle, hport, hready⟩ := hs
  obtain ⟨u, hu, hcore, hkept, hinputs⟩ := seqBody_spec (seqStart bitCount bits s)
    (fun hm => by rw [seqStart_xferMode] at hm; rw [seqStart_spi]; exact hready hm)
    (seqBits_seqStart_ne_nil bitCount bits s)
  rw [seqBits_seqStart, range_map_getLastD (seqLength_bounds bitCount).1, seqStart_wire, seqStart_pins] at hcore
  obtain ⟨-, -, hbusy, hsense, hbuf, hlens, hgpio⟩ := hkept
  simp only [seqStart_spi, seqStart_params, seqStart_xferMode] at hbusy hsense hbuf hlens hgpio
  have hrun : exec i s = .next (finish statusDone u) := by
    rw [exec_seq hi hlen, sequence, accept_idle hidle, if_pos hport, hu]
    rfl
  refine ⟨_, hrun, ?_, ?_⟩
  · exact ⟨rfl, rfl, hbusy, hsense, hbuf, hlens, hgpio⟩
  · have hu := eq_of_core_eq (s := { seqStart bitCount bits s with
      wire := s.wire ++ runOf .seq (driven ((List.range (seqLength bitCount)).map (seqBit bits))),
      pins := { s.pins with
        swclkO := true, swdioOe := true, swdioO := seqBit bits (seqLength bitCount - 1) } }) hcore
    rw [hinputs] at hu
    rw [hu]
    simp only [finish, enterPhase, raiseResult, seqStart, statusDone, hidle]

/-- Settles O27. -/
theorem seqDrivesItsBits : Obligations.SeqDrivesItsBits := by
  intro i bitCount bits s hi hlen hs
  obtain ⟨t, ht, hkept, hc⟩ := exec_seq_concluded hi hlen hs
  exact ⟨t, ht, hc, hkept.gpio⟩

/-! A busy peripheral -/

/-- The header of an XFER is a shift, which a busy peripheral never takes (R214). -/
theorem spiXfer_busy {s : State} (h : s.spi.busy = true) : spiXfer s = none := by
  have hne : outSlots .req (bitsOf (requestByte (requestNibble s.req))) ≠ [] := fun hnil => by
    have := congrArg List.length hnil
    simp at this
  rw [spiXfer, spiRequestHeader, spiRun_busy _ _ s h (.inl hne)]
  rfl

theorem spiWriteBits_busy {outs : List OutSlot} {s : State} (hne : outs ≠ []) (h : s.spi.busy = true) :
    spiWriteBits outs s = none := by
  rw [spiWriteBits, if_neg (by simpa using hne), spiRun_busy _ _ s h (.inl hne)]
  rfl

/-- Settles O26. -/
theorem busyPeripheralTimesOut : Obligations.BusyPeripheralTimesOut := by
  rintro i s (⟨request, data, hi⟩ | ⟨bitCount, bits, hi, hlen⟩) hidle hport hspi hbusy
  · rw [exec_issues hi, xfer, accept_idle hidle, if_pos hport, xferBody, xferStart_xferMode, if_pos hspi,
      spiXfer_busy (by rw [xferStart_spi, hbusy])]
    rfl
  · have hne : outSlots .seq (seqBits (seqStart bitCount bits s)) ≠ [] := fun hnil =>
      seqBits_seqStart_ne_nil bitCount bits s (List.length_eq_zero_iff.mp (by
        simpa using congrArg List.length hnil))
    rw [exec_seq hi hlen, sequence, accept_idle hidle, if_pos hport, seqBody, seqStart_xferMode, if_pos hspi,
      spiWriteBits_busy hne (by rw [enterPhase_spi, seqStart_spi, hbusy])]
    rfl

/-! One shift -/

/-- The pins after a shift of at least one bit. -/
theorem pinsAfter_shift {outs : List OutSlot} {ins : List InSlot} {p : Pins} (h : 1 ≤ outs.length + ins.length) :
    pinsAfter outs ins p =
      { p with swclkO := true, swdioOe := ins.isEmpty,
               swdioO := ((outs.map OutSlot.bit).getLast?).getD p.swdioO } := by
  cases outs with
  | nil =>
    cases ins with
    | nil => simp at h
    | cons y ys => simp [pinsAfter]
  | cons x xs =>
    cases ins <;> simp [pinsAfter, List.getLast?_cons]

/-- Settles O41: `halShift_spec`, with the pins and the sense state of a shift of at least one bit. -/
theorem shiftTransactionEffect : Obligations.ShiftTransactionEffect := by
  intro outs ins s t inBits hone hclk hshift
  obtain ⟨u, hu, heffect⟩ := halShift_spec outs ins s
  obtain ⟨rfl, rfl⟩ := Prod.mk.inj (hu.symm.trans hshift)
  refine ⟨slotBits_length s 0 0 ins, usedBits_slotBits s 0 0 ins, ?_⟩
  have hsense : (if ins = [] then (if outs = [] then s.spi.sense else false) else true) = !ins.isEmpty := by
    cases ins with
    | nil =>
      cases outs with
      | nil => simp at hone
      | cons x xs => rfl
    | cons y ys => rfl
  rw [pinsAfter_shift hone, hsense, slotRecords_eq_zipWith s 0 0 ins] at heffect
  rw [heffect]
  rfl

end Sys2Proof.Machine
end

section
/-! PROOFS. The items of the wire formats, each taken in its phase of an XFER (30_encoding.md R81, R84, R86; log 13): the
rest of the transaction from there, as a whole state. -/

namespace Sys2Proof.Machine

/-! What the end of a transaction does not read -/

/-- The peripheral's registers are not read: those of the state at the end stand in the result. -/
theorem concluded_withSpi (s : State) (p : Spi) (ack : BitVec 3) (bits : List Bool) (frame : List CycleRec)
    (t : State) : State.concluded { s with spi := p } ack bits frame t = s.concluded ack bits frame t := by
  have hrnw : State.rnw { s with spi := p } = s.rnw := rfl
  simp only [State.concluded, State.settled, State.samplesTaken, hrnw]
  cases ackClass ack with
  | ok => cases s.rnw <;> rfl
  | wait | fault | error => rfl

theorem shiftFinished_eq (s : State) : ∃ p, shiftFinished s = { s with spi := p } ∧ (s.xferMode ≠ .spi → p = s.spi) := by
  unfold shiftFinished
  split
  · exact ⟨_, rfl, fun h => absurd ‹_› h⟩
  · exact ⟨s.spi, rfl, fun _ => rfl⟩

/-! Answers placed beforehand -/

theorem withAnswers_answer (s : State) (bits : List Bool) (k : Nat) :
    (s.withAnswers bits).answer k = if h : k < bits.length then bits[k] else s.answer k := by
  simp only [State.answer, State.withAnswers_inputs, List.getD_eq_getElem?_getD]
  split
  · next h => rw [List.getElem?_append_left h, List.getElem?_eq_getElem h, Option.getD_some]
  · next h =>
    rw [List.getElem?_append_right (by omega), List.getElem?_drop]
    congr 2
    omega

/-- The answers placed are the next ones. -/
theorem withAnswers_answersFrom_zero (s : State) {bits : List Bool} {n : Nat} (h : bits.length = n) :
    (s.withAnswers bits).answersFrom 0 n = bits := by
  subst h
  apply List.ext_getElem (by simp)
  intro k h1 h2
  simp [State.answersFrom, withAnswers_answer, h2]

/-- Behind the answers placed the target answers as before. -/
theorem withAnswers_answersFrom (s : State) {bits : List Bool} {k : Nat} (h : bits.length ≤ k) (n : Nat) :
    (s.withAnswers bits).answersFrom k n = s.answersFrom k n := by
  simp only [State.answersFrom]
  refine List.map_congr_left fun i _ => ?_
  rw [withAnswers_answer, dif_neg (by omega)]

/-- Once they are used, nothing of the answers placed is left. -/
theorem withAnswers_after (s : State) {bits : List Bool} {n : Nat} (h : bits.length ≤ n) (d : Nat) :
    (s.withAnswers bits).inputs.after n d = s.inputs.after n d := by
  have hdrop : (bits ++ s.inputs.answers.drop bits.length).drop n = s.inputs.answers.drop n := by
    rw [List.drop_append, List.drop_eq_nil_of_le h, List.nil_append, List.drop_drop]
    congr 1
    omega
  simp only [State.withAnswers_inputs, Inputs.after, hdrop]

theorem samplesTaken_ge (s : State) (ack : BitVec 3) : 3 ≤ s.samplesTaken ack := by
  unfold State.samplesTaken
  split <;> decide

/-- Answers placed for the acknowledge are used in it. -/
theorem concluded_withAnswers (s : State) {placed : List Bool} (h : placed.length = 3) (ack : BitVec 3)
    (bits : List Bool) (frame : List CycleRec) (t : State) :
    (s.withAnswers placed).concluded ack bits frame t = s.concluded ack bits frame t := by
  have hsamples : (s.withAnswers placed).samplesTaken ack = s.samplesTaken ack := rfl
  have hafter := withAnswers_after s (bits := placed) (n := s.samplesTaken ack) (by have := samplesTaken_ge s ack; omega)
    t.inputs.discards
  have hrnw : (s.withAnswers placed).rnw = s.rnw := rfl
  simp only [State.concluded, State.settled, hsamples, hafter, hrnw]
  cases ackClass ack with
  | ok => cases s.rnw <;> rfl
  | wait | fault | error => rfl

/-! Request packets and acknowledges -/

theorem requestNibble_append (high low : Nibble) : requestNibble (high ++ low) = low := by
  apply BitVec.eq_of_getLsbD_eq
  intro i hi
  simp only [requestNibble, BitVec.getLsbD_extractLsb', BitVec.getLsbD_append, Nat.zero_add, hi, decide_true,
    Bool.true_and, if_true]

/-- A request packet in its phase (R81, R82). -/
theorem requestItem_concluded (nibble : Nibble) {s u : State} (hp : s.phase = .req)
    (hu : u = { s with req := s.req.extractLsb' 4 4 ++ nibble }) :
    ∃ t, requestItem nibble s = .next t ∧ Kept (shiftFinished u) t ∧
      t = u.concluded s.nextAck (s.answersFrom 3 33)
        (headerFrame nibble s.turnaround (s.answersFrom 0 3) ++ tailFrame u s.nextAck (s.answersFrom 3 33)) t := by
  subst hu
  obtain ⟨hready, -, -⟩ := shiftFinished_spec { s with req := s.req.extractLsb' 4 4 ++ nibble }
  obtain ⟨t, ht, hkept, hc⟩ := xferBody_concluded _ hready
  refine ⟨t, ?_, hkept, ?_⟩
  · rw [requestItem, if_pos hp, ht]
    rfl
  · obtain ⟨p, hfin, -⟩ := shiftFinished_eq { s with req := s.req.extractLsb' 4 4 ++ nibble }
    rw [hfin, concluded_withSpi] at hc
    simp only [requestNibble_append] at hc
    exact hc

/-- Settles O29. -/
theorem requestItemsRunTheTransaction : Obligations.RequestItemsRunTheTransaction := by
  intro nibble i s u hi hp hu
  obtain ⟨t, ht, hkept, hc⟩ := requestItem_concluded nibble hp hu
  obtain ⟨hrow, hpattern⟩ := exec_req8 nibble s
  have hexec : exec i s = requestItem nibble s := by rcases hi with rfl | rfl <;> assumption
  refine ⟨t, hexec.trans ht, hc, fun hm => ?_⟩
  have hmode : u.xferMode ≠ .spi := by rw [hu]; exact hm
  obtain ⟨-, -, hsame⟩ := shiftFinished_spec u
  rw [hsame hmode] at hkept
  rw [hkept.gpio hmode, hu]

/-- An acknowledge in its phase (R84, R85). -/
theorem ackItem_concluded (ack : BitVec 3) {s : State} (hp : s.phase = .acks) :
    ∃ t, ackItem ack s = .next t ∧ Kept (shiftFinished (s.withAnswers (bitsOf ack))) t ∧
      t = s.concluded ack (s.answersFrom 3 33)
        (runOf .acks (sampled (bitsOf ack)) ++ tailFrame s ack (s.answersFrom 3 33)) t := by
  obtain ⟨hready, -, -⟩ := shiftFinished_spec (s.withAnswers (bitsOf ack))
  obtain ⟨t, ht, hkept, hc⟩ := xferAcks_concluded _ hready
  refine ⟨t, ?_, hkept, ?_⟩
  · rw [ackItem, if_pos hp, ht]
    rfl
  · obtain ⟨p, hfin, -⟩ := shiftFinished_eq (s.withAnswers (bitsOf ack))
    have hfirst : State.answersFrom { s.withAnswers (bitsOf ack) with spi := p } 0 3 = bitsOf ack :=
      withAnswers_answersFrom_zero s (bitsOf_length ack)
    have hnext : State.answersFrom { s.withAnswers (bitsOf ack) with spi := p } 3 33 = s.answersFrom 3 33 :=
      withAnswers_answersFrom s (by rw [bitsOf_length]) 33
    rw [hfin, State.nextAck, hfirst, hnext, ofBits_bitsOf, concluded_withSpi,
      concluded_withAnswers s (bitsOf_length ack)] at hc
    exact hc

/-- Settles O30. -/
theorem acknowledgeItemsSelectThePath : Obligations.AcknowledgeItemsSelectThePath := by
  intro ack s hp
  obtain ⟨t, ht, hkept, hc⟩ := ackItem_concluded ack hp
  refine ⟨t, (exec_ack3 ack s).trans ht, hc, fun hm => ?_⟩
  obtain ⟨-, -, hsame⟩ := shiftFinished_spec (s.withAnswers (bitsOf ack))
  rw [hsame hm] at hkept
  exact hkept.gpio hm

/-! Data phases -/

/-- A state is known from its core where the operation is over. -/
theorem eq_of_core_eq_of_kept {s t u : State} (hc : t.core = u.core) (hk : Kept s t) :
    t = { u with phase := .idle, bitcnt := 0#9, spi := t.spi, pinEvents := t.pinEvents,
                 inputs := { u.inputs with discards := t.inputs.discards } } := by
  have h := eq_of_core_eq hc
  have hp : t.phase = .idle := hk.phase
  have hb : t.bitcnt = 0#9 := hk.bitcnt
  rwa [hp, hb] at h

/-- The end of a read data phase does not read the position, the peripheral or the traces of the pins (R130 to R137). -/
theorem readEnd_data33Bits (v : Word) (p : Bool) (s : State) :
    readEnd (data33Bits v p) s = State.core
      { s with
          rdata := v, par := par32 v, perr := p != par32 v, cls := if p = par32 v then s.cls else .error,
          result := if p = par32 v then 0x01#8 else 0x08#8,
          timestamp := if s.req.getLsbD 7 then s.inputs.nextNow else s.timestamp, pins := s.pins.restored,
          inputs := (s.inputs.after 33 0).stamped (s.req.getLsbD 7),
          wire := s.wire ++ readFrame s.turnaround s.idleCycles.toNat (data33Bits v p) } := by
  have htake : (data33Bits v p).take 32 = bitsOf v := List.take_left' (bitsOf_length v)
  have hlast : (data33Bits v p).getD 32 false = p := by
    rw [data33Bits, List.getD_append_right _ _ _ _ (by simp)]
    simp
  have hcode : okCode (readBits (data33Bits v p) s) = if p = par32 v then 0x01#8 else 0x08#8 := by
    simp only [okCode, readBits, htake, hlast, ofBits_bitsOf]
    cases p <;> cases par32 v <;> rfl
  simp only [readEnd, okEnd, hcode]
  simp only [readBits, htake, hlast, ofBits_bitsOf]
  rfl

/-- Settles O31. -/
theorem dataItemIsReceived : Obligations.DataItemIsReceived := by
  intro data parity s hp hclk
  obtain ⟨hready, -, hsame⟩ := shiftFinished_spec (s.withAnswers (data33Bits data parity))
  obtain ⟨p, hfin, -⟩ := shiftFinished_eq (s.withAnswers (data33Bits data parity))
  obtain ⟨t, ht, hcore, hkept⟩ := xferRdata_spec _ hready (by rw [hfin]; exact hclk)
  have hlen : (data33Bits data parity).length = 33 := by simp [data33Bits]
  have hbits : State.answersFrom { s.withAnswers (data33Bits data parity) with spi := p } 0 33 = data33Bits data parity :=
    withAnswers_answersFrom_zero s hlen
  have hexec : exec (.data33 data parity) s = .next t := by
    refine (if_pos hp).trans ?_
    rw [ht]
    rfl
  refine ⟨t, hexec, ?_, fun hm => ?_⟩
  · rw [hfin, hbits, readEnd_data33Bits] at hcore
    refine (eq_of_core_eq_of_kept hcore hkept).trans ?_
    have hafter := withAnswers_after s (Nat.le_of_eq hlen) 0
    simp only [hafter]
    rfl
  · rw [hsame hm] at hkept
    exact hkept.gpio hm

/-- Settles O32. -/
theorem dataItemIsSent : Obligations.DataItemIsSent := by
  intro data parity s hp hclk
  obtain ⟨hready, -, hsame⟩ := shiftFinished_spec { s with wdata := data }
  obtain ⟨p, hfin, -⟩ := shiftFinished_eq { s with wdata := data }
  obtain ⟨t, ht, hcore, hkept⟩ := xferWdata_spec _ hready (by rw [hfin]; exact hclk)
  have hexec : exec (.data33 data parity) s = .next t := by
    refine (if_neg (by rw [hp]; decide)).trans ((if_pos hp).trans ?_)
    rw [ht]
    rfl
  refine ⟨t, hexec, ?_, fun hm => ?_⟩
  · rw [hfin] at hcore
    refine (eq_of_core_eq_of_kept (u := writeEnd (writeDataFrame s.extraCycle s.idleCycles.toNat data)
      { s with wdata := data }) (hcore.trans rfl) hkept).trans ?_
    rfl
  · rw [hsame hm] at hkept
    exact hkept.gpio hm

end Sys2Proof.Machine
end

section
/-! PROOFS. What every instruction can do, said once: an instruction that answers a next state did one of the things of
`Did`. The results of each operation (60_exceptions.md R271, R275), the noninterference of discarded bits
(44_spi_backend.md R219) and the resting state (60_exceptions.md R277) follow from it. -/

namespace Sys2Proof.Machine

/-! Inversion, by the shape of the instruction -/

/-- An XFER that answers a next state was refused outside SWD (R122) or ran to its end. -/
theorem exec_issues_next {i : Instr} {request : Byte} {data : Word} {s t : State} (h : issues i request data)
    (he : exec i s = .next t) :
    s.phase = .idle ∧ ((s.debugPort ≠ .swd ∧ t = raiseResult statusRefused s) ∨ s.swdReady) := by
  by_cases hidle : s.phase = .idle
  · refine ⟨hidle, ?_⟩
    by_cases hport : s.debugPort = .swd
    · refine .inr ⟨hidle, hport, fun hspi => ?_⟩
      cases hbusy : s.spi.busy with
      | false => rfl
      | true =>
        rw [busyPeripheralTimesOut i s (.inl ⟨request, data, h⟩) hidle hport hspi hbusy] at he
        cases he
    · rw [exec_issues h, xfer_refused hidle hport] at he
      exact .inl ⟨hport, (Host.Outcome.next.inj he).symm⟩
  · rw [exec_issues h, xfer, accept_busy hidle] at he
    cases he

/-- A SEQ that answers a next state has its bytes, and was refused outside SWD (R161) or ran to its end. -/
theorem exec_seq_next {i : Instr} {bitCount : Byte} {bits : List Byte} {s t : State}
    (h : i.canonical = .seq bitCount bits) (he : exec i s = .next t) :
    bits.length = seqByteCount bitCount ∧ s.phase = .idle ∧
      ((s.debugPort ≠ .swd ∧ t = raiseResult statusRefused s) ∨ s.swdReady) := by
  have hlen : bits.length = seqByteCount bitCount := by
    cases i with
    | seq _ _ =>
      obtain ⟨rfl, rfl⟩ := Instr.seq.inj h
      refine Decidable.byContradiction fun hne => ?_
      rw [oneOperationAtATime.2 _ _ s hne] at he
      cases he
    | linereset _ | idle _ =>
      obtain ⟨rfl, rfl⟩ := Instr.seq.inj h
      exact seqFill_length _ _
    | jtag2swd | swd2jtag =>
      obtain ⟨rfl, rfl⟩ := Instr.seq.inj h
      rfl
    | req8 nibble =>
      have hformat := req8Row_format nibble
      rw [show req8Row nibble = .seq bitCount bits from h] at hformat
      cases hformat
    | _ => cases h
  refine ⟨hlen, ?_⟩
  by_cases hidle : s.phase = .idle
  · refine ⟨hidle, ?_⟩
    by_cases hport : s.debugPort = .swd
    · refine .inr ⟨hidle, hport, fun hspi => ?_⟩
      cases hbusy : s.spi.busy with
      | false => rfl
      | true =>
        rw [busyPeripheralTimesOut i s (.inr ⟨bitCount, bits, h, hlen⟩) hidle hport hspi hbusy] at he
        cases he
    · rw [exec_seq h hlen, sequence_refused hidle hport] at he
      exact .inl ⟨hport, (Host.Outcome.next.inj he).symm⟩
  · rw [exec_seq h hlen, sequence, accept_busy hidle] at he
    cases he

/-- The seven instructions that take no wire cycle (10_state.md R26), and what each writes. -/
inductive Configured : Instr → State → State → Prop
  | connect (portId : Byte) (s : State) : Configured (.connect portId) s
      { s with debugPort := .swd, pins := connectPins, result := 1#8 }
  | connectFailed (portId : Byte) (s : State) : Configured (.connect portId) s { s with result := 0#8 }
  | disconnect (s : State) : Configured .disconnect s
      { s with debugPort := .disabled, pins := { s.pins with swclkOe := false, swdioOe := false }, result := 0#8 }
  | cfgIdle (n : Byte) (s : State) : Configured (.cfgIdle n) s { s with idleCycles := n, result := 0#8 }
  | clkZero (freq : Word) (s : State) : Configured (.clk freq) s { s with result := 0xFF#8 }
  | clkSpi (freq : Word) (s : State) (h : s.params.hasSpi = true) : Configured (.clk freq) s
      { s with xferMode := .spi, result := 0#8 }
  | clkFast (freq : Word) (s : State) : Configured (.clk freq) s { s with xferMode := .gpioFast, result := 0#8 }
  | clkDelayed (freq : Word) (s : State) : Configured (.clk freq) s
      { s with xferMode := .gpioDelayed, clockDelay := delayOf s.params freq.toNat, result := 0#8 }
  | cfgSwd (cfg : Byte) (s : State) : Configured (.cfgSwd cfg) s
      { s with turnaroundBits := cfgTurnaround cfg, dataPhase := cfgDataPhase cfg, result := 0#8 }
  | cfg8 (cfg : Byte) (s : State) : Configured (.cfg8 cfg) s
      { s with turnaroundBits := cfgTurnaround cfg, dataPhase := cfgDataPhase cfg }
  | anyOtherOp (op : Byte) (s : State) : Configured (.anyOtherOp op) s { s with result := 0xFF#8 }

/-- The kinds of instructions: an operation on the wires under any of its names, an item of the wire formats by its value,
or one of the operations that take no wire cycle. -/
inductive Shape : Instr → Prop
  | xfer {i : Instr} (request : Byte) (data : Word) (h : issues i request data) : Shape i
  | seq {i : Instr} (bitCount : Byte) (bits : List Byte) (h : i.canonical = .seq bitCount bits) : Shape i
  | request {i : Instr} (nibble : Nibble) (h : i = req8Row nibble ∨ i = .req8 nibble) : Shape i
  | ack (a : BitVec 3) : Shape (ack3Row a)
  | data33 (v : Word) (p : Bool) : Shape (.data33 v p)
  | connect (portId : Byte) : Shape (.connect portId)
  | disconnect : Shape .disconnect
  | cfgIdle (n : Byte) : Shape (.cfgIdle n)
  | clk (freq : Word) : Shape (.clk freq)
  | cfgSwd (cfg : Byte) : Shape (.cfgSwd cfg)
  | cfg8 (cfg : Byte) : Shape (.cfg8 cfg)
  | anyOtherOp (op : Byte) : Shape (.anyOtherOp op)

theorem shape (i : Instr) : Shape i := by
  cases i with
  | connect portId => exact .connect portId
  | disconnect => exact .disconnect
  | cfgIdle n => exact .cfgIdle n
  | clk freq => exact .clk freq
  | cfgSwd cfg => exact .cfgSwd cfg
  | cfg8 cfg => exact .cfg8 cfg
  | anyOtherOp op => exact .anyOtherOp op
  | seq _ _ | linereset _ | idle _ | jtag2swd | swd2jtag => exact .seq _ _ rfl
  | xferR r | idcode | rdbuff => exact .xfer _ 0#32 (.inl ⟨_, rfl, rfl⟩)
  | xferW r data | abort data => exact .xfer _ data (.inr ⟨_, rfl, rfl⟩)
  | data33 v p => exact .data33 v p
  | req8 nibble => exact .request nibble (.inr rfl)
  | req8DpW0 => exact .request 0x0#4 (.inl rfl)
  | req8ApW0 => exact .request 0x1#4 (.inl rfl)
  | req8DpR0 => exact .request 0x2#4 (.inl rfl)
  | req8ApR0 => exact .request 0x3#4 (.inl rfl)
  | req8DpW4 => exact .request 0x4#4 (.inl rfl)
  | req8ApW4 => exact .request 0x5#4 (.inl rfl)
  | req8DpR4 => exact .request 0x6#4 (.inl rfl)
  | req8ApR4 => exact .request 0x7#4 (.inl rfl)
  | req8DpW8 => exact .request 0x8#4 (.inl rfl)
  | req8ApW8 => exact .request 0x9#4 (.inl rfl)
  | req8DpR8 => exact .request 0xA#4 (.inl rfl)
  | req8ApR8 => exact .request 0xB#4 (.inl rfl)
  | req8DpWC => exact .request 0xC#4 (.inl rfl)
  | req8ApWC => exact .request 0xD#4 (.inl rfl)
  | req8DpRC => exact .request 0xE#4 (.inl rfl)
  | req8ApRC => exact .request 0xF#4 (.inl rfl)
  | ack3Invalid0 => exact .ack 0#3
  | ack3Ok => exact .ack 1#3
  | ack3Wait => exact .ack 2#3
  | ack3Invalid3 => exact .ack 3#3
  | ack3Fault => exact .ack 4#3
  | ack3Invalid5 => exact .ack 5#3
  | ack3Invalid6 => exact .ack 6#3
  | ack3Invalid7 => exact .ack 7#3

/-- What an instruction that answers a next state did. -/
inductive Did (i : Instr) (s t : State) : Prop
  | configured (hidle : s.phase = .idle) (h : Configured i s t)
  /-- An XFER or SEQ outside SWD (R122, R161). -/
  | refused (hidle : s.phase = .idle) (hport : s.debugPort ≠ .swd) (h : t = raiseResult statusRefused s)
  | xfer (request : Byte) (data : Word) (hi : issues i request data) (hs : s.swdReady)
  | seq (bitCount : Byte) (bits : List Byte) (hi : i.canonical = .seq bitCount bits)
      (hlen : bits.length = seqByteCount bitCount) (hs : s.swdReady)
  | request (nibble : Nibble) (hi : i = req8Row nibble ∨ i = .req8 nibble) (hp : s.phase = .req)
  | ack (a : BitVec 3) (hi : i = ack3Row a) (hp : s.phase = .acks)
  | received (v : Word) (p : Bool) (hi : i = .data33 v p) (hp : s.phase = .rdata)
  | sent (v : Word) (p : Bool) (hi : i = .data33 v p) (hp : s.phase = .wdata)

/-- A configuration operation is accepted in an idle sequencer only. -/
theorem accept_next {s t : State} {r : Host.Outcome State Fault Refusal} (h : accept s r = .next t) :
    s.phase = .idle ∧ r = .next t := by
  by_cases hidle : s.phase = .idle
  · exact ⟨hidle, (accept_idle hidle r).symm.trans h⟩
  · rw [accept_busy hidle] at h
    cases h

theorem exec_did {i : Instr} {s t : State} (he : exec i s = .next t) : Did i s t := by
  cases shape i with
  | xfer request data h =>
    obtain ⟨hidle, ⟨hport, ht⟩ | hs⟩ := exec_issues_next h he
    · exact .refused hidle hport ht
    · exact .xfer request data h hs
  | seq bitCount bits h =>
    obtain ⟨hlen, hidle, ⟨hport, ht⟩ | hs⟩ := exec_seq_next h he
    · exact .refused hidle hport ht
    · exact .seq bitCount bits h hlen hs
  | request nibble h =>
    refine .request nibble h (Decidable.byContradiction fun hp => ?_)
    obtain ⟨hrow, hpattern⟩ := itemsNeedTheirPhase.1 nibble s hp
    rcases h with rfl | rfl
    · rw [hrow] at he; cases he
    · rw [hpattern] at he; cases he
  | ack a =>
    refine .ack a rfl (Decidable.byContradiction fun hp => ?_)
    rw [itemsNeedTheirPhase.2.1 a s hp] at he
    cases he
  | data33 v p =>
    by_cases hr : s.phase = .rdata
    · exact .received v p rfl hr
    · refine .sent v p rfl (Decidable.byContradiction fun hw => ?_)
      rw [itemsNeedTheirPhase.2.2 v p s hr hw] at he
      cases he
  | connect portId =>
    obtain ⟨hidle, -⟩ := accept_next he
    rw [connectSelectsSwd portId s hidle] at he
    obtain rfl := Host.Outcome.next.inj he
    refine .configured hidle ?_
    split
    · exact .connect portId s
    · exact .connectFailed portId s
  | disconnect =>
    obtain ⟨hidle, hr⟩ := accept_next he
    obtain rfl := Host.Outcome.next.inj hr
    exact .configured hidle (.disconnect s)
  | cfgIdle n =>
    obtain ⟨hidle, hr⟩ := accept_next he
    obtain rfl := Host.Outcome.next.inj hr
    exact .configured hidle (.cfgIdle n s)
  | clk freq =>
    obtain ⟨hidle, -⟩ := accept_next he
    rw [clkSelectsTheBackend freq s hidle] at he
    obtain rfl := Host.Outcome.next.inj he
    refine .configured hidle ?_
    split
    · exact .clkZero freq s
    split
    · next hspi => exact .clkSpi freq s hspi.2
    split
    · exact .clkFast freq s
    · exact .clkDelayed freq s
  | cfgSwd cfg =>
    obtain ⟨hidle, hr⟩ := accept_next he
    obtain rfl := Host.Outcome.next.inj hr
    exact .configured hidle (.cfgSwd cfg s)
  | cfg8 cfg =>
    obtain ⟨hidle, hr⟩ := accept_next he
    obtain rfl := Host.Outcome.next.inj hr
    exact .configured hidle (.cfg8 cfg s)
  | anyOtherOp op =>
    obtain ⟨hidle, hr⟩ := accept_next he
    obtain rfl := Host.Outcome.next.inj hr
    exact .configured hidle (.anyOtherOp op s)

/-! What a transaction keeps -/

/-- What a transaction writes of the registers: those of the acknowledge and the data, the rest stays. -/
theorem settled_eq (s : State) (ack : BitVec 3) (bits : List Bool) :
    s.settled ack bits =
      { s with
          rdata := (s.settled ack bits).rdata, ack := ack, par := (s.settled ack bits).par,
          result := (s.settled ack bits).result, cls := (s.settled ack bits).cls,
          perr := (s.settled ack bits).perr, ackinv := ackClass ack == .error,
          timestamp := (s.settled ack bits).timestamp } := by
  unfold State.settled
  cases ackClass ack with
  | ok => cases s.rnw <;> rfl
  | wait | fault | error => rfl

/-- The same of the whole state at the end. -/
theorem concluded_eq (s : State) (ack : BitVec 3) (bits : List Bool) (frame : List CycleRec) (t : State) :
    s.concluded ack bits frame t =
      { s with
          rdata := (s.settled ack bits).rdata, ack := ack, par := (s.settled ack bits).par,
          result := (s.settled ack bits).result, cls := (s.settled ack bits).cls,
          perr := (s.settled ack bits).perr, ackinv := ackClass ack == .error,
          timestamp := (s.settled ack bits).timestamp,
          phase := .idle, bitcnt := 0#9, pins := s.pins.restored, wire := s.wire ++ frame,
          inputs := (s.inputs.after (s.samplesTaken ack) t.inputs.discards).stamped
            (ackClass ack == .ok && s.req.getLsbD 7),
          spi := t.spi, pinEvents := t.pinEvents } := by
  conv_lhs => rw [State.concluded, settled_eq]

/-- The two causes of ERROR are never both set (R275): a wrong parity needs an OK acknowledge. -/
theorem settled_perr {s : State} (h : s.perr = false) {ack : BitVec 3} (bits : List Bool)
    (hp : (s.settled ack bits).perr = true) : ackClass ack = .ok ∧ s.rnw = true := by
  unfold State.settled at hp
  cases hclass : ackClass ack with
  | ok =>
    refine ⟨rfl, ?_⟩
    cases hr : s.rnw with
    | true => rfl
    | false =>
      simp only [hclass, hr, Bool.false_eq_true, if_false] at hp
      simp [h] at hp
  | wait | fault | error =>
    simp only [hclass] at hp
    simp [h] at hp

/-- The result of a transaction whose parity flag was cleared at its start, and its two causes of ERROR (R270, R275). -/
theorem settled_result {s : State} (h : s.perr = false) (ack : BitVec 3) (bits : List Bool) :
    (s.settled ack bits).result ∈ [0x01#8, 0x02#8, 0x04#8, 0x08#8] ∧
      ((s.settled ack bits).result = 0x08#8 ↔ (s.settled ack bits).perr = true ∨ ackClass ack = .error) := by
  unfold State.settled
  cases ackClass ack with
  | ok =>
    cases s.rnw with
    | false => simp [h]
    | true =>
      generalize par32 (ofBits 32 (bits.take 32)) = q
      cases bits.getD 32 false <;> cases q <;> simp
  | wait | fault | error => simp [h]

/-- The results of an XFER, and the two causes of 0x08 kept apart (R271, R275). -/
theorem exec_issues_result {i : Instr} {request : Byte} {data : Word} {s t : State} (hi : issues i request data)
    (hs : s.swdReady) (he : exec i s = .next t) :
    t.result ∈ [0x01#8, 0x02#8, 0x04#8, 0x08#8] ∧
      (t.result = 0x08#8 → (t.perr = true ∧ t.ackinv = false ∧ t.rnw = true) ∨ (t.perr = false ∧ t.ackinv = true)) := by
  obtain ⟨u, hu, hc, -⟩ := xferRunsToItsEnd i request data s hi hs
  obtain rfl : u = t := Host.Outcome.next.inj (hu.symm.trans he)
  rw [concluded_eq] at hc
  have hresult := congrArg State.result hc
  have hcause := congrArg State.perr hc
  have hinv := congrArg State.ackinv hc
  have hrnw : u.rnw = (xferStart request data s).rnw := by rw [State.rnw, congrArg State.req hc]; rfl
  simp only at hresult hcause hinv
  obtain ⟨hmem, hiff⟩ := settled_result (xferStart_perr request data s) s.nextAck (s.answersFrom 3 33)
  rw [hresult, hcause, hinv, hrnw]
  refine ⟨hmem, fun h8 => ?_⟩
  cases hp : ((xferStart request data s).settled s.nextAck (s.answersFrom 3 33)).perr with
  | true =>
    obtain ⟨hok, hread⟩ := settled_perr (xferStart_perr request data s) _ hp
    exact .inl ⟨rfl, by rw [hok]; rfl, hread⟩
  | false =>
    have herror : ackClass s.nextAck = .error := (hiff.mp h8).resolve_left (by simp [hp])
    exact .inr ⟨rfl, by rw [herror]; rfl⟩

/-- Settles O52. -/
theorem resultsOfEachOperation : Obligations.ResultsOfEachOperation := by
  intro i s t he
  refine ⟨fun request data hi => ?_, fun bitCount bits hi => ?_, ?_, ?_, ?_, ?_, ?_⟩
  · obtain ⟨-, ⟨-, rfl⟩ | hs⟩ := exec_issues_next hi he
    · exact ⟨by simp [statusRefused], fun h => absurd h (by simp [statusRefused])⟩
    · obtain ⟨hmem, hcauses⟩ := exec_issues_result hi hs he
      exact ⟨List.mem_append_left [0xFF#8] hmem, hcauses⟩
  · obtain ⟨hlen, -, ⟨-, rfl⟩ | hs⟩ := exec_seq_next hi he
    · simp [statusRefused]
    · obtain ⟨u, hu, hc, -⟩ := seqDrivesItsBits i bitCount bits s hi hlen hs
      obtain rfl : u = t := Host.Outcome.next.inj (hu.symm.trans he)
      rw [hc]
      simp
  all_goals
    intros
    subst i
    obtain ⟨-, hr⟩ := accept_next he
  · obtain rfl := Host.Outcome.next.inj hr
    rfl
  · obtain rfl := Host.Outcome.next.inj hr
    rfl
  · obtain rfl := Host.Outcome.next.inj hr
    rfl
  · split at hr <;> obtain rfl := Host.Outcome.next.inj hr <;> simp [statusRefused, statusDone]
  · split at hr <;> obtain rfl := Host.Outcome.next.inj hr <;> simp

/-- The free values of discarded positions are read by nothing that `concluded` says. -/
theorem concluded_withDiscards (s : State) (d : Nat) (ack : BitVec 3) (bits : List Bool) (frame : List CycleRec)
    (t : State) :
    State.concluded { s with inputs := { s.inputs with discards := d } } ack bits frame t =
      s.concluded ack bits frame t := by
  have hrnw : State.rnw { s with inputs := { s.inputs with discards := d } } = s.rnw := rfl
  simp only [State.concluded, State.settled, State.samplesTaken, hrnw]
  cases ackClass ack with
  | ok => cases s.rnw <;> rfl
  | wait | fault | error => rfl

/-- Settles O42: both runs end in the same concluded state. -/
theorem discardedBitsNeverMatter : Obligations.DiscardedBitsNeverMatter := by
  intro i request data s t t' d hi he he'
  obtain ⟨hidle, ⟨hport, rfl⟩ | hs⟩ := exec_issues_next hi he
  · have hrefused := xfer_refused (s := { s with inputs := { s.inputs with discards := d } }) hidle hport request
    rw [exec_issues hi, hrefused] at he'
    obtain rfl := Host.Outcome.next.inj he'
    rfl
  · obtain ⟨u, hu, hc, -⟩ := xferRunsToItsEnd i request data s hi hs
    obtain rfl : u = t := Host.Outcome.next.inj (hu.symm.trans he)
    obtain ⟨u', hu', hc', -⟩ := xferRunsToItsEnd i request data _ hi
      (show State.swdReady { s with inputs := { s.inputs with discards := d } } from hs)
    obtain rfl : u' = t' := Host.Outcome.next.inj (hu'.symm.trans he')
    have hstart : xferStart request data { s with inputs := { s.inputs with discards := d } } =
        { xferStart request data s with inputs := { s.inputs with discards := d } } := rfl
    have hend : u' = (xferStart request data s).concluded s.nextAck (s.answersFrom 3 33)
        (headerFrame (requestNibble request) s.turnaround (s.answersFrom 0 3) ++
          tailFrame (xferStart request data s) s.nextAck (s.answersFrom 3 33)) u' := by
      rw [hstart] at hc'
      exact hc'.trans (concluded_withDiscards (xferStart request data s) d _ _ _ u')
    refine hend.trans ?_
    rw [hc]
    rfl

end Sys2Proof.Machine
end

section
/-! PROOFS. The resting state is kept by every step (60_exceptions.md R277, R278; logs 6 and 17). -/

namespace Sys2Proof.Machine

/-- The pins are driven as `DEBUG_PORT` says (10_state.md R32, R35). -/
def PinsFollowPort (port : DebugPort) (p : Pins) : Prop :=
  (port = .disabled ∧ p.swclkOe = false ∧ p.swdioOe = false) ∨
    (port = .swd ∧ p.swclkOe = true ∧ p.swdioOe = true)

/-- The clauses of `State.resting`, one by one. -/
structure Resting (s : State) : Prop where
  phase : s.phase = .idle
  bitcnt : s.bitcnt = 0#9
  clk : s.pins.swclkO = true
  pins : PinsFollowPort s.debugPort s.pins
  busy : s.spi.busy = false
  sense : s.spi.sense = false
  buf : s.spi.buf.length = s.params.spiMaxBits
  lens : s.spi.outLen + s.spi.inLen ≤ s.params.spiMaxBits
  mode : s.xferMode = .spi → s.params.hasSpi = true
  causes : ¬ (s.perr = true ∧ s.ackinv = true)

theorem resting_iff (s : State) : s.resting = true ↔ Resting s := by
  unfold State.resting
  simp only [Bool.and_eq_true, beq_iff_eq, Bool.not_eq_true', Bool.or_eq_true, bne_iff_ne, decide_eq_true_eq]
  constructor
  · rintro ⟨⟨⟨⟨⟨⟨⟨⟨⟨hphase, hbitcnt⟩, hclk⟩, hpins⟩, hbusy⟩, hsense⟩, hbuf⟩, hlens⟩, hmode⟩, hcauses⟩
    refine ⟨hphase, hbitcnt, hclk, ?_, hbusy, hsense, hbuf, hlens, fun h => hmode.resolve_left (fun hne => hne h), ?_⟩
    · unfold PinsFollowPort
      cases hport : s.debugPort <;> simp_all
    · rintro ⟨hperr, hackinv⟩
      simp [hperr, hackinv] at hcauses
  · rintro ⟨hphase, hbitcnt, hclk, hpins, hbusy, hsense, hbuf, hlens, hmode, hcauses⟩
    refine ⟨⟨⟨⟨⟨⟨⟨⟨⟨hphase, hbitcnt⟩, hclk⟩, ?_⟩, hbusy⟩, hsense⟩, hbuf⟩, hlens⟩, ?_⟩, ?_⟩
    · rcases hpins with ⟨hport, hoe, hdio⟩ | ⟨hport, hoe, hdio⟩ <;> simp [hport, hoe, hdio]
    · exact Decidable.or_iff_not_imp_left.mpr fun h => hmode (Decidable.not_not.mp h)
    · simpa using hcauses

/-- The configuration operations: CONNECT and DISCONNECT set the port with its pins, CLK selects SPI only where it
exists, and the others touch nothing that rests. -/
theorem Configured.keeps_resting {i : Instr} {s t : State} (h : Configured i s t) (hs : Resting s) : Resting t := by
  cases h with
  | connect portId => exact { hs with clk := rfl, pins := .inr ⟨rfl, rfl, rfl⟩ }
  | disconnect => exact { hs with pins := .inl ⟨rfl, rfl, rfl⟩ }
  | clkSpi freq _ hspi => exact { hs with mode := fun _ => hspi }
  | clkFast freq => exact { hs with mode := nofun }
  | clkDelayed freq => exact { hs with mode := nofun }
  | connectFailed | cfgIdle | clkZero | cfgSwd | cfg8 | anyOtherOp => exact { hs with }

/-- A rested state in SWD drives both pins. -/
theorem Resting.swclkOe {s : State} (hs : Resting s) (hport : s.debugPort = .swd) : s.pins.swclkOe = true := by
  rcases hs.pins with ⟨hp, -⟩ | ⟨-, hclk, -⟩
  · rw [hport] at hp; cases hp
  · exact hclk

/-- An operation on the wires leaves the peripheral at rest (`Kept`), and the pins driven in SWD. -/
theorem Resting.of_kept {s t : State} (hs : Resting s) (hk : Kept s t) (hparams : t.params = s.params)
    (hmode : t.xferMode = s.xferMode) (hport : t.debugPort = .swd) (hclk : t.pins.swclkO = true)
    (hoe : t.pins.swclkOe = true ∧ t.pins.swdioOe = true) (hcauses : ¬ (t.perr = true ∧ t.ackinv = true)) :
    Resting t where
  phase := hk.phase
  bitcnt := hk.bitcnt
  clk := hclk
  pins := .inr ⟨hport, hoe.1, hoe.2⟩
  busy := hk.busy hs.busy
  sense := hk.sense hs.sense
  buf := by rw [hparams]; exact hk.buf hs.buf
  lens := by rw [hparams]; exact hk.lens hs.lens
  mode := by rw [hparams, hmode]; exact hs.mode
  causes := hcauses

/-- An XFER that runs (R137, R139, R140). -/
theorem exec_issues_keeps_resting {i : Instr} {request : Byte} {data : Word} {s t : State} (hi : issues i request data)
    (hs : Resting s) (hready : s.swdReady) (he : exec i s = .next t) : Resting t := by
  obtain ⟨u, hu, hkept, hc⟩ := exec_issues_concluded hi hready
  obtain rfl : u = t := Host.Outcome.next.inj (hu.symm.trans he)
  have hport := hready.2.1
  have hk : Kept s u := ⟨hkept.phase, hkept.bitcnt, hkept.busy, hkept.sense, hkept.buf, hkept.lens, hkept.gpio⟩
  rw [concluded_eq] at hc
  have hpins : u.pins = s.pins.restored := congrArg State.pins hc
  have hparams := congrArg State.params hc
  have hmode := congrArg State.xferMode hc
  have hport' := congrArg State.debugPort hc
  have hcause := congrArg State.perr hc
  have hinvalid := congrArg State.ackinv hc
  refine hs.of_kept hk hparams hmode (hport'.trans hport) (by rw [hpins]; rfl)
    (by rw [hpins]; exact ⟨hs.swclkOe hport, rfl⟩) ?_
  rintro ⟨hperr, hackinv⟩
  obtain ⟨hok, -⟩ := settled_perr (xferStart_perr request data s) _ (hcause.symm.trans hperr)
  simp [hok, hackinv] at hinvalid

/-- A SEQ that runs (R163). -/
theorem exec_seq_keeps_resting {i : Instr} {bitCount : Byte} {bits : List Byte} {s t : State}
    (hi : i.canonical = .seq bitCount bits) (hlen : bits.length = seqByteCount bitCount) (hs : Resting s)
    (hready : s.swdReady) (he : exec i s = .next t) : Resting t := by
  obtain ⟨u, hu, hkept, hc⟩ := exec_seq_concluded hi hlen hready
  obtain rfl : u = t := Host.Outcome.next.inj (hu.symm.trans he)
  have hport := hready.2.1
  have hpins := congrArg State.pins hc
  have hparams := congrArg State.params hc
  have hmode := congrArg State.xferMode hc
  have hport' := congrArg State.debugPort hc
  have hcause := congrArg State.perr hc
  have hinvalid := congrArg State.ackinv hc
  refine hs.of_kept hkept hparams hmode (hport'.trans hport) (by rw [hpins]) (by rw [hpins]; exact ⟨hs.swclkOe hport, rfl⟩) ?_
  rw [hcause, hinvalid]
  exact hs.causes

/-- Every instruction keeps the resting state: an item of the wire formats is not in its phase there. -/
theorem exec_keeps_resting {i : Instr} {s t : State} (hs : Resting s) (he : exec i s = .next t) : Resting t := by
  have hitem : ∀ p : Phase, p ≠ .idle → s.phase ≠ p := fun p hp h => hp (h.symm.trans hs.phase)
  cases exec_did he with
  | configured _ h => exact h.keeps_resting hs
  | refused _ _ h =>
    subst h
    exact { hs with }
  | xfer request data hi hready => exact exec_issues_keeps_resting hi hs hready he
  | seq bitCount bits hi hlen hready => exact exec_seq_keeps_resting hi hlen hs hready he
  | request _ _ hp => exact absurd hp (hitem _ (by decide))
  | ack _ _ hp => exact absurd hp (hitem _ (by decide))
  | received _ _ _ hp => exact absurd hp (hitem _ (by decide))
  | sent _ _ _ hp => exact absurd hp (hitem _ (by decide))

/-- What an idle machine does: it waits, or runs an operation in the state whose port holds the bytes left, or refuses. -/
theorem step_idle_next {s t : State} (hidle : s.phase = .idle) (h : step s = .next t) :
    t = s ∨ ∃ i rest, exec i { s with cmd := rest } = .next t := by
  have hfetch : fetch s = fetchCommand s := by rw [fetch, hidle]
  rw [step, hfetch, fetchCommand] at h
  by_cases hcmd : s.cmd = []
  · rw [if_pos hcmd] at h
    exact .inl (Host.Outcome.next.inj h).symm
  · rw [if_neg hcmd] at h
    cases hd : decode .cmd s.cmd with
    | ok i rest =>
      rw [hd] at h
      exact .inr ⟨i, rest, h⟩
    | bad e =>
      rw [hd] at h
      cases h

/-- Settles O45: a step from a resting state is a wait or one instruction, and every instruction keeps the clauses. -/
theorem stepsKeepTheRestingState : Obligations.StepsKeepTheRestingState := by
  intro s t hs h
  rw [resting_iff] at hs ⊢
  rcases step_idle_next hs.phase h with rfl | ⟨i, rest, he⟩
  · exact hs
  · exact exec_keeps_resting (s := { s with cmd := rest }) { hs with } he

end Sys2Proof.Machine
end

section
/-! PROOFS. The wire cycles of every operation fit their phases (10_state.md R25, R26), and the target is asked once for each
sampled one (00_scope.md R11). A frame is a list of runs of whole phases, no phase twice. -/

namespace Sys2Proof.Machine

/-! Frames as runs -/

/-- A phase and its wire cycles. -/
abbrev Run : Type := Phase × List WireCycle

/-- The frame of some runs. -/
def runsOf (rs : List Run) : List CycleRec := rs.flatMap fun r => runOf r.1 r.2

theorem runsOf_nil : runsOf [] = [] := rfl

theorem runsOf_cons (p : Phase) (cs : List WireCycle) (rs : List Run) : runsOf ((p, cs) :: rs) = runOf p cs ++ runsOf rs :=
  List.flatMap_cons

theorem runsOf_append (rs rs' : List Run) : runsOf (rs ++ rs') = runsOf rs ++ runsOf rs' := List.flatMap_append

/-- A cycle is of the kind of a phase; where it stands in the phase does not matter. -/
def kindFits (p : Phase) (c : WireCycle) : Bool := CycleRec.kindOk { phase := p, left := 0#9, cycle := c }

theorem kindOk_eq_kindFits (r : CycleRec) : r.kindOk = kindFits r.phase r.cycle := rfl

/-- A run has the full count of its phase, which is none too long, and cycles of its kind. -/
structure RunFits (entry : Phase → Nat) (r : Run) : Prop where
  count : r.2.length = entry r.1
  bound : r.2.length ≤ r.1.longest
  kind : ∀ c ∈ r.2, kindFits r.1 c = true

theorem longest_le (p : Phase) : p.longest ≤ 256 := by cases p <;> decide

/-- Every cycle of a run is at a position its phase has. -/
theorem runOf_mem {p : Phase} {cs : List WireCycle} {r : CycleRec} (h : r ∈ runOf p cs) (hlen : cs.length ≤ 511) :
    r.phase = p ∧ r.cycle ∈ cs ∧ 1 ≤ r.left.toNat ∧ r.left.toNat ≤ cs.length := by
  induction cs with
  | nil => cases h
  | cons c cs ih =>
    rw [List.length_cons] at hlen ⊢
    rcases List.mem_cons.mp h with rfl | h
    · refine ⟨rfl, List.mem_cons_self, ?_, ?_⟩ <;> simp only [BitVec.toNat_ofNat] <;> omega
    · obtain ⟨hp, hc, hone, hle⟩ := ih h (by omega)
      exact ⟨hp, List.mem_cons_of_mem _ hc, hone, by omega⟩

/-- The first cycle of a frame is at the full count of its phase (R25). -/
theorem runsOf_head? {entry : Phase → Nat} {rs : List Run} (h : ∀ r ∈ rs, RunFits entry r) {r : CycleRec}
    (hr : (runsOf rs).head? = some r) : r.phase ∈ rs.map Prod.fst ∧ r.left.toNat = entry r.phase := by
  induction rs with
  | nil => cases hr
  | cons q rs ih =>
    obtain ⟨p, cs⟩ := q
    rw [runsOf_cons, List.head?_append] at hr
    cases hc : (runOf p cs).head? with
    | none =>
      rw [hc, Option.none_or] at hr
      obtain ⟨hmem, hleft⟩ := ih (fun q hq => h q (List.mem_cons_of_mem _ hq)) hr
      exact ⟨List.mem_cons_of_mem _ hmem, hleft⟩
    | some r' =>
      rw [hc, Option.some_or] at hr
      obtain rfl := Option.some.inj hr
      obtain ⟨hp, hl⟩ := runOf_head? p cs r' hc
      have hfit := h (p, cs) List.mem_cons_self
      have hle := hfit.bound.trans (longest_le p)
      have hcount : cs.length = entry p := hfit.count
      refine ⟨by rw [hp]; exact List.mem_cons_self, ?_⟩
      rw [hl, hp, BitVec.toNat_ofNat, ← hcount]
      simp only at hle
      omega

/-- The last cycle of a frame is at 1 (R26). -/
theorem runsOf_getLast? {rs : List Run} {r : CycleRec} (hr : (runsOf rs).getLast? = some r) : r.left = 1#9 := by
  induction rs with
  | nil => cases hr
  | cons q rs ih =>
    obtain ⟨p, cs⟩ := q
    rw [runsOf_cons, List.getLast?_append] at hr
    cases hc : (runsOf rs).getLast? with
    | none =>
      rw [hc, Option.none_or] at hr
      exact (runOf_getLast? p cs r hr).2
    | some r' =>
      rw [hc, Option.some_or] at hr
      exact ih (hc.trans hr)

/-- From cycle to cycle the position advances as R26 says: within a phase, or from a phase to another one. -/
theorem runsOf_isChain {entry : Phase → Nat} {rs : List Run} (h : ∀ r ∈ rs, RunFits entry r)
    (hnodup : (rs.map Prod.fst).Nodup) : (runsOf rs).IsChain (CycleRec.advances entry) := by
  induction rs with
  | nil => exact .nil
  | cons q rs ih =>
    obtain ⟨p, cs⟩ := q
    rw [List.map_cons, List.nodup_cons] at hnodup
    have hrest : ∀ r ∈ rs, RunFits entry r := fun q hq => h q (List.mem_cons_of_mem _ hq)
    have hle := (h (p, cs) List.mem_cons_self).bound.trans (longest_le p)
    rw [runsOf_cons, List.isChain_append]
    refine ⟨runOf_isChain entry p cs (by simp only at hle; omega), ih hrest hnodup.2, fun r hr r' hr' => .inr ?_⟩
    obtain ⟨hp, hleft⟩ := runOf_getLast? p cs r hr
    obtain ⟨hmem, hentry⟩ := runsOf_head? hrest hr'
    refine ⟨fun heq => hnodup.1 ?_, hleft, hentry⟩
    rw [heq, hp] at hmem
    exact hmem

/-- What O46 says of the cycles an operation adds. -/
structure FrameFits (entry : Phase → Nat) (frame : List CycleRec) : Prop where
  cycles : ∀ r ∈ frame, r.kindOk = true ∧ 1 ≤ r.left.toNat ∧ r.left.toNat ≤ r.phase.longest
  first : ∀ r, frame.head? = some r → r.left.toNat = entry r.phase
  chain : frame.IsChain (CycleRec.advances entry)
  last : ∀ r, frame.getLast? = some r → r.left = 1#9

theorem runsOf_fits {entry : Phase → Nat} {rs : List Run} (h : ∀ r ∈ rs, RunFits entry r)
    (hnodup : (rs.map Prod.fst).Nodup) : FrameFits entry (runsOf rs) where
  cycles := by
    intro r hr
    obtain ⟨⟨p, cs⟩, hq, hr⟩ := List.mem_flatMap.mp hr
    have hfit := h _ hq
    have hle : cs.length ≤ p.longest := hfit.bound
    obtain ⟨hp, hc, hone, hlen⟩ := runOf_mem hr (hle.trans ((longest_le p).trans (by decide)))
    rw [kindOk_eq_kindFits, hp]
    exact ⟨hfit.kind _ hc, hone, hlen.trans hle⟩
  first := fun _ hr => (runsOf_head? h hr).2
  chain := runsOf_isChain h hnodup
  last := fun _ hr => runsOf_getLast? hr

/-! The kinds of runs -/

theorem runFits_driven {entry : Phase → Nat} {p : Phase} {bits : List Bool} (hc : bits.length = entry p)
    (hb : entry p ≤ p.longest) (hk : ∀ b, kindFits p (.drive b) = true) : RunFits entry (p, driven bits) where
  count := by simpa using hc
  bound := by simpa [hc] using hb
  kind := by
    intro c h
    obtain ⟨b, -, rfl⟩ := List.mem_map.mp h
    exact hk b

theorem runFits_lows {entry : Phase → Nat} {p : Phase} {n : Nat} (hc : n = entry p) (hb : entry p ≤ p.longest)
    (hk : kindFits p (.drive false) = true) : RunFits entry (p, lows n) where
  count := by simpa using hc
  bound := by simpa [hc] using hb
  kind := by
    intro c h
    obtain ⟨b, hb, rfl⟩ := List.mem_map.mp h
    rw [List.eq_of_mem_replicate hb]
    exact hk

theorem runFits_sampled {entry : Phase → Nat} {p : Phase} {bits : List Bool} (hc : bits.length = entry p)
    (hb : entry p ≤ p.longest) (hk : ∀ b, kindFits p (.sample b) = true) : RunFits entry (p, sampled bits) where
  count := by simpa using hc
  bound := by simpa [hc] using hb
  kind := by
    intro c h
    obtain ⟨b, -, rfl⟩ := List.mem_map.mp h
    exact hk b

theorem runFits_released {entry : Phase → Nat} {p : Phase} {n : Nat} (hc : n = entry p) (hb : entry p ≤ p.longest)
    (hk : kindFits p .released = true) : RunFits entry (p, released n) where
  count := by simpa using hc
  bound := by simpa [hc] using hb
  kind := by
    intro c h
    rw [List.eq_of_mem_replicate h]
    exact hk

/-- No phase but SEQ is entered with more than its longest count. -/
theorem entryCount_le (s : State) {p : Phase} (h : p ≠ .seq) : s.entryCount p ≤ p.longest := by
  obtain ⟨-, hturn⟩ := turnaround_bounds s
  have hidle := s.idleCycles.isLt
  cases p with
  | seq => exact absurd rfl h
  | idlec => exact Nat.le_of_lt_succ hidle
  | trn1 | trnR | trnW | trnF => exact hturn
  | recov => exact Nat.add_le_add_right hturn 33
  | idle | req | acks | rdata | rpar | wdata | wpar | wextra | dummyR | dummyW => exact Nat.le_refl _

theorem entryCount_congr {s t : State} (hturn : t.turnaroundBits = s.turnaroundBits) (hidle : t.idleCycles = s.idleCycles)
    (hseq : t.seqLen = s.seqLen) : t.entryCount = s.entryCount := by
  funext p
  cases p <;> simp only [State.entryCount, State.turnaround, hturn, hidle, hseq]

/-! The runs of each frame (30_encoding.md R87) -/

def headerRuns (nibble : Nibble) (t : Nat) (ack : List Bool) : List Run :=
  [(.req, driven (bitsOf (requestByte nibble))), (.trn1, released t), (.acks, sampled ack)]

theorem headerFrame_eq_runs (nibble : Nibble) (t : Nat) (ack : List Bool) :
    headerFrame nibble t ack = runsOf (headerRuns nibble t ack) := by
  simp [headerFrame, headerRuns, runsOf_cons, runsOf_nil]

def readRuns (t idle : Nat) (bits : List Bool) : List Run :=
  [(.rdata, sampled (bits.take 32)), (.rpar, sampled (bits.drop 32)), (.trnR, released t), (.idlec, lows idle)]

theorem readFrame_eq_runs (t idle : Nat) (bits : List Bool) : readFrame t idle bits = runsOf (readRuns t idle bits) := by
  simp [readFrame, readRuns, runsOf_cons, runsOf_nil]

def writeDataRuns (extra : Bool) (idle : Nat) (data : Word) : List Run :=
  [(.wdata, driven (bitsOf data)), (.wpar, driven [par32 data])] ++ (if extra then [(.wextra, lows 1)] else []) ++
    [(.idlec, lows idle)]

theorem writeDataFrame_eq_runs (extra : Bool) (idle : Nat) (data : Word) :
    writeDataFrame extra idle data = runsOf (writeDataRuns extra idle data) := by
  cases extra <;> simp [writeDataFrame, writeDataRuns, runsOf_cons, runsOf_nil]

def nakRuns (dataPhase rnw : Bool) (t : Nat) : List Run :=
  (if dataPhase && rnw then [(.dummyR, released 33)] else []) ++ [(.trnF, released t)] ++
    (if dataPhase && !rnw then [(.dummyW, lows 33)] else [])

theorem nakFrame_eq_runs (dataPhase rnw : Bool) (t : Nat) :
    nakFrame dataPhase rnw t = runsOf (nakRuns dataPhase rnw t) := by
  cases dataPhase <;> cases rnw <;> simp [nakFrame, nakRuns, runsOf_cons, runsOf_nil]

theorem headerRuns_fit (s : State) (nibble : Nibble) {ack : List Bool} (h : ack.length = 3) :
    ∀ r ∈ headerRuns nibble s.turnaround ack, RunFits s.entryCount r := by
  simp only [headerRuns, List.forall_mem_cons]
  exact ⟨runFits_driven (by simp [State.entryCount]) (entryCount_le s (by decide)) (by decide),
    runFits_released rfl (entryCount_le s (by decide)) rfl,
    runFits_sampled h (entryCount_le s (by decide)) (by decide), nofun⟩

theorem readRuns_fit (s : State) {bits : List Bool} (h : bits.length = 33) :
    ∀ r ∈ readRuns s.turnaround s.idleCycles.toNat bits, RunFits s.entryCount r := by
  simp only [readRuns, List.forall_mem_cons]
  exact ⟨runFits_sampled (by simp [State.entryCount, h]) (entryCount_le s (by decide)) (by decide),
    runFits_sampled (by simp [State.entryCount, h]) (entryCount_le s (by decide)) (by decide),
    runFits_released rfl (entryCount_le s (by decide)) rfl, runFits_lows rfl (entryCount_le s (by decide)) rfl, nofun⟩

theorem writeDataRuns_fit (s : State) (extra : Bool) (data : Word) :
    ∀ r ∈ writeDataRuns extra s.idleCycles.toNat data, RunFits s.entryCount r := by
  have hdata : RunFits s.entryCount (.wdata, driven (bitsOf data)) :=
    runFits_driven (by simp [State.entryCount]) (entryCount_le s (by decide)) (by decide)
  have hpar : RunFits s.entryCount (.wpar, driven [par32 data]) :=
    runFits_driven rfl (entryCount_le s (by decide)) (by decide)
  have hextra : RunFits s.entryCount (.wextra, lows 1) := runFits_lows rfl (entryCount_le s (by decide)) rfl
  have hidle : RunFits s.entryCount (.idlec, lows s.idleCycles.toNat) := runFits_lows rfl (entryCount_le s (by decide)) rfl
  cases extra <;> simp [writeDataRuns, hdata, hpar, hextra, hidle]

theorem nakRuns_fit (s : State) (rnw : Bool) :
    ∀ r ∈ nakRuns s.dataPhase rnw s.turnaround, RunFits s.entryCount r := by
  have hread : RunFits s.entryCount (.dummyR, released 33) := runFits_released rfl (entryCount_le s (by decide)) rfl
  have hturn : RunFits s.entryCount (.trnF, released s.turnaround) :=
    runFits_released rfl (entryCount_le s (by decide)) rfl
  have hwrite : RunFits s.entryCount (.dummyW, lows 33) := runFits_lows rfl (entryCount_le s (by decide)) rfl
  cases s.dataPhase <;> cases rnw <;> simp [nakRuns, hread, hturn, hwrite]

/-! Samples -/

/-- How many cycles of a frame are samples. -/
def sampleCount (frame : List CycleRec) : Nat := frame.countP fun r => r.cycle.isSample

theorem sampleCount_append (xs ys : List CycleRec) : sampleCount (xs ++ ys) = sampleCount xs + sampleCount ys :=
  List.countP_append

theorem sampleCount_runOf (p : Phase) (cs : List WireCycle) : sampleCount (runOf p cs) = cs.countP WireCycle.isSample := by
  rw [← runOf_cycles p cs, List.countP_map, runOf_cycles]
  rfl

@[simp] theorem countP_isSample_sampled (bits : List Bool) : (sampled bits).countP WireCycle.isSample = bits.length := by
  rw [sampled, List.countP_map]
  exact List.countP_eq_length.mpr fun _ _ => rfl

@[simp] theorem countP_isSample_driven (bits : List Bool) : (driven bits).countP WireCycle.isSample = 0 := by
  rw [driven, List.countP_map]
  exact List.countP_eq_zero.mpr fun _ _ => Bool.false_ne_true

@[simp] theorem countP_isSample_lows (n : Nat) : (lows n).countP WireCycle.isSample = 0 := countP_isSample_driven _

@[simp] theorem countP_isSample_released (n : Nat) : (released n).countP WireCycle.isSample = 0 := by
  simp [released, List.countP_replicate, WireCycle.isSample]

theorem sampleCount_headerFrame (nibble : Nibble) (t : Nat) (ack : List Bool) :
    sampleCount (headerFrame nibble t ack) = ack.length := by
  simp [headerFrame, sampleCount_append, sampleCount_runOf]

theorem sampleCount_readFrame (t idle : Nat) {bits : List Bool} (h : bits.length = 33) :
    sampleCount (readFrame t idle bits) = 33 := by
  simp [readFrame, sampleCount_append, sampleCount_runOf, h]

theorem sampleCount_writeDataFrame (extra : Bool) (idle : Nat) (data : Word) :
    sampleCount (writeDataFrame extra idle data) = 0 := by
  cases extra <;> simp [writeDataFrame, sampleCount_append, sampleCount_runOf]

theorem sampleCount_nakFrame (dataPhase rnw : Bool) (t : Nat) : sampleCount (nakFrame dataPhase rnw t) = 0 := by
  cases dataPhase <;> cases rnw <;> simp [nakFrame, sampleCount_append, sampleCount_runOf]

theorem sampleCount_tailFrame (s : State) (ack : BitVec 3) {bits : List Bool} (h : bits.length = 33) :
    3 + sampleCount (tailFrame s ack bits) = s.samplesTaken ack := by
  unfold tailFrame State.samplesTaken
  cases ackClass ack with
  | ok =>
    cases s.rnw with
    | true => simp [sampleCount_readFrame _ _ h]
    | false => simp [writeFrame, sampleCount_append, sampleCount_runOf, sampleCount_writeDataFrame]
  | wait | fault => simp [sampleCount_nakFrame]
  | error => simp [recoveryFrame, sampleCount_runOf]

/-! What follows the acknowledge -/

/-- The runs of a path fit, and none is of a phase of the header. -/
theorem tailFrame_fits (s : State) (ack : BitVec 3) {bits : List Bool} (h : bits.length = 33) :
    ∃ rs, tailFrame s ack bits = runsOf rs ∧ (∀ r ∈ rs, RunFits s.entryCount r) ∧
      ([Phase.req, .trn1, .acks] ++ rs.map Prod.fst).Nodup := by
  unfold tailFrame
  cases ackClass ack with
  | ok =>
    cases s.rnw with
    | true => exact ⟨_, readFrame_eq_runs _ _ _, readRuns_fit s h, by simp [readRuns]⟩
    | false =>
      refine ⟨(.trnW, released s.turnaround) :: writeDataRuns s.extraCycle s.idleCycles.toNat s.wdata, ?_, ?_, ?_⟩
      · rw [runsOf_cons, ← writeDataFrame_eq_runs]
        rfl
      · exact List.forall_mem_cons.mpr
          ⟨runFits_released rfl (entryCount_le s (by decide)) rfl, writeDataRuns_fit s _ _⟩
      · cases s.extraCycle <;> simp [writeDataRuns]
  | wait | fault =>
    refine ⟨_, nakFrame_eq_runs _ _ _, nakRuns_fit s _, ?_⟩
    cases s.dataPhase <;> cases s.rnw <;> simp [nakRuns]
  | error =>
    refine ⟨[(.recov, released (s.turnaround + 33))], by simp [recoveryFrame, runsOf_cons, runsOf_nil], ?_,
      by simp⟩
    exact List.forall_mem_singleton.mpr (runFits_released rfl (entryCount_le s (by decide)) rfl)

/-- The frame of an XFER from its request phase. -/
theorem xferFrame_fits (s : State) (nibble : Nibble) {ackBits : List Bool} (hack : ackBits.length = 3) (ack : BitVec 3)
    {bits : List Bool} (h : bits.length = 33) :
    FrameFits s.entryCount (headerFrame nibble s.turnaround ackBits ++ tailFrame s ack bits) := by
  obtain ⟨rs, hrs, hfit, hnodup⟩ := tailFrame_fits s ack h
  rw [headerFrame_eq_runs, hrs, ← runsOf_append]
  refine runsOf_fits (fun r hr => (List.mem_append.mp hr).elim (headerRuns_fit s nibble hack r) (hfit r)) ?_
  rwa [List.map_append]

/-- The frame of an XFER from its acknowledge phase. -/
theorem acksFrame_fits (s : State) {ackBits : List Bool} (hack : ackBits.length = 3) (ack : BitVec 3)
    {bits : List Bool} (h : bits.length = 33) :
    FrameFits s.entryCount (runOf .acks (sampled ackBits) ++ tailFrame s ack bits) := by
  obtain ⟨rs, hrs, hfit, hnodup⟩ := tailFrame_fits s ack h
  rw [hrs, ← runsOf_cons]
  refine runsOf_fits (List.forall_mem_cons.mpr ⟨runFits_sampled hack (entryCount_le s (by decide)) (by decide), hfit⟩) ?_
  rw [List.map_cons]
  exact hnodup.sublist (List.sublist_append_right [Phase.req, .trn1] (.acks :: rs.map Prod.fst))

/-! Every instruction -/

/-- What an instruction adds to the wire from SWCLK high, and the samples among it. -/
structure Framed (s t : State) (frame : List CycleRec) : Prop where
  wire : t.wire = s.wire ++ frame
  fits : FrameFits t.entryCount frame
  samples : t.inputs.samples = s.inputs.samples + sampleCount frame

/-- An operation without a wire cycle. -/
theorem framed_nil {s t : State} (hw : t.wire = s.wire) (hi : t.inputs = s.inputs) : Framed s t [] where
  wire := by rw [hw, List.append_nil]
  fits := ⟨by simp, by simp, .nil, by simp⟩
  samples := by rw [hi]; rfl

/-- A transaction from `s` with the frame of its path. -/
theorem framed_concluded {s u t : State} {ack : BitVec 3} {bits : List Bool} {frame : List CycleRec}
    (ht : t = s.concluded ack bits frame t) (hw : s.wire = u.wire) (hi : s.inputs = u.inputs)
    (hfits : FrameFits s.entryCount frame) (hcount : sampleCount frame = s.samplesTaken ack) : Framed u t frame := by
  rw [concluded_eq] at ht
  have hwire := congrArg State.wire ht
  have hsamples := congrArg (fun v : State => v.inputs.samples) ht
  have hentry : t.entryCount = s.entryCount := by rw [ht]; rfl
  refine ⟨by rw [hwire, hw], by rw [hentry]; exact hfits, ?_⟩
  rw [hcount, ← hi]
  exact hsamples

theorem Configured.framed {i : Instr} {s t : State} (h : Configured i s t) : Framed s t [] := by
  cases h <;> exact framed_nil rfl rfl

theorem exec_framed {i : Instr} {s t : State} (hclk : s.pins.swclkO = true) (he : exec i s = .next t) :
    ∃ frame, Framed s t frame := by
  have hlen : (s.answersFrom 3 33).length = 33 := answersFrom_length s 3 33
  cases exec_did he with
  | configured _ h => exact ⟨[], h.framed⟩
  | refused _ _ h =>
    subst h
    exact ⟨[], framed_nil rfl rfl⟩
  | xfer request data hi hs =>
    obtain ⟨u, hu, hc, -⟩ := xferRunsToItsEnd i request data s hi hs
    obtain rfl : u = t := Host.Outcome.next.inj (hu.symm.trans he)
    refine ⟨_, framed_concluded hc rfl rfl ?_ ?_⟩
    · exact xferFrame_fits (xferStart request data s) _ (answersFrom_length s 0 3) _ hlen
    · rw [sampleCount_append, sampleCount_headerFrame, answersFrom_length, sampleCount_tailFrame _ _ hlen]
  | seq bitCount bits hi hbytes hs =>
    obtain ⟨u, hu, hc, -⟩ := seqDrivesItsBits i bitCount bits s hi hbytes hs
    obtain rfl : u = t := Host.Outcome.next.inj (hu.symm.trans he)
    have hbounds := (seqLength_bounds bitCount).2
    have hentry : u.entryCount .seq = seqLength bitCount := by
      rw [State.entryCount, congrArg State.seqLen hc, BitVec.toNat_ofNat]
      omega
    have hrun : RunFits u.entryCount (.seq, driven ((List.range (seqLength bitCount)).map (seqBit bits))) :=
      runFits_driven (by simp [hentry]) (by rw [hentry]; exact hbounds) (by decide)
    refine ⟨_, congrArg State.wire hc, ?_, ?_⟩
    · have hfits := runsOf_fits (List.forall_mem_singleton.mpr hrun) (by simp)
      rwa [runsOf_cons, runsOf_nil, List.append_nil] at hfits
    · rw [sampleCount_runOf, countP_isSample_driven, congrArg State.inputs hc]
      rfl
  | request nibble hi hp =>
    obtain ⟨u, hu, hc, -⟩ := requestItemsRunTheTransaction nibble i s _ hi hp rfl
    obtain rfl : u = t := Host.Outcome.next.inj (hu.symm.trans he)
    refine ⟨_, framed_concluded hc rfl rfl ?_ ?_⟩
    · exact xferFrame_fits { s with req := s.req.extractLsb' 4 4 ++ nibble } nibble (answersFrom_length s 0 3) _ hlen
    · rw [sampleCount_append, sampleCount_headerFrame, answersFrom_length, sampleCount_tailFrame _ _ hlen]
  | ack a hi hp =>
    subst hi
    obtain ⟨u, hu, hc, -⟩ := acknowledgeItemsSelectThePath a s hp
    obtain rfl : u = t := Host.Outcome.next.inj (hu.symm.trans he)
    refine ⟨_, framed_concluded hc rfl rfl ?_ ?_⟩
    · exact acksFrame_fits s (bitsOf_length a) _ hlen
    · rw [sampleCount_append, sampleCount_runOf, countP_isSample_sampled, bitsOf_length, sampleCount_tailFrame _ _ hlen]
  | received v p hi hp =>
    subst hi
    obtain ⟨u, hu, hc, -⟩ := dataItemIsReceived v p s hp hclk
    obtain rfl : u = t := Host.Outcome.next.inj (hu.symm.trans he)
    have hbits : (data33Bits v p).length = 33 := by simp [data33Bits]
    have hentry : u.entryCount = s.entryCount := by rw [hc]; rfl
    refine ⟨_, congrArg State.wire hc, ?_, ?_⟩
    · rw [hentry, readFrame_eq_runs]
      exact runsOf_fits (readRuns_fit s hbits) (by simp [readRuns])
    · rw [sampleCount_readFrame _ _ hbits]
      have hsamples := congrArg (fun w : State => w.inputs.samples) hc
      exact hsamples
  | sent v p hi hp =>
    subst hi
    obtain ⟨u, hu, hc, -⟩ := dataItemIsSent v p s hp hclk
    obtain rfl : u = t := Host.Outcome.next.inj (hu.symm.trans he)
    have hentry : u.entryCount = s.entryCount := by rw [hc]; rfl
    refine ⟨_, congrArg State.wire hc, ?_, ?_⟩
    · rw [hentry, writeDataFrame_eq_runs]
      refine runsOf_fits (writeDataRuns_fit s _ _) ?_
      cases s.extraCycle <;> simp [writeDataRuns]
    · rw [sampleCount_writeDataFrame]
      have hsamples := congrArg (fun w : State => w.inputs.samples) hc
      exact hsamples

theorem Framed.newCycles_eq {s t : State} {frame : List CycleRec} (h : Framed s t frame) : newCycles s t = frame := by
  rw [newCycles, h.wire, List.drop_left]

/-- Settles O46. -/
theorem cyclesFitTheirPhase : Obligations.CyclesFitTheirPhase := by
  intro i s t hclk he
  obtain ⟨frame, hframe⟩ := exec_framed hclk he
  obtain ⟨hcycles, hfirst, hchain, hlast⟩ := hframe.fits
  rw [hframe.newCycles_eq]
  exact ⟨hcycles, hfirst, hchain, hlast⟩

/-- Settles O47. -/
theorem oneAnswerForEachSample : Obligations.OneAnswerForEachSample := by
  intro i s t hclk he
  obtain ⟨frame, hframe⟩ := exec_framed hclk he
  rw [hframe.newCycles_eq]
  exact hframe.samples

end Sys2Proof.Machine
end

section
/-! PROOFS. The two backends run the same wire cycles and leave the same registers (43_gpio_backend.md R190,
44_spi_backend.md R224), but for the extra cycle of the workaround (R220). -/

namespace Sys2Proof.Machine

/-! The extra cycle in a frame -/

/-- A frame without its extra cycle, and the extra cycle alone. -/
def withoutExtra (frame : List CycleRec) : List CycleRec := frame.filter fun r => r.phase != .wextra
def onlyExtra (frame : List CycleRec) : List CycleRec := frame.filter fun r => r.phase == .wextra

theorem withoutExtra_append (xs ys : List CycleRec) : withoutExtra (xs ++ ys) = withoutExtra xs ++ withoutExtra ys :=
  List.filter_append ..

theorem onlyExtra_append (xs ys : List CycleRec) : onlyExtra (xs ++ ys) = onlyExtra xs ++ onlyExtra ys :=
  List.filter_append ..

theorem runOf_phase {p : Phase} {cs : List WireCycle} {r : CycleRec} (h : r ∈ runOf p cs) : r.phase = p := by
  induction cs with
  | nil => cases h
  | cons c cs ih =>
    rcases List.mem_cons.mp h with rfl | h
    · rfl
    · exact ih h

theorem withoutExtra_runOf {p : Phase} (h : p ≠ .wextra) (cs : List WireCycle) : withoutExtra (runOf p cs) = runOf p cs :=
  List.filter_eq_self.mpr fun r hr => by simp [runOf_phase hr, h]

theorem onlyExtra_runOf {p : Phase} (h : p ≠ .wextra) (cs : List WireCycle) : onlyExtra (runOf p cs) = [] :=
  List.filter_eq_nil_iff.mpr fun r hr => by simp [runOf_phase hr, h]

theorem withoutExtra_headerFrame (nibble : Nibble) (t : Nat) (ack : List Bool) :
    withoutExtra (headerFrame nibble t ack) = headerFrame nibble t ack := by
  simp only [headerFrame, withoutExtra_append, withoutExtra_runOf, ne_eq, reduceCtorEq, not_false_eq_true]

theorem onlyExtra_headerFrame (nibble : Nibble) (t : Nat) (ack : List Bool) : onlyExtra (headerFrame nibble t ack) = [] := by
  simp only [headerFrame, onlyExtra_append, onlyExtra_runOf, ne_eq, reduceCtorEq, not_false_eq_true, List.append_nil]

theorem withoutExtra_writeFrame (extra : Bool) (t idle : Nat) (v : Word) :
    withoutExtra (writeFrame extra t idle v) = writeFrame false t idle v := by
  have hextra : withoutExtra (if extra then runOf .wextra (lows 1) else []) = [] := by cases extra <;> rfl
  simp only [writeFrame, writeDataFrame, withoutExtra_append, withoutExtra_runOf, ne_eq, reduceCtorEq, not_false_eq_true,
    hextra, Bool.false_eq_true, if_false]

theorem onlyExtra_writeFrame (extra : Bool) (t idle : Nat) (v : Word) :
    onlyExtra (writeFrame extra t idle v) =
      if extra then [{ phase := .wextra, left := 1#9, cycle := .drive false }] else [] := by
  have hextra : onlyExtra (if extra then runOf .wextra (lows 1) else []) =
      if extra then [{ phase := .wextra, left := 1#9, cycle := .drive false }] else [] := by cases extra <;> rfl
  simp only [writeFrame, writeDataFrame, onlyExtra_append, onlyExtra_runOf, ne_eq, reduceCtorEq, not_false_eq_true,
    hextra, List.append_nil, List.nil_append]

theorem extra_readFrame (t idle : Nat) (bits : List Bool) :
    withoutExtra (readFrame t idle bits) = readFrame t idle bits ∧ onlyExtra (readFrame t idle bits) = [] := by
  simp only [readFrame, withoutExtra_append, withoutExtra_runOf, onlyExtra_append, onlyExtra_runOf, ne_eq, reduceCtorEq,
    not_false_eq_true, List.append_nil, and_self]

theorem extra_nakFrame (dataPhase rnw : Bool) (t : Nat) :
    withoutExtra (nakFrame dataPhase rnw t) = nakFrame dataPhase rnw t ∧ onlyExtra (nakFrame dataPhase rnw t) = [] := by
  cases dataPhase <;> cases rnw <;>
    simp [nakFrame, withoutExtra_append, withoutExtra_runOf, onlyExtra_append, onlyExtra_runOf]

/-- The SPI backend's path is the GPIO backend's with the extra cycle, where there is one. -/
theorem withoutExtra_tailFrame (s : State) (ack : BitVec 3) (bits : List Bool) :
    withoutExtra (tailFrame { s with xferMode := .spi } ack bits) = tailFrame { s with xferMode := .gpioFast } ack bits := by
  unfold tailFrame
  cases ackClass ack with
  | ok =>
    have hr : State.rnw { s with xferMode := .spi } = s.rnw ∧ State.rnw { s with xferMode := .gpioFast } = s.rnw :=
      ⟨rfl, rfl⟩
    simp only [hr.1, hr.2]
    cases s.rnw with
    | true => exact (extra_readFrame _ _ _).1
    | false => exact withoutExtra_writeFrame _ _ _ _
  | wait | fault => exact (extra_nakFrame _ _ _).1
  | error => exact withoutExtra_runOf (by decide) _

theorem onlyExtra_tailFrame (s : State) (ack : BitVec 3) (bits : List Bool) :
    onlyExtra (tailFrame { s with xferMode := .spi } ack bits) =
      if ack = 0b001#3 ∧ s.rnw = false ∧ s.params.wr33 = true then
        [{ phase := .wextra, left := 1#9, cycle := .drive false }] else [] := by
  have hnone : ackClass ack ≠ .ok → (if ack = 0b001#3 ∧ s.rnw = false ∧ s.params.wr33 = true then
      [({ phase := .wextra, left := 1#9, cycle := .drive false } : CycleRec)] else []) = [] :=
    fun h => if_neg fun hc => h ((ackClass_ok ack).mpr hc.1)
  unfold tailFrame
  cases hclass : ackClass ack with
  | ok =>
    have hr : State.rnw { s with xferMode := .spi } = s.rnw := rfl
    have hextra : State.extraCycle { s with xferMode := .spi } = s.params.wr33 := by simp [State.extraCycle]
    simp only [hr, hextra, (ackClass_ok ack).mp hclass, true_and]
    cases s.rnw with
    | true => exact (extra_readFrame _ _ _).2.trans (if_neg (by simp)).symm
    | false =>
      simp only [Bool.false_eq_true, if_false, onlyExtra_writeFrame, true_and]
  | wait | fault =>
    rw [hnone (by rw [hclass]; decide)]
    exact (extra_nakFrame _ _ _).2
  | error =>
    rw [hnone (by rw [hclass]; decide)]
    exact onlyExtra_runOf (by decide) _

/-! The registers -/

/-- No register but the mode itself depends on the backend. -/
theorem concluded_withMode (s : State) (m : XferMode) (ack : BitVec 3) (bits : List Bool) (frame : List CycleRec)
    (t : State) :
    State.concluded { s with xferMode := m } ack bits frame t = { s.concluded ack bits frame t with xferMode := m } := by
  have hrnw : State.rnw { s with xferMode := m } = s.rnw := rfl
  simp only [State.concluded, State.settled, State.samplesTaken, hrnw]
  cases ackClass ack with
  | ok => cases s.rnw <;> rfl
  | wait | fault | error => rfl

/-- An XFER of one state under a backend that is ready. -/
theorem exec_issues_withMode {i : Instr} {request : Byte} {data : Word} {s : State} (hi : issues i request data)
    (hs : s.swdReady) {m : XferMode} (hm : m = .spi → s.spi.busy = false) :
    ∃ t, exec i { s with xferMode := m } = .next t ∧
      newCycles s t = headerFrame (requestNibble request) s.turnaround (s.answersFrom 0 3) ++
        tailFrame { xferStart request data s with xferMode := m } s.nextAck (s.answersFrom 3 33) ∧
      t = { (xferStart request data s).concluded s.nextAck (s.answersFrom 3 33) (newCycles s t) t with xferMode := m } := by
  obtain ⟨t, ht, hc, -⟩ := xferRunsToItsEnd i request data { s with xferMode := m } hi ⟨hs.1, hs.2.1, hm⟩
  have hstart : xferStart request data { s with xferMode := m } = { xferStart request data s with xferMode := m } := rfl
  rw [hstart, concluded_withMode] at hc
  have hwire := congrArg State.wire hc
  have hcycles : newCycles s t = headerFrame (requestNibble request) s.turnaround (s.answersFrom 0 3) ++
      tailFrame { xferStart request data s with xferMode := m } s.nextAck (s.answersFrom 3 33) := by
    rw [newCycles, hwire]
    exact List.drop_left
  refine ⟨t, ht, hcycles, ?_⟩
  rw [hcycles]
  exact hc

/-- Settles O37: the two runs end in the same concluded state, with frames that differ in the extra cycle alone. -/
theorem backendsAgree : Obligations.BackendsAgree := by
  refine ⟨fun i request data s hi hs hbusy => ?_, fun i bitCount bits s hi hlen hs hbusy => ?_⟩
  · obtain ⟨g, hg, hgc, hge⟩ := exec_issues_withMode hi hs (m := .gpioFast) nofun
    obtain ⟨p, hp, hpc, hpe⟩ := exec_issues_withMode hi hs (m := .spi) fun _ => hbusy
    refine ⟨g, p, hg, hp, ?_, ?_, ?_⟩
    · rw [hgc, hpc]
      refine (withoutExtra_append _ _).trans ?_
      rw [withoutExtra_headerFrame, withoutExtra_tailFrame]
    · rw [hpc]
      refine (onlyExtra_append _ _).trans ?_
      rw [onlyExtra_headerFrame, onlyExtra_tailFrame]
      rfl
    · have hwire : p.wire = s.wire ++ newCycles s p := congrArg State.wire hpe
      refine hpe.trans ?_
      rw [hge, hwire]
      rfl
  · obtain ⟨g, hg, hge, -⟩ := seqDrivesItsBits i bitCount bits { s with xferMode := .gpioFast } hi hlen
      ⟨hs.1, hs.2.1, nofun⟩
    obtain ⟨p, hp, hpe, -⟩ := seqDrivesItsBits i bitCount bits { s with xferMode := .spi } hi hlen
      ⟨hs.1, hs.2.1, fun _ => hbusy⟩
    refine ⟨g, p, hg, hp, ?_⟩
    refine hpe.trans ?_
    rw [hge]

end Sys2Proof.Machine
end

section
/-! PROOFS. The host agent's bus transaction and Write-Abort (48_host_transfer_engine.md R242, R253): what one attempt does
against a target whose next answers are known, and the retry loop around it. -/

namespace Sys2Proof.Machine

/-! One attempt -/

/-- The host passes the request byte whole (R245): an attempt is the XFER of that byte. -/
theorem attempt_issues (request : Byte) (data : Word) :
    issues (if isRead request then .xferR (requestFields request) else .xferW (requestFields request) data) request data := by
  have hoperand := requestOperand_requestFields request
  by_cases hr : isRead request = true
  · have hbit : request.getLsbD 1 = true := hr
    rw [hbit] at hoperand
    rw [if_pos hr]
    exact .inl ⟨_, rfl, hoperand.symm⟩
  · have hbit : request.getLsbD 1 = false := Bool.eq_false_iff.mpr hr
    rw [hbit] at hoperand
    rw [if_neg hr]
    exact .inr ⟨_, rfl, hoperand.symm⟩

/-- The answers that stand first in the list are the next ones. -/
theorem answersFrom_of_answers {s : State} {pre bits more : List Bool} {k n : Nat}
    (h : s.inputs.answers = pre ++ (bits ++ more)) (hk : pre.length = k) (hn : bits.length = n) :
    s.answersFrom k n = bits := by
  subst hk hn
  apply List.ext_getElem (by simp)
  intro i h1 h2
  simp [State.answersFrom, State.answer, h, List.getD_eq_getElem?_getD, List.getElem?_append_right,
    List.getElem?_append_left h2, h2]

/-- The acknowledge whose bits stand first in the list is the next one (R127). -/
theorem nextAck_of_answers {s : State} {ack : BitVec 3} {more : List Bool} (h : s.inputs.answers = bitsOf ack ++ more) :
    s.nextAck = ack := by
  have hbits : s.answersFrom 0 3 = bitsOf ack := answersFrom_of_answers (pre := []) h rfl (bitsOf_length ack)
  rw [State.nextAck, hbits, ofBits_bitsOf]

/-- What the host relies on after an attempt: the block is ready again, the answers used are gone, and nothing of the
host's has changed. -/
structure Attempted (s t : State) (used : Nat) (more : List Bool) : Prop where
  ready : t.swdReady
  answers : t.inputs.answers = more
  samples : t.inputs.samples = s.inputs.samples + used
  host : t.host = s.host
  polls : t.inputs.abortPolls = s.inputs.abortPolls

/-- Every attempt that runs leaves what the host relies on, with the answers of its path used. -/
theorem attempted_of_concluded {request : Byte} {data : Word} {s t : State} {frame : List CycleRec} {bits : List Bool}
    {used : List Bool} {more : List Bool} (hs : s.swdReady) (hk : Kept (xferStart request data s) t)
    (ht : t = (xferStart request data s).concluded s.nextAck bits frame t)
    (hanswers : s.inputs.answers = used ++ more)
    (hcount : (xferStart request data s).samplesTaken s.nextAck = used.length) : Attempted s t used.length more := by
  rw [concluded_eq, hcount] at ht
  have hmode := congrArg State.xferMode ht
  have hport := congrArg State.debugPort ht
  have hhost := congrArg State.host ht
  have hleft := congrArg (fun u : State => u.inputs.answers) ht
  have hsamples := congrArg (fun u : State => u.inputs.samples) ht
  have hpolls := congrArg (fun u : State => u.inputs.abortPolls) ht
  refine ⟨⟨hk.phase, hport.trans hs.2.1, fun hm => hk.busy (hs.2.2 (hmode.symm.trans hm))⟩, ?_, hsamples, hhost, hpolls⟩
  refine hleft.trans (Eq.trans (b := s.inputs.answers.drop used.length) rfl ?_)
  rw [hanswers, List.drop_left]

/-- An attempt against a target that answers WAIT (R138). -/
theorem attempt_wait (request : Byte) (data : Word) {s : State} {more : List Bool} (hs : s.swdReady)
    (hanswers : s.inputs.answers = bitsOf 0b010#3 ++ more) :
    ∃ t, attemptXfer request data s = .next t ∧ t.result = 0x02#8 ∧ t.rdata = s.rdata ∧
      t.wdata = (if isRead request then s.wdata else data) ∧ Attempted s t 3 more := by
  have hack := nextAck_of_answers hanswers
  obtain ⟨t, ht, hk, hc⟩ := exec_issues_concluded (attempt_issues request data) hs
  refine ⟨t, ht, ?_, ?_, ?_, attempted_of_concluded hs hk hc hanswers (by rw [hack]; rfl)⟩
  all_goals rw [hack, concluded_notOk _ (by decide)] at hc
  · exact (congrArg State.result hc :)
  · exact (congrArg State.rdata hc :)
  · exact (congrArg State.wdata hc :)

/-- The bits of an OK acknowledge and the 33 bits of a word and its parity are 36 answers (R127, R130). -/
theorem okReadAnswers_length (v : Word) : (okReadAnswers v).length = 36 := by
  simp [okReadAnswers, data33Bits]

/-- A read against a target that answers OK with a word (R130 to R137). -/
theorem attempt_okRead {request : Byte} (hr : isRead request = true) (data v : Word) {s : State} {more : List Bool}
    (hs : s.swdReady) (hanswers : s.inputs.answers = okReadAnswers v ++ more) :
    ∃ t, attemptXfer request data s = .next t ∧ t.result = 0x01#8 ∧ t.rdata = v ∧ t.wdata = s.wdata ∧
      Attempted s t 36 more := by
  have hsplit : s.inputs.answers = bitsOf 0b001#3 ++ (data33Bits v (par32 v) ++ more) := by
    rw [hanswers, okReadAnswers, List.append_assoc]
  have hack := nextAck_of_answers hsplit
  have hbits : s.answersFrom 3 33 = data33Bits v (par32 v) :=
    answersFrom_of_answers hsplit rfl (by simp [data33Bits])
  have hrnw : (xferStart request data s).rnw = true := hr
  obtain ⟨t, ht, hk, hc⟩ := exec_issues_concluded (attempt_issues request data) hs
  have hsamples : (xferStart request data s).samplesTaken s.nextAck = (okReadAnswers v).length := by
    rw [okReadAnswers_length, hack]
    exact if_pos ⟨rfl, hrnw⟩
  have hdone := attempted_of_concluded hs hk hc hanswers hsamples
  rw [okReadAnswers_length] at hdone
  rw [hack, hbits, concluded_read hrnw, if_pos rfl] at hc
  have hwdata : (xferStart request data s).wdata = s.wdata := if_pos hr
  have hleft := congrArg State.wdata hc
  exact ⟨t, ht, (congrArg State.result hc :), (congrArg State.rdata hc :), hleft.trans hwdata, hdone⟩

/-- A write against a target that answers OK (R141 to R143). -/
theorem attempt_okWrite {request : Byte} (hw : isRead request = false) (data : Word) {s : State} {more : List Bool}
    (hs : s.swdReady) (hanswers : s.inputs.answers = bitsOf 0b001#3 ++ more) :
    ∃ t, attemptXfer request data s = .next t ∧ t.result = 0x01#8 ∧ t.rdata = s.rdata ∧ t.wdata = data ∧
      Attempted s t 3 more := by
  have hack := nextAck_of_answers hanswers
  have hrnw : (xferStart request data s).rnw = false := hw
  obtain ⟨t, ht, hk, hc⟩ := exec_issues_concluded (attempt_issues request data) hs
  have hsamples : (xferStart request data s).samplesTaken s.nextAck = (bitsOf 0b001#3).length := by
    rw [hack]
    exact if_neg fun h => by rw [hrnw] at h; exact Bool.false_ne_true h.2
  have hdone := attempted_of_concluded hs hk hc hanswers hsamples
  rw [hack, concluded_write hrnw] at hc
  have hwbit : request.getLsbD 1 = false := hw
  have hwdata : (xferStart request data s).wdata = data := by rw [xferStart_wdata, hwbit, if_neg Bool.false_ne_true]
  have hleft := congrArg State.wdata hc
  exact ⟨t, ht, (congrArg State.result hc :), (congrArg State.rdata hc :), hleft.trans hwdata, hdone⟩

/-- An attempt against a target that answers OK, for a read with a word. -/
theorem attempt_ok (request : Byte) (data v : Word) {s : State} {more : List Bool} (hs : s.swdReady)
    (hanswers : s.inputs.answers = (if isRead request then okReadAnswers v else bitsOf 0b001#3) ++ more) :
    ∃ t, attemptXfer request data s = .next t ∧ t.result = 0x01#8 ∧ t.rdata = (if isRead request then v else s.rdata) ∧
      t.wdata = (if isRead request then s.wdata else data) ∧
      Attempted s t (if isRead request then 36 else 3) more := by
  cases hr : isRead request with
  | true =>
    rw [hr] at hanswers
    exact attempt_okRead hr data v hs hanswers
  | false =>
    rw [hr] at hanswers
    exact attempt_okWrite hr data hs hanswers

/-! The retry loop -/

/-- A result other than WAIT ends the loop at once, whatever is left of the retries (R242). -/
theorem busLoop_of_result {attempt : State → Host.Outcome State Fault Refusal} {s t : State} (h : attempt s = .next t)
    (n : Nat) (hr : t.result ≠ codeWait ∨ n = 0) : busLoop attempt n s = .next (t.result, t) := by
  cases n with
  | zero => simp only [busLoop, h]
  | succ n => simp only [busLoop, h, if_pos (hr.resolve_right (Nat.succ_ne_zero n))]

/-- The host's poll finds the abort flag as it was when nothing is to be written to it (R241). -/
theorem pollAbort_of_nil {s : State} (h : s.inputs.abortPolls = []) : pollAbort s = (s.host.abort, s) := by
  rw [pollAbort, h]

/-- WAIT with a retry left and no abort: the next attempt (R242). -/
theorem busLoop_of_wait {attempt : State → Host.Outcome State Fault Refusal} {s t : State} (h : attempt s = .next t)
    (n : Nat) (hr : t.result = codeWait) (hpolls : t.inputs.abortPolls = []) (habort : t.host.abort = false) :
    busLoop attempt (n + 1) s = busLoop attempt n t := by
  simp only [busLoop, h, hr, ne_eq, not_true_eq_false, if_false, pollAbort_of_nil hpolls, habort, Bool.false_eq_true]

/-- Settles O54. -/
theorem busStopsAtTheFirstResult : Obligations.BusStopsAtTheFirstResult := by
  intro request data s t h hr
  refine busLoop_of_result h _ (hr.imp_right fun h0 => ?_)
  rw [h0]
  rfl

/-- The loop against `k` WAITs and then OK, with `n` retries left: OK where they suffice. -/
theorem busLoop_succeeds (request : Byte) (data v : Word) (more : List Bool) :
    ∀ (n k : Nat) (s : State), s.swdReady → s.host.abort = false → s.inputs.abortPolls = [] →
      s.inputs.answers = (List.replicate k (bitsOf 0b010#3)).flatten ++
        (if isRead request then okReadAnswers v else bitsOf 0b001#3) ++ more → k ≤ n →
      ∃ t, busLoop (attemptXfer request data) n s = .next (0x01#8, t) ∧
        t.rdata = (if isRead request then v else s.rdata) ∧ t.wdata = (if isRead request then s.wdata else data) ∧
        t.inputs.samples = s.inputs.samples + 3 * k + (if isRead request then 36 else 3) := by
  intro n k
  induction k generalizing n with
  | zero =>
    intro s hs _ _ hanswers _
    obtain ⟨t, ht, hresult, hrdata, hwdata, hdone⟩ := attempt_ok request data v hs hanswers
    have hstop := busLoop_of_result ht n (.inl (by rw [hresult]; decide))
    rw [hresult] at hstop
    exact ⟨t, hstop, hrdata, hwdata, hdone.samples⟩
  | succ k ih =>
    intro s hs habort hpolls hanswers hle
    obtain ⟨n, rfl⟩ : ∃ m, n = m + 1 := ⟨n - 1, by omega⟩
    rw [List.replicate_succ, List.flatten_cons, List.append_assoc, List.append_assoc] at hanswers
    obtain ⟨u, hu, hresult, hrdata, hwdata, hdone⟩ := attempt_wait request data hs hanswers
    have hagain := busLoop_of_wait hu n hresult (hdone.polls.trans hpolls) ((congrArg HostRegs.abort hdone.host).trans habort)
    obtain ⟨t, ht, hrdata', hwdata', hsamples⟩ := ih n u hdone.ready ((congrArg HostRegs.abort hdone.host).trans habort)
      (hdone.polls.trans hpolls) (hdone.answers.trans (List.append_assoc ..).symm) (by omega)
    refine ⟨t, hagain.trans ht, by rw [hrdata', hrdata], ?_, ?_⟩
    · rw [hwdata', hwdata]
      split <;> rfl
    · rw [hsamples, hdone.samples]
      omega

/-- The loop against more WAITs than attempts: WAIT, after all of them. -/
theorem busLoop_exhausted (request : Byte) (data : Word) (more : List Bool) :
    ∀ (n k : Nat) (s : State), s.swdReady → s.host.abort = false → s.inputs.abortPolls = [] →
      s.inputs.answers = (List.replicate k (bitsOf 0b010#3)).flatten ++ more → n < k →
      ∃ t, busLoop (attemptXfer request data) n s = .next (0x02#8, t) ∧ t.rdata = s.rdata ∧
        t.wdata = (if isRead request then s.wdata else data) ∧
        t.inputs.samples = s.inputs.samples + 3 * (n + 1) := by
  intro n k
  induction n generalizing k with
  | zero =>
    intro s hs _ _ hanswers hlt
    obtain ⟨k, rfl⟩ : ∃ m, k = m + 1 := ⟨k - 1, by omega⟩
    rw [List.replicate_succ, List.flatten_cons, List.append_assoc] at hanswers
    obtain ⟨t, ht, hresult, hrdata, hwdata, hdone⟩ := attempt_wait request data hs hanswers
    have hstop := busLoop_of_result ht 0 (.inr rfl)
    rw [hresult] at hstop
    exact ⟨t, hstop, hrdata, hwdata, hdone.samples⟩
  | succ n ih =>
    intro s hs habort hpolls hanswers hlt
    obtain ⟨k, rfl⟩ : ∃ m, k = m + 1 := ⟨k - 1, by omega⟩
    rw [List.replicate_succ, List.flatten_cons, List.append_assoc] at hanswers
    obtain ⟨u, hu, hresult, hrdata, hwdata, hdone⟩ := attempt_wait request data hs hanswers
    have hagain := busLoop_of_wait hu n hresult (hdone.polls.trans hpolls) ((congrArg HostRegs.abort hdone.host).trans habort)
    obtain ⟨t, ht, hrdata', hwdata', hsamples⟩ := ih k u hdone.ready ((congrArg HostRegs.abort hdone.host).trans habort)
      (hdone.polls.trans hpolls) hdone.answers (by omega)
    refine ⟨t, hagain.trans ht, hrdata'.trans hrdata, ?_, ?_⟩
    · rw [hwdata', hwdata]
      split <;> rfl
    · rw [hsamples, hdone.samples]
      omega

/-- Settles O53. -/
theorem busRetriesOnlyWait : Obligations.BusRetriesOnlyWait := by
  intro request data v s k more hs habort hpolls hanswers
  refine ⟨fun hle => busLoop_succeeds request data v more _ k s hs habort hpolls hanswers hle, fun hlt => ?_⟩
  rw [List.append_assoc] at hanswers
  exact busLoop_exhausted request data _ _ k s hs habort hpolls hanswers hlt

/-! Write-Abort -/

/-- The result of a write whose flags were cleared at its start, by the class of the acknowledge (R270). -/
theorem settled_result_of_write {s : State} (hw : s.rnw = false) (hp : s.perr = false) (ack : BitVec 3)
    (bits : List Bool) :
    (s.settled ack bits).result =
      match ackClass ack with
      | .ok => 0x01#8
      | .wait => 0x02#8
      | .fault => 0x04#8
      | .error => 0x08#8 := by
  unfold State.settled
  cases ackClass ack <;> simp [hw, hp]

theorem settled_rdata_of_write {s : State} (hw : s.rnw = false) (ack : BitVec 3) (bits : List Bool) :
    (s.settled ack bits).rdata = s.rdata := by
  unfold State.settled
  cases ackClass ack <;> simp [hw]

/-- Settles O58: Write-Abort is the XFER of `abort`, with its result read back. -/
theorem writeAbortIsOneTransaction : Obligations.WriteAbortIsOneTransaction := by
  intro data s hs
  have hi : issues (.abort data) 0x00#8 data := .inr ⟨_, rfl, rfl⟩
  have hbit : (0x00#8 : Byte).getLsbD 1 = false := by decide
  have hw : (xferStart 0x00#8 data s).rnw = false := hbit
  obtain ⟨t, ht, hc, -⟩ := xferRunsToItsEnd _ 0x00#8 data s hi hs
  obtain ⟨hgrows, -, hlen⟩ := frameLengths _ 0x00#8 data s t hi hs ht
  have hwrite : writeAbort data s = .next (t.result, t) := by
    have hsame : exec (.xferW (requestFields 0x00#8) data) s = exec (.abort data) s := rfl
    rw [writeAbort, hsame, ht]
  rw [concluded_eq] at hc
  have hresult := congrArg State.result hc
  have hack := congrArg State.ack hc
  have hwdata := congrArg State.wdata hc
  have hreq := congrArg State.req hc
  have hrdata := congrArg State.rdata hc
  have hsamples := congrArg (fun u : State => u.inputs.samples) hc
  have hthree : (xferStart 0x00#8 data s).samplesTaken s.nextAck = 3 :=
    if_neg fun h => by rw [hw] at h; exact Bool.false_ne_true h.2
  refine ⟨t, ht, hwrite, ?_, hack, hwdata, hreq, ?_, ?_, ?_⟩
  · exact hresult.trans (settled_result_of_write hw (xferStart_perr _ _ _) _ _)
  · exact hrdata.trans (settled_rdata_of_write hw _ _)
  · refine hsamples.trans ?_
    simp only [hthree]
    rfl
  · rw [hgrows, hlen]
    cases ackClass s.nextAck <;> simp

end Sys2Proof.Machine
end

section
/-! PROOFS. The host agent's Transfer, TransferBlock and their responses (48_host_transfer_engine.md R244 to R252). -/

namespace Sys2Proof.Machine

/-! One host action after another -/

theorem andThen_next {α β : Type} (a : α) (s : State) (k : α → State → HostRun β) : andThen (.next (a, s)) k = k a s := rfl

/-- A sequence of two actions answers where both do. -/
theorem andThen_eq_next {α β : Type} {r : HostRun α} {k : α → State → HostRun β} {b : β} {t : State}
    (h : andThen r k = .next (b, t)) : ∃ a s, r = .next (a, s) ∧ k a s = .next (b, t) := by
  match r, h with
  | .next (a, s), h => exact ⟨a, s, rfl, h⟩

/-! Reading the request (R249) -/

/-- An entry that answers has read its request byte and its data bytes, whatever became of it (log 32). -/
theorem transferEntry_rest {b : Batch} {s t : State} {e : Entry} (h : transferEntry b s = .next (e, t)) :
    ∃ request tail, b.rest = request :: tail ∧ operandBytes request ≤ tail.length ∧
      e.2.rest = tail.drop (operandBytes request) := by
  rw [transferEntry] at h
  split at h
  · cases h
  · next request tail hrest =>
    split at h
    · cases h
    · next hlong =>
      obtain ⟨e', s', -, hk⟩ := andThen_eq_next h
      obtain ⟨rfl, -⟩ := Prod.mk.inj (Host.Outcome.next.inj hk)
      exact ⟨request, tail, hrest, Nat.le_of_not_lt hlong, rfl⟩

/-- What the loop leaves unread is what it says it leaves: entries of the same request. -/
theorem transferLoop_rest (n : Nat) (b : Batch) (s : State) {k : Nat} {b' : Batch} {t : State} {rest : List Byte}
    (h : transferLoop n b s = .next ((k, b'), t)) (hskip : skipEntries n b.rest = some rest) :
    skipEntries k b'.rest = some rest := by
  induction n generalizing b s with
  | zero =>
    obtain ⟨hb, -⟩ := Prod.mk.inj (Host.Outcome.next.inj h)
    obtain ⟨rfl, rfl⟩ := Prod.mk.inj hb
    exact hskip
  | succ n ih =>
    rw [transferLoop] at h
    obtain ⟨e, u, hentry, hk⟩ := andThen_eq_next h
    obtain ⟨request, tail, hrest, hlong, he⟩ := transferEntry_rest hentry
    rw [hrest, skipEntries, if_neg (Nat.not_lt.mpr hlong), ← he] at hskip
    split at hk
    · obtain ⟨hb, -⟩ := Prod.mk.inj (Host.Outcome.next.inj hk)
      obtain ⟨rfl, rfl⟩ := Prod.mk.inj hb
      exact hskip
    · simp only at hk
      split at hk
      · obtain ⟨hb, -⟩ := Prod.mk.inj (Host.Outcome.next.inj hk)
        obtain ⟨rfl, rfl⟩ := Prod.mk.inj hb
        exact hskip
      · exact ih _ _ hk hskip

/-- The final flush or verification reads nothing of the request. -/
theorem transferEnd_rest {b b' : Batch} {s t : State} (h : transferEnd b s = .next (b', t)) : b'.rest = b.rest := by
  rw [transferEnd] at h
  split at h
  · obtain ⟨rfl, -⟩ := Prod.mk.inj (Host.Outcome.next.inj h)
    rfl
  split at h
  · obtain ⟨r, u, -, hk⟩ := andThen_eq_next h
    obtain ⟨rfl, -⟩ := Prod.mk.inj (Host.Outcome.next.inj hk)
    split <;> rfl
  split at h
  · obtain ⟨r, u, -, hk⟩ := andThen_eq_next h
    obtain ⟨rfl, -⟩ := Prod.mk.inj (Host.Outcome.next.inj hk)
    rfl
  · obtain ⟨rfl, -⟩ := Prod.mk.inj (Host.Outcome.next.inj h)
    rfl

/-- A Transfer reads its whole request and leaves no posted read (R249, R251). -/
theorem transferBatch_rest {count : Nat} {entries rest : List Byte} {s t : State} {b : Batch}
    (hskip : skipEntries count entries = some rest) (h : transferBatch count entries s = .next (b, t)) :
    b.rest = rest ∧ t.host.postRead = false := by
  rw [transferBatch] at h
  obtain ⟨e, u, hloop, hk⟩ := andThen_eq_next h
  have hleft := transferLoop_rest _ _ _ hloop hskip
  rw [hleft] at hk
  obtain ⟨b', v, hend, hdone⟩ := andThen_eq_next hk
  obtain ⟨rfl, rfl⟩ := Prod.mk.inj (Host.Outcome.next.inj hdone)
  exact ⟨transferEnd_rest hend, setPostRead_postRead false v⟩

/-- A TransferBlock leaves no posted read (R251). -/
theorem transferBlock_postRead {count : Nat} {request : Byte} {words : List Word} {s t : State} {out : List Byte}
    (h : transferBlock count request words s = .next (out, t)) : t.host.postRead = false := by
  rw [transferBlock] at h
  split at h
  · obtain ⟨-, rfl⟩ := Prod.mk.inj (Host.Outcome.next.inj h)
    rfl
  · obtain ⟨out', u, -, hk⟩ := andThen_eq_next h
    obtain ⟨-, rfl⟩ := Prod.mk.inj (Host.Outcome.next.inj hk)
    rfl

/-! Responses within the packet size (R250; log 37) -/

/-- A command that is one operation answers its status byte. -/
theorem oneOperation_length {i : Instr} {consumed : Nat} {s t : State} {h : Handled}
    (hrun : oneOperation i consumed s = .next (h, t)) : h.2.length = 1 := by
  rw [oneOperation] at hrun
  split at hrun
  · obtain ⟨rfl, -⟩ := Prod.mk.inj (Host.Outcome.next.inj hrun)
    rfl
  · cases hrun
  · cases hrun

/-- A handler that ends in a bounded response. -/
theorem bounded_of_andThen {α : Type} {r : HostRun α} {size : BitVec 16} {consumed : α → Nat} {out : α → List Byte}
    {h : Handled} {t : State}
    (hrun : andThen r (fun a u => .next ((consumed a, boundedResponse size (out a)), u)) = .next (h, t)) :
    h.2.length ≤ size.toNat := by
  obtain ⟨a, u, -, hk⟩ := andThen_eq_next hrun
  obtain ⟨rfl, -⟩ := Prod.mk.inj (Host.Outcome.next.inj hk)
  exact (boundedResponse_spec size (out a)).1

/-- A handler that ends in a response of one byte. -/
theorem single_of_andThen {r : HostRun Byte} {consumed : Nat} {out : Byte → Byte} {h : Handled} {t : State}
    (hrun : andThen r (fun a u => .next ((consumed, [out a]), u)) = .next (h, t)) : h.2.length = 1 := by
  obtain ⟨a, u, -, hk⟩ := andThen_eq_next hrun
  obtain ⟨rfl, -⟩ := Prod.mk.inj (Host.Outcome.next.inj hk)
  rfl

theorem simpleCommand_bounded {op : HostOp} {payload : List Byte} {s t : State} {h : Handled}
    (hrun : simpleCommand op payload s = .next (h, t)) (hsize : 1 ≤ s.host.packetSize.toNat) :
    h.2.length ≤ s.host.packetSize.toNat := by
  have hone : h.2.length = 1 → h.2.length ≤ s.host.packetSize.toNat := fun hl => hl ▸ hsize
  rw [simpleCommand.eq_def] at hrun
  split at hrun
  · exact hone (oneOperation_length hrun)
  · exact hone (oneOperation_length hrun)
  · exact hone (oneOperation_length hrun)
  · exact hone (oneOperation_length hrun)
  · split at hrun
    · cases hrun
    · exact hone (oneOperation_length hrun)
  · exact hone (single_of_andThen hrun)
  · exact hone (single_of_andThen hrun)
  · obtain ⟨rfl, -⟩ := Prod.mk.inj (Host.Outcome.next.inj hrun)
    exact (boundedResponse_spec _ _).1
  · obtain ⟨rfl, -⟩ := Prod.mk.inj (Host.Outcome.next.inj hrun)
    exact hsize
  · cases hrun

theorem transferCommand_bounded {payload : List Byte} {s t : State} {h : Handled}
    (hrun : transferCommand payload s = .next (h, t)) : h.2.length ≤ s.host.packetSize.toNat := by
  rw [transferCommand.eq_def] at hrun
  split at hrun
  · exact bounded_of_andThen hrun
  · cases hrun

theorem blockCommand_bounded {payload : List Byte} {s t : State} {h : Handled}
    (hrun : blockCommand payload s = .next (h, t)) : h.2.length ≤ s.host.packetSize.toNat := by
  rw [blockCommand.eq_def] at hrun
  split at hrun
  · simp only at hrun
    split at hrun
    · cases hrun
    · exact bounded_of_andThen hrun
  · cases hrun

/-- Every command of the dispatcher, a batch as a whole. -/
theorem dispatchCommand_bounded {ops : Byte → HostOp} {fuel : Nat} {opcode : Byte} {payload : List Byte} {s t : State}
    {h : Handled} (hrun : dispatchCommand ops (fuel + 1) (opcode :: payload) s = .next (h, t))
    (hsize : 1 ≤ s.host.packetSize.toNat) : h.2.length ≤ s.host.packetSize.toNat := by
  simp only [dispatchCommand] at hrun
  split at hrun
  · exact transferCommand_bounded hrun
  · exact blockCommand_bounded hrun
  · split at hrun
    · cases hrun
    · exact bounded_of_andThen hrun
  · exact simpleCommand_bounded hrun hsize

/-- Settles O57. -/
theorem transferConsumesItsRequest : Obligations.TransferConsumesItsRequest := by
  refine ⟨fun count entries rest s t b hskip h => transferBatch_rest hskip h,
    fun count request words s t out h => transferBlock_postRead h, fun index count entries s t b h => ?_,
    fun ops fuel opcode payload s t n out h hsize => dispatchCommand_bounded h hsize⟩
  obtain ⟨hbound, hfits⟩ := boundedResponse_spec s.host.packetSize b.response
  refine ⟨boundedResponse s.host.packetSize b.response, ?_, hbound, hfits⟩
  rw [transferCommand, h, andThen_next]

/-! The loop of a batch -/

/-- An entry that does not break off, with no abort to come: the loop goes on with the next one (R241, R245). -/
theorem transferLoop_of_entry {b b' : Batch} {s t : State} (h : transferEntry b s = .next ((false, b'), t))
    (hpolls : t.inputs.abortPolls = []) (habort : t.host.abort = false) (n : Nat) :
    transferLoop (n + 1) b s = transferLoop n { b' with completed := b'.completed + 1#8 } t := by
  simp only [transferLoop, h, andThen_next, Bool.false_eq_true, if_false, pollAbort_of_nil hpolls, habort]

/-- The last entry of a batch: an abort found behind it stops nothing. -/
theorem transferLoop_last {b b' : Batch} {s t : State} (h : transferEntry b s = .next ((false, b'), t))
    (hpolls : t.inputs.abortPolls = []) :
    transferLoop 1 b s = .next ((0, { b' with completed := b'.completed + 1#8 }), t) := by
  simp only [transferLoop, h, andThen_next, Bool.false_eq_true, if_false, pollAbort_of_nil hpolls, ite_self]

/-! A match-mask write (R247) -/

/-- A match-mask write entry with no read posted: it goes to the host's register. -/
theorem transferEntry_matchMask {request b0 b1 b2 b3 : Byte} {rest : List Byte} {b : Batch} {s : State}
    (hwrite : isRead request = false) (hmask : isMatchMask request = true)
    (hb : b.rest = request :: b0 :: b1 :: b2 :: b3 :: rest) (hpost : s.host.postRead = false) :
    transferEntry b s = .next ((false, { b with ack := codeOk, rest := rest }),
      { s with host := { s.host with matchMask := wordOfBytes b0 b1 b2 b3 } }) := by
  have hbytes : operandBytes request = 4 := by simp [operandBytes, hwrite]
  have hlong : ¬ (b0 :: b1 :: b2 :: b3 :: rest).length < 4 := by simp
  rw [transferEntry, hb]
  simp only [hbytes, if_neg hlong, hwrite, Bool.false_eq_true, if_false, writeEntry, flushForWrite, hpost, takeWord, hmask,
    if_true, andThen_next, List.drop_succ_cons, List.drop_zero]

/-- Settles O56. -/
theorem matchMaskWriteStaysInTheHost : Obligations.MatchMaskWriteStaysInTheHost := by
  intro request b0 b1 b2 b3 rest s hwrite hmask hpolls
  have hentry := transferEntry_matchMask (s := setPostRead false s)
    (b := { completed := 0#8, ack := 0#8, checkWrite := false, out := [], rest := request :: b0 :: b1 :: b2 :: b3 :: rest })
    hwrite hmask rfl rfl
  rw [transferBatch, transferLoop_last hentry hpolls]
  rfl

/-! Posted reads (R244) -/

theorem Attempted.trans {s t u : State} {m n : Nat} {mid more : List Bool} (h : Attempted s t m mid)
    (h' : Attempted t u n more) : Attempted s u (m + n) more where
  ready := h'.ready
  answers := h'.answers
  samples := by rw [h'.samples, h.samples, Nat.add_assoc]
  host := h'.host.trans h.host
  polls := h'.polls.trans h.polls

/-- A bus read against a target that answers OK with a word ends at once. -/
theorem bus_okRead {request : Byte} (hr : isRead request = true) (data v : Word) {s : State} {more : List Bool}
    (hs : s.swdReady) (hanswers : s.inputs.answers = okReadAnswers v ++ more) :
    ∃ t, bus request data s = .next (codeOk, t) ∧ t.rdata = v ∧ Attempted s t 36 more := by
  obtain ⟨t, ht, hresult, hrdata, -, hdone⟩ := attempt_okRead hr data v hs hanswers
  have hstop := busStopsAtTheFirstResult request data s t ht (.inl (by rw [hresult]; decide))
  rw [hresult] at hstop
  exact ⟨t, hstop, hrdata, hdone⟩

/-- A plain AP read request (R245). -/
structure PlainApRead (request : Byte) : Prop where
  read : isRead request = true
  ap : isAp request = true
  plain : isMatchValue request = false

theorem PlainApRead.operandBytes {request : Byte} (h : PlainApRead request) : operandBytes request = 0 := by
  simp [Machine.operandBytes, h.read, h.plain]

/-- The first of some AP reads is posted: its value is stale and not kept (R244). -/
theorem transferEntry_post {request : Byte} (h : PlainApRead request) (first : Word) {b : Batch} {rest : List Byte}
    {s : State} {more : List Bool} (hb : b.rest = request :: rest) (hs : s.swdReady) (hpost : s.host.postRead = false)
    (hanswers : s.inputs.answers = okReadAnswers first ++ more) :
    ∃ t, transferEntry b s = .next ((false, { b with ack := codeOk, checkWrite := false, rest := rest }),
        setPostRead true t) ∧ Attempted s t 36 more := by
  obtain ⟨t, ht, -, hdone⟩ := bus_okRead h.read 0#32 first hs hanswers
  refine ⟨t, ?_, hdone⟩
  rw [transferEntry, hb]
  simp only [h.operandBytes, Nat.not_lt_zero, if_false, h.read, if_true, readEntry, collectForRead, hpost,
    Bool.false_eq_true, h.plain, h.ap, busOrBreak, ht, andThen_next, List.drop_zero]

/-- Each AP read after it collects the value of the one before and posts its own (R244). -/
theorem transferEntry_collect {request : Byte} (h : PlainApRead request) (v : Word) {b : Batch} {rest : List Byte}
    {s : State} {more : List Bool} (hb : b.rest = request :: rest) (hs : s.swdReady) (hpost : s.host.postRead = true)
    (hanswers : s.inputs.answers = okReadAnswers v ++ more) :
    ∃ t, transferEntry b s = .next ((false,
        { b with ack := codeOk, checkWrite := false, out := b.out ++ bytesOfWord v, rest := rest }), t) ∧
      Attempted s t 36 more := by
  obtain ⟨t, ht, hrdata, hdone⟩ := bus_okRead h.read 0#32 v hs hanswers
  have hpost' : t.host.postRead = true := by rw [hdone.host, hpost]
  refine ⟨t, ?_, hdone⟩
  rw [transferEntry, hb]
  simp only [h.operandBytes, Nat.not_lt_zero, if_false, h.read, if_true, readEntry, collectForRead, hpost, hpost', h.plain,
    h.ap, Bool.not_false, Bool.and_self, busOrBreak, ht, hrdata, andThen_next, Batch.append, List.drop_zero,
    Bool.false_eq_true]

/-- The AP reads of a batch once one is posted: one XFER and one value each. -/
theorem transferLoop_collect {request : Byte} (h : PlainApRead request) (more : List Bool) (values : List Word) :
    ∀ (b : Batch) (s : State), b.rest = List.replicate values.length request → b.ack = codeOk → b.checkWrite = false →
      s.swdReady → s.host.postRead = true → s.host.abort = false → s.inputs.abortPolls = [] →
      s.inputs.answers = values.flatMap okReadAnswers ++ more →
      ∃ t, transferLoop values.length b s = .next ((0,
          { b with completed := b.completed + BitVec.ofNat 8 values.length, out := b.out ++ values.flatMap bytesOfWord,
                   rest := [] }), t) ∧
        Attempted s t (36 * values.length) more := by
  induction values with
  | nil =>
    intro b s hb _ _ hs _ _ _ hanswers
    refine ⟨s, ?_, hs, hanswers, rfl, rfl, rfl⟩
    obtain ⟨⟩ := b
    simp only [List.length_nil, List.replicate_zero] at hb
    simp [transferLoop, hb]
  | cons v vs ih =>
    intro b s hb hack hcheck hs hpost habort hpolls hanswers
    rw [List.length_cons, List.replicate_succ] at hb
    rw [List.flatMap_cons, List.append_assoc] at hanswers
    obtain ⟨u, hu, hdone⟩ := transferEntry_collect h v hb hs hpost hanswers
    have hpolls' : u.inputs.abortPolls = [] := hdone.polls.trans hpolls
    have habort' : u.host.abort = false := by rw [hdone.host, habort]
    obtain ⟨t, ht, hrest⟩ := ih
      { b with completed := b.completed + 1#8, ack := codeOk, checkWrite := false, out := b.out ++ bytesOfWord v,
               rest := List.replicate vs.length request }
      u rfl rfl rfl hdone.ready (by rw [hdone.host, hpost]) habort' hpolls' hdone.answers
    refine ⟨t, ?_, ?_⟩
    · rw [List.length_cons, transferLoop_of_entry hu hpolls' habort', ht]
      have hcount : b.completed + 1#8 + BitVec.ofNat 8 vs.length = b.completed + BitVec.ofNat 8 (vs.length + 1) := by
        bv_omega
      simp only [hcount, hack, hcheck, List.flatMap_cons, List.append_assoc]
    · have hall := hdone.trans hrest
      rwa [Nat.add_comm 36, ← Nat.mul_succ] at hall

theorem rdbuffRequest_isRead : isRead rdbuffRequest = true := by decide

/-- The end of a batch with a posted read: RDBUFF gives its value (R244). -/
theorem transferEnd_flush (v : Word) {b : Batch} {s : State} {more : List Bool} (hack : b.ack = codeOk)
    (hs : s.swdReady) (hpost : s.host.postRead = true) (hanswers : s.inputs.answers = okReadAnswers v ++ more) :
    ∃ t, transferEnd b s = .next ({ b with out := b.out ++ bytesOfWord v }, t) ∧ Attempted s t 36 more := by
  obtain ⟨t, ht, hrdata, hdone⟩ := bus_okRead rdbuffRequest_isRead 0#32 v hs hanswers
  refine ⟨t, ?_, hdone⟩
  simp only [transferEnd, hack, ne_eq, not_true_eq_false, if_false, hpost, if_true, ht, andThen_next, Batch.append, hrdata]

/-- Settles O55: one posted read, a read for each value but the last, and RDBUFF for the last. -/
theorem postedReadsAreNotShifted : Obligations.PostedReadsAreNotShifted := by
  intro request first values s more hs hread hap hplain habort hpolls hne _ hanswers
  have hreq : PlainApRead request := ⟨hread, hap, hplain⟩
  obtain ⟨vs, v, rfl⟩ : ∃ vs v, values = vs ++ [v] :=
    ⟨values.dropLast, values.getLast hne, (List.dropLast_append_getLast hne).symm⟩
  have hlen : (vs ++ [v]).length = vs.length + 1 := by simp
  have hsplit : s.inputs.answers =
      okReadAnswers first ++ (vs.flatMap okReadAnswers ++ (okReadAnswers v ++ more)) := by
    rw [hanswers, List.flatMap_append, List.flatMap_singleton]
    simp only [List.append_assoc]
  obtain ⟨t1, h1, hdone1⟩ := transferEntry_post hreq first (s := setPostRead false s)
    (b := { completed := 0#8, ack := 0#8, checkWrite := false, out := [], rest := List.replicate (vs.length + 1) request })
    List.replicate_succ hs rfl hsplit
  have habort1 : t1.host.abort = false := by rw [hdone1.host]; exact habort
  have hpolls1 : t1.inputs.abortPolls = [] := hdone1.polls.trans hpolls
  obtain ⟨t2, h2, hdone2⟩ := transferLoop_collect hreq (okReadAnswers v ++ more) vs
    { completed := 1#8, ack := codeOk, checkWrite := false, out := [], rest := List.replicate vs.length request }
    (setPostRead true t1) rfl rfl rfl hdone1.ready rfl habort1 hpolls1 hdone1.answers
  have hpost2 : t2.host.postRead = true := by rw [hdone2.host]; rfl
  obtain ⟨t3, h3, hdone3⟩ := transferEnd_flush v
    (b := { completed := 1#8 + BitVec.ofNat 8 vs.length, ack := codeOk, checkWrite := false,
            out := [] ++ vs.flatMap bytesOfWord, rest := [] }) rfl hdone2.ready hpost2 hdone2.answers
  refine ⟨setPostRead false t3, ?_, ?_, rfl⟩
  · have hloop := transferLoop_of_entry (t := setPostRead true t1) h1 hpolls1 habort1 vs.length
    have hcount : 1#8 + BitVec.ofNat 8 vs.length = BitVec.ofNat 8 (vs.length + 1) := by bv_omega
    rw [transferBatch, hlen, hloop]
    refine (congrArg (andThen · _) h2).trans ?_
    rw [andThen_next]
    refine (congrArg (andThen · _) h3).trans ?_
    rw [andThen_next, hcount, List.flatMap_append, List.flatMap_singleton, List.nil_append]
    rfl
  · have hsamples : t3.inputs.samples = s.inputs.samples + 36 + 36 * vs.length + 36 := by
      rw [hdone3.samples, hdone2.samples]
      exact congrArg (· + 36 * vs.length + 36) hdone1.samples
    rw [hlen, setPostRead_inputs, hsamples]
    omega

end Sys2Proof.Machine
end

section
/-! PROOFS. The stages of an XFER on the GPIO backend, walked through once for every relation between two runs that their
primitives keep (43_gpio_backend.md R191 to R201). The legality of the pin events, the variant without delays and what no
operation touches are instances. -/

namespace Sys2Proof.Machine

/-! Steps that move no pin -/

/-- Another GPIO mode and another pin-event trace, all else as it is. -/
def State.recast (s : State) (m : XferMode) (ev : List PinEvent) : State := { s with xferMode := m, pinEvents := ev }

/-- Only registers of the datapath, the position and the inputs of the block may differ. -/
structure Unmoved (s t : State) : Prop where
  params : t.params = s.params
  cmd : t.cmd = s.cmd
  host : t.host = s.host
  polls : t.inputs.abortPolls = s.inputs.abortPolls
  turnaroundBits : t.turnaroundBits = s.turnaroundBits
  dataPhase : t.dataPhase = s.dataPhase
  idleCycles : t.idleCycles = s.idleCycles
  xferMode : t.xferMode = s.xferMode
  clockDelay : t.clockDelay = s.clockDelay
  debugPort : t.debugPort = s.debugPort
  pins : t.pins = s.pins
  wire : t.wire = s.wire
  pinEvents : t.pinEvents = s.pinEvents

/-- A step that moves no pin and reads neither the mode nor the pin-event trace. -/
structure Quiet (u : State → State) : Prop where
  unmoved : ∀ s, Unmoved s (u s)
  recast : ∀ s m ev, u (s.recast m ev) = (u s).recast m ev

theorem quiet_enterPhase (p : Phase) (n : Nat) : Quiet (enterPhase p n) :=
  ⟨fun _ => ⟨rfl, rfl, rfl, rfl, rfl, rfl, rfl, rfl, rfl, rfl, rfl, rfl, rfl⟩, fun _ _ _ => rfl⟩

theorem quiet_latchAck (ack : BitVec 3) : Quiet (latchAck ack) :=
  ⟨fun _ => ⟨rfl, rfl, rfl, rfl, rfl, rfl, rfl, rfl, rfl, rfl, rfl, rfl, rfl⟩, fun _ _ _ => rfl⟩

theorem quiet_checkParity (p : Bool) : Quiet (checkParity p) :=
  ⟨fun _ => ⟨rfl, rfl, rfl, rfl, rfl, rfl, rfl, rfl, rfl, rfl, rfl, rfl, rfl⟩, fun _ _ _ => rfl⟩

theorem quiet_finish (code : Byte) : Quiet (finish code) :=
  ⟨fun _ => ⟨rfl, rfl, rfl, rfl, rfl, rfl, rfl, rfl, rfl, rfl, rfl, rfl, rfl⟩, fun _ _ _ => rfl⟩

theorem quiet_xorPar (b : Bool) : Quiet fun s => { s with par := s.par ^^ b } :=
  ⟨fun _ => ⟨rfl, rfl, rfl, rfl, rfl, rfl, rfl, rfl, rfl, rfl, rfl, rfl, rfl⟩, fun _ _ _ => rfl⟩

theorem quiet_setRdata (v : Word) : Quiet fun s => { s with rdata := v } :=
  ⟨fun _ => ⟨rfl, rfl, rfl, rfl, rfl, rfl, rfl, rfl, rfl, rfl, rfl, rfl, rfl⟩, fun _ _ _ => rfl⟩

theorem quiet_timestampIfAsked : Quiet timestampIfAsked where
  unmoved s := by
    rw [timestampIfAsked_eq]
    exact ⟨rfl, rfl, rfl, rfl, rfl, rfl, rfl, rfl, rfl, rfl, rfl, rfl, rfl⟩
  recast s m ev := by
    rw [timestampIfAsked_eq, timestampIfAsked_eq]
    rfl

/-! The direction of the line -/

theorem gIdleCycles_swdioOe (n : Nat) (s : State) : (gIdleCycles n s).pins.swdioOe = s.pins.swdioOe := by
  rw [gIdleCycles_eq]
  simp only
  split <;> rfl

theorem gRead_swdioOe {s : State} (h : s.pins.swdioOe = false) : (gRead s).2.pins.swdioOe = false := by
  rw [gRead_eq s h]
  exact h

theorem gEnsureReleased_swdioOe (s : State) : (gEnsureReleased s).pins.swdioOe = false := by
  unfold gEnsureReleased
  split
  · rfl
  · next h => exact Bool.eq_false_iff.mpr h

/-! The data phases, cut where the data bits end -/

/-- The turnaround after the parity bit of a read and the end of the transaction (41_swd_transfer.md R132, R133). -/
def gReadEnd (s : State) : State :=
  gFinishOk (gOutEnable (gIdleCycles s.turnaround (enterPhase .trnR s.turnaround s)))

/-- The parity bit of a read and what follows it (41_swd_transfer.md R131 to R133). -/
def gReadTail (v : List Bool) (s : State) : State :=
  gReadEnd (checkParity (gRead (enterPhase .rpar 1 s)).1 { (gRead (enterPhase .rpar 1 s)).2 with rdata := ofBits 32 v })

/-- The first position of a data phase: all 32 cycles to go and the parity register cleared (R130, R142). -/
def startData (p : Phase) (s : State) : State := { enterPhase p 32 s with par := false }

theorem quiet_startData (p : Phase) : Quiet (startData p) :=
  ⟨fun _ => ⟨rfl, rfl, rfl, rfl, rfl, rfl, rfl, rfl, rfl, rfl, rfl, rfl, rfl⟩, fun _ _ _ => rfl⟩

theorem gRdata_eq_tail (s : State) :
    gRdata s = gReadTail (gReadData 32 (startData .rdata (gEnsureReleased s))).1
      (gReadData 32 (startData .rdata (gEnsureReleased s))).2 := by
  dsimp only [gRdata, gReadTail, startData]
  generalize gReadData 32 _ = r
  generalize gRead (enterPhase .rpar 1 r.2) = q
  rfl

theorem gWdata_eq_tail (s : State) :
    gWdata s = gFinishOk (gWriteBits
      [(gWriteData (bitsOf (gEnsureDriven s).wdata) (startData .wdata (gEnsureDriven s))).par]
      (enterPhase .wpar 1 (gWriteData (bitsOf (gEnsureDriven s).wdata) (startData .wdata (gEnsureDriven s))))) := rfl

/-- The acknowledge cycles on a released line and the path they select (R127, R128). -/
def gAcknowledge (s : State) : State :=
  gDispatch (latchAck (ofBits 3 (gReadBits 3 (enterPhase .acks 3 s)).1) (gReadBits 3 (enterPhase .acks 3 s)).2)

theorem gAcks_eq (s : State) : gAcks s = gAcknowledge (gEnsureReleased s) := by
  dsimp only [gAcks, gAcknowledge]

/-- The request cycles (R125) and the first turnaround (R126). -/
def gRequest (rb : Byte) (s : State) : State :=
  gIdleCycles s.turnaround (gOutDisable (enterPhase .trn1 s.turnaround
    (gWriteBits (bitsOf rb) (gEnsureDriven (enterPhase .req 8 s)))))

theorem gXfer_eq (s : State) : gXfer s = gAcknowledge (gRequest (requestByte (requestNibble s.req)) s) := by
  dsimp only [gXfer, gRequestHeader, gAcknowledge, gRequest]
  rfl

/-! The walk -/

/-- A relation between two runs on the GPIO backend that every primitive keeps. The runs may differ in the mode and in the
pin events; a sample is taken on a released line only. -/
structure Walks (R : State → State → Prop) : Prop where
  same : ∀ {f d}, R f d → ∃ m ev, d = f.recast m ev
  quiet : ∀ {f d} {u : State → State}, Quiet u → R f d → R (u f) (u d)
  cycle : ∀ {f d}, R f d → R (gCycle f) (gCycle d)
  write : ∀ {f d} (b), R f d → R (gWrite b f) (gWrite b d)
  read : ∀ {f d}, R f d → f.pins.swdioOe = false → R (gRead f).2 (gRead d).2
  oe : ∀ {f d} (b), R f d → R (emit [.oe b] f) (emit [.oe b] d)
  dio : ∀ {f d} (b), R f d → R (emit [.dio b] f) (emit [.dio b] d)

section walk

variable {R : State → State → Prop} {f d : State}

theorem Walks.ensureDriven (hw : Walks R) (h : R f d) : R (gEnsureDriven f) (gEnsureDriven d) := by
  obtain ⟨m, ev, hd⟩ := hw.same h
  have hoe : d.pins.swdioOe = f.pins.swdioOe := by rw [hd]; rfl
  unfold gEnsureDriven
  rw [hoe]
  split
  · exact h
  · exact hw.oe true h

theorem Walks.ensureReleased (hw : Walks R) (h : R f d) : R (gEnsureReleased f) (gEnsureReleased d) := by
  obtain ⟨m, ev, hd⟩ := hw.same h
  have hoe : d.pins.swdioOe = f.pins.swdioOe := by rw [hd]; rfl
  unfold gEnsureReleased
  rw [hoe]
  split
  · exact hw.oe false h
  · exact h

theorem Walks.drive (hw : Walks R) (b : Bool) (h : R f d) : R (gDrive b f) (gDrive b d) := hw.dio b (hw.ensureDriven h)

theorem Walks.idleCycles (hw : Walks R) (n : Nat) (h : R f d) : R (gIdleCycles n f) (gIdleCycles n d) := by
  induction n generalizing f d with
  | zero => exact h
  | succ n ih => exact ih (hw.cycle h)

theorem Walks.lowCycles (hw : Walks R) (n : Nat) (h : R f d) : R (gLowCycles n f) (gLowCycles n d) := by
  unfold gLowCycles
  split
  · exact h
  · exact hw.idleCycles n (hw.dio false h)

theorem Walks.writeBits (hw : Walks R) (bs : List Bool) (h : R f d) : R (gWriteBits bs f) (gWriteBits bs d) := by
  induction bs generalizing f d with
  | nil => exact h
  | cons b bs ih => exact ih (hw.write b h)

theorem Walks.writeData (hw : Walks R) (bs : List Bool) (h : R f d) : R (gWriteData bs f) (gWriteData bs d) := by
  induction bs generalizing f d with
  | nil => exact h
  | cons b bs ih => exact ih (hw.quiet (quiet_xorPar b) (hw.write b h))

/-- Both runs sample the same bit, the target's next answer. -/
theorem Walks.read_bit (hw : Walks R) (h : R f d) (hr : f.pins.swdioOe = false) : (gRead d).1 = (gRead f).1 := by
  obtain ⟨m, ev, rfl⟩ := hw.same h
  rw [gRead_eq f hr, gRead_eq (f.recast m ev) hr]
  rfl

theorem Walks.readBits (hw : Walks R) (n : Nat) (h : R f d) (hr : f.pins.swdioOe = false) :
    (gReadBits n d).1 = (gReadBits n f).1 ∧ R (gReadBits n f).2 (gReadBits n d).2 := by
  induction n generalizing f d with
  | zero => exact ⟨rfl, h⟩
  | succ n ih =>
    obtain ⟨hbits, hrest⟩ := ih (hw.read h hr) (gRead_swdioOe hr)
    exact ⟨congrArg₂ List.cons (hw.read_bit h hr) hbits, hrest⟩

theorem Walks.readData (hw : Walks R) (n : Nat) (h : R f d) (hr : f.pins.swdioOe = false) :
    (gReadData n d).1 = (gReadData n f).1 ∧ R (gReadData n f).2 (gReadData n d).2 ∧
      (gReadData n f).2.pins.swdioOe = false := by
  induction n generalizing f d with
  | zero => exact ⟨rfl, h, hr⟩
  | succ n ih =>
    have hbit := hw.read_bit h hr
    have hnext : R { (gRead f).2 with par := (gRead f).2.par ^^ (gRead f).1 }
        { (gRead d).2 with par := (gRead d).2.par ^^ (gRead d).1 } := by
      rw [hbit]
      exact hw.quiet (quiet_xorPar (gRead f).1) (hw.read h hr)
    obtain ⟨hbits, hrest, hoe⟩ := ih hnext (gRead_swdioOe hr)
    exact ⟨congrArg₂ List.cons hbit hbits, hrest, hoe⟩

/-- A phase of as many cycles as the turnaround says. -/
theorem Walks.turnaround (hw : Walks R) (p : Phase) (n : State → Nat) (hn : ∀ s m ev, n (State.recast s m ev) = n s)
    (h : R f d) : R (gIdleCycles (n f) (enterPhase p (n f) f)) (gIdleCycles (n d) (enterPhase p (n d) d)) := by
  obtain ⟨m, ev, hd⟩ := hw.same h
  have ht : n d = n f := by rw [hd]; exact hn _ _ _
  rw [ht]
  exact hw.idleCycles _ (hw.quiet (quiet_enterPhase p _) h)

/-- The closing `drive(1)` and the result. -/
theorem Walks.close (hw : Walks R) (code : State → Byte) (hcode : ∀ s m ev, code (State.recast s m ev) = code s)
    (h : R f d) : R (finish (code (gDrive true f)) (gDrive true f)) (finish (code (gDrive true d)) (gDrive true d)) := by
  have hdrive := hw.drive true h
  obtain ⟨m, ev, hd⟩ := hw.same hdrive
  have hsame : code (gDrive true d) = code (gDrive true f) := by rw [hd]; exact hcode _ _ _
  rw [hsame]
  exact hw.quiet (quiet_finish _) hdrive

theorem Walks.finishOk (hw : Walks R) (h : R f d) : R (gFinishOk f) (gFinishOk d) := by
  have hstamp := hw.quiet quiet_timestampIfAsked h
  obtain ⟨m, ev, hd⟩ := hw.same hstamp
  have hidle : (timestampIfAsked d).idleCycles = (timestampIfAsked f).idleCycles := by rw [hd]; rfl
  unfold gFinishOk
  simp only [hidle]
  exact hw.close okCode (fun _ _ _ => rfl) (hw.lowCycles _ (hw.quiet (quiet_enterPhase _ _) hstamp))

theorem Walks.readEnd (hw : Walks R) (h : R f d) : R (gReadEnd f) (gReadEnd d) :=
  hw.finishOk (hw.oe true (hw.turnaround .trnR State.turnaround (fun _ _ _ => rfl) h))

theorem Walks.readTail (hw : Walks R) (v : List Bool) (h : R f d) (hr : f.pins.swdioOe = false) :
    R (gReadTail v f) (gReadTail v d) := by
  have hpar := hw.quiet (quiet_enterPhase .rpar 1) h
  have hbit := hw.read_bit hpar hr
  unfold gReadTail
  rw [hbit]
  exact hw.readEnd (hw.quiet (quiet_checkParity _) (hw.quiet (quiet_setRdata _) (hw.read hpar hr)))

theorem Walks.rdata (hw : Walks R) (h : R f d) : R (gRdata f) (gRdata d) := by
  obtain ⟨hword, hdata, hoe⟩ := hw.readData 32
    (hw.quiet (quiet_startData .rdata) (hw.ensureReleased h))
    (gEnsureReleased_swdioOe f)
  rw [gRdata_eq_tail, gRdata_eq_tail, hword]
  exact hw.readTail _ hdata hoe

theorem Walks.writeTail (hw : Walks R) (h : R f d) :
    R (gFinishOk (gWriteBits [f.par] (enterPhase .wpar 1 f))) (gFinishOk (gWriteBits [d.par] (enterPhase .wpar 1 d))) := by
  obtain ⟨m, ev, hd⟩ := hw.same h
  have hpar : d.par = f.par := by rw [hd]; rfl
  rw [hpar]
  exact hw.finishOk (hw.writeBits _ (hw.quiet (quiet_enterPhase .wpar 1) h))

theorem Walks.wdata (hw : Walks R) (h : R f d) : R (gWdata f) (gWdata d) := by
  obtain ⟨m, ev, hd⟩ := hw.same (hw.ensureDriven h)
  have hdata : (gEnsureDriven d).wdata = (gEnsureDriven f).wdata := by rw [hd]; rfl
  rw [gWdata_eq_tail, gWdata_eq_tail, hdata]
  exact hw.writeTail (hw.writeData _ (hw.quiet (quiet_startData .wdata) (hw.ensureDriven h)))

theorem Walks.trnW (hw : Walks R) (h : R f d) : R (gTrnW f) (gTrnW d) :=
  hw.wdata (hw.oe true (hw.turnaround .trnW State.turnaround (fun _ _ _ => rfl) h))

theorem Walks.nak (hw : Walks R) (h : R f d) : R (gNak f) (gNak d) := by
  have hdummyR : R (if f.dataPhase && f.rnw then gIdleCycles 33 (enterPhase .dummyR 33 f) else f)
      (if d.dataPhase && d.rnw then gIdleCycles 33 (enterPhase .dummyR 33 d) else d) := by
    obtain ⟨m, ev, hd⟩ := hw.same h
    have hcond : (d.dataPhase && d.rnw) = (f.dataPhase && f.rnw) := by rw [hd]; rfl
    rw [hcond]
    split
    · exact hw.idleCycles 33 (hw.quiet (quiet_enterPhase .dummyR 33) h)
    · exact h
  have hdummyW : ∀ {f d : State}, R f d →
      R (if f.dataPhase && !f.rnw then gLowCycles 33 (enterPhase .dummyW 33 f) else f)
        (if d.dataPhase && !d.rnw then gLowCycles 33 (enterPhase .dummyW 33 d) else d) := by
    intro f d h
    obtain ⟨m, ev, hd⟩ := hw.same h
    have hcond : (d.dataPhase && !d.rnw) = (f.dataPhase && !f.rnw) := by rw [hd]; rfl
    rw [hcond]
    split
    · exact hw.lowCycles 33 (hw.quiet (quiet_enterPhase .dummyW 33) h)
    · exact h
  exact hw.close (fun s => s.ack.setWidth 8) (fun _ _ _ => rfl) (hdummyW (hw.oe true (hw.turnaround .trnF State.turnaround (fun _ _ _ => rfl) hdummyR)))

theorem Walks.recov (hw : Walks R) (h : R f d) : R (gRecov f) (gRecov d) :=
  hw.close (fun _ => errorCode) (fun _ _ _ => rfl) (hw.turnaround .recov (fun s => s.turnaround + 33) (fun _ _ _ => rfl) h)

theorem Walks.dispatch (hw : Walks R) (h : R f d) : R (gDispatch f) (gDispatch d) := by
  obtain ⟨m, ev, hd⟩ := hw.same h
  have hack : d.ack = f.ack := by rw [hd]; rfl
  have hrnw : d.rnw = f.rnw := by rw [hd]; rfl
  unfold gDispatch
  rw [hack, hrnw]
  cases ackClass f.ack with
  | ok =>
    simp only
    split
    · exact hw.rdata h
    · exact hw.trnW h
  | wait | fault => exact hw.nak h
  | error => exact hw.recov h

theorem Walks.acknowledge (hw : Walks R) (h : R f d) (hr : f.pins.swdioOe = false) :
    R (gAcknowledge f) (gAcknowledge d) := by
  obtain ⟨hbits, hread⟩ := hw.readBits 3 (hw.quiet (quiet_enterPhase .acks 3) h) hr
  unfold gAcknowledge
  rw [hbits]
  exact hw.dispatch (hw.quiet (quiet_latchAck _) hread)

theorem Walks.acks (hw : Walks R) (h : R f d) : R (gAcks f) (gAcks d) := by
  rw [gAcks_eq, gAcks_eq]
  exact hw.acknowledge (hw.ensureReleased h) (gEnsureReleased_swdioOe f)

theorem Walks.request (hw : Walks R) (rb : Byte) (h : R f d) : R (gRequest rb f) (gRequest rb d) := by
  obtain ⟨m, ev, hd⟩ := hw.same h
  have hturn : d.turnaround = f.turnaround := by rw [hd]; rfl
  have hsent := hw.writeBits (bitsOf rb) (hw.ensureDriven (hw.quiet (quiet_enterPhase .req 8) h))
  unfold gRequest
  rw [hturn]
  exact hw.idleCycles _ (hw.oe false (hw.quiet (quiet_enterPhase .trn1 _) hsent))

theorem Walks.xfer (hw : Walks R) (h : R f d) : R (gXfer f) (gXfer d) := by
  obtain ⟨m, ev, hd⟩ := hw.same h
  have hreq : d.req = f.req := by rw [hd]; rfl
  rw [gXfer_eq, gXfer_eq, hreq]
  exact hw.acknowledge (hw.request _ h) (gIdleCycles_swdioOe _ _)

theorem Walks.seqBits (hw : Walks R) (h : R f d) :
    R (gWriteBits (seqBits f) (gEnsureDriven (enterPhase .seq f.seqLen.toNat f)))
      (gWriteBits (Machine.seqBits d) (gEnsureDriven (enterPhase .seq d.seqLen.toNat d))) := by
  obtain ⟨m, ev, hd⟩ := hw.same h
  have hbits : Machine.seqBits d = Machine.seqBits f := by rw [hd]; rfl
  have hlen : d.seqLen = f.seqLen := by rw [hd]; rfl
  rw [hbits, hlen]
  exact hw.writeBits _ (hw.ensureDriven (hw.quiet (quiet_enterPhase .seq _) h))

end walk

end Sys2Proof.Machine
end

section
/-! PROOFS. The pin events of the GPIO backend (43_gpio_backend.md R199, R200): two relations that its primitives keep. -/

namespace Sys2Proof.Machine

/-! Operations on the GPIO backend -/

theorem quiet_xferStart (request : Byte) (data : Word) : Quiet (xferStart request data) :=
  ⟨fun _ => ⟨rfl, rfl, rfl, rfl, rfl, rfl, rfl, rfl, rfl, rfl, rfl, rfl, rfl⟩, fun _ _ _ => rfl⟩

theorem quiet_seqStart (bitCount : Byte) (bits : List Byte) : Quiet (seqStart bitCount bits) where
  unmoved s := by constructor <;> simp
  recast s m ev := by
    unfold seqStart State.recast
    rfl

/-- What an XFER does on the GPIO backend. -/
theorem exec_issues_gpio {i : Instr} {request : Byte} {data : Word} {s : State} (h : issues i request data)
    (hs : s.swdReady) (hm : s.xferMode ≠ .spi) :
    exec i s = .next (gXfer (xferStart request (if request.getLsbD 1 then s.wdata else data) s)) := by
  obtain ⟨hidle, hport, -⟩ := hs
  rw [exec_issues h, xfer, accept_idle hidle, if_pos hport, xferBody, xferStart_xferMode, if_neg hm, ofRun]

/-- What a SEQ does on the GPIO backend. -/
theorem exec_seq_gpio {i : Instr} {bitCount : Byte} {bits : List Byte} {s : State} (h : i.canonical = .seq bitCount bits)
    (hlen : bits.length = seqByteCount bitCount) (hs : s.swdReady) (hm : s.xferMode ≠ .spi) :
    exec i s = .next (finish statusDone (gWriteBits (seqBits (seqStart bitCount bits s))
      (gEnsureDriven (enterPhase .seq (seqStart bitCount bits s).seqLen.toNat (seqStart bitCount bits s))))) := by
  obtain ⟨hidle, hport, -⟩ := hs
  rw [exec_seq h hlen, sequence, accept_idle hidle, if_pos hport, seqBody, seqStart_xferMode, if_neg hm, Option.map_some,
    ofRun]

/-- An XFER or SEQ in SWD keeps every relation that the primitives of the GPIO backend keep. -/
theorem Walks.exec {R : State → State → Prop} (hw : Walks R) {i : Instr} {f d f' d' : State}
    (hi : (∃ request data, issues i request data) ∨ ∃ bitCount bits, i.canonical = .seq bitCount bits)
    (hport : f.debugPort = .swd) (hf : f.xferMode ≠ .spi) (hd : d.xferMode ≠ .spi) (h : R f d)
    (hf' : exec i f = .next f') (hd' : exec i d = .next d') : R f' d' := by
  obtain ⟨m, ev, hrecast⟩ := hw.same h
  have hport' : d.debugPort = .swd := (congrArg State.debugPort hrecast).trans hport
  rcases hi with ⟨request, data, hi⟩ | ⟨bitCount, bits, hi⟩
  · obtain ⟨hidle, -⟩ := exec_issues_next hi hf'
    obtain ⟨hidle', -⟩ := exec_issues_next hi hd'
    rw [exec_issues_gpio hi ⟨hidle, hport, fun h => absurd h hf⟩ hf] at hf'
    rw [exec_issues_gpio hi ⟨hidle', hport', fun h => absurd h hd⟩ hd] at hd'
    have hdata : d.wdata = f.wdata := by rw [hrecast]; rfl
    rw [← Host.Outcome.next.inj hf', ← Host.Outcome.next.inj hd', hdata]
    exact hw.xfer (hw.quiet (quiet_xferStart _ _) h)
  · obtain ⟨hlen, hidle, -⟩ := exec_seq_next hi hf'
    obtain ⟨-, hidle', -⟩ := exec_seq_next hi hd'
    rw [exec_seq_gpio hi hlen ⟨hidle, hport, fun h => absurd h hf⟩ hf] at hf'
    rw [exec_seq_gpio hi hlen ⟨hidle', hport', fun h => absurd h hd⟩ hd] at hd'
    rw [← Host.Outcome.next.inj hf', ← Host.Outcome.next.inj hd']
    exact hw.quiet (quiet_finish _) (hw.seqBits (hw.quiet (quiet_seqStart _ _) h))

/-! The variant with delays -/

theorem withDelays_append (c : Word) (es fs : List PinEvent) : withDelays c (es ++ fs) = withDelays c es ++ withDelays c fs :=
  List.flatMap_append

/-- The fast run `f` and the delayed run `d` have added the same pin events after `base`, but for the delays. -/
structure Delayed (base : List PinEvent) (c : Word) (f d : State) : Prop where
  fast : f.xferMode = .gpioFast
  delay : f.clockDelay = c
  events : ∃ ev, ev.all (fun e => !e.isDelay) = true ∧ f.pinEvents = base ++ ev ∧
    d = f.recast .gpioDelayed (base ++ withDelays c ev)

section delayed

variable {base : List PinEvent} {c : Word} {f d : State}

/-- The next events of the two runs. -/
theorem Delayed.step (h : Delayed base c f d) {f' : State} {more : List PinEvent} (hmode : f'.xferMode = f.xferMode)
    (hdelay : f'.clockDelay = f.clockDelay) (hmore : more.all (fun e => !e.isDelay) = true)
    (hf : f'.pinEvents = f.pinEvents ++ more) :
    Delayed base c f' (f'.recast .gpioDelayed (d.pinEvents ++ withDelays c more)) := by
  obtain ⟨hfast, hclock, ev, hall, hev, rfl⟩ := h
  refine ⟨hmode.trans hfast, hdelay.trans hclock, ev ++ more, ?_, ?_, ?_⟩
  · rw [List.all_append, hall, hmore, Bool.and_self]
  · rw [hf, hev, List.append_assoc]
  · rw [withDelays_append, ← List.append_assoc]
    rfl

theorem Delayed.clockEvents (h : Delayed base c f d) :
    clockEvents f = [.clk false, .clk true] ∧ clockEvents d = withDelays c [.clk false, .clk true] := by
  obtain ⟨hfast, rfl, ev, -, -, rfl⟩ := h
  simp [Machine.clockEvents, gDelay, hfast, State.recast, withDelays]

theorem Delayed.readEvents (h : Delayed base c f d) (b : Bool) :
    readEvents f b = [.clk false, .rd b, .clk true] ∧ readEvents d b = withDelays c [.clk false, .rd b, .clk true] := by
  obtain ⟨hfast, rfl, ev, -, -, rfl⟩ := h
  simp [Machine.readEvents, gDelay, hfast, State.recast, withDelays]

theorem Delayed.recast_eq (h : Delayed base c f d) : d = f.recast .gpioDelayed d.pinEvents := by
  obtain ⟨-, -, ev, -, -, rfl⟩ := h
  rfl

end delayed

theorem walks_delayed (base : List PinEvent) (c : Word) : Walks (Delayed base c) where
  same h := ⟨_, _, h.recast_eq⟩
  quiet := by
    intro f d u hu h
    obtain ⟨hfast, hclock, ev, hall, hev, rfl⟩ := h
    have hq := hu.unmoved f
    exact ⟨hq.xferMode.trans hfast, hq.clockDelay.trans hclock, ev, hall, hq.pinEvents.trans hev, hu.recast _ _ _⟩
  cycle := by
    intro f d h
    obtain ⟨hfev, hdev⟩ := h.clockEvents
    have hstep := h.step (f' := gCycle f) (more := [.clk false, .clk true]) (by rw [gCycle_eq]) (by rw [gCycle_eq]) rfl
      (by rw [gCycle_eq, hfev])
    have hd : gCycle d = (gCycle f).recast .gpioDelayed (d.pinEvents ++ withDelays c [.clk false, .clk true]) := by
      rw [gCycle_eq, gCycle_eq, hdev, h.recast_eq]
      rfl
    rwa [hd]
  write := by
    intro f d b h
    obtain ⟨hfev, hdev⟩ := h.clockEvents
    have hstep := h.step (f' := gWrite b f) (more := [.dio b, .clk false, .clk true]) (by rw [gWrite_eq])
      (by rw [gWrite_eq]) rfl (by rw [gWrite_eq, hfev])
    have hd : gWrite b d = (gWrite b f).recast .gpioDelayed (d.pinEvents ++ withDelays c [.dio b, .clk false, .clk true]) := by
      rw [gWrite_eq, gWrite_eq, hdev, h.recast_eq]
      rfl
    rwa [hd]
  read := by
    intro f d h hr
    obtain ⟨hfev, hdev⟩ := h.readEvents (f.answer 0)
    have hstep := h.step (f' := (gRead f).2) (more := [.clk false, .rd (f.answer 0), .clk true]) (by rw [gRead_eq f hr]; rfl)
      (by rw [gRead_eq f hr]; rfl) rfl (by rw [gRead_eq f hr, hfev])
    have hans : d.answer 0 = f.answer 0 := by rw [h.recast_eq]; rfl
    have hr' : d.pins.swdioOe = false := by rw [h.recast_eq]; exact hr
    have hd : (gRead d).2 =
        (gRead f).2.recast .gpioDelayed (d.pinEvents ++ withDelays c [.clk false, .rd (f.answer 0), .clk true]) := by
      rw [gRead_eq f hr, gRead_eq d hr', hans, hdev, h.recast_eq]
      rfl
    rwa [hd]
  oe := by
    intro f d b h
    have hstep := h.step (f' := emit [.oe b] f) (more := [.oe b]) rfl rfl rfl rfl
    have hd : emit [.oe b] d = (emit [.oe b] f).recast .gpioDelayed (d.pinEvents ++ withDelays c [.oe b]) := by
      rw [h.recast_eq]
      rfl
    rwa [hd]
  dio := by
    intro f d b h
    have hstep := h.step (f' := emit [.dio b] f) (more := [.dio b]) rfl rfl rfl rfl
    have hd : emit [.dio b] d = (emit [.dio b] f).recast .gpioDelayed (d.pinEvents ++ withDelays c [.dio b]) := by
      rw [h.recast_eq]
      rfl
    rwa [hd]

/-- Settles O38, by the walk of the two variants side by side. -/
theorem delayedVariantOnlyDelays : Obligations.DelayedVariantOnlyDelays := by
  intro i s f d _ hport hf hd hi
  have hstart : Delayed s.pinEvents s.clockDelay { s with xferMode := .gpioFast } { s with xferMode := .gpioDelayed } :=
    ⟨rfl, rfl, [], rfl, (List.append_nil _).symm, by
      rw [withDelays, List.flatMap_nil, List.append_nil]
      rfl⟩
  obtain ⟨-, -, ev, hall, hev, rfl⟩ := (walks_delayed s.pinEvents s.clockDelay).exec
    (f := { s with xferMode := .gpioFast }) (d := { s with xferMode := .gpioDelayed }) hi hport nofun nofun hstart hf hd
  have hnew : newEvents s f = ev := by rw [newEvents, hev, List.drop_left]
  have hnew' : newEvents s (f.recast .gpioDelayed (s.pinEvents ++ withDelays s.clockDelay ev)) =
      withDelays s.clockDelay ev := List.drop_left
  exact ⟨hnew ▸ hall, by rw [hnew, hnew'], rfl⟩

/-! Legal pin events -/

theorem legalEvents_append (p : Pins) (es fs : List PinEvent) :
    legalEvents p (es ++ fs) = (legalEvents p es && legalEvents (es.foldl PinEvent.apply p) fs) := by
  induction es generalizing p with
  | nil => rfl
  | cons e es ih => simp [legalEvents, ih, Bool.and_assoc]

/-- From `s` to `t` every pin event was legal on the pins it met, the events lead from the pins of `s` to those of `t`, each
wire cycle had one falling edge, and SWCLK is high. -/
structure Legal (s t : State) : Prop where
  high : t.pins.swclkO = true
  events : ∃ ev cycles, t.pinEvents = s.pinEvents ++ ev ∧ t.wire = s.wire ++ cycles ∧ legalEvents s.pins ev = true ∧
    ev.foldl PinEvent.apply s.pins = t.pins ∧ ev.countP (fun e => e == .clk false) = cycles.length

theorem Legal.refl {s : State} (h : s.pins.swclkO = true) : Legal s s := ⟨h, [], [], by simp [legalEvents]⟩

theorem Legal.trans {s t u : State} (h : Legal s t) (h' : Legal t u) : Legal s u := by
  obtain ⟨-, ev, cycles, hev, hwire, hlegal, hpins, hcount⟩ := h
  obtain ⟨hhigh, ev', cycles', hev', hwire', hlegal', hpins', hcount'⟩ := h'
  refine ⟨hhigh, ev ++ ev', cycles ++ cycles', ?_, ?_, ?_, ?_, ?_⟩
  · rw [hev', hev, List.append_assoc]
  · rw [hwire', hwire, List.append_assoc]
  · rw [legalEvents_append, hlegal, hpins, hlegal', Bool.and_self]
  · rw [List.foldl_append, hpins, hpins']
  · rw [List.countP_append, List.length_append, hcount, hcount']

theorem Legal.of_unmoved {s t : State} (hs : s.pins.swclkO = true) (h : Unmoved s t) : Legal s t :=
  ⟨h.pins ▸ hs, [], [], by simp [legalEvents, h.pins, h.pinEvents, h.wire]⟩

section legal

variable {s : State}

theorem legalEvents_clock {p : Pins} (hp : p.swclkO = true) : legalEvents p (clockEvents s) = true := by
  unfold clockEvents gDelay
  split <;> simp [legalEvents, PinEvent.legal, PinEvent.apply, hp]

theorem legalEvents_read {b : Bool} (hs : s.pins.swclkO = true) (hr : s.pins.swdioOe = false) :
    legalEvents s.pins (readEvents s b) = true := by
  unfold readEvents gDelay
  split <;> simp [legalEvents, PinEvent.legal, PinEvent.apply, hs, hr]

theorem countP_clockEvents : (clockEvents s).countP (fun e => e == .clk false) = 1 := by
  unfold clockEvents gDelay
  split <;> rfl

theorem countP_readEvents (b : Bool) : (readEvents s b).countP (fun e => e == .clk false) = 1 := by
  unfold readEvents gDelay
  split <;> rfl

theorem readEvents_apply (b : Bool) (p : Pins) : (readEvents s b).foldl PinEvent.apply p = { p with swclkO := true } := by
  unfold readEvents gDelay
  split <;> rfl

theorem legal_gCycle (hs : s.pins.swclkO = true) : Legal s (gCycle s) := by
  rw [gCycle_eq]
  exact ⟨rfl, _, _, rfl, rfl, legalEvents_clock hs, clockEvents_apply s s.pins, countP_clockEvents⟩

theorem legal_gWrite (b : Bool) (hs : s.pins.swclkO = true) : Legal s (gWrite b s) := by
  rw [gWrite_eq]
  refine ⟨rfl, _, _, rfl, rfl, ?_, clockEvents_apply s (PinEvent.apply s.pins (.dio b)), ?_⟩
  · rw [legalEvents, PinEvent.legal, hs, Bool.true_and]
    exact legalEvents_clock hs
  · rw [List.countP_cons_of_neg (by simp), countP_clockEvents]
    rfl

theorem legal_gRead (hs : s.pins.swclkO = true) (hr : s.pins.swdioOe = false) : Legal s (gRead s).2 := by
  rw [gRead_eq s hr]
  exact ⟨rfl, _, _, rfl, rfl, legalEvents_read hs hr, readEvents_apply _ _, countP_readEvents _⟩

theorem legal_oe (b : Bool) (hs : s.pins.swclkO = true) : Legal s (emit [.oe b] s) :=
  ⟨hs, [.oe b], [], rfl, (List.append_nil _).symm, by simp [legalEvents, PinEvent.legal, hs], rfl, rfl⟩

theorem legal_dio (b : Bool) (hs : s.pins.swclkO = true) : Legal s (emit [.dio b] s) :=
  ⟨hs, [.dio b], [], rfl, (List.append_nil _).symm, by simp [legalEvents, PinEvent.legal, hs], rfl, rfl⟩

end legal

theorem walks_legal (s : State) : Walks fun f d => d = f ∧ Legal s f where
  same := by
    rintro f d ⟨rfl, -⟩
    exact ⟨d.xferMode, d.pinEvents, rfl⟩
  quiet := by
    rintro f d u hu ⟨rfl, h⟩
    exact ⟨rfl, h.trans (.of_unmoved h.high (hu.unmoved d))⟩
  cycle := by
    rintro f d ⟨rfl, h⟩
    exact ⟨rfl, h.trans (legal_gCycle h.high)⟩
  write := by
    rintro f d b ⟨rfl, h⟩
    exact ⟨rfl, h.trans (legal_gWrite b h.high)⟩
  read := by
    rintro f d ⟨rfl, h⟩ hr
    exact ⟨rfl, h.trans (legal_gRead h.high hr)⟩
  oe := by
    rintro f d b ⟨rfl, h⟩
    exact ⟨rfl, h.trans (legal_oe b h.high)⟩
  dio := by
    rintro f d b ⟨rfl, h⟩
    exact ⟨rfl, h.trans (legal_dio b h.high)⟩

/-- An XFER or SEQ on the GPIO backend, refused or not. -/
theorem exec_legal {i : Instr} {s t : State} (hm : s.xferMode ≠ .spi) (hs : s.pins.swclkO = true)
    (hi : (∃ request data, issues i request data) ∨ ∃ bitCount bits, i.canonical = .seq bitCount bits)
    (he : exec i s = .next t) : Legal s t := by
  by_cases hport : s.debugPort = .swd
  · exact ((walks_legal s).exec hi hport hm hm ⟨rfl, .refl hs⟩ he he).2
  · have hrefused : t = raiseResult statusRefused s := by
      rcases hi with ⟨request, data, hi⟩ | ⟨bitCount, bits, hi⟩
      · obtain ⟨-, ⟨-, ht⟩ | ⟨-, hswd, -⟩⟩ := exec_issues_next hi he
        · exact ht
        · exact absurd hswd hport
      · obtain ⟨-, -, ⟨-, ht⟩ | ⟨-, hswd, -⟩⟩ := exec_seq_next hi he
        · exact ht
        · exact absurd hswd hport
    rw [hrefused]
    exact .of_unmoved hs ⟨rfl, rfl, rfl, rfl, rfl, rfl, rfl, rfl, rfl, rfl, rfl, rfl, rfl⟩

/-- Settles O39. -/
theorem gpioEventsAreLegal : Obligations.GpioEventsAreLegal := by
  intro i s t _ hm hs he hi
  obtain ⟨hhigh, ev, cycles, hev, hwire, hlegal, hpins, hcount⟩ := exec_legal hm hs hi he
  have hnew : newEvents s t = ev := by rw [newEvents, hev, List.drop_left]
  have hcycles : newCycles s t = cycles := by rw [newCycles, hwire, List.drop_left]
  rw [hnew, hcycles]
  exact ⟨hlegal, hpins, hcount, hhigh⟩

end Sys2Proof.Machine
end

section
/-! PROOFS. What a predicate needs to survive every operation on either backend: the stages of an XFER on the SPI backend
(44_spi_backend.md R215 to R222) walked through once, and the same for the items of the wire formats. The instances are the
shape of the shifts and polls, and what no operation on the wires touches. -/

namespace Sys2Proof.Machine

/-! The walk -/

/-- A predicate on states that every primitive of either backend keeps. A shift fits the peripheral; a sample is taken on a
released line only. -/
structure Keeps (P : State → Prop) : Prop where
  unmoved : ∀ {s t}, P s → Unmoved s t → P t
  cycle : ∀ {s}, P s → P (gCycle s)
  write : ∀ {s} (b), P s → P (gWrite b s)
  read : ∀ {s}, P s → s.pins.swdioOe = false → P (gRead s).2
  oe : ∀ {s} (b), P s → P (emit [.oe b] s)
  dio : ∀ {s} (b), P s → P (emit [.dio b] s)
  shift : ∀ {s t outs ins bits}, P s → 1 ≤ outs.length + ins.length → outs.length + ins.length ≤ s.params.spiMaxBits →
    shiftWait outs ins s = some (bits, t) → P t

theorem unmoved_shiftFinished (s : State) : Unmoved s (shiftFinished s) := by
  obtain ⟨p, hp, -⟩ := shiftFinished_eq s
  rw [hp]
  exact ⟨rfl, rfl, rfl, rfl, rfl, rfl, rfl, rfl, rfl, rfl, rfl, rfl, rfl⟩

theorem unmoved_withAnswers (s : State) (bits : List Bool) : Unmoved s (s.withAnswers bits) :=
  ⟨rfl, rfl, rfl, rfl, rfl, rfl, rfl, rfl, rfl, rfl, rfl, rfl, rfl⟩

section keeps

variable {P : State → Prop} {s t : State}

theorem Keeps.quiet (hk : Keeps P) {u : State → State} (hu : Quiet u) (h : P s) : P (u s) := hk.unmoved h (hu.unmoved s)

/-- On the GPIO backend the predicate is a relation of a run with itself. -/
theorem Keeps.walks (hk : Keeps P) : Walks fun f d => d = f ∧ P f where
  same := by
    rintro f d ⟨rfl, -⟩
    exact ⟨d.xferMode, d.pinEvents, rfl⟩
  quiet := by
    rintro f d u hu ⟨rfl, h⟩
    exact ⟨rfl, hk.quiet hu h⟩
  cycle := by
    rintro f d ⟨rfl, h⟩
    exact ⟨rfl, hk.cycle h⟩
  write := by
    rintro f d b ⟨rfl, h⟩
    exact ⟨rfl, hk.write b h⟩
  read := by
    rintro f d ⟨rfl, h⟩ hr
    exact ⟨rfl, hk.read h hr⟩
  oe := by
    rintro f d b ⟨rfl, h⟩
    exact ⟨rfl, hk.oe b h⟩
  dio := by
    rintro f d b ⟨rfl, h⟩
    exact ⟨rfl, hk.dio b h⟩

/-! Runs of shifts -/

theorem Keeps.spiRunIn (hk : Keeps P) (fuel : Nat) {ins : List InSlot} {bits : List Bool} (h : P s)
    (he : spiRunIn fuel ins s = some (bits, t)) : P t := by
  induction fuel generalizing ins bits s with
  | zero =>
    obtain ⟨-, rfl⟩ := Prod.mk.inj (Option.some.inj he)
    exact h
  | succ fuel ih =>
    cases ins with
    | nil =>
      obtain ⟨-, rfl⟩ := Prod.mk.inj (Option.some.inj he)
      exact h
    | cons x xs =>
      have hmax := spiMaxBits_pos s.params
      obtain ⟨⟨r, u⟩, hchunk, hrest⟩ := Option.bind_eq_some_iff.mp he
      obtain ⟨⟨rs, v⟩, hlater, heq⟩ := Option.map_eq_some_iff.mp hrest
      obtain ⟨-, rfl⟩ := Prod.mk.inj heq
      exact ih (hk.shift h (by simp; omega) (by simp) hchunk) hlater

theorem Keeps.spiRunOut (hk : Keeps P) (fuel : Nat) {outs : List OutSlot} {ins : List InSlot} {bits : List Bool} (h : P s)
    (he : spiRunOut fuel outs ins s = some (bits, t)) : P t := by
  induction fuel generalizing outs bits s with
  | zero => exact hk.spiRunIn _ h he
  | succ fuel ih =>
    cases outs with
    | nil => exact hk.spiRunIn _ h he
    | cons x xs =>
      have hmax := spiMaxBits_pos s.params
      simp only [Machine.spiRunOut, List.isEmpty_cons, Bool.false_eq_true, if_false] at he
      split at he
      · next hfit => exact hk.shift h (by simp; omega) hfit he
      · obtain ⟨⟨r, u⟩, hchunk, hrest⟩ := Option.bind_eq_some_iff.mp he
        exact ih (hk.shift h (by simp; omega) (by simp) hchunk) hrest

theorem Keeps.spiReadBits (hk : Keeps P) {ins : List InSlot} {bits : List Bool} (h : P s)
    (he : spiReadBits ins s = some (bits, t)) : P t := hk.spiRunOut _ h he

theorem Keeps.spiWriteBits (hk : Keeps P) {outs : List OutSlot} (h : P s) (he : spiWriteBits outs s = some t) : P t := by
  unfold Machine.spiWriteBits at he
  split at he
  · exact Option.some.inj he ▸ h
  · obtain ⟨⟨bits, u⟩, hrun, rfl⟩ := Option.map_eq_some_iff.mp he
    exact hk.spiRunOut _ h hrun

/-! The stages of an XFER on the SPI backend -/

theorem Keeps.spiOutEnable (hk : Keeps P) (h : P s) : P (spiOutEnable s) :=
  hk.oe true (hk.unmoved h ⟨rfl, rfl, rfl, rfl, rfl, rfl, rfl, rfl, rfl, rfl, rfl, rfl, rfl⟩)

theorem Keeps.spiClose (hk : Keeps P) (code : Byte) (h : P s) : P (finish code (spiDrive true s)) := by
  refine hk.quiet (quiet_finish code) (hk.dio true ?_)
  split
  · exact h
  · exact hk.spiOutEnable h

theorem Keeps.spiFinishOk (hk : Keeps P) (h : P s) (he : spiFinishOk s = some t) : P t := by
  obtain ⟨u, hlow, rfl⟩ := Option.map_eq_some_iff.mp he
  exact hk.spiClose _ (hk.spiWriteBits (hk.quiet (quiet_enterPhase _ _) (hk.quiet quiet_timestampIfAsked h)) hlow)

theorem Keeps.spiRdata (hk : Keeps P) (h : P s) (he : spiRdata s = some t) : P t := by
  obtain ⟨⟨bits, u⟩, hread, hfinish⟩ := Option.bind_eq_some_iff.mp he
  have hword : P { u with rdata := ofBits 32 (bits.take 32), par := par32 (ofBits 32 (bits.take 32)) } :=
    hk.unmoved (hk.spiReadBits h hread) ⟨rfl, rfl, rfl, rfl, rfl, rfl, rfl, rfl, rfl, rfl, rfl, rfl, rfl⟩
  exact hk.spiFinishOk (hk.spiOutEnable (hk.quiet (quiet_checkParity (bits.getD 32 false)) hword)) hfinish

theorem Keeps.spiWdata (hk : Keeps P) (h : P s) (he : spiWdata s = some t) : P t := by
  obtain ⟨u, hwrite, hfinish⟩ := Option.bind_eq_some_iff.mp he
  have hpar : P { s with par := par32 s.wdata } := hk.unmoved h ⟨rfl, rfl, rfl, rfl, rfl, rfl, rfl, rfl, rfl, rfl, rfl, rfl, rfl⟩
  exact hk.spiFinishOk (hk.spiWriteBits hpar hwrite) hfinish

theorem Keeps.spiNak (hk : Keeps P) (h : P s) (he : spiNak s = some t) : P t := by
  obtain ⟨u, hrun, rfl⟩ := Option.map_eq_some_iff.mp he
  refine hk.spiClose _ ?_
  split at hrun
  · obtain ⟨⟨bits, v⟩, hread, rfl⟩ := Option.map_eq_some_iff.mp hrun
    exact hk.spiOutEnable (hk.spiReadBits h hread)
  · split at hrun
    · exact hk.spiWriteBits (hk.spiOutEnable h) hrun
    · exact Option.some.inj hrun ▸ hk.spiOutEnable h

theorem Keeps.spiRecov (hk : Keeps P) (h : P s) (he : spiRecov s = some t) : P t := by
  obtain ⟨⟨bits, u⟩, hread, rfl⟩ := Option.map_eq_some_iff.mp he
  exact hk.spiClose _ (hk.spiReadBits h hread)

theorem Keeps.spiDispatch (hk : Keeps P) (h : P s) (he : spiDispatch s = some t) : P t := by
  unfold Machine.spiDispatch at he
  cases hc : ackClass s.ack with
  | ok =>
    rw [hc] at he
    simp only at he
    split at he
    · exact hk.spiRdata h he
    · exact hk.spiWdata h he
  | wait | fault =>
    rw [hc] at he
    exact hk.spiNak h he
  | error =>
    rw [hc] at he
    exact hk.spiRecov h he

theorem Keeps.spiAcks (hk : Keeps P) (h : P s) (he : spiAcks s = some t) : P t := by
  obtain ⟨⟨bits, u⟩, hread, hrest⟩ := Option.bind_eq_some_iff.mp he
  exact hk.spiDispatch (hk.quiet (quiet_latchAck _) (hk.spiReadBits h hread)) hrest

theorem Keeps.spiXfer (hk : Keeps P) (h : P s) (he : spiXfer s = some t) : P t := by
  obtain ⟨⟨bits, u⟩, hheader, hrest⟩ := Option.bind_eq_some_iff.mp he
  exact hk.spiDispatch (hk.quiet (quiet_latchAck _) (hk.spiRunOut _ h hheader)) hrest

/-! Either backend -/

theorem Keeps.xferBody (hk : Keeps P) (h : P s) (he : xferBody s = some t) : P t := by
  unfold Machine.xferBody at he
  split at he
  · exact hk.spiXfer h he
  · exact Option.some.inj he ▸ (hk.walks.xfer ⟨rfl, h⟩).2

theorem Keeps.xferAcks (hk : Keeps P) (h : P s) (he : xferAcks s = some t) : P t := by
  unfold Machine.xferAcks at he
  split at he
  · exact hk.spiAcks h he
  · exact Option.some.inj he ▸ (hk.walks.acks ⟨rfl, h⟩).2

theorem Keeps.xferRdata (hk : Keeps P) (h : P s) (he : xferRdata s = some t) : P t := by
  unfold Machine.xferRdata at he
  split at he
  · exact hk.spiRdata h he
  · exact Option.some.inj he ▸ (hk.walks.rdata ⟨rfl, h⟩).2

theorem Keeps.xferWdata (hk : Keeps P) (h : P s) (he : xferWdata s = some t) : P t := by
  unfold Machine.xferWdata at he
  split at he
  · exact hk.spiWdata h he
  · exact Option.some.inj he ▸ (hk.walks.wdata ⟨rfl, h⟩).2

theorem Keeps.seqBody (hk : Keeps P) (h : P s) (he : seqBody s = some t) : P t := by
  unfold Machine.seqBody at he
  split at he
  · exact hk.spiWriteBits (hk.quiet (quiet_enterPhase _ _) h) he
  · exact Option.some.inj he ▸ (hk.walks.seqBits ⟨rfl, h⟩).2

/-! Instructions -/

theorem ofRun_next {o : Option State} (h : ofRun o = .next t) : o = some t := by
  cases o with
  | none => cases h
  | some u => rw [Host.Outcome.next.inj h]

/-- Every instruction that is no configuration operation keeps what the primitives keep. -/
theorem Keeps.instruction (hk : Keeps P) {i : Instr} (h : P s) (he : exec i s = .next t) : Configured i s t ∨ P t := by
  cases exec_did he with
  | configured _ hc => exact .inl hc
  | refused _ _ ht =>
    rw [ht]
    exact .inr (hk.unmoved h ⟨rfl, rfl, rfl, rfl, rfl, rfl, rfl, rfl, rfl, rfl, rfl, rfl, rfl⟩)
  | xfer request data hi hs =>
    rw [exec_issues hi, xfer, accept_idle hs.1, if_pos hs.2.1] at he
    exact .inr (hk.xferBody (hk.quiet (quiet_xferStart _ _) h) (ofRun_next he))
  | seq bitCount bits hi hlen hs =>
    rw [exec_seq hi hlen, sequence, accept_idle hs.1, if_pos hs.2.1] at he
    obtain ⟨u, hbody, rfl⟩ := Option.map_eq_some_iff.mp (ofRun_next he)
    exact .inr (hk.quiet (quiet_finish _) (hk.seqBody (hk.quiet (quiet_seqStart _ _) h) hbody))
  | request nibble hi hp =>
    have hitem : exec i s = requestItem nibble s := by
      rcases hi with rfl | rfl
      · exact (exec_req8 nibble s).1
      · exact (exec_req8 nibble s).2
    have hreq : P { s with req := s.req.extractLsb' 4 4 ++ nibble } := hk.unmoved h
      ⟨rfl, rfl, rfl, rfl, rfl, rfl, rfl, rfl, rfl, rfl, rfl, rfl, rfl⟩
    rw [hitem, requestItem, if_pos hp] at he
    exact .inr (hk.xferBody (hk.unmoved hreq (unmoved_shiftFinished _)) (ofRun_next he))
  | ack a hi hp =>
    rw [hi, exec_ack3, ackItem, if_pos hp] at he
    exact .inr (hk.xferAcks (hk.unmoved (hk.unmoved h (unmoved_withAnswers _ _)) (unmoved_shiftFinished _))
      (ofRun_next he))
  | received v p hi hp =>
    subst hi
    have hitem : ofRun (Machine.xferRdata (shiftFinished (s.withAnswers (data33Bits v p)))) = .next t := by
      rw [← he, Machine.exec, execData33, if_pos hp]
    exact .inr (hk.xferRdata (hk.unmoved (hk.unmoved h (unmoved_withAnswers _ _)) (unmoved_shiftFinished _))
      (ofRun_next hitem))
  | sent v p hi hp =>
    subst hi
    have hdata : P { s with wdata := v } := hk.unmoved h ⟨rfl, rfl, rfl, rfl, rfl, rfl, rfl, rfl, rfl, rfl, rfl, rfl, rfl⟩
    have hitem : ofRun (Machine.xferWdata (shiftFinished { s with wdata := v })) = .next t := by
      rw [← he, Machine.exec, execData33, if_neg (by rw [hp]; decide), if_pos hp]
    exact .inr (hk.xferWdata (hk.unmoved hdata (unmoved_shiftFinished _)) (ofRun_next hitem))

end keeps

/-- One shift with its wait, that answered a state. -/
theorem shiftWait_eq_some {s t : State} {outs : List OutSlot} {ins : List InSlot} {bits : List Bool}
    (he : shiftWait outs ins s = some (bits, t)) :
    ∃ u, halShift outs ins s = (bits, u) ∧ t = emit [.poll false] u := by
  obtain ⟨v, hshift, hv⟩ := halShift_spec outs ins s
  have hdone : v.spi.busy = false := by rw [hv]
  unfold shiftWait at he
  split at he
  · cases he
  · simp only [hshift, spiWait_done v hdone, Option.map_some] at he
    obtain ⟨rfl, rfl⟩ := Prod.mk.inj (Option.some.inj he)
    exact ⟨v, hshift, rfl⟩

/-! Shifts and polls -/

/-- Since `s` every shift fitted the peripheral and was followed at once by the one poll that found it done. -/
structure Polled (s t : State) : Prop where
  params : t.params = s.params
  events : ∃ ev, t.pinEvents = s.pinEvents ++ ev ∧ ev.all (fun e => e.shiftFits s.params) = true ∧
    shiftsPolled ev = true ∧ ev.countP (fun e => e == .poll false) = shiftCount ev ∧ ev.all (fun e => e != .poll true) = true

theorem Polled.refl (s : State) : Polled s s := ⟨rfl, [], (List.append_nil _).symm, rfl, rfl, rfl, rfl⟩

theorem shiftCount_append (es fs : List PinEvent) : shiftCount (es ++ fs) = shiftCount es + shiftCount fs :=
  List.countP_append

theorem Polled.trans {s t u : State} (h : Polled s t) (h' : Polled t u) : Polled s u := by
  obtain ⟨hparams, ev, hev, hfits, hpolled, hcount, hnone⟩ := h
  obtain ⟨hparams', ev', hev', hfits', hpolled', hcount', hnone'⟩ := h'
  rw [hparams] at hfits'
  refine ⟨hparams'.trans hparams, ev ++ ev', by rw [hev', hev, List.append_assoc], ?_, ?_, ?_, ?_⟩
  · rw [List.all_append, hfits, hfits', Bool.and_self]
  · rw [shiftsPolled_append _ _ hpolled, hpolled']
  · rw [List.countP_append, shiftCount_append, hcount, hcount']
  · rw [List.all_append, hnone, hnone', Bool.and_self]

/-- Pin events of a step that shifts nothing. -/
theorem polled_clockEvents (s : State) {t : State} (hparams : t.params = s.params) (pre : List PinEvent)
    (hpre : pre = [] ∨ ∃ b, pre = [.dio b]) (h : t.pinEvents = s.pinEvents ++ (pre ++ clockEvents s)) : Polled s t := by
  refine ⟨hparams, _, h, ?_⟩
  unfold clockEvents gDelay
  obtain rfl | ⟨b, rfl⟩ := hpre <;> split <;> exact ⟨rfl, rfl, rfl, rfl⟩

theorem polled_readEvents (s : State) {t : State} (hparams : t.params = s.params) (b : Bool)
    (h : t.pinEvents = s.pinEvents ++ readEvents s b) : Polled s t := by
  refine ⟨hparams, _, h, ?_⟩
  unfold readEvents gDelay
  split <;> exact ⟨rfl, rfl, rfl, rfl⟩

theorem polled_shift {s t : State} {outs : List OutSlot} {ins : List InSlot} {bits : List Bool}
    (hlow : 1 ≤ outs.length + ins.length) (hhigh : outs.length + ins.length ≤ s.params.spiMaxBits)
    (he : shiftWait outs ins s = some (bits, t)) : Polled s t := by
  obtain ⟨u, hshift, rfl⟩ := shiftWait_eq_some he
  obtain ⟨v, hv, hstate⟩ := halShift_spec outs ins s
  obtain ⟨-, rfl⟩ := Prod.mk.inj (hv.symm.trans hshift)
  refine ⟨(congrArg State.params hstate :), [.shift (outs.map OutSlot.bit) (slotBits s 0 0 ins), .poll false], ?_, ?_, rfl,
    rfl, rfl⟩
  · have hev := congrArg State.pinEvents hstate
    simp only at hev
    simp [emit, hev]
  · simp [PinEvent.shiftFits, hlow, hhigh]

theorem keeps_polled (s : State) : Keeps (Polled s) where
  unmoved h hu := h.trans ⟨hu.params, [], by rw [hu.pinEvents, List.append_nil], rfl, rfl, rfl, rfl⟩
  cycle h := h.trans (polled_clockEvents _ (by rw [gCycle_eq]) [] (.inl rfl) (by rw [gCycle_eq]; rfl))
  write b h := h.trans (polled_clockEvents _ (by rw [gWrite_eq]) [.dio b] (.inr ⟨b, rfl⟩) (by rw [gWrite_eq]; rfl))
  read h hr := h.trans (polled_readEvents _ (by rw [gRead_eq _ hr]; rfl) _ (by rw [gRead_eq _ hr]))
  oe b h := h.trans ⟨rfl, [.oe b], rfl, rfl, rfl, rfl, rfl⟩
  dio b h := h.trans ⟨rfl, [.dio b], rfl, rfl, rfl, rfl, rfl⟩
  shift h hlow hhigh he := h.trans (polled_shift hlow hhigh he)

/-- A configuration operation moves no pin by an event. -/
theorem Configured.pinEvents {i : Instr} {s t : State} (h : Configured i s t) : t.pinEvents = s.pinEvents := by
  cases h <;> rfl

theorem Configured.params {i : Instr} {s t : State} (h : Configured i s t) : t.params = s.params := by
  cases h <;> rfl

/-- Settles O40. -/
theorem shiftsFitThePeripheral : Obligations.ShiftsFitThePeripheral := by
  intro i s t _ _ he _
  have hpolled : Polled s t := by
    rcases (keeps_polled s).instruction (.refl s) he with hc | hp
    · exact ⟨hc.params, [], by rw [hc.pinEvents, List.append_nil], rfl, rfl, rfl, rfl⟩
    · exact hp
  obtain ⟨-, ev, hev, hfits, hpoll, hcount, hnone⟩ := hpolled
  have hnew : newEvents s t = ev := by rw [newEvents, hev, List.drop_left]
  rw [hnew]
  exact ⟨hfits, hpoll, hcount, hnone⟩

/-! What no operation on the wires touches -/

/-- The parameters, the host, the port and every control register are as they were, and both traces go on from where they
stood. -/
structure Stays (s t : State) : Prop where
  params : t.params = s.params
  cmd : t.cmd = s.cmd
  host : t.host = s.host
  polls : t.inputs.abortPolls = s.inputs.abortPolls
  turnaroundBits : t.turnaroundBits = s.turnaroundBits
  dataPhase : t.dataPhase = s.dataPhase
  idleCycles : t.idleCycles = s.idleCycles
  xferMode : t.xferMode = s.xferMode
  clockDelay : t.clockDelay = s.clockDelay
  debugPort : t.debugPort = s.debugPort
  swclkOe : t.pins.swclkOe = s.pins.swclkOe
  wire : s.wire <+: t.wire
  pinEvents : s.pinEvents <+: t.pinEvents

theorem Stays.trans {s t u : State} (h : Stays s t) (h' : Stays t u) : Stays s u :=
  ⟨h'.params.trans h.params, h'.cmd.trans h.cmd, h'.host.trans h.host, h'.polls.trans h.polls,
    h'.turnaroundBits.trans h.turnaroundBits, h'.dataPhase.trans h.dataPhase, h'.idleCycles.trans h.idleCycles,
    h'.xferMode.trans h.xferMode, h'.clockDelay.trans h.clockDelay, h'.debugPort.trans h.debugPort,
    h'.swclkOe.trans h.swclkOe, h.wire.trans h'.wire, h.pinEvents.trans h'.pinEvents⟩

theorem Unmoved.stays {s t : State} (h : Unmoved s t) : Stays s t :=
  ⟨h.params, h.cmd, h.host, h.polls, h.turnaroundBits, h.dataPhase, h.idleCycles, h.xferMode, h.clockDelay, h.debugPort,
    by rw [h.pins], by rw [h.wire], by rw [h.pinEvents]⟩

theorem stays_refl (s : State) : Stays s s :=
  ⟨rfl, rfl, rfl, rfl, rfl, rfl, rfl, rfl, rfl, rfl, rfl, List.prefix_rfl, List.prefix_rfl⟩

theorem stays_shift {s t : State} {outs : List OutSlot} {ins : List InSlot} {bits : List Bool}
    (he : shiftWait outs ins s = some (bits, t)) : Stays s t := by
  obtain ⟨u, hshift, rfl⟩ := shiftWait_eq_some he
  obtain ⟨v, hv, hstate⟩ := halShift_spec outs ins s
  obtain ⟨-, rfl⟩ := Prod.mk.inj (hv.symm.trans hshift)
  rw [hstate]
  refine ⟨rfl, rfl, rfl, rfl, rfl, rfl, rfl, rfl, rfl, rfl, ?_, ?_, ?_⟩
  · simp [emit, PinEvent.apply, pinsAfter]
  · simp [emit]
  · simp [emit]

theorem keeps_stays (s : State) : Keeps (Stays s) where
  unmoved h hu := h.trans hu.stays
  cycle h := h.trans (by
    rw [gCycle_eq]
    exact ⟨rfl, rfl, rfl, rfl, rfl, rfl, rfl, rfl, rfl, rfl, rfl, List.prefix_append _ _, List.prefix_append _ _⟩)
  write b h := h.trans (by
    rw [gWrite_eq]
    exact ⟨rfl, rfl, rfl, rfl, rfl, rfl, rfl, rfl, rfl, rfl, rfl, List.prefix_append _ _, List.prefix_append _ _⟩)
  read h hr := h.trans (by
    rw [gRead_eq _ hr]
    exact ⟨rfl, rfl, rfl, rfl, rfl, rfl, rfl, rfl, rfl, rfl, rfl, List.prefix_append _ _, List.prefix_append _ _⟩)
  oe b h := h.trans
    ⟨rfl, rfl, rfl, rfl, rfl, rfl, rfl, rfl, rfl, rfl, rfl, List.prefix_rfl, List.prefix_append _ _⟩
  dio b h := h.trans
    ⟨rfl, rfl, rfl, rfl, rfl, rfl, rfl, rfl, rfl, rfl, rfl, List.prefix_rfl, List.prefix_append _ _⟩
  shift h _ _ he := h.trans (stays_shift he)

theorem exec_stays {i : Instr} {s t : State} (he : exec i s = .next t) : Configured i s t ∨ Stays s t :=
  (keeps_stays s).instruction (stays_refl s) he

theorem Configured.wire {i : Instr} {s t : State} (h : Configured i s t) : t.wire = s.wire := by
  cases h <;> rfl

theorem Configured.leaves_host {i : Instr} {s t : State} (h : Configured i s t) :
    t.host = s.host ∧ t.cmd = s.cmd ∧ t.inputs = s.inputs := by
  cases h <;> exact ⟨rfl, rfl, rfl⟩

/-- Settles O48. -/
theorem tracesOnlyGrow : Obligations.TracesOnlyGrow := by
  intro i s t he
  rcases exec_stays he with hc | hs
  · exact ⟨by rw [hc.wire], by rw [hc.pinEvents]⟩
  · exact ⟨hs.wire, hs.pinEvents⟩

/-- Settles O49. -/
theorem operationsLeaveTheHostAlone : Obligations.OperationsLeaveTheHostAlone := by
  intro i s t he
  rcases exec_stays he with hc | hs
  · obtain ⟨hhost, hcmd, hinputs⟩ := hc.leaves_host
    exact ⟨hc.params, hhost, hcmd, by rw [hinputs]⟩
  · exact ⟨hs.params, hs.host, hs.cmd, hs.polls⟩

/-- Settles O50: an operation on the wires writes no control register, a configuration operation its own. -/
theorem oneWriterForEachControlRegister : Obligations.OneWriterForEachControlRegister := by
  intro i s t he
  rcases exec_stays he with hc | hs
  · cases hc with
    | connect portId _ | connectFailed portId _ =>
      exact ⟨fun _ => ⟨rfl, rfl⟩, fun _ => rfl, fun _ => ⟨rfl, rfl⟩, fun h => absurd rfl (h portId), nofun⟩
    | disconnect =>
      exact ⟨fun _ => ⟨rfl, rfl⟩, fun _ => rfl, fun _ => ⟨rfl, rfl⟩, fun _ h => absurd rfl h, nofun⟩
    | cfgIdle n _ =>
      exact ⟨fun _ => ⟨rfl, rfl⟩, fun h => absurd rfl (h n), fun _ => ⟨rfl, rfl⟩, fun _ _ => ⟨rfl, rfl⟩, id⟩
    | clkZero freq _ | clkSpi freq _ _ | clkFast freq _ | clkDelayed freq _ =>
      exact ⟨fun _ => ⟨rfl, rfl⟩, fun _ => rfl, fun h => absurd rfl (h freq), fun _ _ => ⟨rfl, rfl⟩, id⟩
    | cfgSwd cfg _ =>
      exact ⟨fun h => absurd rfl (h cfg).1, fun _ => rfl, fun _ => ⟨rfl, rfl⟩, fun _ _ => ⟨rfl, rfl⟩, id⟩
    | cfg8 cfg _ =>
      exact ⟨fun h => absurd rfl (h cfg).2, fun _ => rfl, fun _ => ⟨rfl, rfl⟩, fun _ _ => ⟨rfl, rfl⟩, id⟩
    | anyOtherOp op _ =>
      exact ⟨fun _ => ⟨rfl, rfl⟩, fun _ => rfl, fun _ => ⟨rfl, rfl⟩, fun _ _ => ⟨rfl, rfl⟩, id⟩
  · exact ⟨fun _ => ⟨hs.turnaroundBits, hs.dataPhase⟩, fun _ => hs.idleCycles, fun _ => ⟨hs.xferMode, hs.clockDelay⟩,
      fun _ _ => ⟨hs.debugPort, hs.swclkOe⟩, by rw [hs.debugPort]; exact id⟩

end Sys2Proof.Machine
end

section
/-! PROOFS. An operation found inside, followed to its end from every position of 10_state.md R25: the runs that are left,
in terms both backends share, and the end of each path. -/

namespace Sys2Proof.Machine

/-! Ends and runs, in terms both backends share -/

/-- The run answers a state that rests, that is `u` in all both backends share, and in which a GPIO backend has left the
peripheral of `s` alone. -/
def EndsAs (s : State) (o : Option State) (u : State) : Prop :=
  ∃ t, o = some t ∧ t.core = u ∧ t.phase = .idle ∧ t.bitcnt = 0#9 ∧ (s.xferMode ≠ .spi → t.spi = s.spi)

/-- What is left of an operation, `r`, has run from `s` on. -/
def State.endsWith (s : State) (r : Remainder) : State :=
  State.core { r.registers with
    pins := s.pins.restored, wire := s.wire ++ r.frame, inputs := (s.inputs.after r.samples 0).stamped r.stamped }

/-- From `s` to `t` the wire cycles `w` have happened and `k` answers of the target were used; SWCLK is high, and the
backend is ready for the next run. -/
structure Reached (s t : State) (w : List CycleRec) (k : Nat) : Prop where
  core : t.core = { s.core with wire := s.wire ++ w, inputs := s.inputs.after k 0, pins := t.pins }
  high : t.pins.swclkO = true
  swclkOe : t.pins.swclkOe = s.pins.swclkOe
  spi : s.xferMode ≠ .spi → t.spi = s.spi
  ready : t.backendReady

section reached

variable {s t : State} {w : List CycleRec} {k : Nat}

theorem Reached.xferMode (h : Reached s t w k) : t.xferMode = s.xferMode := (congrArg State.xferMode h.core :)

theorem EndsAs.of_reached {o : Option State} {u : State} (h : Reached s t w k) (he : EndsAs t o u) : EndsAs s o u := by
  obtain ⟨v, ho, hcore, hphase, hbitcnt, hspi⟩ := he
  refine ⟨v, ho, hcore, hphase, hbitcnt, fun hm => ?_⟩
  rw [hspi (h.xferMode ▸ hm), h.spi hm]

end reached

/-- A state that both backends describe as resumed is the resumed one. -/
theorem eq_resumed {s t : State} (hs : s.phase ≠ .seq) (hcore : t.core = s.endsWith s.remainder) (hphase : t.phase = .idle)
    (hbitcnt : t.bitcnt = 0#9) : t = s.resumed t := by
  have hpins : s.restPins = s.pins.restored := if_neg hs
  have heq := eq_of_core_eq (s := s.resumed s) (hcore.trans (by rw [State.resumed, hpins]; rfl))
  rw [hphase, hbitcnt] at heq
  exact heq.trans rfl

/-! The runs -/

/-- A run that ends with released cycles leaves the line released. -/
theorem backendRun_reached (outs : List OutSlot) (ins : List InSlot) {s : State} (h : s.backendReady)
    (hc : s.pins.swclkO = true) :
    ∃ t, backendRun outs ins s = some (s.answersFrom 0 (usedCount ins), t) ∧
      Reached s t (outs.map OutSlot.toCycle ++ slotRecords s 0 ins) (usedCount ins) ∧ t.pins = pinsAfter outs ins s.pins := by
  obtain ⟨t, ht, hcore, hspi, hready⟩ := backendRun_spec outs ins s h
  have hpins : t.pins = pinsAfter outs ins s.pins := congrArg State.pins hcore
  refine ⟨t, ht, ⟨?_, ?_, ?_, hspi, hready⟩, hpins⟩
  · rw [hcore, hpins, List.append_assoc]
  · rw [hpins, pinsAfter, hc]
    exact ite_self _
  · rw [hpins]
    rfl

/-- The engine has the line back. -/
theorem takeLine_reached {s : State} (h : s.backendReady) (hc : s.pins.swclkO = true) :
    Reached s (takeLine s) [] 0 ∧ (takeLine s).pins.swdioOe = true := by
  unfold takeLine
  split
  · refine ⟨⟨?_, hc, rfl, fun hm => absurd ‹_› hm, h⟩, rfl⟩
    rw [List.append_nil]
    rfl
  · refine ⟨⟨?_, hc, rfl, fun _ => rfl, h⟩, rfl⟩
    rw [List.append_nil]
    rfl

/-- Low cycles on a driven line. -/
theorem lowRun_reached (p : Phase) (n : Nat) {s : State} (h : s.backendReady) (hc : s.pins.swclkO = true) :
    ∃ t, lowRun p n s = some t ∧ Reached s t (runOf p (lows n)) 0 ∧
      (s.xferMode ≠ .spi → t.pins.swdioOe = true) := by
  unfold lowRun
  by_cases hm : s.xferMode = .spi
  · obtain ⟨t, ht, hr⟩ := spiWriteBits_spec (outSlots p (List.replicate n false)) (enterPhase p n s) (h hm)
    refine ⟨t, by rw [if_pos hm]; exact ht, ⟨?_, ?_, ?_, fun h => absurd hm h, fun _ => hr.busy⟩, fun h => absurd hm h⟩
    · have hcore := hr.core
      rw [← hr.pins, outSlots_records, slotRecords, List.append_nil] at hcore
      exact hcore.trans rfl
    · rw [hr.pins, pinsAfter]
      exact (ite_congr rfl (fun _ => hc) fun _ => rfl).trans (ite_self _)
    · rw [hr.pins]
      rfl
  · obtain ⟨ev, he⟩ := gEnsureDriven_eq s
    obtain ⟨ev', hlow⟩ := gLowCycles_phase p n (gEnsureDriven s) (by rw [he])
    rw [if_neg hm, hlow]
    refine ⟨_, rfl, ?_, fun _ => ?_⟩
    · rw [he]
      refine ⟨rfl, ?_, ?_, fun _ => rfl, fun h => absurd h hm⟩
      · simp only
        split
        · exact hc
        · rfl
      · simp only
        split <;> rfl
    · rw [he]
      simp only
      split <;> rfl

/-! The ends -/

/-- `drive(1)` and the result (41_swd_transfer.md R137, R139, R140). -/
theorem restore_ends (code : Byte) {s : State} (h : s.backendReady) (hc : s.pins.swclkO = true) :
    EndsAs s (some (restore code s)) { s.core with pins := s.pins.restored, result := code } := by
  have hpins : ({ s.pins with swdioO := true, swdioOe := true } : Pins) = s.pins.restored := by
    rw [Pins.restored, ← hc]
  refine ⟨_, rfl, ?_⟩
  unfold restore
  split
  · next hm =>
    have hclose := spiClose_spec code s (h hm)
    rw [hpins] at hclose
    exact ⟨hclose.core, hclose.phase, hclose.bitcnt, fun h => absurd hm h⟩
  · rw [gDrive_true_eq, hpins]
    exact ⟨rfl, rfl, rfl, fun _ => rfl⟩

/-- What follows the data phase of an OK transaction (R135 to R137). -/
theorem restOk_ends {s : State} (h : s.backendReady) (hc : s.pins.swclkO = true)
    (hoe : s.xferMode ≠ .spi → s.pins.swdioOe = true) : EndsAs s (restOk s) (okEnd s) := by
  unfold restOk
  split
  · next hm =>
    obtain ⟨t, ht, he⟩ := spiFinishOk_spec s (h hm) hc
    exact ⟨t, ht, he.core, he.phase, he.bitcnt, fun h => absurd hm h⟩
  · next hm =>
    obtain ⟨hcore, hspi, hphase, hbitcnt⟩ := gFinishOk_spec s (hoe hm) hc
    exact ⟨_, rfl, hcore, hphase, hbitcnt, fun _ => hspi⟩

/-- The dispatch (R128). On the SPI backend the turnaround of a write stands on the wire already. -/
theorem restDispatch_ends {s : State} (w : List CycleRec) (h : s.backendReady) (hc : s.pins.swclkO = true)
    (hoe : s.pins.swdioOe = false ∨ s.xferMode = .spi)
    (hw : s.wire = w ++ if s.xferMode = .spi then tailRecs s (tailFrame s s.ack (s.answersFrom 0 33)) else []) :
    EndsAs s (restDispatch s) (pathEnd { s with wire := w } (s.answersFrom 0 33)) := by
  unfold restDispatch
  split
  · next hm =>
    rw [if_pos hm] at hw
    obtain ⟨t, ht, he⟩ := spiDispatch_spec s w _ (h hm) hc hm rfl hw
    exact ⟨t, ht, he.core, he.phase, he.bitcnt, fun h => absurd hm h⟩
  · next hm =>
    rw [if_neg hm, List.append_nil] at hw
    obtain ⟨hcore, hspi, hphase, hbitcnt⟩ := gDispatch_spec s (hoe.resolve_right hm) hc hm
    have hsame : ({ s with wire := w } : State) = s := by rw [← hw]
    rw [hsame]
    exact ⟨_, rfl, hcore, hphase, hbitcnt, fun _ => hspi⟩

/-! The ends, as what is left of the operation -/

theorem okEnd_eq_endsWith (s : State) (w : List CycleRec) (k : Nat) :
    okEnd { s with wire := s.wire ++ w, inputs := s.inputs.after k 0 } =
      s.endsWith { frame := w ++ runOf .idlec (lows s.idleCycles.toNat), samples := k, stamped := s.req.getLsbD 7,
                   registers := s.okRegisters } := by
  simp only [okEnd, State.endsWith, State.okRegisters, State.core, okCode, Inputs.after, Inputs.stamped, Inputs.nextNow,
    List.append_assoc, List.drop_zero, Nat.add_zero]

/-- A read whose parity is checked ends with the code of that check (R131, R133, R137). -/
theorem readEnd_eq_endsWith (s : State) (frame : List CycleRec) (k : Nat) (bits : List Bool) :
    readEnd bits { s with wire := s.wire ++ frame, inputs := s.inputs.after k 0 } =
      s.endsWith { frame := frame ++ readFrame s.turnaround s.idleCycles.toNat bits, samples := k + 33,
                   stamped := s.req.getLsbD 7, registers := State.okRegisters (readBits bits s) } := by
  simp only [readEnd, okEnd, readBits, State.endsWith, State.okRegisters, State.core, okCode, Inputs.after, Inputs.stamped,
    Inputs.nextNow, State.turnaround, List.append_assoc, List.drop_drop, Nat.add_assoc]
  rfl

theorem writeEnd_eq_endsWith (s : State) (frame tail : List CycleRec) (k : Nat) :
    writeEnd tail { s with wire := s.wire ++ frame, inputs := s.inputs.after k 0 } =
      s.endsWith { frame := frame ++ tail, samples := k, stamped := s.req.getLsbD 7,
                   registers := State.okRegisters { s with par := par32 s.wdata } } := by
  simp only [writeEnd, okEnd, State.endsWith, State.okRegisters, State.core, okCode, Inputs.after, Inputs.stamped,
    Inputs.nextNow, List.append_assoc, List.drop_zero, Nat.add_zero]

/-- The result of a read that latched no ERROR before its parity check. -/
theorem okRegisters_readBits (s : State) (bits : List Bool) (h : s.cls = .ok) :
    State.okRegisters (readBits bits s) =
      { s with
          rdata := ofBits 32 (bits.take 32), par := par32 (ofBits 32 (bits.take 32)),
          perr := bits.getD 32 false != par32 (ofBits 32 (bits.take 32)),
          cls := if bits.getD 32 false = par32 (ofBits 32 (bits.take 32)) then .ok else .error,
          result := if bits.getD 32 false = par32 (ofBits 32 (bits.take 32)) then 0x01#8 else 0x08#8,
          timestamp := if s.req.getLsbD 7 then s.inputs.nextNow else s.timestamp } := by
  simp only [State.okRegisters, readBits, h]
  cases bits.getD 32 false <;> cases par32 (ofBits 32 (bits.take 32)) <;> rfl

/-- The latched acknowledge and the path it selects. -/
theorem pathEnd_eq_endsWith (s : State) (ack : BitVec 3) (frame : List CycleRec) (k : Nat) (bits : List Bool) :
    pathEnd (latchAck ack { s with wire := s.wire ++ frame, inputs := s.inputs.after k 0 }) bits =
      s.endsWith { frame := frame ++ tailFrame s ack bits, samples := k + s.samplesTaken ack - 3,
                   stamped := ackClass ack == .ok && s.req.getLsbD 7, registers := s.settled ack bits } := by
  unfold pathEnd State.settled tailFrame State.samplesTaken
  rw [latchAck_ack]
  cases hclass : ackClass ack with
  | ok =>
    have hlatch : latchAck ack { s with wire := s.wire ++ frame, inputs := s.inputs.after k 0 } =
        { latchAck ack s with wire := (latchAck ack s).wire ++ frame, inputs := (latchAck ack s).inputs.after k 0 } := rfl
    have hrnw : (latchAck ack { s with wire := s.wire ++ frame, inputs := s.inputs.after k 0 }).rnw = s.rnw := rfl
    simp only [hrnw]
    cases hread : s.rnw with
    | true =>
      rw [if_pos rfl, if_pos rfl, if_pos rfl, if_pos (by trivial), hlatch, readEnd_eq_endsWith,
        okRegisters_readBits _ _ (by rw [latchAck, hclass])]
      simp only [latchAck, hclass]
      rfl
    | false =>
      rw [if_neg nofun, if_neg nofun, if_neg nofun, if_neg nofun, hlatch, writeEnd_eq_endsWith]
      simp only [latchAck, hclass, State.okRegisters]
      rfl
  | wait =>
    obtain rfl := (ackClass_wait ack).mp hclass
    simp only [latchAck, nakEnd, State.endsWith, State.core, Inputs.after, Inputs.stamped, List.append_assoc, hclass]
    rfl
  | fault =>
    obtain rfl := (ackClass_fault ack).mp hclass
    simp only [latchAck, nakEnd, State.endsWith, State.core, Inputs.after, Inputs.stamped, List.append_assoc, hclass]
    rfl
  | error =>
    simp only [latchAck, errorEnd, State.endsWith, State.core, Inputs.after, Inputs.stamped, List.append_assoc, hclass]
    rfl

end Sys2Proof.Machine
end

section
/-! PROOFS. What is left of an operation at each position of 10_state.md R25, and the step that finds one. -/

namespace Sys2Proof.Machine

section positions

variable {s t u : State} {w w' : List CycleRec} {k k' : Nat}

theorem EndsAs.of_same {o : Option State} (hmode : t.xferMode = s.xferMode) (hspi : s.xferMode ≠ .spi → t.spi = s.spi)
    (he : EndsAs t o u) : EndsAs s o u := by
  obtain ⟨v, ho, hcore, hphase, hbitcnt, hgpio⟩ := he
  exact ⟨v, ho, hcore, hphase, hbitcnt, fun hm => (hgpio (hmode ▸ hm)).trans (hspi hm)⟩

theorem Reached.refl (h : s.backendReady) (hc : s.pins.swclkO = true) : Reached s s [] 0 := by
  refine ⟨?_, hc, rfl, fun _ => rfl, h⟩
  rw [List.append_nil]
  rfl

theorem Reached.trans (h : Reached s t w k) (h' : Reached t u w' k') : Reached s u (w ++ w') (k + k') := by
  refine ⟨?_, h'.high, h'.swclkOe.trans h.swclkOe, fun hm => ?_, h'.ready⟩
  · have hwire : t.wire = s.wire ++ w := (congrArg State.wire h.core :)
    have hinputs : t.inputs.after k' 0 = s.inputs.after (k + k') 0 := by
      have hin := congrArg (fun x => State.inputs x |>.after k' 0) h.core
      refine Eq.trans rfl (hin.trans ?_)
      simp only [Inputs.after, List.drop_drop, Nat.add_assoc]
    rw [h'.core, hwire, hinputs, h.core, List.append_assoc]
  · rw [h'.spi (h.xferMode ▸ hm), h.spi hm]

/-- No register of the datapath has changed. -/
theorem Reached.registers (h : Reached s t w k) :
    t.ack = s.ack ∧ t.rdata = s.rdata ∧ t.wdata = s.wdata ∧ t.perr = s.perr :=
  ⟨(congrArg State.ack h.core :), (congrArg State.rdata h.core :), (congrArg State.wdata h.core :),
    (congrArg State.perr h.core :)⟩

/-! The ends, after a run -/

theorem restore_reached_ends (code : Byte) (h : Reached s t w 0) :
    EndsAs s (some (restore code t)) (s.endsWith (.cycles w { s with result := code })) := by
  have hpins : t.pins.restored = s.pins.restored := by rw [Pins.restored, h.swclkOe, Pins.restored]
  have hend : ({ t.core with pins := t.pins.restored, result := code } : State) =
      s.endsWith (.cycles w { s with result := code }) := by
    rw [hpins, h.core]
    rfl
  exact hend ▸ .of_reached h (restore_ends code h.ready h.high)

theorem restOk_reached_ends (h : Reached s t w k) (hoe : s.xferMode ≠ .spi → t.pins.swdioOe = true) :
    EndsAs s (restOk t) (s.endsWith
      { frame := w ++ runOf .idlec (lows s.idleCycles.toNat), samples := k, stamped := s.req.getLsbD 7,
        registers := s.okRegisters }) := by
  have hend : okEnd t = okEnd { s with wire := s.wire ++ w, inputs := s.inputs.after k 0 } :=
    okEnd_congr (h.core.trans rfl) h.swclkOe
  rw [← okEnd_eq_endsWith, ← hend]
  exact .of_reached h (restOk_ends h.ready h.high (h.xferMode ▸ hoe))

/-! The data phases -/

/-- A word and its parity bit have been received (41_swd_transfer.md R131, R133). -/
def State.received (v : Word) (p : Bool) (s : State) : State :=
  { s with rdata := v, par := par32 v, perr := p != par32 v, cls := if p = par32 v then s.cls else .error }

theorem checkParity_eq_received (v : Word) (p : Bool) (s : State) :
    checkParity p { s with rdata := v, par := par32 v } = s.received v p := by
  rw [checkParity, State.received]

theorem Reached.received {s t : State} {w : List CycleRec} {k : Nat} (h : Reached s t w k) (v : Word) (p : Bool) :
    Reached (s.received v p) (t.received v p) w k := by
  refine ⟨?_, h.high, h.swclkOe, h.spi, h.ready⟩
  have hself : (t.received v p).core = t.core.received v p := rfl
  rw [hself, h.core]
  rfl

/-- The parity register holds the parity of the word to send (R143). -/
def State.withPar (s : State) : State := { s with par := par32 s.wdata }

theorem Reached.withPar {s t : State} {w : List CycleRec} {k : Nat} (h : Reached s t w k) :
    Reached s.withPar t.withPar w k := by
  refine ⟨?_, h.high, h.swclkOe, h.spi, h.ready⟩
  have hself : t.withPar.core = t.core.withPar := rfl
  rw [hself, h.core]
  rfl

/-- What is left of a read data phase with `n` data bits to come (R130 to R137). -/
theorem restRead_ends (n : Nat) (h : s.backendReady) (hc : s.pins.swclkO = true) :
    EndsAs s (restRead n 1 s) (s.endsWith (s.readLeft n)) := by
  obtain ⟨t, ht, hr, hpins⟩ :=
    backendRun_reached [] (inSlots .rdata true n ++ inSlots .rpar true 1 ++ inSlots .trnR false s.turnaround) h hc
  have hused : usedCount (inSlots .rdata true n ++ inSlots .rpar true 1 ++ inSlots .trnR false s.turnaround) = n + 1 := by
    rw [usedCount_append, usedCount_append, inSlots_usedCount, inSlots_usedCount, inSlots_usedCount]
    rfl
  have hrecords : slotRecords s 0 (inSlots .rdata true n ++ inSlots .rpar true 1 ++ inSlots .trnR false s.turnaround) =
      runOf .rdata (sampled (s.answersFrom 0 n)) ++ runOf .rpar (sampled (s.answersFrom n 1)) ++
        runOf .trnR (released s.turnaround) := by
    rw [slotRecords_append, slotRecords_append, inSlots_records_sampled, inSlots_records_sampled, inSlots_records_released,
      inSlots_usedCount, if_pos rfl, Nat.zero_add]
  rw [hused, hrecords, List.map_nil, List.nil_append] at hr
  rw [hused] at ht
  obtain ⟨-, hrdata, -, -⟩ := hr.registers
  unfold restRead
  simp only [ht, Option.bind_some, answersFrom_take, answersFrom_getD s 0 (n + 1) n false (Nat.lt_succ_self n),
    Nat.zero_add, Nat.one_ne_zero, if_false, hrdata]
  generalize hv : joinBits s.rdata (s.answersFrom 0 n) = v
  rw [checkParity_eq_received]
  have hreceived := hr.received v (s.answer n)
  obtain ⟨htake, hoe⟩ := takeLine_reached hreceived.ready hreceived.high
  have hall := hreceived.trans htake
  rw [List.append_nil] at hall
  have hgoal : s.endsWith (s.readLeft n) = (s.received v (s.answer n)).endsWith
      { frame := runOf .rdata (sampled (s.answersFrom 0 n)) ++ runOf .rpar (sampled (s.answersFrom n 1)) ++
          runOf .trnR (released s.turnaround) ++ runOf .idlec (lows s.idleCycles.toNat)
        samples := n + 1, stamped := s.req.getLsbD 7, registers := (s.received v (s.answer n)).okRegisters } := by
    rw [State.readLeft, hv]
    rfl
  rw [hgoal]
  exact .of_same (t := s.received v (s.answer n)) rfl (fun _ => rfl) (restOk_reached_ends hall fun _ => hoe)

/-- What is left of a write data phase from data bit `k` on, behind the cycles `w` (R141 to R143, R135 to R137). -/
theorem restWrite_ends (n : Nat) (h : Reached s t w 0) : EndsAs s (restWrite n 1 t) (s.endsWith (s.writeLeft w n)) := by
  obtain ⟨-, -, hwdata, -⟩ := h.registers
  have hparams : t.params = s.params := (congrArg State.params h.core :)
  have hextra : (t.xferMode = .spi ∧ t.params.wr33 = true) ↔ s.extraCycle = true := by
    rw [h.xferMode, hparams, State.extraCycle, Bool.and_eq_true, beq_iff_eq]
  generalize houts : outSlots .wdata ((bitsOf t.wdata).drop n) ++ outSlots .wpar (List.replicate 1 (par32 t.wdata)) ++
    (if t.xferMode = .spi ∧ t.params.wr33 = true then outSlots .wextra [false] else []) = outs
  have hrecords : outs.map OutSlot.toCycle = runOf .wdata (driven ((bitsOf s.wdata).drop n)) ++
      runOf .wpar (driven [par32 s.wdata]) ++ (if s.extraCycle then runOf .wextra (lows 1) else []) := by
    rw [← houts, hwdata, List.map_append, List.map_append, outSlots_records, outSlots_records]
    cases hx : s.extraCycle with
    | true => rw [if_pos (hextra.mpr hx), outSlots_records]; rfl
    | false => rw [if_neg (fun hc => by rw [hextra.mp hc] at hx; cases hx)]; rfl
  have hne : outs ≠ [] := by
    rw [← houts]
    simp [outSlots]
  obtain ⟨v, hv, hr, hpins⟩ := backendRun_reached outs [] h.withPar.ready h.withPar.high
  have hall := h.withPar.trans hr
  rw [hrecords, slotRecords, List.append_nil] at hall
  have hoe : v.pins.swdioOe = true := by simp [hpins, pinsAfter, hne]
  have hx : restWrite n 1 t = restOk v := by
    dsimp only [restWrite]
    rw [houts]
    exact congrArg (fun o => Option.bind o _) hv
  have hgoal : s.endsWith (s.writeLeft w n) = s.withPar.endsWith
      { frame := w ++ (runOf .wdata (driven ((bitsOf s.wdata).drop n)) ++ runOf .wpar (driven [par32 s.wdata]) ++
          (if s.extraCycle then runOf .wextra (lows 1) else [])) ++ runOf .idlec (lows s.idleCycles.toNat)
        samples := 0, stamped := s.req.getLsbD 7, registers := s.withPar.okRegisters } := by
    simp only [State.writeLeft, List.append_assoc]
    rfl
  rw [hx, hgoal]
  exact .of_same (t := s.withPar) rfl (fun _ => rfl) (restOk_reached_ends hall fun _ => hoe)

/-! The header -/

/-- What is left of the header: request bits, `n` turnaround cycles and `m` bits of the acknowledge (R125 to R128). -/
theorem restHeader_ends (outs : List OutSlot) (n m : Nat) (hm : 1 ≤ m) (h : s.backendReady) (hc : s.pins.swclkO = true) :
    EndsAs s (restHeader outs n m s)
      (s.endsWith (s.headerLeft (outs.map OutSlot.toCycle ++ runOf .trn1 (released n)) m)) := by
  generalize hack : joinBits s.ack (s.answersFrom 0 m) = ack
  generalize htail : (if s.xferMode = .spi then spiTail ack s else []) = tail
  have htailUsed : usedCount tail = 0 := by
    rw [← htail]
    split
    · exact spiTail_usedCount ack s
    · rfl
  obtain ⟨t, ht, hr, hpins⟩ := backendRun_reached outs (inSlots .trn1 false n ++ inSlots .acks true m ++ tail) h hc
  have hused : usedCount (inSlots .trn1 false n ++ inSlots .acks true m ++ tail) = m := by
    rw [usedCount_append, usedCount_append, inSlots_usedCount, inSlots_usedCount, htailUsed]
    simp
  have hrecords : outs.map OutSlot.toCycle ++ slotRecords s 0 (inSlots .trn1 false n ++ inSlots .acks true m ++ tail) =
      (outs.map OutSlot.toCycle ++ runOf .trn1 (released n) ++ runOf .acks (sampled (s.answersFrom 0 m))) ++
        slotRecords s m tail := by
    rw [slotRecords_append, slotRecords_append, inSlots_records_released, inSlots_records_sampled, usedCount_append,
      inSlots_usedCount, inSlots_usedCount]
    simp
  rw [hused, hrecords] at hr
  rw [hused] at ht
  generalize hframe : outs.map OutSlot.toCycle ++ runOf .trn1 (released n) ++ runOf .acks (sampled (s.answersFrom 0 m)) =
    frame at hr
  have hx : restHeader outs n m s = restDispatch (latchAck ack t) := by
    obtain ⟨hsame, -⟩ := hr.registers
    unfold restHeader
    simp only [peekAnswers_eq_answersFrom, hack, htail, ht, Option.bind_some, hsame]
  generalize hv : latchAck ack t = v at hx
  have hcore : v.core = (latchAck ack { s with wire := s.wire ++ frame ++ slotRecords s m tail,
                                               inputs := s.inputs.after m 0, pins := v.pins }).core := by
    have hlatch : v.core = (latchAck ack t.core).core := by rw [← hv]; rfl
    rw [hlatch, hr.core, ← hv, List.append_assoc]
    rfl
  have hspi : v.spi = t.spi := by rw [← hv]; rfl
  have hvpins : v.pins = t.pins := by rw [← hv]; rfl
  have hmode : v.xferMode = s.xferMode := (congrArg State.xferMode hcore :)
  have hvack : v.ack = ack := (congrArg State.ack hcore :)
  have hbits : v.answersFrom 0 33 = s.answersFrom m 33 := by
    refine answersFrom_shift (n := m) (fun j => ?_) 0 33
    rw [← answer_dropAnswers]
    exact answer_eq_of_inputs (congrArg (fun x => State.inputs x |>.answers) hcore :)
      (congrArg (fun x => State.inputs x |>.samples) hcore :) j
  have hframeTail : tailFrame v v.ack (s.answersFrom m 33) = tailFrame s ack (s.answersFrom m 33) := by
    have hself : tailFrame v v.ack (s.answersFrom m 33) = tailFrame v.core v.ack (s.answersFrom m 33) := rfl
    rw [hself, hcore, hvack]
    rfl
  have hrecs : ∀ f, tailRecs v f = tailRecs s f := by
    intro f
    have hself : tailRecs v f = tailRecs v.core f := rfl
    rw [hself, hcore]
    rfl
  have hwire : v.wire = (s.wire ++ frame) ++
      if v.xferMode = .spi then tailRecs v (tailFrame v v.ack (v.answersFrom 0 33)) else [] := by
    have hall : v.wire = s.wire ++ frame ++ slotRecords s m tail := (congrArg State.wire hcore :)
    rw [hall, hmode, hbits, hframeTail, hrecs, ← htail]
    split
    · rw [spiTail_records ack s m (s.answersFrom m 33)]
    · rfl
  have hne : inSlots .trn1 false n ++ inSlots .acks true m ++ tail ≠ [] := by
    intro hnil
    have hlen := congrArg List.length hnil
    simp at hlen
    omega
  have hoe : v.pins.swdioOe = false := by
    rw [hvpins, hpins, pinsAfter]
    exact if_neg hne
  have hready : v.backendReady := fun hm' => by
    rw [hspi]
    exact hr.ready (by rw [hr.xferMode, ← hmode, hm'])
  have hend := restDispatch_ends (s.wire ++ frame) hready (hvpins ▸ hr.high) (.inl hoe) hwire
  rw [hbits] at hend
  have hpath : pathEnd { v with wire := s.wire ++ frame } (s.answersFrom m 33) =
      pathEnd (latchAck ack { s with wire := s.wire ++ frame, inputs := s.inputs.after m 0 }) (s.answersFrom m 33) := by
    refine pathEnd_congr _ ?_ ?_
    · have hself : State.core { v with wire := s.wire ++ frame } = { v.core with wire := s.wire ++ frame } := rfl
      rw [hself, hcore]
      rfl
    · exact (congrArg Pins.swclkOe hvpins).trans hr.swclkOe
  rw [hx]
  refine EndsAs.of_same hmode (fun hm' => hspi.trans (hr.spi hm')) ?_
  rw [hpath, pathEnd_eq_endsWith] at hend
  rw [State.headerLeft, hack, hframe]
  exact hend

/-! The end of a WAIT or FAULT -/

theorem restNak_ends (n m : Nat) (h : s.backendReady) (hc : s.pins.swclkO = true) :
    EndsAs s (restNak n m s) (s.endsWith (s.nakLeft (runOf .dummyR (released n)) m)) := by
  obtain ⟨t, ht, hr, -⟩ := backendRun_reached [] (inSlots .dummyR false n ++ inSlots .trnF false m) h hc
  have hused : usedCount (inSlots .dummyR false n ++ inSlots .trnF false m) = 0 := by
    rw [usedCount_append, inSlots_usedCount, inSlots_usedCount]
    rfl
  have hrecords : slotRecords s 0 (inSlots .dummyR false n ++ inSlots .trnF false m) =
      runOf .dummyR (released n) ++ runOf .trnF (released m) := by
    rw [slotRecords_append, inSlots_records_released, inSlots_records_released]
  rw [hused, hrecords, List.map_nil, List.nil_append] at hr
  obtain ⟨htake, -⟩ := takeLine_reached hr.ready hr.high
  have hline := hr.trans htake
  rw [List.append_nil] at hline
  obtain ⟨hack, -⟩ := hline.registers
  have hcond : ((takeLine t).dataPhase && !(takeLine t).rnw) = (s.dataPhase && !s.rnw) := by
    have hself : ((takeLine t).dataPhase && !(takeLine t).rnw) =
        ((takeLine t).core.dataPhase && !(takeLine t).core.rnw) := rfl
    rw [hself, hline.core]
    rfl
  unfold restNak State.nakLeft
  simp only [ht, Option.bind_some, hcond, hack]
  split
  · obtain ⟨u, hu, hlow, -⟩ := lowRun_reached .dummyW 33 hline.ready hline.high
    rw [hu]
    exact restore_reached_ends _ (hline.trans hlow)
  · rw [List.append_nil]
    exact restore_reached_ends _ hline

end positions

end Sys2Proof.Machine
end

section
/-! PROOFS. The step with no instruction to take up (70_reset_and_hazards.md R300; 10_state.md R26). -/

namespace Sys2Proof.Machine

/-! What is left, position by position -/

section positions

variable {s : State}

/-- Released cycles on either backend. -/
theorem released_reached (p : Phase) (n : Nat) (h : s.backendReady) (hc : s.pins.swclkO = true) :
    ∃ bits t, backendRun [] (inSlots p false n) s = some (bits, t) ∧ Reached s t (runOf p (released n)) 0 := by
  obtain ⟨t, ht, hr, -⟩ := backendRun_reached [] (inSlots p false n) h hc
  rw [inSlots_usedCount, inSlots_records_released] at hr
  exact ⟨_, t, ht, hr⟩

/-- From the trailing turnaround of a read (R132). -/
theorem restTrnR_ends (n : Nat) (h : s.backendReady) (hc : s.pins.swclkO = true) :
    EndsAs s ((backendRun [] (inSlots .trnR false n) s).bind fun (_, s) => restOk (takeLine s))
      (s.endsWith { Remainder.cycles (runOf .trnR (released n) ++ runOf .idlec (lows s.idleCycles.toNat)) s.okRegisters with
        stamped := s.req.getLsbD 7 }) := by
  obtain ⟨bits, t, ht, hr⟩ := released_reached .trnR n h hc
  obtain ⟨htake, hoe⟩ := takeLine_reached hr.ready hr.high
  have hall := hr.trans htake
  rw [List.append_nil] at hall
  rw [ht]
  exact restOk_reached_ends hall fun _ => hoe

/-- From the turnaround before write data (R141). -/
theorem restTrnW_ends (n : Nat) (h : s.backendReady) (hc : s.pins.swclkO = true) :
    EndsAs s ((backendRun [] (inSlots .trnW false n) s).bind fun (_, s) => restWrite 0 1 s)
      (s.endsWith (s.writeLeft (runOf .trnW (released n)) 0)) := by
  obtain ⟨bits, t, ht, hr⟩ := released_reached .trnW n h hc
  rw [ht]
  exact restWrite_ends 0 hr

/-- From the extra cycle of the workaround (44_spi_backend.md R220). -/
theorem restWextra_ends (n : Nat) (h : s.backendReady) (hc : s.pins.swclkO = true) :
    EndsAs s ((lowRun .wextra n s).bind restOk)
      (s.endsWith { Remainder.cycles (runOf .wextra (lows n) ++ runOf .idlec (lows s.idleCycles.toNat)) s.okRegisters with
        stamped := s.req.getLsbD 7 }) := by
  obtain ⟨t, ht, hr, hoe⟩ := lowRun_reached .wextra n h hc
  rw [ht]
  exact restOk_reached_ends hr hoe

/-- From low cycles that end the transaction with a code that the run leaves as it is (R136, R138). -/
theorem restLow_ends (p : Phase) (n : Nat) (code : State → Byte)
    (hcode : ∀ {t w}, Reached s t w 0 → code t = code s) (h : s.backendReady) (hc : s.pins.swclkO = true) :
    EndsAs s ((lowRun p n s).map fun s => restore (code s) s)
      (s.endsWith (.cycles (runOf p (lows n)) { s with result := code s })) := by
  obtain ⟨t, ht, hr, -⟩ := lowRun_reached p n h hc
  rw [ht, Option.map_some, hcode hr]
  exact restore_reached_ends _ hr

/-- From the recovery sequence (R140). -/
theorem restRecov_ends (n : Nat) (h : s.backendReady) (hc : s.pins.swclkO = true) :
    EndsAs s ((backendRun [] (inSlots .recov false n) s).map fun (_, s) => restore errorCode s)
      (s.endsWith (.cycles (runOf .recov (released n)) { s with result := 0x08#8 })) := by
  obtain ⟨bits, t, ht, hr⟩ := released_reached .recov n h hc
  rw [ht]
  exact restore_reached_ends _ hr

/-- From every position inside an XFER. -/
theorem restOfOperation_ends (h : s.backendReady) (hin : s.inOperation) (hseq : s.phase ≠ .seq) :
    EndsAs s (restOfOperation s) (s.endsWith s.remainder) := by
  obtain ⟨hidle, hc, hmost, hleast⟩ := hin
  unfold restOfOperation State.remainder
  cases hp : s.phase with
  | idle => exact absurd hp hidle
  | seq => exact absurd hp hseq
  | req =>
    have hends := restHeader_ends (outSlots .req ((bitsOf (requestByte (requestNibble s.req))).drop (8 - s.bitcnt.toNat)))
      s.turnaround 3 (by decide) h hc
    rwa [outSlots_records] at hends
  | trn1 => exact restHeader_ends [] s.bitcnt.toNat 3 (by decide) h hc
  | acks => exact restHeader_ends [] 0 s.bitcnt.toNat (hleast.resolve_left (by rw [hp]; nofun)) h hc
  | rdata => exact restRead_ends s.bitcnt.toNat h hc
  | rpar =>
    have hone : s.bitcnt.toNat = 1 := by
      rw [hp] at hmost hleast
      exact Nat.le_antisymm hmost (hleast.resolve_left nofun)
    simp only [hone]
    exact restRead_ends 0 h hc
  | trnR => exact restTrnR_ends _ h hc
  | trnW => exact restTrnW_ends _ h hc
  | wdata => exact restWrite_ends _ (.refl h hc)
  | wpar =>
    have hone : s.bitcnt.toNat = 1 := by
      rw [hp] at hmost hleast
      exact Nat.le_antisymm hmost (hleast.resolve_left nofun)
    simp only [hone]
    exact restWrite_ends 32 (.refl h hc)
  | wextra => exact restWextra_ends _ h hc
  | idlec =>
    refine restLow_ends .idlec _ okCode (fun hr => ?_) h hc
    obtain ⟨-, -, -, hperr⟩ := hr.registers
    rw [okCode, hperr, okCode]
  | dummyR => exact restNak_ends _ _ h hc
  | trnF => exact restNak_ends 0 _ h hc
  | dummyW =>
    refine restLow_ends .dummyW _ (fun s => s.ack.setWidth 8) (fun hr => ?_) h hc
    obtain ⟨hack, -⟩ := hr.registers
    rw [hack]
  | recov => exact restRecov_ends _ h hc

/-- From every position inside a SEQ (42_sequence_and_config.md R162, R163). -/
theorem restOfSeq_resumed (h : s.backendReady) (hin : s.inOperation) (hseq : s.phase = .seq) :
    ∃ t, restOfOperation s = some t ∧ t = s.resumed t ∧ (s.xferMode ≠ .spi → t.spi = s.spi) := by
  obtain ⟨-, hc, hmost, hleast⟩ := hin
  rw [hseq] at hmost hleast
  have hone : 1 ≤ s.bitcnt.toNat := hleast.resolve_left nofun
  have hle : s.bitcnt.toNat ≤ s.seqLen.toNat := hmost
  obtain ⟨t, ht, hr, hpins⟩ :=
    backendRun_reached (outSlots .seq ((seqBits s).drop (s.seqLen.toNat - s.bitcnt.toNat))) [] h hc
  have hbits : (outSlots .seq ((seqBits s).drop (s.seqLen.toNat - s.bitcnt.toNat))).map OutSlot.bit =
      (seqBits s).drop (s.seqLen.toNat - s.bitcnt.toNat) := outSlots_bits _ _
  have hlast : ((seqBits s).drop (s.seqLen.toNat - s.bitcnt.toNat)).getLastD true =
      s.seqBuf.getLsbD (s.seqLen.toNat - 1) := by
    rw [← range_map_getLastD (Nat.le_trans hone hle) s.seqBuf.getLsbD, List.getLastD_eq_getLast?, List.getLast?_drop,
      if_neg (by simp [seqBits]; omega), ← List.getLastD_eq_getLast?]
    rfl
  have hne : outSlots .seq ((seqBits s).drop (s.seqLen.toNat - s.bitcnt.toNat)) ≠ [] := by
    intro hnil
    have hlen := congrArg List.length hnil
    simp [seqBits] at hlen
    omega
  have hrest : restOfOperation s = some (finish statusDone t) := by
    unfold restOfOperation
    simp only [hseq, ht, Option.map_some]
  refine ⟨finish statusDone t, hrest, ?_, fun hm => hr.spi hm⟩
  have hrestPins : t.pins = s.restPins := by
    rw [hpins, pinsAfter, hbits, hlast, if_neg hne, if_neg hne, if_pos rfl, if_neg fun h => hne h.1, State.restPins,
      if_pos hseq]
  have hremainder : s.remainder = .cycles (runOf .seq (driven ((seqBits s).drop (s.seqLen.toNat - s.bitcnt.toNat))))
      { s with result := 0x00#8 } := by
    unfold State.remainder
    rw [hseq]
  have hcore : (finish statusDone t).core = (s.resumed s).core := by
    have hself : (finish statusDone t).core = { t.core with result := 0x00#8 } := rfl
    rw [hself, hr.core, hrestPins, outSlots_records, slotRecords, List.append_nil, State.resumed, hremainder]
    rfl
  exact (eq_of_core_eq hcore).trans rfl

end positions

/-! The step -/

/-- What is left does not depend on the peripheral's registers. -/
theorem endsWith_withSpi (s : State) (p : Spi) :
    State.endsWith { s with spi := p } (State.remainder { s with spi := p }) = s.endsWith s.remainder := by
  have hsettled : ∀ ack bits, State.settled { s with spi := p } ack bits = { s.settled ack bits with spi := p } := by
    intro ack bits
    have hrnw : State.rnw { s with spi := p } = s.rnw := rfl
    simp only [State.settled, hrnw]
    cases ackClass ack with
    | ok => cases s.rnw <;> rfl
    | wait | fault | error => rfl
  have hheader : ∀ before m, State.endsWith { s with spi := p } (State.headerLeft { s with spi := p } before m) =
      s.endsWith (s.headerLeft before m) := by
    intro before m
    simp only [State.headerLeft, hsettled]
    rfl
  unfold State.remainder
  cases hp : s.phase with
  | req | trn1 | acks =>
    simp only
    rw [← hp]
    exact hheader _ _
  | idle | rdata | rpar | trnR | trnW | wdata | wpar | wextra | idlec | dummyR | trnF | dummyW | recov | seq =>
    rfl

/-- A position inside an operation, run to its end once the peripheral has finished its shift (log 14). -/
theorem resume_resumed {s : State} (hin : s.inOperation) :
    ∃ t, resume s = .next t ∧ t = s.resumed t ∧ (s.xferMode ≠ .spi → t.spi = s.spi) := by
  obtain ⟨hready, -, -⟩ := shiftFinished_spec s
  obtain ⟨p, hfin, hsame⟩ := shiftFinished_eq s
  have hin' : (shiftFinished s).inOperation := by
    rw [hfin]
    exact hin
  by_cases hseq : s.phase = .seq
  · obtain ⟨t, ht, hresumed, hspi⟩ := restOfSeq_resumed hready hin' (by rw [hfin]; exact hseq)
    refine ⟨t, by rw [resume, ht]; rfl, ?_, fun hm => ?_⟩
    · rw [hfin] at hresumed
      have hremainder : State.remainder { s with spi := p } = { s.remainder with
          registers := { s.remainder.registers with spi := p } } := by
        unfold State.remainder
        simp only [hseq]
        rfl
      rw [State.resumed, hremainder] at hresumed
      exact hresumed.trans rfl
    · rw [hfin] at hspi
      exact (hspi hm).trans (hsame hm)
  · obtain ⟨t, ht, hcore, hphase, hbitcnt, hspi⟩ := restOfOperation_ends hready hin' (by rw [hfin]; exact hseq)
    rw [hfin] at hspi hcore
    rw [endsWith_withSpi] at hcore
    exact ⟨t, by rw [resume, ht]; rfl, eq_resumed hseq hcore hphase hbitcnt, fun hm => (hspi hm).trans (hsame hm)⟩

/-! The phases that begin with an item -/

/-- A transaction concluded from its header is what was left of it. -/
theorem concluded_eq_resumed {s t : State} {before frame : List CycleRec} (hseq : s.phase ≠ .seq)
    (hremainder : s.remainder = s.headerLeft before 3)
    (hframe : frame = before ++ runOf .acks (sampled (s.answersFrom 0 3)) ++ tailFrame s s.nextAck (s.answersFrom 3 33)) :
    s.concluded s.nextAck (s.answersFrom 3 33) frame t = s.resumed t := by
  have hack : joinBits s.ack (s.answersFrom 0 3) = s.nextAck := joinBits_full _ _ (answersFrom_length s 0 3)
  have hsamples : 3 + s.samplesTaken s.nextAck - 3 = s.samplesTaken s.nextAck := Nat.add_sub_cancel_left _ _
  have hpins : s.restPins = s.pins.restored := if_neg hseq
  rw [State.concluded, State.resumed, hremainder, State.headerLeft, hack, hpins, hframe]
  simp only [hsamples]

theorem extractLsb'_append_requestNibble : ∀ b : Byte, b.extractLsb' 4 4 ++ requestNibble b = b := by decide

theorem step_req {s : State} (hp : s.phase = .req) (hb : s.bitcnt = 8#9) :
    ∃ t, step s = .next t ∧ t = s.resumed t ∧ (s.xferMode ≠ .spi → t.spi = s.spi) := by
  obtain ⟨-, hstep, -⟩ := stepRunsTheDecodedInstruction
  obtain ⟨t, ht, hc, hspi⟩ := requestItemsRunTheTransaction (requestNibble s.req) _ s s (.inl rfl) hp
    (by rw [extractLsb'_append_requestNibble])
  refine ⟨t, (hstep s hp hb).trans ht, hc.trans (concluded_eq_resumed
    (before := runOf .req (driven (bitsOf (requestByte (requestNibble s.req)))) ++ runOf .trn1 (released s.turnaround))
    (by rw [hp]; nofun) ?_ rfl), hspi⟩
  unfold State.remainder
  rw [hp, hb]
  rfl

theorem step_acks {s : State} (hp : s.phase = .acks) (hb : s.bitcnt = 3#9) :
    ∃ t, step s = .next t ∧ t = s.resumed t ∧ (s.xferMode ≠ .spi → t.spi = s.spi) := by
  obtain ⟨-, -, hstep, -⟩ := stepRunsTheDecodedInstruction
  obtain ⟨t, ht, hc, hspi⟩ := acknowledgeItemsSelectThePath s.nextAck s hp
  have hbits : bitsOf s.nextAck = s.answersFrom 0 3 := bitsOf_nextAck s
  refine ⟨t, (hstep s hp hb).trans ht, hc.trans (concluded_eq_resumed (before := []) (by rw [hp]; nofun) ?_ ?_), hspi⟩
  · unfold State.remainder
    rw [hp, hb]
    rfl
  · rw [hbits, List.nil_append]

theorem step_rdata {s : State} (hc : s.pins.swclkO = true) (hp : s.phase = .rdata) (hb : s.bitcnt = 32#9) :
    ∃ t, step s = .next t ∧ t = s.resumed t ∧ (s.xferMode ≠ .spi → t.spi = s.spi) := by
  obtain ⟨-, -, -, hstep, -⟩ := stepRunsTheDecodedInstruction
  obtain ⟨t, ht, hend, hspi⟩ := dataItemIsReceived (ofBits 32 ((s.answersFrom 0 33).take 32)) (s.answer 32) s hp hc
  refine ⟨t, (hstep s hp hb).trans ht, hend.trans ?_, hspi⟩
  have hremainder : s.remainder = s.readLeft 32 := by
    unfold State.remainder
    rw [hp, hb]
    rfl
  have hpins : s.restPins = s.pins.restored := if_neg (by rw [hp]; nofun)
  have htake : (s.answersFrom 0 33).take 32 = s.answersFrom 0 32 := answersFrom_take s 0 32 1
  have hdrop : (s.answersFrom 0 33).drop 32 = s.answersFrom 32 1 := (answersFrom_drop s 0 32 1).trans rfl
  have hword : joinBits s.rdata (s.answersFrom 0 32) = ofBits 32 ((s.answersFrom 0 33).take 32) := by
    rw [htake, joinBits_full _ _ (answersFrom_length s 0 32)]
  rw [← answersFrom_zero_eq_data33Bits, State.resumed, hremainder, hpins, readFrame, State.readLeft, hword, hdrop]
  simp only [htake, State.okRegisters]
  cases s.answer 32 <;> cases par32 (ofBits 32 (s.answersFrom 0 32)) <;> rfl

theorem step_wdata {s : State} (hc : s.pins.swclkO = true) (hp : s.phase = .wdata) (hb : s.bitcnt = 32#9) :
    ∃ t, step s = .next t ∧ t = s.resumed t ∧ (s.xferMode ≠ .spi → t.spi = s.spi) := by
  obtain ⟨-, -, -, -, hstep⟩ := stepRunsTheDecodedInstruction
  obtain ⟨t, ht, hend, hspi⟩ := dataItemIsSent s.wdata (par32 s.wdata) s hp hc
  refine ⟨t, (hstep s hp hb).trans ht, hend.trans ?_, hspi⟩
  have hremainder : s.remainder = s.writeLeft [] 0 := by
    unfold State.remainder
    rw [hp, hb]
    rfl
  have hpins : s.restPins = s.pins.restored := if_neg (by rw [hp]; nofun)
  rw [State.resumed, hremainder, hpins]
  rfl

/-- Past the start of a phase, and in the phases without an item, what is left of the operation runs. -/
theorem step_inside {s : State} (hidle : s.phase ≠ .idle) (hreq : s.phase = .req → s.bitcnt ≠ 8#9)
    (hacks : s.phase = .acks → s.bitcnt ≠ 3#9) (hrdata : s.phase = .rdata → s.bitcnt ≠ 32#9)
    (hwdata : s.phase = .wdata → s.bitcnt ≠ 32#9) : step s = resume s := by
  have hfetch : fetch s = .rest := by
    unfold fetch
    cases hp : s.phase with
    | idle => exact absurd hp hidle
    | req => exact if_neg (hreq hp)
    | acks => exact if_neg (hacks hp)
    | rdata => exact if_neg (hrdata hp)
    | wdata => exact if_neg (hwdata hp)
    | trn1 | rpar | trnR | trnW | wpar | wextra | idlec | dummyR | trnF | dummyW | recov | seq => rfl
  rw [step, hfetch]

/-- Settles O8: at the start of the four phases that have one the item is fetched and the transaction runs from it; at every
other position inside an operation what is left of it runs. -/
theorem stepWaitsStopsOrGoesOn : Obligations.StepWaitsStopsOrGoesOn := by
  refine ⟨fun s hp hcmd => ?_, fun s e hp hcmd hbad => ?_, fun s hin => ?_⟩
  · have hfetch : fetch s = .nothing := by
      unfold fetch
      rw [hp]
      exact if_pos hcmd
    rw [step, hfetch]
  · have hfetch : fetch s = .none .truncatedCommand := by
      unfold fetch
      rw [hp]
      refine (if_neg hcmd).trans ?_
      rw [hbad]
    rw [step, hfetch]
  · have hresume := resume_resumed hin
    obtain ⟨hidle, hclk, -⟩ := hin
    by_cases hreq : s.phase = .req ∧ s.bitcnt = 8#9
    · obtain ⟨hp, hb⟩ := hreq
      exact step_req hp hb
    by_cases hacks : s.phase = .acks ∧ s.bitcnt = 3#9
    · obtain ⟨hp, hb⟩ := hacks
      exact step_acks hp hb
    by_cases hrdata : s.phase = .rdata ∧ s.bitcnt = 32#9
    · obtain ⟨hp, hb⟩ := hrdata
      exact step_rdata hclk hp hb
    by_cases hwdata : s.phase = .wdata ∧ s.bitcnt = 32#9
    · obtain ⟨hp, hb⟩ := hwdata
      exact step_wdata hclk hp hb
    rw [step_inside hidle (not_and.mp hreq) (not_and.mp hacks) (not_and.mp hrdata) (not_and.mp hwdata)]
    exact hresume

end Sys2Proof.Machine
end
